-- ==== Sys2Proof/Word.lean ====
section
/-! DEFINITION. The two word types: a byte of a frame, packet or record, and a 16-byte key. -/

namespace Sys2Proof

/-- One character or stored byte (11_formats). -/
abbrev Byte := BitVec 8

/-- A key: 16 bytes that the unit carries and does not interpret (00_scope, section 4). Its bytes are
those of the number, least significant first. -/
abbrev Key := BitVec 128

end Sys2Proof
end

