-- ==== Sys2Proof/Syntax.lean ====
section
/-! DEFINITION. The commands: one constructor per row of opcode_table.json, with what the step takes from
outside the unit as its operands. A request's fields are not operands of its command: they came in the
request's frame and stand in the request holder (R165; log 1). -/

namespace Sys2Proof

/-- The levels on the four strap pins (R175). -/
structure Straps where
  /-- UNIT-ADDRESS, 0 to 31 -/
  unitAddress : Fin 32
  primary : Bool
  /-- LINK-RATE: `true` is 460,800 bit/s (R160) -/
  linkRate : Bool
  load : Bool
  deriving DecidableEq, Repr

/-- The levels other parts put on the insertion bus lines of this unit (06_the_insertion_bus), `true`
for asserted (log 7). -/
structure BusLines where
  /-- DRIVE asserted by another unit; the line is asserted when this or the unit's own output is -/
  drive : Bool
  /-- READY, from the multiplexer -/
  ready : Bool
  /-- REQ 1 to 3, seen by a primary -/
  req1 : Bool
  req2 : Bool
  req3 : Bool
  /-- GNT, seen by a secondary -/
  gnt : Bool
  deriving DecidableEq, Repr

/-- The commands. `upset` lists the slots whose SRAM contents have been corrupted by the moment of a store
operation (R32, log 10). `order` lists the events whose deadline steps are taken first at a second, in
that order; the others follow in event-number order (R143, log 6). `pins` are the strap pins at the
moment of a reset (R175). -/
inductive Instr where
  /-- HARDWARE_RESET, R182 -/
  | hardwareReset (pins : Straps)
  /-- SETTINGS_LOAD_END, R180: whether the EEPROM acknowledged its address and every read -/
  | settingsLoadEnd (acknowledged : Bool)
  /-- SAVE_DONE, R181: how many of the 23 bytes the EEPROM acknowledged -/
  | saveDone (acknowledged : Nat)
  /-- ADDRESS_CHARACTER, R162 -/
  | addressCharacter (value : Byte)
  /-- CHARACTER_FAILURE, R163 -/
  | characterFailure
  /-- LENGTH_FAILURE, R163: the length character -/
  | lengthFailure (length : Byte)
  /-- GAP_FAILURE, R163 -/
  | gapFailure
  /-- LINE_BREAK, R164 -/
  | lineBreak
  /-- REQUEST_FRAME, R165: the characters after the address character, length to CRC -/
  | requestFrame (characters : List Byte)
  /-- REPLY_COMPLETE, R165 -/
  | replyComplete (pins : Straps)
  /-- UNIT_ID, R169 -/
  | unitId
  /-- UNIT_STATUS, R169 -/
  | unitStatus (lines : BusLines)
  /-- COUNTERS_READ, R170 -/
  | countersRead
  /-- NOTICE_FETCH, R173 -/
  | noticeFetch
  /-- NOTICE_ACK, R174 -/
  | noticeAck
  /-- UNIT_RESET, R168 -/
  | unitReset (pins : Straps)
  /-- CONFIG_READ, R177 -/
  | configRead
  /-- CONFIG_WRITE, R178 -/
  | configWrite
  /-- SETTINGS_SAVE, R181 -/
  | settingsSave
  /-- NIGHT_OPEN, R153 -/
  | nightOpen
  /-- NIGHT_CLOSE, R156 -/
  | nightClose
  /-- BUS_CLEAR, R133 -/
  | busClear (lines : BusLines)
  /-- EVENT_DEFINE, R19 -/
  | eventDefine
  /-- EVENT_READ, R20 -/
  | eventRead
  /-- EVENT_HOLD, R21 -/
  | eventHold
  /-- EVENT_CANCEL, R22 -/
  | eventCancel
  /-- EVENT_CLEAR, R23 -/
  | eventClear
  /-- BLACKOUT_ADD, R25 -/
  | blackoutAdd
  /-- BLACKOUT_REMOVE, R26 -/
  | blackoutRemove
  /-- KEY_LOAD, R105 -/
  | keyLoad
  /-- EPOCH_SELECT, R107 -/
  | epochSelect
  /-- GRANT_ADD, R48 -/
  | grantAdd
  /-- GRANT_REVOKE, R53 -/
  | grantRevoke
  /-- GRANT_QUERY, R55 -/
  | grantQuery
  /-- REQUEST_STORE_OPERATION, R47 -/
  | requestStoreOperation (upset : List Nat)
  /-- SECOND_PULSE, R139: milliseconds since the latest moment of the unit's timer (log 4) -/
  | secondPulse (elapsed : Nat) (order : List Nat)
  /-- FLYWHEEL_ENTRY, R140 -/
  | flywheelEntry (order : List Nat)
  /-- FLYWHEEL_SECOND, R140 -/
  | flywheelSecond (order : List Nat)
  /-- CYCLE_TICK, R77 -/
  | cycleTick
  /-- COMPOSITION_ATTEMPT, R80 -/
  | compositionAttempt
  /-- URGENT_DEQUEUE, R85 -/
  | urgentDequeue (upset : List Nat)
  /-- FRESH_DEQUEUE, R86 -/
  | freshDequeue (upset : List Nat)
  /-- REFRESH_READ, R88 -/
  | refreshRead (upset : List Nat)
  /-- ARBITER_GRANT, R129 -/
  | arbiterGrant (lines : BusLines)
  /-- PACKET_START, R124 -/
  | packetStart (lines : BusLines)
  /-- GRANT_TAKEN, R129 -/
  | grantTaken (lines : BusLines)
  /-- GRANT_END, R129 -/
  | grantEnd (lines : BusLines)
  /-- GRANT_TIMEOUT, R129 -/
  | grantTimeout (lines : BusLines)
  /-- ARBITER_FAULT, R130 -/
  | arbiterFault (lines : BusLines)
  /-- SEND_END, R125 -/
  | sendEnd
  /-- GRANT_COMPLETION_UPDATE, R97 -/
  | grantCompletionUpdate (upset : List Nat)
  /-- REVOKE_COMPLETION_UPDATE, R98 -/
  | revokeCompletionUpdate (upset : List Nat)
  /-- SWEEP_VISIT, R60 -/
  | sweepVisit (upset : List Nat)
  /-- WIPE_START, R72 -/
  | wipeStart
  /-- WIPE_WRITE, R73 -/
  | wipeWrite
  /-- SCRAMBLER_READY, R118: the new level of READY -/
  | scramblerReady (level : Bool)
  /-- SCRAMBLER_ACCEPT, R118 -/
  | scramblerAccept
  deriving DecidableEq, Repr

end Sys2Proof
end

