-- ==== Sys2Proof/WellFormed.lean ====
section
/-! DEFINITION. When a command could come from outside the unit: the bounds its operands have. -/

namespace Sys2Proof

/-- The largest slot space has 262,144 slots (R27). -/
def Instr.slotsWf (upset : List Nat) : Bool := upset.all (fun n => decide (n < 262144))

/-- Event numbers run from 0 to 31 (R1). -/
def Instr.orderWf (order : List Nat) : Bool := order.all (fun n => decide (n < 32))

/-- A frame holds 6 to 256 characters with its address character (R161). -/
def Instr.charactersWf (characters : List Byte) : Bool :=
  decide (5 ≤ characters.length) && decide (characters.length ≤ 255)

/-- A stored record has 23 bytes with its CRC (R186). -/
def Instr.acknowledgedWf (n : Nat) : Bool := decide (n ≤ 23)

/-- The bounds of each command's operands. -/
def Instr.wf : Instr → Bool
  | .hardwareReset _ => true
  | .settingsLoadEnd _ => true
  | .saveDone n => Instr.acknowledgedWf n
  | .addressCharacter _ => true
  | .characterFailure => true
  | .lengthFailure _ => true
  | .gapFailure => true
  | .lineBreak => true
  | .requestFrame cs => Instr.charactersWf cs
  | .replyComplete _ => true
  | .unitId => true
  | .unitStatus _ => true
  | .countersRead => true
  | .noticeFetch => true
  | .noticeAck => true
  | .unitReset _ => true
  | .configRead => true
  | .configWrite => true
  | .settingsSave => true
  | .nightOpen => true
  | .nightClose => true
  | .busClear _ => true
  | .eventDefine => true
  | .eventRead => true
  | .eventHold => true
  | .eventCancel => true
  | .eventClear => true
  | .blackoutAdd => true
  | .blackoutRemove => true
  | .keyLoad => true
  | .epochSelect => true
  | .grantAdd => true
  | .grantRevoke => true
  | .grantQuery => true
  | .requestStoreOperation u => Instr.slotsWf u
  | .secondPulse _ o => Instr.orderWf o
  | .flywheelEntry o => Instr.orderWf o
  | .flywheelSecond o => Instr.orderWf o
  | .cycleTick => true
  | .compositionAttempt => true
  | .urgentDequeue u => Instr.slotsWf u
  | .freshDequeue u => Instr.slotsWf u
  | .refreshRead u => Instr.slotsWf u
  | .arbiterGrant _ => true
  | .packetStart _ => true
  | .grantTaken _ => true
  | .grantEnd _ => true
  | .grantTimeout _ => true
  | .arbiterFault _ => true
  | .sendEnd => true
  | .grantCompletionUpdate u => Instr.slotsWf u
  | .revokeCompletionUpdate u => Instr.slotsWf u
  | .sweepVisit u => Instr.slotsWf u
  | .wipeStart => true
  | .wipeWrite => true
  | .scramblerReady _ => true
  | .scramblerAccept => true

end Sys2Proof
end

