-- ==== Sys2Proof/Decode.lean ====
section
/-! DEFINITION. Commands that a word spells. No row of opcode_table.json gives bits ("fields" and "fixed"
are absent from all 57 rows), so no word spells a command. -/

namespace Sys2Proof

/-- The command a word of `nbits` bits spells by the table's bits: none, for every word. -/
def decodeTableWord (_nbits _w : Nat) : Option Instr := none

end Sys2Proof
end

