-- ==== Sys2Proof/Config.lean ====
section
/-! DEFINITION. The configuration record of R176 and its defaults, and the model's one free value. -/

namespace Sys2Proof.Machine

/-- A set of requester pairs, any subset of {1, 2, 3} (R176, field 13). -/
structure PairSet where
  pair1 : Bool
  pair2 : Bool
  pair3 : Bool
  deriving DecidableEq, Repr

/-- The configuration record (R176). The field numbers are the indices of R176. -/
structure ConfigRecord where
  /-- field 1 -/
  bankA : Nat
  /-- field 2 -/
  bankB : Nat
  /-- field 3, C -/
  cycleLength : Nat
  /-- field 4, U -/
  urgentShare : Nat
  /-- field 5, F -/
  freshShare : Nat
  /-- field 6 -/
  confirmCount : Nat
  /-- field 7 -/
  revokeCount : Nat
  /-- field 8, k -/
  heldInterval : Nat
  /-- field 9 -/
  stateRepeat : Nat
  /-- field 10 -/
  announceMinimum : Nat
  /-- field 11, seconds -/
  shortEpoch : Nat
  /-- field 12, seconds -/
  longEpoch : Nat
  /-- field 13 -/
  pairs : PairSet
  deriving DecidableEq, Repr

/-- No pair in service. -/
def PairSet.none : PairSet := { pair1 := false, pair2 := false, pair3 := false }

/-- The default record of R176, held after hardware reset when no load is made or the load fails. -/
def ConfigRecord.default : ConfigRecord :=
  { bankA := 16384, bankB := 0, cycleLength := 512, urgentShare := 64, freshShare := 256,
    confirmCount := 3, revokeCount := 4, heldInterval := 8, stateRepeat := 16,
    announceMinimum := 8, shortEpoch := 10, longEpoch := 60, pairs := PairSet.none }

/-- What a reply returns of a count that has passed the range the manual gives it: the manual states no value, and
nothing is known of this one (R1, R13, R56; log 19). -/
opaque freeCount : Nat → BitVec 32

end Sys2Proof.Machine
end

