-- ==== Sys2Proof/Machine/State.lean ====
section
/-! DEFINITION. The unit's state: every piece of state INVENTORY.md lists under "## State", as plain data,
block by block (00_scope, section 2.1), and the state after reset. What the manual derives from other
state (effective close, lock, earliest-deadline report, request and DRIVE outputs, presentation,
EVENT-ATTENTION, ATTENTION) is a function in Ops.lean, not a field (log 26). -/

namespace Sys2Proof.Machine

/-- Night states (R148). -/
inductive NightState where
  | starting | setup | opened | closing
  deriving DecidableEq, Repr

/-- Sources of seconds (R137). -/
inductive ClockSource where
  | stopped | reference | flywheel
  deriving DecidableEq, Repr

/-- The free-running millisecond timer (R182, section 4.2), in milliseconds since hardware reset. -/
structure Timer where
  /-- the latest moment taken -/
  now : Nat
  /-- the moment of the latest 250 ms cycle tick -/
  cycleTickAt : Nat
  deriving DecidableEq, Repr

/-- The night clock (R137). -/
structure NightClock where
  clock : Nat
  source : ClockSource
  /-- moment of the last pulse taken or flywheel second supplied -/
  lastTick : Option Nat
  /-- moment of the last pulse taken, or of NIGHT-OPEN -/
  lastPulse : Option Nat
  deriving DecidableEq, Repr

/-- Results of the last settings save (R177). -/
inductive SaveResult where
  | none | ok | failed
  deriving DecidableEq, Repr

/-- Results of the last load (R177). -/
inductive LoadResult where
  | notLoaded | loading | ok | noAck | badCrc | badField
  deriving DecidableEq, Repr

/-- What the EEPROM holds (R181, R186; log 12): 23 known bytes, or the remains of a save that a reset cut
short. -/
inductive EepromCopy where
  | stored (bytes : List Byte)
  | cutShort
  deriving DecidableEq, Repr

/-- The settings block (R177). The save state is SAVING exactly while `save` holds a record. -/
structure Settings where
  record : ConfigRecord
  save : Option ConfigRecord
  lastSave : SaveResult
  lastLoad : LoadResult
  eeprom : EepromCopy
  deriving DecidableEq, Repr

/-- Event states (R1). -/
inductive EventState where
  | empty | scheduled | onSale | preview | live | overtime | closed | cancelled | retired
  deriving DecidableEq, Repr

/-- Kinds of hold (R3). -/
inductive HoldKind where
  | firm | tentative
  deriving DecidableEq, Repr

/-- A hold (R1). -/
structure Hold where
  time : Nat
  kind : HoldKind
  deriving DecidableEq, Repr

/-- A range of region codes (R1). -/
structure Range where
  low : Nat
  high : Nat
  deriving DecidableEq, Repr

/-- The definition fields of a record that is not EMPTY (R1). -/
structure Window where
  service : Nat
  saleOpen : Nat
  previewStart : Option Nat
  liveStart : Nat
  scheduledClose : Nat
  deriving DecidableEq, Repr

/-- The six counts of an event (R13). -/
structure Counts where
  admitted : Nat
  live : Nat
  revoked : Nat
  retired : Nat
  lost : Nat
  reinstated : Nat
  deriving DecidableEq, Repr

/-- The sweep marks (R15); `true` is present. -/
structure Marks where
  cancel : Bool
  retire : Bool
  blackout : Bool
  deriving DecidableEq, Repr

/-- The key fields (R103). -/
structure KeyFields where
  epoch : Nat
  current : Option Key
  next : Option Key
  onDeck : Option Key
  announceCount : Nat
  epochStart : Option Nat
  length : Option Nat
  keyLate : Bool
  deriving DecidableEq, Repr

/-- An event record (R1). Its number is its position in the table. -/
structure EventRecord where
  state : EventState
  window : Option Window
  hold : Option Hold
  blackout : List Range
  repeatsOwed : Nat
  counts : Counts
  marks : Marks
  /-- event causes pending: STATE-CHANGED 0, KEY-LATE 1, KEY-LOW 2, SWEEP-DONE 3 (R17, R184) -/
  causes : BitVec 4
  keys : KeyFields
  deriving DecidableEq, Repr

/-- Epoch selections (R107). -/
inductive EpochSelection where
  | short | long
  deriving DecidableEq, Repr

/-- What a scrambler record carries (R117); its parity is that of the epoch. -/
inductive ScramblerPayload where
  | switch (service epoch : Nat) (key : Key)
  | clear (service : Nat)
  deriving DecidableEq, Repr

/-- A record in the scrambler queue, with the event it belongs to (R117). -/
structure ScramblerRecord where
  event : Nat
  payload : ScramblerPayload
  deriving DecidableEq, Repr

/-- The scrambler port (R117, R118). -/
structure ScramblerPort where
  /-- oldest first -/
  queue : List ScramblerRecord
  /-- the level of the scramblers' READY -/
  ready : Bool
  deriving DecidableEq, Repr

/-- Slot states (R30). -/
inductive SlotState where
  | empty | pending | announced | held | revoking | vacant | damaged
  deriving DecidableEq, Repr

/-- Kinds of grant (R29). -/
inductive GrantKind where
  | purchased | complimentary
  deriving DecidableEq, Repr

/-- Revoke reasons (R29). -/
inductive RevokeReason where
  | customer | blackout | cancelled
  deriving DecidableEq, Repr

/-- Queue marks (R29). -/
inductive QueueMark where
  | none | fresh | urgent
  deriving DecidableEq, Repr

/-- The fields of a slot that are absent together in EMPTY and DAMAGED slots (R29, R33). -/
structure Grant where
  decoder : Nat
  event : Nat
  kind : GrantKind
  region : Nat
  admittedAt : Nat
  deriving DecidableEq, Repr

/-- A slot record (R29). -/
structure Slot where
  state : SlotState
  grant : Option Grant
  emissions : Nat
  reason : Option RevokeReason
  mark : QueueMark
  deriving DecidableEq, Repr

/-- A slot as the SRAM holds it: the record, and whether its stored check byte is the one computed from the
slot number and the record (R32; log 10). -/
structure Cell where
  slot : Slot
  checkGood : Bool
  deriving DecidableEq, Repr

/-- The slot memory: (slot number, cell), strictly rising, no entry equal to what an unlisted slot reads
as (log 9). -/
abbrev Memory := List (Nat × Cell)

/-- The grant store (R27, R35). -/
structure GrantStore where
  /-- bank A size in force -/
  sizeA : Nat
  /-- bank B size in force -/
  sizeB : Nat
  /-- slots drawn -/
  drawn : Nat
  /-- damaged slots -/
  damaged : Nat
  memory : Memory
  deriving DecidableEq, Repr

/-- Kinds of event sweep (R56). -/
inductive SweepKind where
  | cancel | retire | blackout
  deriving DecidableEq, Repr

/-- Contents of a completion tag (R92). -/
inductive TagContent where
  | key (event : Nat) (nextEpoch : Option Nat)
  | state (event : Nat) (carried : EventState)
  | grant (slot decoder event : Nat)
  | revoke (slot decoder event : Nat)
  deriving DecidableEq, Repr

/-- A completion tag (R92): the cycle its packet was composed in, and whether it has been voided. -/
structure Tag where
  cycle : Nat
  content : TagContent
  voided : Bool
  deriving DecidableEq, Repr

/-- To whom the store port is granted (R43). A visit carries the sweep kind and the blackout list it was
granted under (R61, R65), and whether a conversion or a restart has begun a new lap since (R67, R68; log 13). -/
inductive PortState where
  | idle
  | composition
  | completion
  | request
  | visit (kind : SweepKind) (ranges : List Range) (overtaken : Bool)
  | wipeWrite
  deriving DecidableEq, Repr

/-- The store port arbiter and the claims waiting at it (R43). While the port is granted to a completion
update, that update is the head of `completions`. -/
structure StorePort where
  state : PortState
  composition : Bool
  /-- completion updates, in the order in which their sends completed -/
  completions : List Tag
  request : Bool
  sweep : Bool
  deriving DecidableEq, Repr

/-- A running event sweep (R56). -/
structure Sweep where
  kind : SweepKind
  event : Nat
  start : Nat
  cursor : Nat
  visited : Nat
  changed : Nat
  deriving DecidableEq, Repr

/-- The engine state with the fields present in it (R56). -/
inductive EngineState where
  | idle
  | wiping (cursor : Nat)
  | sweeping (sweep : Sweep)
  deriving DecidableEq, Repr

/-- The sweep engine (R56). -/
structure SweepEngine where
  engine : EngineState
  lastServed : Nat
  /-- a NIGHT-CLOSE has asked for a WIPE that has not yet started (R72) -/
  wipePending : Bool
  deriving DecidableEq, Repr

/-- Carousel states (R76). -/
inductive CarouselState where
  | stopped | waiting | running
  deriving DecidableEq, Repr

/-- An entry of the owed event-message list (R78). -/
inductive OwedEntry where
  | key (event : Nat)
  | state (event : Nat)
  deriving DecidableEq, Repr

/-- Where a composition attempt stands: none in progress, or the step of R81 whose store read is claimed or
granted. `refresh n` has made `n` reads (R90). -/
inductive Attempt where
  | none
  | urgentShare
  | freshShare
  | refresh (reads : Nat)
  | urgentRest
  | freshRest
  deriving DecidableEq, Repr

/-- The carousel (R76). -/
structure Carousel where
  run : CarouselState
  composed : Nat
  finished : Nat
  urgentComposed : Nat
  freshComposed : Nat
  owed : List OwedEntry
  /-- fresh queue, oldest first -/
  fresh : List Nat
  /-- urgent queue, oldest first -/
  urgent : List Nat
  /-- refresh cursor -/
  cursor : Nat
  /-- pass number -/
  pass : Nat
  attempt : Attempt
  /-- an attempt of the running cycle has reached step 7 (R80) -/
  exhausted : Bool
  /-- number of the running cycle, for the completion tags (R79, R92) -/
  cycle : Nat
  deriving DecidableEq, Repr

/-- Broadcast messages (R93, R94, R95). -/
inductive Message where
  | key (service event currentEpoch : Nat) (current : Option Key) (next : Option (Nat × Key))
      (openView : Bool)
  | state (service event : Nat) (carried : EventState) (liveStart effectiveClose : Nat)
      (ranges : List Range)
  | grant (decoder event service : Nat) (kind : GrantKind)
  | revoke (decoder event service : Nat) (reason : Option RevokeReason)
  deriving DecidableEq, Repr

/-- A packet buffer's contents: the message, whose 64 bytes R185 fixes, and its tag; no tag once
NIGHT-CLOSE has discarded it (R76). -/
structure Packet where
  message : Message
  tag : Option Tag
  deriving DecidableEq, Repr

/-- Unit bus states (R121). -/
inductive BusState where
  | off | idle | requesting | sending | fault
  deriving DecidableEq, Repr

/-- The insertion bus interface (R121) and the levels last seen on its input lines (log 7). -/
structure BusInterface where
  state : BusState
  staging : Option Packet
  sending : Option Packet
  lines : BusLines
  deriving DecidableEq, Repr

/-- Requesters of the insertion bus (R128). -/
inductive Requester where
  | own | pair1 | pair2 | pair3
  deriving DecidableEq, Repr

/-- Arbiter states with the fields present in them (R128). -/
inductive ArbiterState where
  | idle
  | granted (requester : Requester) (taken : Bool)
  | fault
  deriving DecidableEq, Repr

/-- The bus arbiter (R128). It is present when PRIMARY is latched at 1. -/
structure Arbiter where
  state : ArbiterState
  lastGranted : Requester
  deriving DecidableEq, Repr

/-- Receiver states; a frame being collected is addressed or broadcast (R162). -/
inductive Receiver where
  | hunt
  | addressed (broadcast : Bool)
  | passing
  | locked
  deriving DecidableEq, Repr

/-- Result codes (section 11.4). -/
inductive ResultCode where
  | ok | reinstated | alreadyHeld | alreadyRevoking | notReady | badLength | badCode | badField
  | wrongNightState | noEvent | wrongEventState | blackedOut | storeFull | notFound | keyOrder
  | keyPresent | listFull | locked | saveBusy | active | wrongState
  deriving DecidableEq, Repr

/-- The fields of EVENT-DEFINE as they stand in its body (R184). -/
structure DefineFields where
  event : Nat
  service : Nat
  flags : Byte
  saleOpen : Nat
  previewStart : Nat
  liveStart : Nat
  scheduledClose : Nat
  rangeCount : Nat
  ranges : List Range
  deriving DecidableEq, Repr

/-- The fields of EVENT-HOLD (R184). -/
structure HoldFields where
  event : Nat
  flags : Byte
  kind : Nat
  time : Nat
  deriving DecidableEq, Repr

/-- An event entry of NOTICE-ACK (R174). -/
structure AckEntry where
  event : Nat
  causes : Byte
  deriving DecidableEq, Repr

/-- The fields of NOTICE-ACK (R174, R184). -/
structure AckFields where
  causes : BitVec 16
  flags : Byte
  unitMasks : BitVec 16
  eventMasks : Byte
  rearm : Nat
  entryCount : Nat
  entries : List AckEntry
  deriving DecidableEq, Repr

/-- The thirteen fields of a configuration record as its 21 bytes give them (R186). -/
structure RawConfig where
  bankA : Nat
  bankB : Nat
  cycleLength : Nat
  urgentShare : Nat
  freshShare : Nat
  confirmCount : Nat
  revokeCount : Nat
  heldInterval : Nat
  stateRepeat : Nat
  announceMinimum : Nat
  shortEpoch : Nat
  longEpoch : Nat
  pairs : Byte
  deriving DecidableEq, Repr

/-- The fields of GRANT-ADD (R48). -/
structure AddFields where
  decoder : Nat
  event : Nat
  kind : Nat
  region : Nat
  deriving DecidableEq, Repr

/-- The requests, with their fields as the frame carried them (section 11.2). -/
inductive Request where
  | unitId
  | unitStatus
  | countersRead (clear : Nat)
  | noticeFetch
  | noticeAck (fields : AckFields)
  | unitReset
  | configRead
  | configWrite (fields : RawConfig)
  | settingsSave
  | nightOpen (start : Nat)
  | nightClose (close : Nat)
  | busClear
  | eventDefine (fields : DefineFields)
  | eventRead (event : Nat)
  | eventHold (fields : HoldFields)
  | eventCancel (event : Nat)
  | eventClear (event : Nat)
  | blackoutAdd (event low high : Nat)
  | blackoutRemove (event low high : Nat)
  | keyLoad (event epoch : Nat) (key : Key)
  | epochSelect (selection : Nat)
  | grantAdd (fields : AddFields)
  | grantRevoke (decoder event : Nat)
  | grantQuery (decoder event : Nat)
  deriving DecidableEq, Repr

/-- A held request (R165): whether its frame was broadcast, the host's tag, and the request. -/
structure HeldRequest where
  broadcast : Bool
  tag : Byte
  request : Request
  deriving DecidableEq, Repr

/-- A reply being sent (R167). -/
structure Reply where
  tag : Byte
  code : Byte
  result : ResultCode
  body : List Byte
  deriving DecidableEq, Repr

/-- The request holder (R165). -/
inductive Holder where
  | free
  | held (request : HeldRequest)
  | replying (reply : Reply)
  deriving DecidableEq, Repr

/-- The control link (R162, R163, R165). -/
structure Link where
  receiver : Receiver
  failureRun : Nat
  holder : Holder
  deriving DecidableEq, Repr

/-- The notice unit (R171). Bits are those of section 11.2. -/
structure Notice where
  /-- unit causes pending, LINK-OVERRUN 0 to WIPE-DONE 9 -/
  causes : BitVec 10
  /-- unit-cause masks, bit 10 for EVENT-ATTENTION; 1 is enabled -/
  unitMasks : BitVec 11
  /-- event-cause masks; 1 is enabled -/
  eventMasks : BitVec 4
  /-- master enable -/
  master : Bool
  deriving DecidableEq, Repr

/-- The unit counters, in the order of R170. -/
structure Counters where
  framesTaken : Nat
  gapFailures : Nat
  characterFailures : Nat
  interruptedFrames : Nat
  lengthFailures : Nat
  crcFailures : Nat
  overruns : Nat
  locks : Nat
  damageCount : Nat
  storeFullCount : Nat
  freshOverflow : Nat
  urgentOverflow : Nat
  keyPackets : Nat
  statePackets : Nat
  grantPackets : Nat
  revokePackets : Nat
  switchesAccepted : Nat
  clearsAccepted : Nat
  switchesWithdrawn : Nat
  lostPackets : Nat
  grantTimeouts : Nat
  arbiterFaults : Nat
  flywheelSeconds : Nat
  absorbedPulses : Nat
  deriving DecidableEq, Repr

/-- The unit. -/
structure State where
  night : NightState
  straps : Straps
  timer : Timer
  clock : NightClock
  settings : Settings
  /-- the 32 event records, event 0 first (R1) -/
  events : List EventRecord
  selection : EpochSelection
  scrambler : ScramblerPort
  store : GrantStore
  port : StorePort
  sweep : SweepEngine
  carousel : Carousel
  bus : BusInterface
  arbiter : Arbiter
  link : Link
  notice : Notice
  counters : Counters
  /-- the commands that wait, the next to be taken first -/
  pending : List Instr
  deriving DecidableEq, Repr

/-- Why the machine stops with a fault. -/
inductive Fault where
  /-- Raised by a store operation whose slot number lies outside the slot space in force, 0 to A+B-1
  (R27); safe: no run reaches it (log 23). -/
  | slotOutsideStore (slot : Nat)
  deriving DecidableEq, Repr

/-- Why a command has no meaning. -/
inductive Refusal where
  /-- Raised by an arm of `exec` that has no meaning yet; safe. No arm raises it. -/
  | notModelled (mnemonic : String)
  deriving DecidableEq, Repr

/-- An EMPTY record's key fields (R103). -/
def KeyFields.empty : KeyFields :=
  { epoch := 0, current := none, next := none, onDeck := none, announceCount := 0,
    epochStart := none, length := none, keyLate := false }

/-- Counts of an EMPTY record (R1). -/
def Counts.zero : Counts :=
  { admitted := 0, live := 0, revoked := 0, retired := 0, lost := 0, reinstated := 0 }

/-- No mark present. -/
def Marks.none : Marks := { cancel := false, retire := false, blackout := false }

/-- An EMPTY record (R1). -/
def EventRecord.empty : EventRecord :=
  { state := .empty, window := none, hold := none, blackout := [], repeatsOwed := 0,
    counts := Counts.zero, marks := Marks.none, causes := 0#4, keys := KeyFields.empty }

/-- Every unit counter at 0 (R170). -/
def Counters.zero : Counters :=
  { framesTaken := 0, gapFailures := 0, characterFailures := 0, interruptedFrames := 0,
    lengthFailures := 0, crcFailures := 0, overruns := 0, locks := 0, damageCount := 0,
    storeFullCount := 0, freshOverflow := 0, urgentOverflow := 0, keyPackets := 0,
    statePackets := 0, grantPackets := 0, revokePackets := 0, switchesAccepted := 0,
    clearsAccepted := 0, switchesWithdrawn := 0, lostPackets := 0, grantTimeouts := 0,
    arbiterFaults := 0, flywheelSeconds := 0, absorbedPulses := 0 }

/-- The carousel after a reset (R76). -/
def Carousel.reset : Carousel :=
  { run := .stopped, composed := 0, finished := 0, urgentComposed := 0, freshComposed := 0,
    owed := [], fresh := [], urgent := [], cursor := 0, pass := 0, attempt := .none,
    exhausted := false, cycle := 0 }

/-- The notice unit after a reset (R171). -/
def Notice.reset : Notice :=
  { causes := 0#10, unitMasks := 0x7FF#11, eventMasks := 0xF#4, master := false }

/-- No line asserted. -/
def noLines : BusLines :=
  { drive := false, ready := false, req1 := false, req2 := false, req3 := false, gnt := false }

/-- The straps of `State.reset`: every pin at 0 (DESIGN CHOICE, log 11). -/
def zeroStraps : Straps := { unitAddress := 0, primary := false, linkRate := false, load := false }

/-- The unit right after a hardware reset with every strap pin at 0, its input lines deasserted and a blank
EEPROM (log 11). With LOAD at 0 no load is made and the WIPE of start-up has started with the default
sizes in the same step (R180, R182); its first slot write holds the store port. -/
def State.reset : State :=
  { night := .starting
    straps := zeroStraps
    timer := { now := 0, cycleTickAt := 0 }
    clock := { clock := 0, source := .stopped, lastTick := none, lastPulse := none }
    settings :=
      { record := ConfigRecord.default, save := none, lastSave := .none, lastLoad := .notLoaded,
        eeprom := .stored (List.replicate 23 0xFF#8) }
    events := List.replicate 32 EventRecord.empty
    selection := .short
    scrambler := { queue := [], ready := false }
    store := { sizeA := 16384, sizeB := 0, drawn := 0, damaged := 0, memory := [] }
    port :=
      { state := .wipeWrite, composition := false, completions := [], request := false,
        sweep := false }
    sweep := { engine := .wiping 0, lastServed := 31, wipePending := false }
    carousel := Carousel.reset
    bus := { state := .off, staging := none, sending := none, lines := noLines }
    arbiter := { state := .idle, lastGranted := .pair3 }
    link := { receiver := .hunt, failureRun := 0, holder := .free }
    notice := Notice.reset
    counters := Counters.zero
    pending := [] }

end Sys2Proof.Machine
end

