-- ==== Sys2Proof/Machine/Operands.lean ====
section
/-! DEFINITION. Formats (11_formats): byte order, the CRC, the numbers of named values, reading and writing
request frames and their fields, packets, scrambler records and the configuration record. -/

namespace Sys2Proof.Machine

/-! ## Bytes and the CRC -/

/-- The number little-endian bytes give (section 11). -/
def le : List Byte → Nat
  | [] => 0
  | b :: bs => b.toNat + 256 * le bs

/-- The `n` little-endian bytes of a number, which is reduced to that width (section 11). -/
def leBytes : Nat → Nat → List Byte
  | 0, _ => []
  | n + 1, v => BitVec.ofNat 8 v :: leBytes n (v / 256)

/-- The `n` bytes of a count that has no largest value in the model: its number while the bytes hold it, a free value
beyond (log 19). -/
def countBytes (n c : Nat) : List Byte :=
  if c < 256 ^ n then leBytes n c else leBytes n (freeCount c).toNat

/-- One byte of a number. -/
def byte1 (v : Nat) : Byte := BitVec.ofNat 8 v

/-- `true` is 1 (section 11.2). -/
def bitOf (b : Bool) : Nat := if b then 1 else 0

/-- A flags byte from its bits, bit 0 first. -/
def flagsByte : List Bool → Nat
  | [] => 0
  | b :: bs => bitOf b + 2 * flagsByte bs

/-- One bit of the CRC register, polynomial x^16 + x^12 + x^5 + 1 (R183). -/
def crcBit (r : BitVec 16) : BitVec 16 :=
  if r.getLsbD 15 then (r <<< 1) ^^^ 0x1021#16 else r <<< 1

/-- `k` bits of the CRC register. -/
def crcBits : Nat → BitVec 16 → BitVec 16
  | 0, r => r
  | k + 1, r => crcBits k (crcBit r)

/-- One byte entering, most significant bit first (R183). -/
def crcByte (r : BitVec 16) (b : Byte) : BitVec 16 := crcBits 8 (r ^^^ (b.setWidth 16 <<< 8))

/-- The CRC from register value `r`. -/
def crcFrom : BitVec 16 → List Byte → BitVec 16
  | r, [] => r
  | r, b :: bs => crcFrom (crcByte r b) bs

/-- The CRC of R183: it starts at all ones and takes no final inversion. -/
def crc (bytes : List Byte) : BitVec 16 := crcFrom 0xFFFF#16 bytes

/-- The two CRC bytes, low byte first (R183). -/
def crcBytes (bytes : List Byte) : List Byte := leBytes 2 (crc bytes).toNat

/-- The `n` bytes of a body from offset `i`, as a number. -/
def fieldAt (body : List Byte) (i n : Nat) : Nat := le ((body.drop i).take n)

/-- The byte of a body at offset `i`. -/
def byteAt (body : List Byte) (i : Nat) : Byte := body.getD i 0#8

/-- Bytes `zeros n` long, for absent fields (R184, R185). -/
def zeros (n : Nat) : List Byte := List.replicate n 0#8

/-! ## Numbers of named values (sections 11.2 to 11.5) -/

/-- Event state numbers. -/
def EventState.number : EventState → Nat
  | .empty => 0 | .scheduled => 1 | .onSale => 2 | .preview => 3 | .live => 4
  | .overtime => 5 | .closed => 6 | .cancelled => 7 | .retired => 8

/-- Slot state numbers. -/
def SlotState.number : SlotState → Nat
  | .empty => 0 | .pending => 1 | .announced => 2 | .held => 3 | .revoking => 4
  | .vacant => 5 | .damaged => 6

/-- Grant kind numbers. -/
def GrantKind.number : GrantKind → Nat
  | .purchased => 1 | .complimentary => 2

/-- The kind a byte names (R184). -/
def GrantKind.ofNumber (n : Nat) : Option GrantKind :=
  if n = 1 then some .purchased else if n = 2 then some .complimentary else none

/-- Hold kind numbers. -/
def HoldKind.number : HoldKind → Nat
  | .firm => 1 | .tentative => 2

/-- The hold kind a byte names (R184). -/
def HoldKind.ofNumber (n : Nat) : Option HoldKind :=
  if n = 1 then some .firm else if n = 2 then some .tentative else none

/-- Revoke reason numbers; absent is 0. -/
def RevokeReason.number : Option RevokeReason → Nat
  | none => 0 | some .customer => 1 | some .blackout => 2 | some .cancelled => 3

/-- Queue mark numbers. -/
def QueueMark.number : QueueMark → Nat
  | .none => 0 | .fresh => 1 | .urgent => 2

/-- Epoch selection numbers. -/
def EpochSelection.number : EpochSelection → Nat
  | .short => 0 | .long => 1

/-- The selection a byte names (R107). -/
def EpochSelection.ofNumber (n : Nat) : Option EpochSelection :=
  if n = 0 then some .short else if n = 1 then some .long else none

/-- A byte of two named values, clear 0 and set 1 (R184): `none` for any other. -/
def boolOfNumber (n : Nat) : Option Bool :=
  if n = 0 then some false else if n = 1 then some true else none

/-- Night state numbers. -/
def NightState.number : NightState → Nat
  | .starting => 0 | .setup => 1 | .opened => 2 | .closing => 3

/-- Source state numbers. -/
def ClockSource.number : ClockSource → Nat
  | .stopped => 0 | .reference => 1 | .flywheel => 2

/-- Sweep kind numbers. -/
def SweepKind.number : SweepKind → Nat
  | .cancel => 1 | .retire => 2 | .blackout => 3

/-- Unit bus state numbers. -/
def BusState.number : BusState → Nat
  | .off => 0 | .idle => 1 | .requesting => 2 | .sending => 3 | .fault => 4

/-- Requester numbers. -/
def Requester.number : Requester → Nat
  | .own => 0 | .pair1 => 1 | .pair2 => 2 | .pair3 => 3

/-- Receiver state numbers. -/
def Receiver.number : Receiver → Nat
  | .hunt => 0 | .addressed _ => 1 | .passing => 2 | .locked => 3

/-- Holder state numbers. -/
def Holder.number : Holder → Nat
  | .free => 0 | .held _ => 1 | .replying _ => 2

/-- Last save result numbers. -/
def SaveResult.number : SaveResult → Nat
  | .none => 0 | .ok => 1 | .failed => 2

/-- Last load result numbers. -/
def LoadResult.number : LoadResult → Nat
  | .notLoaded => 0 | .loading => 1 | .ok => 2 | .noAck => 3 | .badCrc => 4 | .badField => 5

/-- Result code numbers (section 11.4). -/
def ResultCode.number : ResultCode → Nat
  | .ok => 0x00 | .reinstated => 0x01 | .alreadyHeld => 0x02 | .alreadyRevoking => 0x03
  | .notReady => 0x04 | .badLength => 0x05 | .badCode => 0x06 | .badField => 0x07
  | .wrongNightState => 0x08 | .noEvent => 0x09 | .wrongEventState => 0x0A
  | .blackedOut => 0x0B | .storeFull => 0x0C | .notFound => 0x0D | .keyOrder => 0x0E
  | .keyPresent => 0x0F | .listFull => 0x10 | .locked => 0x11 | .saveBusy => 0x12
  | .active => 0x13 | .wrongState => 0x14

/-- Parity of an epoch: odd 1, even 0 (R104, section 11.5). -/
def parity (epoch : Nat) : Nat := epoch % 2

/-! ## The configuration record (R176, R186) -/

/-- The pairs a byte names: bits 1 to 3 (R186). -/
def PairSet.ofByte (b : Byte) : PairSet :=
  { pair1 := b.getLsbD 1, pair2 := b.getLsbD 2, pair3 := b.getLsbD 3 }

/-- The byte of a set of pairs (R186). -/
def PairSet.byte (p : PairSet) : Nat := flagsByte [false, p.pair1, p.pair2, p.pair3]

/-- The record as its fields (R186). -/
def ConfigRecord.raw (r : ConfigRecord) : RawConfig :=
  { bankA := r.bankA, bankB := r.bankB, cycleLength := r.cycleLength,
    urgentShare := r.urgentShare, freshShare := r.freshShare, confirmCount := r.confirmCount,
    revokeCount := r.revokeCount, heldInterval := r.heldInterval, stateRepeat := r.stateRepeat,
    announceMinimum := r.announceMinimum, shortEpoch := r.shortEpoch, longEpoch := r.longEpoch,
    pairs := byte1 r.pairs.byte }

/-- The record thirteen fields make (R186). -/
def RawConfig.record (r : RawConfig) : ConfigRecord :=
  { bankA := r.bankA, bankB := r.bankB, cycleLength := r.cycleLength,
    urgentShare := r.urgentShare, freshShare := r.freshShare, confirmCount := r.confirmCount,
    revokeCount := r.revokeCount, heldInterval := r.heldInterval, stateRepeat := r.stateRepeat,
    announceMinimum := r.announceMinimum, shortEpoch := r.shortEpoch, longEpoch := r.longEpoch,
    pairs := PairSet.ofByte r.pairs }

/-- The fields 21 bytes give (R186). -/
def RawConfig.ofBytes (b : List Byte) : RawConfig :=
  { bankA := fieldAt b 0 3, bankB := fieldAt b 3 3, cycleLength := fieldAt b 6 2,
    urgentShare := fieldAt b 8 2, freshShare := fieldAt b 10 2, confirmCount := fieldAt b 12 1,
    revokeCount := fieldAt b 13 1, heldInterval := fieldAt b 14 1, stateRepeat := fieldAt b 15 1,
    announceMinimum := fieldAt b 16 1, shortEpoch := fieldAt b 17 1, longEpoch := fieldAt b 18 2,
    pairs := byteAt b 20 }

/-- The 21 bytes of thirteen fields (R186). -/
def RawConfig.bytes (r : RawConfig) : List Byte :=
  leBytes 3 r.bankA ++ leBytes 3 r.bankB ++ leBytes 2 r.cycleLength ++ leBytes 2 r.urgentShare
    ++ leBytes 2 r.freshShare ++ [byte1 r.confirmCount, byte1 r.revokeCount, byte1 r.heldInterval,
      byte1 r.stateRepeat, byte1 r.announceMinimum, byte1 r.shortEpoch]
    ++ leBytes 2 r.longEpoch ++ [r.pairs]

/-- The 21 bytes of a record (R186). -/
def ConfigRecord.bytes (r : ConfigRecord) : List Byte := r.raw.bytes

/-- The 23 bytes a save writes: the record and its CRC (R186). -/
def ConfigRecord.storedBytes (r : ConfigRecord) : List Byte := r.bytes ++ crcBytes r.bytes

/-- A bank A size (R27). -/
def bankSizeOk (n : Nat) : Bool := n == 16384 || n == 32768 || n == 65536 || n == 131072

/-- `lo ≤ n ≤ hi`. -/
def within (lo hi n : Nat) : Bool := decide (lo ≤ n) && decide (n ≤ hi)

/-- The index of the first field out of its range, tested in index order; a range that depends on an earlier
field is tested against that field of the same record (R176, R178). -/
def RawConfig.firstBad (r : RawConfig) : Option Nat :=
  if !bankSizeOk r.bankA then some 1
  else if !((r.bankB == 0 || bankSizeOk r.bankB) && decide (r.bankB ≤ r.bankA)) then some 2
  else if !within 96 4096 r.cycleLength then some 3
  else if !within 0 (r.cycleLength - 64) r.urgentShare then some 4
  else if !within 0 (r.cycleLength - 64 - r.urgentShare) r.freshShare then some 5
  else if !within 1 15 r.confirmCount then some 6
  else if !within 1 15 r.revokeCount then some 7
  else if !within 1 64 r.heldInterval then some 8
  else if !within 1 63 r.stateRepeat then some 9
  else if !within 1 63 r.announceMinimum then some 10
  else if !within 4 60 r.shortEpoch then some 11
  else if !(within 20 900 r.longEpoch && decide (r.shortEpoch < r.longEpoch)) then some 12
  else if r.pairs &&& 0xF1#8 != 0#8 then some 13
  else none

/-- A record is valid when all thirteen fields lie in their ranges (R176). -/
def ConfigRecord.valid (r : ConfigRecord) : Bool := r.raw.firstBad == none

/-! ## Requests (sections 11.2 and 11.3) -/

/-- The request code of a request (section 11.3). -/
def Request.code : Request → Byte
  | .unitId => 0x01#8
  | .unitStatus => 0x02#8
  | .countersRead _ => 0x03#8
  | .noticeFetch => 0x04#8
  | .noticeAck _ => 0x05#8
  | .unitReset => 0x06#8
  | .configRead => 0x10#8
  | .configWrite _ => 0x11#8
  | .settingsSave => 0x12#8
  | .nightOpen _ => 0x18#8
  | .nightClose _ => 0x19#8
  | .busClear => 0x1A#8
  | .eventDefine _ => 0x20#8
  | .eventRead _ => 0x21#8
  | .eventHold _ => 0x22#8
  | .eventCancel _ => 0x23#8
  | .eventClear _ => 0x24#8
  | .blackoutAdd _ _ _ => 0x25#8
  | .blackoutRemove _ _ _ => 0x26#8
  | .keyLoad _ _ _ => 0x28#8
  | .epochSelect _ => 0x29#8
  | .grantAdd _ => 0x30#8
  | .grantRevoke _ _ => 0x31#8
  | .grantQuery _ _ => 0x32#8

/-- Ranges from pairs of bytes, in frame order (R184). -/
def readRanges : List Byte → List Range
  | lo :: hi :: rest => { low := lo.toNat, high := hi.toNat } :: readRanges rest
  | _ => []

/-- Ranges as bytes. -/
def rangeBytes : List Range → List Byte
  | [] => []
  | r :: rs => byte1 r.low :: byte1 r.high :: rangeBytes rs

/-- Event entries of NOTICE-ACK, in frame order (R184). -/
def readEntries : List Byte → List AckEntry
  | e :: c :: rest => { event := e.toNat, causes := c } :: readEntries rest
  | _ => []

/-- Event entries as bytes. -/
def entryBytes : List AckEntry → List Byte
  | [] => []
  | e :: es => byte1 e.event :: e.causes :: entryBytes es

/-- A body of the one length its code has (section 11.3), or BAD-LENGTH (R166). -/
def ofLength (body : List Byte) (n : Nat) (r : Request) : Except ResultCode Request :=
  if body.length = n then .ok r else .error .badLength

/-- The fields of EVENT-DEFINE (section 11.2). -/
def readDefine (b : List Byte) : DefineFields :=
  { event := fieldAt b 0 1, service := fieldAt b 1 2, flags := byteAt b 3,
    saleOpen := fieldAt b 4 3, previewStart := fieldAt b 7 3, liveStart := fieldAt b 10 3,
    scheduledClose := fieldAt b 13 3, rangeCount := fieldAt b 16 1, ranges := readRanges (b.drop 17) }

/-- The body of EVENT-DEFINE. -/
def DefineFields.bytes (d : DefineFields) : List Byte :=
  byte1 d.event :: leBytes 2 d.service ++ [d.flags] ++ leBytes 3 d.saleOpen
    ++ leBytes 3 d.previewStart ++ leBytes 3 d.liveStart ++ leBytes 3 d.scheduledClose
    ++ [byte1 d.rangeCount] ++ rangeBytes d.ranges

/-- The fields of EVENT-HOLD (section 11.2). -/
def readHold (b : List Byte) : HoldFields :=
  { event := fieldAt b 0 1, flags := byteAt b 1, kind := fieldAt b 2 1, time := fieldAt b 3 3 }

/-- The fields of NOTICE-ACK (section 11.2). -/
def readAck (b : List Byte) : AckFields :=
  { causes := BitVec.ofNat 16 (fieldAt b 0 2), flags := byteAt b 2,
    unitMasks := BitVec.ofNat 16 (fieldAt b 3 2), eventMasks := byteAt b 5,
    rearm := fieldAt b 6 1, entryCount := fieldAt b 7 1, entries := readEntries (b.drop 8) }

/-- The body of NOTICE-ACK. -/
def AckFields.bytes (a : AckFields) : List Byte :=
  leBytes 2 a.causes.toNat ++ [a.flags] ++ leBytes 2 a.unitMasks.toNat
    ++ [a.eventMasks, byte1 a.rearm, byte1 a.entryCount] ++ entryBytes a.entries

/-- The request a code and a body make: BAD-CODE when the code names no request, BAD-LENGTH when the length is
not the one section 11.3 gives, a count of list entries included (R166). -/
def Request.read (code : Byte) (b : List Byte) : Except ResultCode Request :=
  match code.toNat with
  | 0x01 => ofLength b 0 .unitId
  | 0x02 => ofLength b 0 .unitStatus
  | 0x03 => ofLength b 1 (.countersRead (fieldAt b 0 1))
  | 0x04 => ofLength b 0 .noticeFetch
  | 0x05 =>
    if 8 ≤ b.length then ofLength b (8 + 2 * fieldAt b 7 1) (.noticeAck (readAck b))
    else .error .badLength
  | 0x06 => ofLength b 0 .unitReset
  | 0x10 => ofLength b 0 .configRead
  | 0x11 => ofLength b 21 (.configWrite (RawConfig.ofBytes b))
  | 0x12 => ofLength b 0 .settingsSave
  | 0x18 => ofLength b 3 (.nightOpen (fieldAt b 0 3))
  | 0x19 => ofLength b 1 (.nightClose (fieldAt b 0 1))
  | 0x1A => ofLength b 0 .busClear
  | 0x20 =>
    if 17 ≤ b.length then ofLength b (17 + 2 * fieldAt b 16 1) (.eventDefine (readDefine b))
    else .error .badLength
  | 0x21 => ofLength b 1 (.eventRead (fieldAt b 0 1))
  | 0x22 => ofLength b 6 (.eventHold (readHold b))
  | 0x23 => ofLength b 1 (.eventCancel (fieldAt b 0 1))
  | 0x24 => ofLength b 1 (.eventClear (fieldAt b 0 1))
  | 0x25 => ofLength b 3 (.blackoutAdd (fieldAt b 0 1) (fieldAt b 1 1) (fieldAt b 2 1))
  | 0x26 => ofLength b 3 (.blackoutRemove (fieldAt b 0 1) (fieldAt b 1 1) (fieldAt b 2 1))
  | 0x28 =>
    ofLength b 19 (.keyLoad (fieldAt b 0 1) (fieldAt b 1 2) (BitVec.ofNat 128 (fieldAt b 3 16)))
  | 0x29 => ofLength b 1 (.epochSelect (fieldAt b 0 1))
  | 0x30 =>
    ofLength b 7 (.grantAdd
      { decoder := fieldAt b 0 4, event := fieldAt b 4 1, kind := fieldAt b 5 1,
        region := fieldAt b 6 1 })
  | 0x31 => ofLength b 5 (.grantRevoke (fieldAt b 0 4) (fieldAt b 4 1))
  | 0x32 => ofLength b 5 (.grantQuery (fieldAt b 0 4) (fieldAt b 4 1))
  | _ => .error .badCode

/-- The body a host writes for a request (section 11.2). -/
def Request.body : Request → List Byte
  | .unitId => []
  | .unitStatus => []
  | .countersRead c => [byte1 c]
  | .noticeFetch => []
  | .noticeAck a => a.bytes
  | .unitReset => []
  | .configRead => []
  | .configWrite r => r.bytes
  | .settingsSave => []
  | .nightOpen t => leBytes 3 t
  | .nightClose c => [byte1 c]
  | .busClear => []
  | .eventDefine d => d.bytes
  | .eventRead e => [byte1 e]
  | .eventHold h => byte1 h.event :: h.flags :: byte1 h.kind :: leBytes 3 h.time
  | .eventCancel e => [byte1 e]
  | .eventClear e => [byte1 e]
  | .blackoutAdd e lo hi => [byte1 e, byte1 lo, byte1 hi]
  | .blackoutRemove e lo hi => [byte1 e, byte1 lo, byte1 hi]
  | .keyLoad e n k => byte1 e :: leBytes 2 n ++ leBytes 16 k.toNat
  | .epochSelect s => [byte1 s]
  | .grantAdd a => leBytes 4 a.decoder ++ [byte1 a.event, byte1 a.kind, byte1 a.region]
  | .grantRevoke d e => leBytes 4 d ++ [byte1 e]
  | .grantQuery d e => leBytes 4 d ++ [byte1 e]

/-- The fields of a request fit the widths of section 11.2, and a repeated field has as many entries as its
count says: the requests a frame can carry. -/
def Request.fits : Request → Bool
  | .unitId => true
  | .unitStatus => true
  | .countersRead c => decide (c < 256)
  | .noticeFetch => true
  | .noticeAck a =>
    decide (a.rearm < 256) && decide (a.entryCount < 122) && a.entries.length == a.entryCount
      && a.entries.all (fun e => decide (e.event < 256))
  | .unitReset => true
  | .configRead => true
  | .configWrite r =>
    decide (r.bankA < 16777216) && decide (r.bankB < 16777216) && decide (r.cycleLength < 65536)
      && decide (r.urgentShare < 65536) && decide (r.freshShare < 65536)
      && decide (r.confirmCount < 256) && decide (r.revokeCount < 256)
      && decide (r.heldInterval < 256) && decide (r.stateRepeat < 256)
      && decide (r.announceMinimum < 256) && decide (r.shortEpoch < 256)
      && decide (r.longEpoch < 65536)
  | .settingsSave => true
  | .nightOpen t => decide (t < 16777216)
  | .nightClose c => decide (c < 256)
  | .busClear => true
  | .eventDefine d =>
    decide (d.event < 256) && decide (d.service < 65536) && decide (d.saleOpen < 16777216)
      && decide (d.previewStart < 16777216) && decide (d.liveStart < 16777216)
      && decide (d.scheduledClose < 16777216) && decide (d.rangeCount < 117)
      && d.ranges.length == d.rangeCount
      && d.ranges.all (fun r => decide (r.low < 256) && decide (r.high < 256))
  | .eventRead e => decide (e < 256)
  | .eventHold h => decide (h.event < 256) && decide (h.kind < 256) && decide (h.time < 16777216)
  | .eventCancel e => decide (e < 256)
  | .eventClear e => decide (e < 256)
  | .blackoutAdd e lo hi => decide (e < 256) && decide (lo < 256) && decide (hi < 256)
  | .blackoutRemove e lo hi => decide (e < 256) && decide (lo < 256) && decide (hi < 256)
  | .keyLoad e n _ => decide (e < 256) && decide (n < 65536)
  | .epochSelect s => decide (s < 256)
  | .grantAdd a =>
    decide (a.decoder < 4294967296) && decide (a.event < 256) && decide (a.kind < 256)
      && decide (a.region < 256)
  | .grantRevoke d e => decide (d < 4294967296) && decide (e < 256)
  | .grantQuery d e => decide (d < 4294967296) && decide (e < 256)

/-- What length, tag, code and body of a frame make (R161). -/
def frameHead (tag code : Byte) (body : List Byte) : List Byte :=
  byte1 (body.length + 2) :: tag :: code :: body

/-- The characters of a good request frame after its address character (R161). -/
def Request.frame (tag : Byte) (r : Request) : List Byte :=
  frameHead tag r.code r.body ++ crcBytes (frameHead tag r.code r.body)

/-- A complete frame's parts, and whether the CRC it carries is the CRC of its characters (R161). -/
structure FrameRead where
  tag : Byte
  code : Byte
  body : List Byte
  good : Bool
  deriving DecidableEq, Repr

/-- The characters after an address character as a complete frame: a length of 2 to 252, that many characters
of tag, code and body, and two CRC characters (R161); `none` when they are not one. -/
def readFrame : List Byte → Option FrameRead
  | len :: tag :: code :: rest =>
    if within 2 252 len.toNat && rest.length == len.toNat then
      let body := rest.take (len.toNat - 2)
      some { tag := tag, code := code, body := body,
             good := crcBytes (len :: tag :: code :: body) == rest.drop (len.toNat - 2) }
    else none
  | _ => none

/-- A character of a link line: its mark bit, set in an address character alone, and its eight data bits (R160,
R183). -/
structure Character where
  mark : Bool
  data : Byte
  deriving DecidableEq, Repr

/-- The eleven levels of a character on its line, in the order they are sent, a mark being `true`: the start bit at
space, the data bits least significant first, the mark bit, the stop bit at mark (R160). -/
def Character.levels (c : Character) : List Bool :=
  [false] ++ (List.range 8).map (fun i => c.data.getLsbD i) ++ [c.mark, true]

/-- The character that eleven levels carry. Levels without a start bit at space begin none, and none is taken whose
stop bit is found at space (R160). -/
def Character.ofLevels : List Bool → Option Character
  | [false, b0, b1, b2, b3, b4, b5, b6, b7, mark, true] =>
    some { mark := mark, data := byte1 (flagsByte [b0, b1, b2, b3, b4, b5, b6, b7]) }
  | _ => none

/-- Data characters, their mark bits at 0 (R160). -/
def dataCharacters (bytes : List Byte) : List Character := bytes.map (fun b => { mark := false, data := b })

/-- The characters of a reply frame: the address character, then length, tag, code, result, body and CRC as data
characters (R167, R183). -/
def Reply.frame (unitAddress : Nat) (r : Reply) : List Character :=
  let covered :=
    byte1 (r.body.length + 3) :: r.tag :: r.code :: byte1 r.result.number :: r.body
  { mark := true, data := byte1 unitAddress } :: dataCharacters (covered ++ crcBytes covered)

/-! ## Packets and scrambler records (R185) -/

/-- Eight ranges of two bytes, zeros beyond the list. -/
def eightRanges (rs : List Range) : List Byte := (rangeBytes rs ++ zeros 16).take 16

/-- A key's 16 bytes, zeros when absent. -/
def keyBytes : Option Key → List Byte
  | none => zeros 16
  | some k => leBytes 16 k.toNat

/-- The next epoch a KEY message carries; 0 when absent (R185). -/
def nextEpochOf : Option (Nat × Key) → Nat
  | none => 0
  | some p => p.1

/-- The next key a KEY message carries. -/
def nextKeyOf : Option (Nat × Key) → Option Key
  | none => none
  | some p => some p.2

/-- Byte 0 and the message body (R185). -/
def Message.bodyBytes : Message → List Byte
  | .key service event epoch current next openView =>
    1#8 :: leBytes 2 service ++ [byte1 event,
        byte1 (flagsByte [current.isSome, next.isSome, openView])]
      ++ leBytes 2 (if current.isSome then epoch else 0)
      ++ [byte1 (if current.isSome then parity epoch else 0)] ++ keyBytes current
      ++ leBytes 2 (nextEpochOf next) ++ keyBytes (nextKeyOf next)
  | .state service event carried live close ranges =>
    2#8 :: leBytes 2 service ++ [byte1 event, byte1 carried.number] ++ leBytes 3 live
      ++ leBytes 3 close ++ [byte1 ranges.length] ++ eightRanges ranges
  | .grant decoder event service kind =>
    3#8 :: leBytes 4 decoder ++ [byte1 event] ++ leBytes 2 service ++ [byte1 kind.number]
  | .revoke decoder event service reason =>
    4#8 :: leBytes 4 decoder ++ [byte1 event] ++ leBytes 2 service
      ++ [byte1 (RevokeReason.number reason)]

/-- Bytes 0 to 61 of a packet, filled with FFh after the body (R185). -/
def Message.covered (m : Message) : List Byte := (m.bodyBytes ++ List.replicate 62 0xFF#8).take 62

/-- The 64 bytes of a packet, CRC last (R185). -/
def Message.bytes (m : Message) : List Byte := m.covered ++ crcBytes m.covered

/-- The 22 bytes of a scrambler record (R185). -/
def ScramblerPayload.bytes : ScramblerPayload → List Byte
  | .switch service epoch key =>
    1#8 :: leBytes 2 service ++ leBytes 2 epoch ++ [byte1 (parity epoch)] ++ leBytes 16 key.toNat
  | .clear service => 2#8 :: leBytes 2 service ++ zeros 19

end Sys2Proof.Machine
end

