-- ==== Sys2Proof/Machine/Flags.lean ====
section
/-! DEFINITION. Notice causes, masks and ATTENTION (R17, R171, R172), and the saturating counters (R170). -/

namespace Sys2Proof.Machine

/-- Where a counter holds (00_scope, section 4). -/
def counterMax : Nat := 4294967295

/-- One more, holding at the counter's maximum (R170). -/
def bump (n : Nat) : Nat := if n < counterMax then n + 1 else n

/-- One more, holding at 255 (R29, R103). -/
def bump255 (n : Nat) : Nat := if n < 255 then n + 1 else n

/-- Unit causes (R171). -/
inductive UnitCause where
  | linkOverrun | storeDamage | freshOverflow | urgentOverflow | busFault | clockFlywheel
  | clockRestored | settingsLoadFailed | saveDone | wipeDone
  deriving DecidableEq, Repr

/-- The bit of a unit cause (section 11.2). -/
def unitCauseBit : UnitCause → BitVec 10
  | .linkOverrun => 0x001#10 | .storeDamage => 0x002#10 | .freshOverflow => 0x004#10
  | .urgentOverflow => 0x008#10 | .busFault => 0x010#10 | .clockFlywheel => 0x020#10
  | .clockRestored => 0x040#10 | .settingsLoadFailed => 0x080#10 | .saveDone => 0x100#10
  | .wipeDone => 0x200#10

/-- Event causes (R17). -/
inductive EventCause where
  | stateChanged | keyLate | keyLow | sweepDone
  deriving DecidableEq, Repr

/-- The bit of an event cause (section 11.2). -/
def eventCauseBit : EventCause → BitVec 4
  | .stateChanged => 0x1#4 | .keyLate => 0x2#4 | .keyLow => 0x4#4 | .sweepDone => 0x8#4

/-- A unit cause is pending. -/
def Notice.has (n : Notice) (c : UnitCause) : Bool := n.causes &&& unitCauseBit c != 0#10

/-- An event cause is pending. -/
def EventRecord.has (r : EventRecord) (c : EventCause) : Bool := r.causes &&& eventCauseBit c != 0#4

/-- A unit cause is raised; one already pending stays pending (R171). -/
def State.raise (s : State) (c : UnitCause) : State :=
  { s with notice := { s.notice with causes := s.notice.causes ||| unitCauseBit c } }

/-- An event cause is raised; one already pending stays pending (R17). -/
def EventRecord.raise (r : EventRecord) (c : EventCause) : EventRecord :=
  { r with causes := r.causes ||| eventCauseBit c }

/-- A change of the unit counters. -/
def State.count (s : State) (f : Counters → Counters) : State := { s with counters := f s.counters }

/-- EVENT-ATTENTION: some event has a cause pending whose kind is enabled (R172). -/
def State.eventAttention (s : State) : Bool :=
  s.events.any (fun r => r.causes &&& s.notice.eventMasks != 0#4)

/-- The unit causes pending, EVENT-ATTENTION at bit 10 (R172, section 11.2). -/
def State.unitCauses (s : State) : BitVec 11 :=
  s.notice.causes.setWidth 11 ||| (if s.eventAttention then 0x400#11 else 0#11)

/-- ATTENTION is asserted: the master enable is set and an enabled cause is pending (R172). -/
def State.attention (s : State) : Bool :=
  s.notice.master && (s.unitCauses &&& s.notice.unitMasks != 0#11)

end Sys2Proof.Machine
end

