-- ==== Sys2Proof/Machine/Ops.lean ====
section
/-! DEFINITION. The shared operations over records, slots, queues, the store port, packets in flight and the
request holder. A block has no exceptions to enter: what goes wrong is a result, a cause or a counter. -/

namespace Sys2Proof.Machine

/-- What a command answers. -/
abbrev Result := Host.Outcome State Fault Refusal

/-! ## Event records -/

/-- PREVIEW, LIVE or OVERTIME (section 1.3). -/
def EventState.keyed : EventState → Bool
  | .preview => true | .live => true | .overtime => true
  | .empty => false | .scheduled => false | .onSale => false | .closed => false
  | .cancelled => false | .retired => false

/-- ON-SALE or a keyed state. -/
def EventState.selling (e : EventState) : Bool := e == .onSale || e.keyed

/-- SCHEDULED to OVERTIME (R48). -/
def EventState.admitting (e : EventState) : Bool := e == .scheduled || e.selling

/-- CLOSED or RETIRED (R85, R89). -/
def EventState.finished (e : EventState) : Bool := e == .closed || e == .retired

/-- The effective close from the scheduled close and the hold (R3). -/
def effectiveCloseOf (scheduled : Nat) : Option Hold → Nat
  | none => scheduled
  | some h =>
    match h.kind with
    | .tentative => max scheduled h.time
    | .firm => h.time

/-- An event's effective close; absent in an EMPTY record (R1, R3). -/
def EventRecord.effectiveClose (r : EventRecord) : Option Nat :=
  match r.window with
  | none => none
  | some w => some (effectiveCloseOf w.scheduledClose r.hold)

/-- The entry deadline: preview-start if present, otherwise live-start (R5). -/
def Window.entryDeadline (w : Window) : Nat :=
  match w.previewStart with
  | some t => t
  | none => w.liveStart

/-- An event's service; 0 for the absent service of an EMPTY record (R185, log 28). -/
def EventRecord.service (r : EventRecord) : Nat :=
  match r.window with
  | some w => w.service
  | none => 0

/-- A region lies in a range (R4). -/
def Range.covers (r : Range) (region : Nat) : Bool := decide (r.low ≤ region) && decide (region ≤ r.high)

/-- A region is blacked out by a list of ranges (R4). -/
def blackedOut (ranges : List Range) (region : Nat) : Bool := ranges.any (fun r => r.covers region)

/-- The record of an event number. -/
def State.event (s : State) (n : Nat) : EventRecord := s.events.getD n EventRecord.empty

/-- The record of an event number is replaced. -/
def State.setEvent (s : State) (n : Nat) (r : EventRecord) : State :=
  { s with events := s.events.set n r }

/-- A change of state: STATE-CHANGED is raised and state repeats owed is set (R9, R16). -/
def EventRecord.changeState (r : EventRecord) (stateRepeat : Nat) (target : EventState) : EventRecord :=
  { r.raise .stateChanged with state := target, repeatsOwed := stateRepeat }

/-- The configured state repeat. -/
def State.stateRepeat (s : State) : Nat := s.settings.record.stateRepeat

/-- An event changes state (R9). -/
def State.changeState (s : State) (n : Nat) (target : EventState) : State :=
  s.setEvent n ((s.event n).changeState s.stateRepeat target)

/-- The lock of the configuration: set exactly while the night state is OPEN or CLOSING (R177). -/
def State.locked (s : State) : Bool := s.night == .opened || s.night == .closing

/-! ## Slots (R27 to R33) -/

/-- The slots of the slot space in force (R27). -/
def State.slotCount (s : State) : Nat := s.store.sizeA + s.store.sizeB

/-- The successor of a slot (R28). -/
def State.successor (s : State) (n : Nat) : Nat := (n + 1) % s.slotCount

/-- The home slot of a decoder and an event (R36). -/
def State.home (s : State) (decoder event : Nat) : Nat := (decoder + 7919 * event) % s.slotCount

/-- The probe window of a decoder and an event (R37). -/
def State.window (s : State) (decoder event : Nat) : List Nat :=
  (List.range 16).map (fun i => (s.home decoder event + i) % s.slotCount)

/-- What a WIPE writes to a slot (R29). -/
def blankSlot : Slot :=
  { state := .empty, grant := none, emissions := 0, reason := none, mark := .none }

/-- What an unlisted slot reads as: EMPTY with a correct check byte (log 9). -/
def blankCell : Cell := { slot := blankSlot, checkGood := true }

/-- The cell of a slot. -/
def Memory.read : Memory → Nat → Cell
  | [], _ => blankCell
  | p :: m, n => if p.1 = n then p.2 else Memory.read m n

/-- An entry before the rest of a memory, left out when it is what an unlisted slot reads as. -/
def Memory.cons (n : Nat) (c : Cell) (m : Memory) : Memory := if c = blankCell then m else (n, c) :: m

/-- The cell of a slot is written; the canonical form is kept. -/
def Memory.write : Memory → Nat → Cell → Memory
  | [], n, c => Memory.cons n c []
  | p :: m, n, c =>
    if n < p.1 then Memory.cons n c (p :: m)
    else if n = p.1 then Memory.cons n c m
    else p :: Memory.write m n c

/-- The canonical form: strictly rising slot numbers, no entry equal to what an unlisted slot reads as. -/
def Memory.wf : Memory → Bool
  | [] => true
  | p :: m => p.2 != blankCell && m.all (fun q => decide (p.1 < q.1)) && Memory.wf m

/-- The cell of a slot. -/
def State.cell (s : State) (n : Nat) : Cell := s.store.memory.read n

/-- The record of a slot, whatever its check byte. -/
def State.slot (s : State) (n : Nat) : Slot := (s.cell n).slot

/-- A cell is written. -/
def State.putCell (s : State) (n : Nat) (c : Cell) : State :=
  { s with store := { s.store with memory := s.store.memory.write n c } }

/-- A write of a slot record also writes its check byte (R32). -/
def State.putSlot (s : State) (n : Nat) (x : Slot) : State := s.putCell n { slot := x, checkGood := true }

/-- The SRAM has corrupted a slot of the slot space: its check byte no longer agrees (R32, log 10). -/
def State.upsetSlot (s : State) (n : Nat) : State :=
  if n < s.slotCount then s.putCell n { slot := s.slot n, checkGood := false } else s

/-- The slots the SRAM has corrupted by the moment of an operation (log 10). -/
def State.upset : State → List Nat → State
  | s, [] => s
  | s, n :: ns => State.upset (s.upsetSlot n) ns

/-- The four live states (R30). -/
def SlotState.isLive : SlotState → Bool
  | .pending => true | .announced => true | .held => true | .revoking => true
  | .empty => false | .vacant => false | .damaged => false

/-- PENDING, ANNOUNCED or HELD. -/
def SlotState.granted (x : SlotState) : Bool := x == .pending || x == .announced || x == .held

/-- The slot holds the pair. -/
def Slot.holds (x : Slot) (decoder event : Nat) : Bool :=
  match x.grant with
  | none => false
  | some g => g.decoder == decoder && g.event == event

/-- The mark the queues give a slot number (R33). -/
def State.markFromQueues (s : State) (n : Nat) : QueueMark :=
  if n ∈ s.carousel.fresh then .fresh else if n ∈ s.carousel.urgent then .urgent else .none

/-- The record of a DAMAGED slot (R33). -/
def damagedSlot (mark : QueueMark) : Slot :=
  { state := .damaged, grant := none, emissions := 0, reason := none, mark := mark }

/-- The damaged-slot figure, holding at A+B (R35). -/
def State.bumpDamaged (s : State) : State :=
  { s with store := { s.store with damaged := min (s.store.damaged + 1) s.slotCount } }

/-- The rewrite of a slot whose check failed (R33). -/
def State.rewriteDamaged (s : State) (n : Nat) : State :=
  (((s.putSlot n (damagedSlot (s.markFromQueues n))).raise .storeDamage).count
    (fun c => { c with damageCount := bump c.damageCount })).bumpDamaged

/-- The read and check of R32: a slot that fails is rewritten DAMAGED before anything else (R33). The record
read is then `slot` of the state answered. -/
def State.check (s : State) (n : Nat) : State :=
  if (s.cell n).checkGood then s else s.rewriteDamaged n

/-- A write that makes a slot VACANT (R29). -/
def Slot.vacate (x : Slot) : Slot := { x with state := .vacant, emissions := 0, reason := none }

/-- A write that makes a slot REVOKING (R54, R63, R65, R91). -/
def Slot.revoke (x : Slot) (why : RevokeReason) : Slot :=
  { x with state := .revoking, emissions := 0, reason := some why }

/-- What a lookup found (R38, R39). -/
inductive Lookup where
  | found (slot : Nat)
  | missing (candidate : Option Nat)
  deriving DecidableEq, Repr

/-- The first candidate stands (R39). -/
def firstOf : Option Nat → Nat → Option Nat
  | some c, _ => some c
  | none, n => some n

/-- A lookup of a pair along the slots given, with the candidate found so far (R38, R39). -/
def State.lookupFrom (decoder event : Nat) : List Nat → Option Nat → State → Lookup × State
  | [], candidate, s => (.missing candidate, s)
  | n :: ns, candidate, s =>
    let s1 := s.check n
    let x := s1.slot n
    if x.state.isLive && x.holds decoder event then (.found n, s1)
    else
      match x.state with
      | .empty => (.missing (firstOf candidate n), s1)
      | .vacant => State.lookupFrom decoder event ns (firstOf candidate n) s1
      | .pending | .announced | .held | .revoking | .damaged =>
        State.lookupFrom decoder event ns candidate s1

/-- A lookup of a pair along its probe window (R38). -/
def State.lookup (s : State) (decoder event : Nat) : Lookup × State :=
  State.lookupFrom decoder event (s.window decoder event) none s

/-! ## The queues (R40, R41) -/

/-- The fresh queue is replaced. -/
def State.setFresh (s : State) (q : List Nat) : State :=
  { s with carousel := { s.carousel with fresh := q } }

/-- The urgent queue is replaced. -/
def State.setUrgent (s : State) (q : List Nat) : State :=
  { s with carousel := { s.carousel with urgent := q } }

/-- A fresh append attempt (R41). -/
def State.appendFresh (s : State) (n : Nat) : State :=
  match (s.slot n).mark with
  | .none =>
    if s.carousel.fresh.length < 1024 then
      (s.setFresh (s.carousel.fresh ++ [n])).putSlot n { s.slot n with mark := .fresh }
    else
      (s.raise .freshOverflow).count (fun c => { c with freshOverflow := bump c.freshOverflow })
  | .fresh | .urgent => s

/-- An urgent append attempt (R41). -/
def State.appendUrgent (s : State) (n : Nat) : State :=
  match (s.slot n).mark with
  | .none =>
    if s.carousel.urgent.length < 256 then
      (s.setUrgent (s.carousel.urgent ++ [n])).putSlot n { s.slot n with mark := .urgent }
    else
      (s.raise .urgentOverflow).count (fun c => { c with urgentOverflow := bump c.urgentOverflow })
  | .fresh | .urgent => s

/-! ## Packets in flight (R46, R92) -/

/-- The tag of a packet buffer. -/
def tagOf : Option Packet → Option Tag
  | none => none
  | some p => p.tag

/-- A tag's packet carries a GRANT or REVOKE message for the pair (R46). -/
def TagContent.carries (decoder event : Nat) : TagContent → Bool
  | .key _ _ => false
  | .state _ _ => false
  | .grant _ d e => d == decoder && e == event
  | .revoke _ d e => d == decoder && e == event

/-- The tags of every packet in flight: staging, sending and the waiting completion updates (R46). -/
def State.tagsInFlight (s : State) : List Tag :=
  (tagOf s.bus.staging).toList ++ (tagOf s.bus.sending).toList ++ s.port.completions

/-- The in-flight check for a pair (R46). -/
def State.inFlight (s : State) (decoder event : Nat) : Bool :=
  s.tagsInFlight.any (fun t => t.content.carries decoder event)

/-- The tag is of a KEY message of the event. -/
def TagContent.isKeyOf (n : Nat) : TagContent → Bool
  | .key e _ => e == n
  | .state _ _ => false
  | .grant _ _ _ => false
  | .revoke _ _ _ => false

/-- The tag is of a message of the event. -/
def TagContent.isOf (n : Nat) : TagContent → Bool
  | .key e _ => e == n
  | .state e _ => e == n
  | .grant _ _ e => e == n
  | .revoke _ _ e => e == n

/-- A tag is voided when its content is one of those chosen (R92, R109). -/
def Tag.voidIf (p : TagContent → Bool) (t : Tag) : Tag :=
  if p t.content then { t with voided := true } else t

/-- A packet's tag is voided likewise. -/
def Packet.voidIf (p : TagContent → Bool) (k : Packet) : Packet :=
  { k with tag := k.tag.map (Tag.voidIf p) }

/-- The chosen tags in flight are voided (R92, R109). -/
def State.voidTags (s : State) (p : TagContent → Bool) : State :=
  { s with
    bus := { s.bus with
      staging := s.bus.staging.map (Packet.voidIf p)
      sending := s.bus.sending.map (Packet.voidIf p) }
    port := { s.port with completions := s.port.completions.map (Tag.voidIf p) } }

/-- A record becomes EMPTY with every value of R1, and the tags in flight for its event number are voided
(R92, R109). -/
def State.emptyEvent (s : State) (n : Nat) : State :=
  (s.setEvent n EventRecord.empty).voidTags (TagContent.isOf n)

/-! ## The store port (R43, R44) -/

/-- The store port is replaced. -/
def State.setPort (s : State) (p : StorePort) : State := { s with port := p }

/-- What a grant to the sweep engine is for: a visit under the kind and the blackout list in force, or a WIPE
write (R61, R65, R73). -/
def State.sweepGrant (s : State) : PortState :=
  match s.sweep.engine with
  | .idle => .idle
  | .wiping _ => .wipeWrite
  | .sweeping w => .visit w.kind (s.event w.event).blackout false

/-- An IDLE port is granted to the waiting claimant of highest rank: the carousel, its completion updates
first, then the request engine, then the sweep engine (R43). -/
def State.arbitrate (s : State) : State :=
  match s.port.state with
  | .idle =>
    if !s.port.completions.isEmpty then s.setPort { s.port with state := .completion }
    else if s.port.composition then
      s.setPort { s.port with state := .composition, composition := false }
    else if s.port.request then s.setPort { s.port with state := .request, request := false }
    else if s.port.sweep then s.setPort { s.port with state := s.sweepGrant, sweep := false }
    else s
  | .composition | .completion | .request | .visit _ _ _ | .wipeWrite => s

/-- The granted operation ends, and the port is granted again among the claims waiting (R43). -/
def State.releasePort (s : State) : State := (s.setPort { s.port with state := .idle }).arbitrate

/-- The request engine claims the port. -/
def State.claimRequest (s : State) : State := (s.setPort { s.port with request := true }).arbitrate

/-- The sweep engine claims the port. -/
def State.claimSweep (s : State) : State := (s.setPort { s.port with sweep := true }).arbitrate

/-- A completion update is claimed (R96). -/
def State.claimCompletion (s : State) (t : Tag) : State :=
  (s.setPort { s.port with completions := s.port.completions ++ [t] }).arbitrate

/-- A composition read is claimed by an attempt that stands at `a`. -/
def State.claimComposition (s : State) (a : Attempt) : State :=
  (({ s with carousel := { s.carousel with attempt := a } } : State).setPort
    { s.port with composition := true }).arbitrate

/-- A slot number outside the slot space is a fault (R27, log 23). -/
def State.withinStore (s : State) (n : Nat) (k : Result) : Result :=
  if n < s.slotCount then k else .fault (.slotOutsideStore n)

/-! ## The request holder (R165, R166) -/

/-- The holder is replaced. -/
def State.setHolder (s : State) (h : Holder) : State := { s with link := { s.link with holder := h } }

/-- A result is handed back: a request from the own address gets a reply, and a broadcast one frees the holder
(R165, R167). -/
def State.answer (s : State) (broadcast : Bool) (tag code : Byte) (result : ResultCode)
    (body : List Byte) : State :=
  s.setHolder
    (if broadcast then .free
     else .replying { tag := tag, code := code, result := result, body := body })

/-- A held request's result is handed back. -/
def State.finish (s : State) (h : HeldRequest) (result : ResultCode) (body : List Byte) : State :=
  s.answer h.broadcast h.tag h.request.code result body

/-- A refusal without a body (R183). -/
def State.refuse (s : State) (h : HeldRequest) (result : ResultCode) : State := s.finish h result []

/-- BAD-FIELD with the index of the field (R166). -/
def State.badField (s : State) (h : HeldRequest) (index : Nat) : State :=
  s.finish h .badField [byte1 index]

/-- The latched UNIT-ADDRESS names an own address, 1 to 30 (R162). -/
def State.ownAddress (s : State) : Option Nat :=
  if within 1 30 s.straps.unitAddress.val then some s.straps.unitAddress.val else none

/-! ## What the unit drives (log 26) -/

/-- The reply line: the characters of the reply being sent, under the latched unit address; nothing otherwise, and
never anything in a listen-only unit (R167, R168, R183). -/
def State.replyLine (s : State) : List Character :=
  match s.link.holder, s.ownAddress with
  | .replying r, some a => r.frame a
  | .replying _, none => []
  | .free, _ => []
  | .held _, _ => []

/-- The level of the reply line at a bit time counted from the start bit of the reply being sent: that of its
characters one after another, and mark after them and while no reply is sent (R160). -/
def State.replyLevel (s : State) (bit : Nat) : Bool :=
  (s.replyLine.flatMap Character.levels).getD bit true

/-- The bit rate of the link's lines by the latched LINK-RATE, in bit/s (R160). -/
def State.bitRate (s : State) : Nat := if s.straps.linkRate then 460800 else 115200

/-- The head record is presented: the queue holds a record and READY is asserted (R118). -/
def State.presenting (s : State) : Bool := s.scrambler.ready && !s.scrambler.queue.isEmpty

/-- The record lines: the 22 bytes of the record presented (R118, R185). -/
def State.recordLines (s : State) : Option (List Byte) :=
  if s.presenting then s.scrambler.queue.head?.map (fun r => r.payload.bytes) else none

/-- DATA: the 64 bytes of the packet being sent, in the order they are driven (R124, R185). -/
def State.dataLines (s : State) : List Byte :=
  match s.bus.sending with
  | none => []
  | some p => p.message.bytes

/-! ## Bus lines (section 6) -/

/-- The levels on the bus lines are taken in (log 7). -/
def State.sampleLines (s : State) (l : BusLines) : State := { s with bus := { s.bus with lines := l } }

/-- The unit's request: asserted exactly while staging is full (R123). -/
def State.request (s : State) : Bool := s.bus.staging.isSome

/-- The unit's DRIVE output: asserted exactly while a packet is in sending (R124, R125). -/
def State.driveOut (s : State) : Bool := s.bus.sending.isSome

/-- The DRIVE line: asserted while any unit drives it. -/
def State.drive (s : State) : Bool := s.bus.lines.drive || s.driveOut

/-- The unit holds a grant: GNT in a secondary, the arbiter's grant to its own requester in the primary
(R124). -/
def State.holdsGrant (s : State) : Bool :=
  if s.straps.primary then
    match s.arbiter.state with
    | .granted .own _ => true
    | .granted .pair1 _ => false
    | .granted .pair2 _ => false
    | .granted .pair3 _ => false
    | .idle => false
    | .fault => false
  else s.bus.lines.gnt

end Sys2Proof.Machine
end

