-- ==== Sys2Proof/Machine/EventOps.lean ====
section
/-! DEFINITION. What several commands do to events: sweep marks and the engine's reaction to them, scrambler
records, keys and epochs, the close, the deadline steps of R5, and the earliest-deadline report. -/

namespace Sys2Proof.Machine

/-! ## Sweep marks and the engine (R58, R59, R67, R68) -/

/-- The mark an event carries; it carries at most one (R59). -/
def Marks.first (m : Marks) : Option SweepKind :=
  if m.cancel then some .cancel else if m.retire then some .retire
  else if m.blackout then some .blackout else Option.none

/-- A mark is cleared. -/
def Marks.clear (m : Marks) : SweepKind → Marks
  | .cancel => { m with cancel := false }
  | .retire => { m with retire := false }
  | .blackout => { m with blackout := false }

/-- A mark of an event is cleared by the engine (R15). -/
def State.clearMark (s : State) (n : Nat) (k : SweepKind) : State :=
  s.setEvent n { s.event n with marks := (s.event n).marks.clear k }

/-- The engine state is replaced. -/
def State.setEngine (s : State) (e : EngineState) : State :=
  { s with sweep := { s.sweep with engine := e } }

/-- The events in the order of the round robin: last served + 1 first, last served last (R59). -/
def roundRobin (lastServed : Nat) : List Nat :=
  (List.range 32).map (fun i => (lastServed + 1 + i) % 32)

/-- The first event of the round robin that carries a mark (R59). -/
def State.nextMarked (s : State) : Option Nat :=
  (roundRobin s.sweep.lastServed).find? (fun n => (s.event n).marks.first.isSome)

/-- An event sweep starts at the refresh cursor, and its first visit claims the port (R58, R59). -/
def State.startSweep (s : State) (n : Nat) (k : SweepKind) : State :=
  ({ s.clearMark n k with
      sweep := { s.sweep with
        engine := .sweeping
          { kind := k, event := n, start := s.carousel.cursor, cursor := s.carousel.cursor,
            visited := 0, changed := 0 }
        lastServed := n } } : State).claimSweep

/-- An IDLE engine chooses and starts a sweep if any event carries a mark (R58). -/
def State.chooseSweep (s : State) : State :=
  match s.nextMarked with
  | none => s
  | some n =>
    match (s.event n).marks.first with
    | none => s
    | some k => s.startSweep n k

/-- A visit that holds the port is overtaken by a new lap (R61, R67, R68; log 13). -/
def PortState.overtake : PortState → PortState
  | .visit kind ranges _ => .visit kind ranges true
  | .idle => .idle
  | .composition => .composition
  | .completion => .completion
  | .request => .request
  | .wipeWrite => .wipeWrite

/-- A running sweep takes over a mark of its event: the lap begins again at the cursor under the mark's kind
(R67, R68). A visit granted before keeps its kind and list and belongs to no lap of the new kind (R61; log 13). -/
def State.takeOver (s : State) (w : Sweep) (k : SweepKind) : State :=
  ((s.setEngine (.sweeping { w with kind := k, start := w.cursor, visited := 0 })).setPort
    { s.port with state := s.port.state.overtake }).clearMark w.event k

/-- The engine's reaction to a mark set for an event: a choice when IDLE, conversion or a new lap when a
BLACKOUT sweep of that event runs, otherwise the mark waits (R58, R67, R68, R69). -/
def State.markSet (s : State) (n : Nat) : State :=
  match s.sweep.engine with
  | .idle => s.chooseSweep
  | .wiping _ => s
  | .sweeping w =>
    if w.event = n ∧ w.kind = .blackout then
      match (s.event n).marks.first with
      | none => s
      | some k => s.takeOver w k
    else s

/-- The engine is running a CANCEL sweep for the event. -/
def State.cancelRunning (s : State) (n : Nat) : Bool :=
  match s.sweep.engine with
  | .idle => false
  | .wiping _ => false
  | .sweeping w => w.kind == .cancel && w.event == n

/-- The event's cancel sweep has completed (R12). -/
def State.cancelSweepDone (s : State) (n : Nat) : Bool :=
  !(s.event n).marks.cancel && !s.cancelRunning n

/-! ## Count changes (R13, R12) -/

/-- A CANCELLED event whose cancel sweep has completed and whose live count is 0 becomes RETIRED (R12). -/
def State.retireIfDone (s : State) (n : Nat) : State :=
  if (s.event n).state = .cancelled ∧ s.cancelSweepDone n = true ∧ (s.event n).counts.live = 0 then
    s.changeState n .retired
  else s

/-- A new grant: admitted and live one more (R13). -/
def Counts.insert (c : Counts) : Counts := { c with admitted := c.admitted + 1, live := c.live + 1 }

/-- A reinstatement: reinstated one more (R13). -/
def Counts.reinstate (c : Counts) : Counts := { c with reinstated := c.reinstated + 1 }

/-- A revoke to VACANT: live one less, revoked one more (R13). A live count of 0 has nothing to take from
(R14, log 19). -/
def Counts.revoke (c : Counts) : Counts :=
  if c.live = 0 then c else { c with live := c.live - 1, revoked := c.revoked + 1 }

/-- A retirement by a RETIRE visit: live one less, retired one more (R13; log 19). -/
def Counts.retire (c : Counts) : Counts :=
  if c.live = 0 then c else { c with live := c.live - 1, retired := c.retired + 1 }

/-- Retirement of the event: what is still live is lost (R11, R13). -/
def Counts.lose (c : Counts) : Counts := { c with lost := c.lost + c.live, live := 0 }

/-- A count change reported for an event; one for an EMPTY record is discarded (R13). -/
def State.report (s : State) (n : Nat) (f : Counts → Counts) : State :=
  if (s.event n).state = .empty then s
  else s.setEvent n { s.event n with counts := f (s.event n).counts }

/-- A grant revoked to VACANT is reported, and the retirement of R12 is tested at the count change. -/
def State.reportRevoked (s : State) (n : Nat) : State := (s.report n Counts.revoke).retireIfDone n

/-! ## Scrambler records (R117) -/

/-- The scrambler queue holds a record of the event (R117). -/
def State.hasRecord (s : State) (n : Nat) : Bool := s.scrambler.queue.any (fun r => r.event == n)

/-- The scrambler queue is replaced. -/
def State.setScramblerQueue (s : State) (q : List ScramblerRecord) : State :=
  { s with scrambler := { s.scrambler with queue := q } }

/-- The record is a SWITCH record. -/
def ScramblerPayload.isSwitch : ScramblerPayload → Bool
  | .switch _ _ _ => true
  | .clear _ => false

/-- A SWITCH record is appended (R117). -/
def State.postSwitch (s : State) (n service epoch : Nat) (key : Key) : State :=
  s.setScramblerQueue
    (s.scrambler.queue ++ [{ event := n, payload := .switch service epoch key }])

/-- A CLEAR record is posted: a queued SWITCH record of the event is withdrawn and counted, and the CLEAR record
is appended at the tail (R117; log 31). -/
def State.postClear (s : State) (n : Nat) : State :=
  let withdrawn := s.scrambler.queue.any (fun r => r.event == n && r.payload.isSwitch)
  let s1 := s.setScramblerQueue
    (s.scrambler.queue.filter (fun r => !(r.event == n))
      ++ [{ event := n, payload := .clear (s.event n).service }])
  if withdrawn then
    s1.count (fun c => { c with switchesWithdrawn := bump c.switchesWithdrawn })
  else s1

/-! ## Keys and epochs (R110 to R115) -/

/-- The event's keys are discarded; epoch, epoch start and length in force are kept (R103, R115). -/
def KeyFields.ended (k : KeyFields) : KeyFields :=
  { k with current := none, next := none, onDeck := none, announceCount := 0, keyLate := false }

/-- The event's keys are ended at a close or a cancel: a CLEAR record from a keyed state, the keys discarded,
KEY tags in flight voided, key-late cleared (R115). It is taken before the change of state. -/
def State.endKeys (s : State) (n : Nat) : State :=
  let s1 := if (s.event n).state.keyed then s.postClear n else s
  (s1.setEvent n { s1.event n with keys := (s1.event n).keys.ended }).voidTags
    (TagContent.isKeyOf n)

/-- The advance conditions, which are also the first-key condition: the next key is present, its announce count
is at least the announce minimum, and the scrambler queue holds no record of the event (R7, R110, R114). -/
def State.advanceReady (s : State) (n : Nat) : Bool :=
  (s.event n).keys.next.isSome
    && decide (s.settings.record.announceMinimum ≤ (s.event n).keys.announceCount)
    && !s.hasRecord n

/-- The epoch length of the unit's selection (R108). -/
def State.selectedLength (s : State) : Nat :=
  match s.selection with
  | .short => s.settings.record.shortEpoch
  | .long => s.settings.record.longEpoch

/-- The key fields after an advance to a key (R111). -/
def KeyFields.advance (k : KeyFields) (key : Key) (clock length : Nat) : KeyFields :=
  { epoch := k.epoch + 1, current := some key, next := k.onDeck, onDeck := none,
    announceCount := 0, epochStart := some clock, length := some length, keyLate := false }

/-- The record after an advance; KEY-LOW is raised when no next key remains (R111, R113). -/
def EventRecord.advance (r : EventRecord) (key : Key) (clock length : Nat) : EventRecord :=
  let r1 := { r with keys := r.keys.advance key clock length }
  if r.keys.onDeck.isNone then r1.raise .keyLow else r1

/-- An advance (R111). -/
def State.advance (s : State) (n : Nat) : State :=
  match (s.event n).keys.next with
  | none => s
  | some key =>
    (s.setEvent n ((s.event n).advance key s.clock.clock s.selectedLength)).postSwitch n
      (s.event n).service ((s.event n).keys.epoch + 1) key

/-- The state entry leads to: PREVIEW with a preview-start and the clock before live-start, otherwise LIVE
(R7). -/
def Window.entryState (w : Window) (clock : Nat) : EventState :=
  if w.previewStart.isSome ∧ clock < w.liveStart then .preview else .live

/-- Entry into a keyed state (R7, R114). -/
def State.enter (s : State) (n : Nat) : State :=
  match (s.event n).window with
  | none => s
  | some w => (s.advance n).changeState n (w.entryState s.clock.clock)

/-- The close of an event (R10). -/
def State.closeEvent (s : State) (n : Nat) : State :=
  let s1 := (s.endKeys n).changeState n .closed
  (s1.setEvent n
    { s1.event n with marks := { (s1.event n).marks with retire := true, blackout := false } }).markSet n

/-- The key-late flag is set and KEY-LATE raised, unless the flag is set already (R8, R112). -/
def State.setKeyLate (s : State) (n : Nat) : State :=
  if (s.event n).keys.keyLate then s
  else
    s.setEvent n
      { (s.event n).raise .keyLate with keys := { (s.event n).keys with keyLate := true } }

/-! ## The deadline steps of R5 -/

/-- Step 1: sale open (R6). -/
def State.stepSaleOpen (s : State) (n : Nat) (w : Window) : State :=
  if (s.event n).state = .scheduled ∧ w.saleOpen ≤ s.clock.clock then s.changeState n .onSale else s

/-- Step 2: entry, or key wait (R7, R8). -/
def State.stepEntry (s : State) (n : Nat) (w : Window) : State :=
  if (s.event n).state = .onSale ∧ w.entryDeadline ≤ s.clock.clock then
    if s.advanceReady n then s.enter n else s.setKeyLate n
  else s

/-- Step 3: live. -/
def State.stepLive (s : State) (n : Nat) (w : Window) : State :=
  if (s.event n).state = .preview ∧ w.liveStart ≤ s.clock.clock then s.changeState n .live else s

/-- Step 4: close, otherwise overtime (R10). -/
def State.stepClose (s : State) (n : Nat) (w : Window) : State :=
  if (s.event n).state.selling = true
      ∧ effectiveCloseOf w.scheduledClose (s.event n).hold ≤ s.clock.clock then s.closeEvent n
  else if (s.event n).state = .live ∧ w.scheduledClose ≤ s.clock.clock then
    s.changeState n .overtime
  else s

/-- The epoch boundary: epoch start + length in force (R110). -/
def KeyFields.boundary (k : KeyFields) : Option Nat :=
  match k.epochStart, k.length with
  | some a, some b => some (a + b)
  | some _, none => none
  | none, _ => none

/-- The clock has reached the epoch boundary. -/
def State.boundaryReached (s : State) (n : Nat) : Bool :=
  match (s.event n).keys.boundary with
  | none => false
  | some b => decide (b ≤ s.clock.clock)

/-- Step 5: epoch boundary, an advance or a held epoch (R110, R112). -/
def State.stepEpoch (s : State) (n : Nat) : State :=
  if (s.event n).state.keyed = true ∧ s.boundaryReached n = true then
    if s.advanceReady n then s.advance n else s.setKeyLate n
  else s

/-- The five steps of one event, each testing the state the one before it left (R5). -/
def State.deadlineSteps (s : State) (n : Nat) : State :=
  match (s.event n).window with
  | none => s
  | some w =>
    let s1 := s.stepSaleOpen n w
    let s2 := s1.stepEntry n w
    let s3 := s2.stepLive n w
    let s4 := s3.stepClose n w
    s4.stepEpoch n

/-- Every event once: first those of `order`, in that order, then the others by number (R143, log 6). -/
def eventOrder (order : List Nat) : List Nat :=
  let first := (order.filter (fun n => decide (n < 32))).eraseDups
  first ++ (List.range 32).filter (fun n => !first.contains n)

/-- The deadline steps of the events listed. -/
def State.deadlinesOf : State → List Nat → State
  | s, [] => s
  | s, n :: ns => State.deadlinesOf (s.deadlineSteps n) ns

/-- The largest night second. -/
def maxNightSecond : Nat := 16777215

/-- An advance of the clock and its deadline steps; at 16,777,215 the clock saturates and takes none (R142,
R143). -/
def State.advanceClock (s : State) (order : List Nat) : State :=
  if s.clock.clock < maxNightSecond then
    ({ s with clock := { s.clock with clock := s.clock.clock + 1 } } : State).deadlinesOf
      (eventOrder order)
  else s

/-! ## Entry and advance between seconds (R7, R8, R112) -/

/-- The close step is applied at once against the present clock (R7). -/
def State.closeStepNow (s : State) (n : Nat) : State :=
  match (s.event n).window with
  | none => s
  | some w => s.stepClose n w

/-- The conditions of an event in key wait or of a held epoch are checked again; the first check that finds them
true takes the entry or the advance (R8, R112). -/
def State.recheck (s : State) (n : Nat) : State :=
  if (s.event n).keys.keyLate = true ∧ s.advanceReady n = true then
    if (s.event n).state = .onSale then (s.enter n).closeStepNow n
    else if (s.event n).state.keyed then s.advance n
    else s
  else s

/-! ## The earliest-deadline report (R145, R146) -/

/-- Kinds of deadline, in step order (R146). -/
inductive DeadlineKind where
  | saleOpen | preview | live | close | epoch
  deriving DecidableEq, Repr

/-- The number of a deadline kind (section 11.2). -/
def deadlineKindNumber : DeadlineKind → Nat
  | .saleOpen => 0 | .preview => 1 | .live => 2 | .close => 3 | .epoch => 4

/-- A pending deadline. -/
structure Deadline where
  event : Nat
  time : Nat
  kind : DeadlineKind
  deriving DecidableEq, Repr

/-- The epoch boundary of a keyed event, unless the epoch is held or the boundary lies beyond the clock's range
(R110, R142). -/
def EventRecord.epochDeadlines (r : EventRecord) (n : Nat) : List Deadline :=
  match r.keys.boundary with
  | none => []
  | some b =>
    if r.keys.keyLate = false ∧ b ≤ maxNightSecond then
      [{ event := n, time := b, kind := .epoch }]
    else []

/-- The deadlines pending for an event, in step order (R145). -/
def EventRecord.deadlines (r : EventRecord) (n : Nat) : List Deadline :=
  match r.window with
  | none => []
  | some w =>
    let effective := effectiveCloseOf w.scheduledClose r.hold
    let closing : Deadline := { event := n, time := effective, kind := .close }
    match r.state with
    | .scheduled => [{ event := n, time := w.saleOpen, kind := .saleOpen }]
    | .onSale =>
      if r.keys.keyLate then [closing]
      else
        [{ event := n, time := w.entryDeadline,
           kind := if w.previewStart.isSome then .preview else .live }, closing]
    | .preview =>
      { event := n, time := w.liveStart, kind := .live } :: closing :: r.epochDeadlines n
    | .live =>
      (if w.scheduledClose < effective then
        { event := n, time := w.scheduledClose, kind := .close }
      else closing) :: r.epochDeadlines n
    | .overtime => closing :: r.epochDeadlines n
    | .empty | .closed | .cancelled | .retired => []

/-- The earlier of two deadlines, the first when they fall together (R146). -/
def earlier (a : Option Deadline) (b : Deadline) : Option Deadline :=
  match a with
  | none => some b
  | some d => if b.time < d.time then some b else some d

/-- All pending deadlines, by event number and then step order. -/
def State.allDeadlines (s : State) : List Deadline :=
  (List.range 32).flatMap (fun n => (s.event n).deadlines n)

/-- The earliest-deadline report (R146). -/
def State.earliestDeadline (s : State) : Option Deadline := s.allDeadlines.foldl earlier none

end Sys2Proof.Machine
end

