-- ==== Sys2Proof/Machine/CarouselOps.lean ====
section
/-! DEFINITION. Cycles, the composition order, messages and completion bookkeeping (04_the_carousel). -/

namespace Sys2Proof.Machine

/-- The carousel is replaced. -/
def State.setCarousel (s : State) (c : Carousel) : State := { s with carousel := c }

/-! ## Cycles (R78, R79) -/

/-- The owed entries of one event: KEY when it is ON-SALE or keyed, then STATE when repeats are owed (R78). -/
def EventRecord.owed (r : EventRecord) (n : Nat) : List OwedEntry :=
  (if r.state.selling then [.key n] else []) ++ (if 0 < r.repeatsOwed then [.state n] else [])

/-- The owed event-message list, by event number (R78). -/
def State.owedList (s : State) : List OwedEntry :=
  (List.range 32).flatMap (fun n => (s.event n).owed n)

/-- The start of a cycle (R78). -/
def State.startCycle (s : State) : State :=
  s.setCarousel
    { s.carousel with
      run := .running, composed := 0, finished := 0, urgentComposed := 0, freshComposed := 0,
      owed := s.owedList, attempt := .none, exhausted := false, cycle := s.carousel.cycle + 1 }

/-- The carousel with its cycle fields at their values outside RUNNING (R76). -/
def Carousel.atRest (c : Carousel) (run : CarouselState) : Carousel :=
  { c with
    run := run, composed := 0, finished := 0, urgentComposed := 0, freshComposed := 0, owed := [],
    attempt := .none, exhausted := false }

/-- The running cycle is over: the budget is spent, or nothing is eligible and every packet composed has
finished (R79). -/
def State.cycleOver (s : State) : Bool :=
  decide (s.settings.record.cycleLength ≤ s.carousel.finished)
    || (s.carousel.exhausted && s.carousel.finished == s.carousel.composed)

/-- A running cycle that is over ends (R79). -/
def State.endCycle (s : State) : State :=
  if s.carousel.run = .running ∧ s.cycleOver = true then s.setCarousel (s.carousel.atRest .waiting)
  else s

/-- A packet composed in a cycle finishes; it counts in that cycle only (R79). -/
def State.finishPacket (s : State) (cycle : Nat) : State :=
  if s.carousel.run = .running ∧ s.carousel.cycle = cycle then
    (s.setCarousel { s.carousel with finished := s.carousel.finished + 1 }).endCycle
  else s

/-! ## Messages (R93 to R95) -/

/-- The next key a KEY message carries, with the epoch it belongs to (R93). -/
def KeyFields.announced (k : KeyFields) : Option (Nat × Key) := k.next.map (fun key => (k.epoch + 1, key))

/-- The KEY message of an event (R93). -/
def EventRecord.keyMessage (r : EventRecord) (n : Nat) : Message :=
  .key r.service n (if r.state = .onSale then 0 else r.keys.epoch)
    (if r.state = .onSale then none else r.keys.current) r.keys.announced
    (decide (r.state = .preview))

/-- The STATE message of an event (R94). -/
def EventRecord.stateMessage (r : EventRecord) (n : Nat) : Message :=
  match r.window with
  | none => .state 0 n r.state 0 0 r.blackout
  | some w =>
    .state w.service n r.state w.liveStart (effectiveCloseOf w.scheduledClose r.hold) r.blackout

/-- An owed entry's message is composed, or the entry dropped (R82). -/
def OwedEntry.composable (e : OwedEntry) (s : State) : Bool :=
  match e with
  | .key n =>
    (s.event n).state.keyed || ((s.event n).state == .onSale && (s.event n).keys.next.isSome)
  | .state n => (s.event n).state != .empty && decide (0 < (s.event n).repeatsOwed)

/-- The message of an owed entry, at the moment of composition (R82). -/
def OwedEntry.message (e : OwedEntry) (s : State) : Message :=
  match e with
  | .key n => (s.event n).keyMessage n
  | .state n => (s.event n).stateMessage n

/-- The completion tag's content for an owed entry (R92). -/
def OwedEntry.tagContent (e : OwedEntry) (s : State) : TagContent :=
  match e with
  | .key n => .key n ((s.event n).keys.announced.map Prod.fst)
  | .state n => .state n (s.event n).state

/-! ## Composition (R80, R81) -/

/-- A composed message is placed into staging: it is counted, the attempt ends, and the unit asserts its
request (R80, R92, R123). -/
def State.place (s : State) (m : Message) (c : TagContent) : State :=
  { s with
    carousel := { s.carousel with composed := s.carousel.composed + 1, attempt := .none }
    bus := { s.bus with
      staging := some
        { message := m, tag := some { cycle := s.carousel.cycle, content := c, voided := false } }
      state := if s.bus.state = .idle then .requesting else s.bus.state } }

/-- A composition attempt begins when all of these hold (R80). -/
def State.mayCompose (s : State) : Bool :=
  s.carousel.run == .running && s.night == .opened && s.bus.staging.isNone
    && s.bus.state != .fault && decide (s.carousel.composed < s.settings.record.cycleLength)
    && !s.carousel.exhausted

/-- An attempt ends without a message. -/
def State.endAttempt (s : State) : State := s.setCarousel { s.carousel with attempt := .none }

/-- Step 7: nothing is eligible; no further attempt begins in the cycle, which ends once its packets have
finished (R79, R81). -/
def State.nothingEligible (s : State) : State :=
  (s.setCarousel { s.carousel with attempt := .none, exhausted := true }).endCycle

/-- Step 6: the fresh queue beyond its share. -/
def State.tryFreshRest (s : State) : State :=
  if s.carousel.fresh.isEmpty then s.nothingEligible else s.claimComposition .freshRest

/-- Step 5: the urgent queue beyond its share. -/
def State.tryUrgentRest (s : State) : State :=
  if s.carousel.urgent.isEmpty then s.tryFreshRest else s.claimComposition .urgentRest

/-- Step 4: the refresh cursor, with the reads made so far in the step (R90). -/
def State.tryRefresh (s : State) (reads : Nat) : State :=
  if reads < 32 then s.claimComposition (.refresh reads) else s.tryUrgentRest

/-- Step 3: the fresh queue within its share. -/
def State.tryFreshShare (s : State) : State :=
  if s.carousel.freshComposed < s.settings.record.freshShare ∧ s.carousel.fresh ≠ [] then
    s.claimComposition .freshShare
  else s.tryRefresh 0

/-- Step 2: the urgent queue within its share. -/
def State.tryUrgentShare (s : State) : State :=
  if s.carousel.urgentComposed < s.settings.record.urgentShare ∧ s.carousel.urgent ≠ [] then
    s.claimComposition .urgentShare
  else s.tryFreshShare

/-- The owed list is replaced. -/
def State.setOwed (s : State) (q : List OwedEntry) : State :=
  { s with carousel := { s.carousel with owed := q } }

/-- Step 1: the owed list from its head; entries that cannot be composed are dropped (R82). -/
def State.tryOwed : List OwedEntry → State → State
  | [], s => (s.setOwed []).tryUrgentShare
  | e :: es, s =>
    if e.composable s then (s.setOwed es).place (e.message s) (e.tagContent s)
    else State.tryOwed es s

/-- An attempt goes on after a read that yielded nothing, unless NIGHT-CLOSE has abandoned it (R102). -/
def State.goOn (s : State) (f : State → State) : State :=
  if s.carousel.run = .running then f s else s.endAttempt

/-- A message is placed, unless NIGHT-CLOSE has abandoned the attempt (R102). The function counts the message
in its share. -/
def State.emit (s : State) (m : Message) (c : TagContent) (share : Carousel → Carousel) : State :=
  if s.carousel.run = .running then (s.setCarousel (share s.carousel)).place m c else s.endAttempt

/-- A message of the urgent queue (R81). -/
def Carousel.countUrgent (c : Carousel) : Carousel := { c with urgentComposed := c.urgentComposed + 1 }

/-- A message of the fresh queue (R81). -/
def Carousel.countFresh (c : Carousel) : Carousel := { c with freshComposed := c.freshComposed + 1 }

/-- A REVOKE message composed from a slot (R92, R95). -/
def State.emitRevoke (s : State) (n : Nat) (g : Grant) (why : Option RevokeReason)
    (share : Carousel → Carousel) : State :=
  s.emit (.revoke g.decoder g.event (s.event g.event).service why) (.revoke n g.decoder g.event) share

/-- The reason for which a GRANT candidate is converted at emission, if it is (R91). -/
def State.conversion (s : State) (g : Grant) : Option RevokeReason :=
  if (s.event g.event).state = .cancelled then some .cancelled
  else if g.kind = .purchased ∧ blackedOut (s.event g.event).blackout g.region = true then
    some .blackout
  else none

/-- A GRANT candidate is converted or composed into a GRANT message (R91, R92, R95). -/
def State.emitCandidate (s : State) (n : Nat) (g : Grant) (share : Carousel → Carousel) : State :=
  match s.conversion g with
  | some why => (s.putSlot n ((s.slot n).revoke why)).emitRevoke n g (some why) share
  | none =>
    s.emit (.grant g.decoder g.event (s.event g.event).service g.kind)
      (.grant n g.decoder g.event) share

/-- The slot's event is ON-SALE, keyed or CANCELLED (R89). -/
def State.offers (s : State) (g : Grant) : Bool :=
  (s.event g.event).state.selling || (s.event g.event).state == .cancelled

/-- Eligibility of a slot read by the refresh cursor, with the pass number before the move (R88, R89). -/
def State.eligible (s : State) (x : Slot) (g : Grant) (pass : Nat) : Bool :=
  match x.state with
  | .pending | .announced => s.offers g
  | .held => s.offers g && pass % s.settings.record.heldInterval == 0
  | .revoking => !(s.event g.event).state.finished
  | .empty | .vacant | .damaged => false

/-- The refresh cursor moves to its successor; the wrap counts a pass, which returns to 0 from 4,294,967,295
(R87). -/
def State.moveCursor (s : State) : State :=
  { s with
    carousel := { s.carousel with
      cursor := s.successor s.carousel.cursor
      pass :=
        if s.carousel.cursor + 1 = s.slotCount then (s.carousel.pass + 1) % 4294967296
        else s.carousel.pass } }

/-! ## Completion bookkeeping (R96 to R101) -/

/-- The packet counter of a completed packet (R101). -/
def Counters.countPacket (c : Counters) : TagContent → Counters
  | .key _ _ => { c with keyPackets := bump c.keyPackets }
  | .state _ _ => { c with statePackets := bump c.statePackets }
  | .grant _ _ _ => { c with grantPackets := bump c.grantPackets }
  | .revoke _ _ _ => { c with revokePackets := bump c.revokePackets }

/-- A KEY completion: the announce count rises when the present next key is the one carried, and the conditions
are checked again (R99, R109). -/
def State.bookKey (s : State) (n : Nat) (carried : Option Nat) : State :=
  if (s.event n).keys.next.isSome = true ∧ carried = some ((s.event n).keys.epoch + 1) then
    (s.setEvent n
      { s.event n with
        keys := { (s.event n).keys with
          announceCount := bump255 (s.event n).keys.announceCount } }).recheck n
  else s

/-- A STATE completion lowers repeats owed when the event still holds the state carried (R100). -/
def State.bookState (s : State) (n : Nat) (carried : EventState) : State :=
  if (s.event n).state ≠ .empty ∧ (s.event n).state = carried ∧ 0 < (s.event n).repeatsOwed then
    s.setEvent n { s.event n with repeatsOwed := (s.event n).repeatsOwed - 1 }
  else s

/-- The bookkeeping of a completed packet: a completion update claimed for GRANT and REVOKE, KEY and STATE booked
at the report; a voided tag books nothing (R96). -/
def State.book (s : State) (t : Tag) : State :=
  if t.voided then s
  else
    match t.content with
    | .key n carried => s.bookKey n carried
    | .state n carried => s.bookState n carried
    | .grant _ _ _ => s.claimCompletion t
    | .revoke _ _ _ => s.claimCompletion t

/-- The report of a completed packet while the unit is OPEN: it is counted, booked, and finishes; otherwise it is
discarded (R79, R96, R101; log 14). -/
def State.complete (s : State) (tag : Option Tag) : State :=
  match tag with
  | none => s
  | some t =>
    if s.night = .opened then
      ((s.count (fun c => c.countPacket t.content)).book t).finishPacket t.cycle
    else s

end Sys2Proof.Machine
end

