-- ==== Sys2Proof/Machine/BusSteps.lean ====
section
/-! DEFINITION. The insertion bus: the arbiter's steps, a packet's start and end, and BUS-CLEAR
(06_the_insertion_bus). A step that is not due changes nothing but the levels taken in (log 2, log 7). -/

namespace Sys2Proof.Machine

/-- The unit bus state is replaced. -/
def State.setBus (s : State) (b : BusInterface) : State := { s with bus := b }

/-- The arbiter is replaced. -/
def State.setArbiter (s : State) (a : Arbiter) : State := { s with arbiter := a }

/-- The arbiter is IDLE again; last granted stays (R129). -/
def State.idleArbiter (s : State) : State := s.setArbiter { s.arbiter with state := .idle }

/-! ## BUS-CLEAR (R133) -/

/-- The arbiter stands in FAULT; a secondary has none (R128). -/
def State.arbiterFaulted (s : State) : Bool := s.straps.primary && s.arbiter.state == .fault

/-- The unit's own bus state becomes IDLE if it is FAULT. -/
def State.clearBusFault (s : State) : State :=
  if s.bus.state = .fault then s.setBus { s.bus with state := .idle } else s

/-- The arbiter becomes IDLE if it is in FAULT. -/
def State.clearArbiterFault (s : State) : State :=
  if s.arbiterFaulted then s.idleArbiter else s

/-- BUS-CLEAR at its owner (R133). -/
def State.clearBus (s : State) (h : HeldRequest) : State :=
  if (s.bus.state == .fault || s.arbiterFaulted) && s.drive then s.refuse h .wrongState
  else s.clearBusFault.clearArbiterFault.finish h .ok []

/-- BUS_CLEAR (R133). -/
def execBusClear (lines : BusLines) (s : State) : Result :=
  match s.link.holder with
  | .held h =>
    match h.request with
    | .busClear => .next ((s.sampleLines lines).clearBus h)
    | _ => .next s
  | _ => .next s

/-! ## The arbiter (R128 to R132) -/

/-- The rotation after a requester: own, 1, 2, 3 and own again, the one given last (R128). -/
def Requester.rotation : Requester → List Requester
  | .own => [.pair1, .pair2, .pair3, .own]
  | .pair1 => [.pair2, .pair3, .own, .pair1]
  | .pair2 => [.pair3, .own, .pair1, .pair2]
  | .pair3 => [.own, .pair1, .pair2, .pair3]

/-- A requester's request is asserted (R128). -/
def State.requests (s : State) : Requester → Bool
  | .own => s.request
  | .pair1 => s.bus.lines.req1
  | .pair2 => s.bus.lines.req2
  | .pair3 => s.bus.lines.req3

/-- A requester is in service; own always is (R128). -/
def PairSet.serves (p : PairSet) : Requester → Bool
  | .own => true
  | .pair1 => p.pair1
  | .pair2 => p.pair2
  | .pair3 => p.pair3

/-- A requester is eligible: its request is asserted and it is in service (R128). -/
def State.mayGrant (s : State) (r : Requester) : Bool :=
  s.requests r && s.settings.record.pairs.serves r

/-- The first eligible requester after last granted (R129). -/
def State.nextGrant (s : State) : Option Requester :=
  s.arbiter.lastGranted.rotation.find? s.mayGrant

/-- A grant to a requester (R129). -/
def State.grantBus (s : State) (r : Requester) : State :=
  s.setArbiter { state := .granted r false, lastGranted := r }

/-- The IDLE arbiter of a primary grants if READY is asserted and a requester is eligible; with DRIVE asserted it
faults instead (R129, R130; log 18). -/
def State.arbiterGrants (s : State) : State :=
  if s.straps.primary = true ∧ s.arbiter.state = .idle ∧ s.bus.lines.ready = true
      ∧ s.drive = false then
    match s.nextGrant with
    | none => s
    | some r => s.grantBus r
  else s

/-- ARBITER_GRANT (R129). -/
def execArbiterGrant (lines : BusLines) (s : State) : Result :=
  .next (s.sampleLines lines).arbiterGrants

/-- DRIVE seen asserted during a grant sets grant taken (R129). -/
def State.takeGrant (s : State) : State :=
  if s.straps.primary = true ∧ s.drive = true then
    match s.arbiter.state with
    | .granted r _ => s.setArbiter { s.arbiter with state := .granted r true }
    | .idle | .fault => s
  else s

/-- GRANT_TAKEN (R129). -/
def execGrantTaken (lines : BusLines) (s : State) : Result := .next (s.sampleLines lines).takeGrant

/-- DRIVE released after grant taken ends the grant (R129). -/
def State.endGrant (s : State) : State :=
  if s.straps.primary = true ∧ s.drive = false then
    match s.arbiter.state with
    | .granted _ true => s.idleArbiter
    | .granted _ false => s
    | .idle | .fault => s
  else s

/-- GRANT_END (R129). -/
def execGrantEnd (lines : BusLines) (s : State) : Result := .next (s.sampleLines lines).endGrant

/-- A grant withdrawn at its timeout is counted (R129). -/
def State.withdrawGrant (s : State) : State :=
  s.idleArbiter.count (fun c => { c with grantTimeouts := bump c.grantTimeouts })

/-- The timeout of a grant during which DRIVE has not been asserted (R129). -/
def State.timeoutGrant (s : State) : State :=
  if s.straps.primary = true ∧ s.drive = false then
    match s.arbiter.state with
    | .granted _ true => s
    | .granted _ false => s.withdrawGrant
    | .idle | .fault => s
  else s

/-- GRANT_TIMEOUT (R129). -/
def execGrantTimeout (lines : BusLines) (s : State) : Result :=
  .next (s.sampleLines lines).timeoutGrant

/-- An arbiter fault (R130). -/
def State.faultArbiter (s : State) : State :=
  ((s.setArbiter { s.arbiter with state := .fault }).count
    (fun c => { c with arbiterFaults := bump c.arbiterFaults })).raise .busFault

/-- An IDLE arbiter that finds DRIVE asserted takes the fault (R130). -/
def State.testArbiterFault (s : State) : State :=
  if s.straps.primary = true ∧ s.arbiter.state = .idle ∧ s.drive = true then s.faultArbiter else s

/-- ARBITER_FAULT (R130). -/
def execArbiterFault (lines : BusLines) (s : State) : Result :=
  .next (s.sampleLines lines).testArbiterFault

/-! ## A packet's start and end (R124 to R126) -/

/-- The staged packet moves to sending (R124). -/
def State.beginPacket (s : State) : State :=
  s.setBus { s.bus with state := .sending, staging := none, sending := s.bus.staging }

/-- A packet lost finishes without completion in its cycle (R79, R126). -/
def State.finishLost (s : State) (tag : Option Tag) : State :=
  match tag with
  | none => s
  | some t => s.finishPacket t.cycle

/-- A mode fault (R126). -/
def State.modeFault (s : State) : State :=
  (((s.setBus { s.bus with state := .fault, staging := none }).count
    (fun c => { c with lostPackets := bump c.lostPackets })).raise .busFault).finishLost
      (tagOf s.bus.staging)

/-- A REQUESTING unit that is OPEN and holds a grant begins, or takes a mode fault (R124). -/
def State.startPacket (s : State) : State :=
  if s.bus.state = .requesting ∧ s.night = .opened ∧ s.holdsGrant = true then
    if s.drive then s.modeFault else s.beginPacket
  else s

/-- PACKET_START (R124). -/
def execPacketStart (lines : BusLines) (s : State) : Result :=
  .next (s.sampleLines lines).startPacket

/-- The unit bus state after a send (R125); OFF stays OFF (R136). -/
def BusInterface.afterSend (b : BusInterface) : BusState :=
  if b.state = .sending then (if b.staging.isSome then .requesting else .idle) else b.state

/-- The sending buffer is emptied at the 64th byte (R125). -/
def State.endSend (s : State) : State :=
  s.setBus { s.bus with state := s.bus.afterSend, sending := none }

/-- SEND_END (R125): the completion is reported to the carousel with the packet's tag. -/
def execSendEnd (s : State) : Result :=
  match s.bus.sending with
  | none => .next s
  | some p => .next (s.endSend.complete p.tag)

end Sys2Proof.Machine
end

