-- ==== Sys2Proof/Machine/CarouselSteps.lean ====
section
/-! DEFINITION. The carousel's steps: a composition attempt, its reads of the queues and of the refresh cursor,
and the completion updates (04_the_carousel). Each read is one store operation; the port is granted again when it
ends, and a further read is claimed after that (R43, R81; log 22). -/

namespace Sys2Proof.Machine

/-- COMPOSITION_ATTEMPT (R80): it begins once every condition holds, at step 1 of R81. -/
def execCompositionAttempt (s : State) : Result :=
  if s.mayCompose = true ∧ s.carousel.attempt = .none then
    .next (State.tryOwed s.carousel.owed s)
  else .next s

/-- The slot's queue mark is written NONE (R42, R85, R86). -/
def State.clearSlotMark (s : State) (n : Nat) : State :=
  s.putSlot n { s.slot n with mark := .none }

/-! ## The urgent queue (R85) -/

/-- The grant of an urgent entry that is used: its slot is REVOKING and its event is neither CLOSED nor RETIRED
(R85). -/
def State.urgentUse (s : State) (n : Nat) : Option Grant :=
  match (s.slot n).grant with
  | none => none
  | some g =>
    if (s.slot n).state = .revoking ∧ (s.event g.event).state.finished = false then some g else none

/-- The entry of a slot is taken from the head of the urgent queue: used, or dropped and the same step goes on
(R85). -/
def State.takeUrgent (s : State) (n : Nat) (rest : List Nat) (again : State → State) : State :=
  let s1 := ((s.check n).setUrgent rest).clearSlotMark n
  match s1.urgentUse n with
  | some g => (s1.emitRevoke n g (s1.slot n).reason Carousel.countUrgent).releasePort
  | none => s1.releasePort.goOn again

/-- One store operation on the head of the urgent queue. -/
def State.dequeueUrgent (s : State) (upset : List Nat) (again : State → State) : Result :=
  match s.carousel.urgent with
  | [] => .next (s.releasePort.goOn again)
  | n :: rest => s.withinStore n (.next ((s.upset upset).takeUrgent n rest again))

/-- URGENT_DEQUEUE (R85), within step 2 or step 5 of R81. -/
def execUrgentDequeue (upset : List Nat) (s : State) : Result :=
  match s.port.state, s.carousel.attempt with
  | .composition, .urgentShare => s.dequeueUrgent upset State.tryUrgentShare
  | .composition, .urgentRest => s.dequeueUrgent upset State.tryUrgentRest
  | _, _ => .next s

/-! ## The fresh queue (R86) -/

/-- The grant of a fresh entry that is used: its slot is PENDING and its event ON-SALE or keyed (R86). -/
def State.freshUse (s : State) (n : Nat) : Option Grant :=
  match (s.slot n).grant with
  | none => none
  | some g =>
    if (s.slot n).state = .pending ∧ (s.event g.event).state.selling = true then some g else none

/-- The entry of a slot is taken from the head of the fresh queue: used, or dropped and the same step goes on
(R86). -/
def State.takeFresh (s : State) (n : Nat) (rest : List Nat) (again : State → State) : State :=
  let s1 := ((s.check n).setFresh rest).clearSlotMark n
  match s1.freshUse n with
  | some g => (s1.emitCandidate n g Carousel.countFresh).releasePort
  | none => s1.releasePort.goOn again

/-- One store operation on the head of the fresh queue. -/
def State.dequeueFresh (s : State) (upset : List Nat) (again : State → State) : Result :=
  match s.carousel.fresh with
  | [] => .next (s.releasePort.goOn again)
  | n :: rest => s.withinStore n (.next ((s.upset upset).takeFresh n rest again))

/-- FRESH_DEQUEUE (R86), within step 3 or step 6 of R81. -/
def execFreshDequeue (upset : List Nat) (s : State) : Result :=
  match s.port.state, s.carousel.attempt with
  | .composition, .freshShare => s.dequeueFresh upset State.tryFreshShare
  | .composition, .freshRest => s.dequeueFresh upset State.tryFreshRest
  | _, _ => .next s

/-! ## The refresh cursor (R88 to R90) -/

/-- The grant of a slot the refresh cursor has read, if it is eligible at the pass given (R89). -/
def State.refreshUse (s : State) (n pass : Nat) : Option Grant :=
  match (s.slot n).grant with
  | none => none
  | some g => if s.eligible (s.slot n) g pass then some g else none

/-- A message of the refresh cursor: a REVOKE message from a REVOKING slot, a GRANT candidate otherwise (R88). -/
def State.emitRefresh (s : State) (n : Nat) (g : Grant) : State :=
  if (s.slot n).state = .revoking then s.emitRevoke n g (s.slot n).reason id
  else s.emitCandidate n g id

/-- A refresh read of a slot: the cursor moves on, and the slot is tested with the pass number before the move
(R88). -/
def State.readRefresh (s : State) (n reads : Nat) : State :=
  let s1 := (s.check n).moveCursor
  match s1.refreshUse n s.carousel.pass with
  | some g => (s1.emitRefresh n g).releasePort
  | none => s1.releasePort.goOn (fun t => t.tryRefresh (reads + 1))

/-- REFRESH_READ (R88), within step 4 of R81. -/
def execRefreshRead (upset : List Nat) (s : State) : Result :=
  match s.port.state, s.carousel.attempt with
  | .composition, .refresh reads =>
    s.withinStore s.carousel.cursor (.next ((s.upset upset).readRefresh s.carousel.cursor reads))
  | _, _ => .next s

/-! ## Completion updates (R97, R98) -/

/-- A slot after a completed GRANT message (R97). -/
def Slot.delivered (x : Slot) (confirmCount : Nat) : Slot :=
  let y : Slot :=
    { x with
      emissions := bump255 x.emissions
      state := if x.state = .pending then .announced else x.state }
  if y.state = .announced ∧ confirmCount ≤ y.emissions then { y with state := .held } else y

/-- The GRANT completion update of a slot (R97). -/
def State.updateGrant (s : State) (n decoder event : Nat) : State :=
  let s1 := s.check n
  if (s1.slot n).holds decoder event = true ∧ (s1.slot n).state.granted = true then
    s1.putSlot n ((s1.slot n).delivered s1.settings.record.confirmCount)
  else s1

/-- The REVOKE completion update of a slot: at the revoke count it is VACANT and reported (R98). -/
def State.updateRevoke (s : State) (n decoder event : Nat) : State :=
  let s1 := s.check n
  let x := s1.slot n
  if x.holds decoder event = true ∧ x.state = .revoking then
    if s1.settings.record.revokeCount ≤ bump255 x.emissions then
      (s1.putSlot n x.vacate).reportRevoked event
    else s1.putSlot n { x with emissions := bump255 x.emissions }
  else s1

/-- The update at the head has been taken: it is dropped and the port granted again (R43, R96). -/
def State.endUpdate (s : State) (rest : List Tag) : State :=
  (s.setPort { s.port with completions := rest }).releasePort

/-- GRANT_COMPLETION_UPDATE (R97); a voided tag books nothing (R96; log 15). -/
def execGrantCompletionUpdate (upset : List Nat) (s : State) : Result :=
  match s.port.state, s.port.completions with
  | .completion, t :: rest =>
    match t.content with
    | .grant n d e =>
      if t.voided then .next (s.endUpdate rest)
      else s.withinStore n (.next (((s.upset upset).updateGrant n d e).endUpdate rest))
    | .revoke _ _ _ => .next s
    | .key _ _ => .next s
    | .state _ _ => .next s
  | _, _ => .next s

/-- REVOKE_COMPLETION_UPDATE (R98); a voided tag books nothing (R96; log 15). -/
def execRevokeCompletionUpdate (upset : List Nat) (s : State) : Result :=
  match s.port.state, s.port.completions with
  | .completion, t :: rest =>
    match t.content with
    | .revoke n d e =>
      if t.voided then .next (s.endUpdate rest)
      else s.withinStore n (.next (((s.upset upset).updateRevoke n d e).endUpdate rest))
    | .grant _ _ _ => .next s
    | .key _ _ => .next s
    | .state _ _ => .next s
  | _, _ => .next s

end Sys2Proof.Machine
end

