-- ==== Sys2Proof/Machine/ClockSteps.lean ====
section
/-! DEFINITION. The steps of time: the SECOND pulse, the flywheel and the cycle tick (07_night_clock_and_deadlines,
R77). Moments are milliseconds of the unit's timer (log 4); `order` is the order of events within the second
(log 6). -/

namespace Sys2Proof.Machine

/-- The timer has reached a moment; it does not go back (log 4). -/
def State.reach (s : State) (t : Nat) : State :=
  { s with timer := { s.timer with now := max s.timer.now t } }

/-- The night clock is replaced. -/
def State.setClock (s : State) (c : NightClock) : State := { s with clock := c }

/-- A pulse taken: REFERENCE, last tick and last pulse at its moment (R139, R141). -/
def State.takePulse (s : State) (t : Nat) : State :=
  s.setClock { s.clock with source := .reference, lastTick := some t, lastPulse := some t }

/-- A moment lies within the absorb window: less than 500 ms after the last supplied second (R141). -/
def NightClock.absorbs (c : NightClock) (t : Nat) : Bool :=
  match c.lastTick with
  | none => false
  | some a => decide (t < a + 500)

/-- A pulse in FLYWHEEL (R141). -/
def State.restorePulse (s : State) (t : Nat) (order : List Nat) : State :=
  let s1 := (s.takePulse t).raise .clockRestored
  if s.clock.absorbs t then s1.count (fun c => { c with absorbedPulses := bump c.absorbedPulses })
  else s1.advanceClock order

/-- A pulse at a moment: ignored in STOPPED, an advance in REFERENCE, the return in FLYWHEEL (R138, R139,
R141). -/
def State.pulseAt (s : State) (t : Nat) (order : List Nat) : State :=
  match s.clock.source with
  | .stopped => s
  | .reference => (s.takePulse t).advanceClock order
  | .flywheel => s.restorePulse t order

/-- SECOND_PULSE (R139), `elapsed` milliseconds after the latest moment of the timer. -/
def execSecondPulse (elapsed : Nat) (order : List Nat) (s : State) : Result :=
  .next ((s.reach (s.timer.now + elapsed)).pulseAt (s.timer.now + elapsed) order)

/-- A second supplied by the flywheel (R140). -/
def State.supplySecond (s : State) (t : Nat) (order : List Nat) : State :=
  ((s.setClock { s.clock with lastTick := some t }).count
    (fun c => { c with flywheelSeconds := bump c.flywheelSeconds })).advanceClock order

/-- Flywheel entry at a moment (R140). -/
def State.enterFlywheel (s : State) (t : Nat) (order : List Nat) : State :=
  (((s.setClock { s.clock with source := .flywheel }).raise .clockFlywheel).reach t).supplySecond t order

/-- FLYWHEEL_ENTRY (R140): 1,500 ms after last tick in REFERENCE. -/
def execFlywheelEntry (order : List Nat) (s : State) : Result :=
  match s.clock.source, s.clock.lastTick with
  | .reference, some a => .next (s.enterFlywheel (a + 1500) order)
  | .reference, none => .next s
  | .stopped, _ => .next s
  | .flywheel, _ => .next s

/-- The next moment of the flywheel's grid of whole seconds from the last pulse (R140). -/
def flywheelMoment (lastPulse lastTick : Nat) : Nat :=
  lastPulse + 1000 * ((lastTick - lastPulse) / 1000 + 1)

/-- FLYWHEEL_SECOND (R140). -/
def execFlywheelSecond (order : List Nat) (s : State) : Result :=
  match s.clock.source, s.clock.lastPulse, s.clock.lastTick with
  | .flywheel, some p, some a =>
    .next ((s.reach (flywheelMoment p a)).supplySecond (flywheelMoment p a) order)
  | .flywheel, some _, none => .next s
  | .flywheel, none, _ => .next s
  | .stopped, _, _ => .next s
  | .reference, _, _ => .next s

/-- The cycle tick at its moment: a WAITING carousel of an OPEN unit starts a cycle (R77). -/
def State.cycleTick (s : State) (t : Nat) : State :=
  let s1 : State := { s with timer := { now := max s.timer.now t, cycleTickAt := t } }
  if s.carousel.run = .waiting ∧ s.night = .opened then s1.startCycle else s1

/-- CYCLE_TICK (R77): 250 ms after the one before. -/
def execCycleTick (s : State) : Result := .next (s.cycleTick (s.timer.cycleTickAt + 250))

end Sys2Proof.Machine
end

