-- ==== Sys2Proof/Machine/ResetOps.lean ====
section
/-! DEFINITION. Starting a WIPE, and the resets (R72, R168, R182). -/

namespace Sys2Proof.Machine

/-- Every sweep mark of every event is cleared (R72). -/
def clearMarks (rs : List EventRecord) : List EventRecord :=
  rs.map (fun r => { r with marks := Marks.none })

/-- The start of a WIPE (R72): a running event sweep is abandoned, marks cleared, queues emptied, refresh cursor
and pass number returned to 0, the sizes in force taken, occupancy zeroed, last served 31, and the first
slot write claims the port. -/
def State.startWipe (s : State) : State :=
  ({ s with
      events := clearMarks s.events
      carousel := { s.carousel with fresh := [], urgent := [], cursor := 0, pass := 0 }
      store := { s.store with
        sizeA := s.settings.record.bankA, sizeB := s.settings.record.bankB,
        drawn := 0, damaged := 0 }
      sweep := { engine := .wiping 0, lastServed := 31, wipePending := false } } : State).claimSweep

/-- The EEPROM after a reset: a save in progress is abandoned and its copy fails its CRC (R181, log 12). -/
def Settings.eepromAfterReset (t : Settings) : EepromCopy :=
  match t.save with
  | some _ => .cutShort
  | none => t.eeprom

/-- Every block at its reset values, with the straps latched from the pins (R182, step 1; R168). What a reset
does not reach is kept: input levels, SRAM contents, EEPROM, the commands that wait. The record in force,
the last load result and the timer are given by the kind of reset. -/
def State.resetBlocks (s : State) (pins : Straps) (record : ConfigRecord) (load : LoadResult)
    (timer : Timer) (sizeA sizeB : Nat) : State :=
  { night := .starting
    straps := pins
    timer := timer
    clock := { clock := 0, source := .stopped, lastTick := none, lastPulse := none }
    settings :=
      { record := record, save := none, lastSave := .none, lastLoad := load,
        eeprom := s.settings.eepromAfterReset }
    events := List.replicate 32 EventRecord.empty
    selection := .short
    scrambler := { queue := [], ready := s.scrambler.ready }
    store :=
      { sizeA := sizeA, sizeB := sizeB, drawn := 0, damaged := 0, memory := s.store.memory }
    port :=
      { state := .idle, composition := false, completions := [], request := false, sweep := false }
    sweep := { engine := .idle, lastServed := 31, wipePending := false }
    carousel := Carousel.reset
    bus := { state := .off, staging := none, sending := none, lines := s.bus.lines }
    arbiter := { state := .idle, lastGranted := .pair3 }
    link := { receiver := .hunt, failureRun := 0, holder := .free }
    notice := Notice.reset
    counters := Counters.zero
    pending := s.pending }

/-- UNIT-RESET: the record in force is kept, nothing is loaded, and the WIPE starts at once (R168, R72). The
millisecond timer is not moved (section 4.2; log 24). -/
def State.unitReset (s : State) (pins : Straps) : State :=
  (s.resetBlocks pins s.settings.record .notLoaded s.timer s.store.sizeA s.store.sizeB).startWipe

end Sys2Proof.Machine
end

