-- ==== Sys2Proof/Machine/EventRequests.lean ====
section
/-! DEFINITION. The requests owned by the event table (01, section 1.8) and KEY-LOAD (R105, R106). -/

namespace Sys2Proof.Machine

/-- Night state, event number and existence, in the order of R18; what follows is given the record. -/
def State.eventGate (s : State) (h : HeldRequest) (n : Nat) (k : EventRecord → State) : State :=
  match s.night with
  | .starting => s.refuse h .notReady
  | .closing => s.refuse h .wrongNightState
  | .setup | .opened =>
    if 31 < n then s.badField h 1
    else if (s.event n).state = .empty then s.refuse h .noEvent
    else k (s.event n)

/-- The index of the first bad range field, counting from `i`; the order of low and high names the high field
(R184). -/
def badRange : List Range → Nat → Option Nat
  | [], _ => none
  | r :: rs, i =>
    if 255 < r.low then some i
    else if 255 < r.high ∨ r.high < r.low then some (i + 1)
    else badRange rs (i + 2)

/-- The preview-start given, if its flag says it is present (R184). -/
def DefineFields.preview (d : DefineFields) : Option Nat :=
  if d.flags.getLsbD 0 then some d.previewStart else none

/-- The latest time that live-start must follow: preview-start when present, otherwise sale-open (R19). -/
def DefineFields.beforeLive (d : DefineFields) : Nat :=
  match d.preview with
  | some t => t
  | none => d.saleOpen

/-- The preview-start given is out of range or before sale-open (R19). -/
def DefineFields.previewBad (d : DefineFields) : Bool :=
  match d.preview with
  | none => false
  | some t => decide (16777215 < t) || decide (t < d.saleOpen)

/-- The index of the first bad field of EVENT-DEFINE after its event number (R19, R184). -/
def DefineFields.firstBad (d : DefineFields) : Option Nat :=
  if !within 1 65535 d.service then some 2
  else if d.flags &&& 0xFE#8 != 0#8 then some 3
  else if 16777215 < d.saleOpen then some 4
  else if d.previewBad then some 5
  else if 16777215 < d.liveStart ∨ d.liveStart ≤ d.beforeLive then some 6
  else if 16777215 < d.scheduledClose ∨ d.scheduledClose ≤ d.liveStart
      ∨ 86400 < d.scheduledClose - d.liveStart then some 7
  else if 8 < d.rangeCount then some 8
  else badRange d.ranges 9

/-- The record a definition makes, SCHEDULED with the effects of R9 (R19). -/
def DefineFields.record (d : DefineFields) (stateRepeat : Nat) : EventRecord :=
  ({ EventRecord.empty with
      window := some
        { service := d.service, saleOpen := d.saleOpen, previewStart := d.preview,
          liveStart := d.liveStart, scheduledClose := d.scheduledClose }
      blackout := d.ranges } : EventRecord).changeState stateRepeat .scheduled

/-- EVENT-DEFINE at its owner (R18, R19). -/
def State.defineEvent (s : State) (h : HeldRequest) (d : DefineFields) : State :=
  match s.night with
  | .starting => s.refuse h .notReady
  | .closing => s.refuse h .wrongNightState
  | .setup | .opened =>
    if 31 < d.event then s.badField h 1
    else if (s.event d.event).state ≠ .empty then s.refuse h .wrongEventState
    else
      match d.firstBad with
      | some i => s.badField h i
      | none => (s.setEvent d.event (d.record s.stateRepeat)).finish h .ok []

/-- EVENT_DEFINE (R19). -/
def execEventDefine (s : State) : Result :=
  match s.link.holder with
  | .held h =>
    match h.request with
    | .eventDefine d => .next (s.defineEvent h d)
    | _ => .next s
  | _ => .next s

/-- An optional number, zero when absent (R184). -/
def orZero : Option Nat → Nat
  | none => 0
  | some n => n

/-- The definition fields of EVENT-READ: service, sale-open, preview-start, live-start, scheduled close. -/
def windowBytes : Option Window → List Byte
  | none => zeros 14
  | some w =>
    leBytes 2 w.service ++ leBytes 3 w.saleOpen ++ leBytes 3 (orZero w.previewStart)
      ++ leBytes 3 w.liveStart ++ leBytes 3 w.scheduledClose

/-- The hold of EVENT-READ: kind and time. -/
def holdBytes : Option Hold → List Byte
  | none => zeros 4
  | some h => byte1 h.kind.number :: leBytes 3 h.time

/-- A preview-start is present. -/
def EventRecord.hasPreview (r : EventRecord) : Bool :=
  match r.window with
  | none => false
  | some w => w.previewStart.isSome

/-- The epoch a key belongs to, zero when the key is absent (R20, R184). -/
def keyEpoch (k : Option Key) (epoch : Nat) : Nat := if k.isSome then epoch else 0

/-- The body of EVENT-READ (R20, section 11.2). -/
def EventRecord.bytes (r : EventRecord) (n : Nat) : List Byte :=
  [byte1 n, byte1 r.state.number,
    byte1 (flagsByte [r.window.isSome, r.hasPreview, r.hold.isSome])]
    ++ windowBytes r.window ++ holdBytes r.hold ++ leBytes 3 (orZero r.effectiveClose)
    ++ [byte1 r.blackout.length] ++ eightRanges r.blackout ++ [byte1 r.repeatsOwed]
    ++ countBytes 4 r.counts.admitted ++ countBytes 4 r.counts.live ++ countBytes 4 r.counts.revoked
    ++ countBytes 4 r.counts.retired ++ countBytes 4 r.counts.lost ++ countBytes 4 r.counts.reinstated
    ++ [byte1 (flagsByte [r.marks.cancel, r.marks.retire, r.marks.blackout]),
      byte1 r.causes.toNat]
    ++ leBytes 2 r.keys.epoch
    ++ [byte1 (flagsByte [r.keys.current.isSome, r.keys.next.isSome, r.keys.onDeck.isSome,
      r.keys.epochStart.isSome, r.keys.keyLate])]
    ++ leBytes 2 (keyEpoch r.keys.current r.keys.epoch)
    ++ leBytes 2 (keyEpoch r.keys.next (r.keys.epoch + 1))
    ++ leBytes 2 (keyEpoch r.keys.onDeck (r.keys.epoch + 2))
    ++ [byte1 r.keys.announceCount] ++ leBytes 3 (orZero r.keys.epochStart)
    ++ leBytes 2 (orZero r.keys.length)

/-- EVENT_READ (R20): taken in SETUP, OPEN and CLOSING, and of an EMPTY record too (R18). -/
def execEventRead (s : State) : Result :=
  match s.link.holder with
  | .held h =>
    match h.request with
    | .eventRead n =>
      if 31 < n then .next (s.badField h 1)
      else .next (s.finish h .ok ((s.event n).bytes n))
    | _ => .next s
  | _ => .next s

/-- The hold an EVENT-HOLD without bad fields gives: none removes it (R21). -/
def HoldFields.hold (f : HoldFields) : Option Hold :=
  if f.flags.getLsbD 0 then
    match HoldKind.ofNumber f.kind with
    | none => none
    | some k => some { time := f.time, kind := k }
  else none

/-- The index of the first bad field of EVENT-HOLD after its event number; kind and time are checked only when a
time is given (R21, R184). -/
def HoldFields.firstBad (f : HoldFields) (liveStart : Nat) : Option Nat :=
  if f.flags &&& 0xFE#8 != 0#8 then some 2
  else if f.flags.getLsbD 0 then
    if (HoldKind.ofNumber f.kind).isNone then some 3
    else if 16777215 < f.time ∨ liveStart + 86400 < f.time then some 4
    else none
  else none

/-- The hold is set, replaced or removed; a change of the effective close restarts the repeats, and an effective
close not later than the clock closes the event (R16, R21). -/
def State.applyHold (s : State) (n : Nat) (w : Window) (hold : Option Hold) : State :=
  let r := s.event n
  let before := effectiveCloseOf w.scheduledClose r.hold
  let after := effectiveCloseOf w.scheduledClose hold
  let s1 := s.setEvent n
    { r with
      hold := hold
      repeatsOwed := if after = before then r.repeatsOwed else s.stateRepeat }
  if after ≤ s.clock.clock then s1.closeEvent n else s1

/-- EVENT-HOLD at its owner (R18, R21). -/
def State.holdEvent (s : State) (h : HeldRequest) (f : HoldFields) : State :=
  s.eventGate h f.event (fun r =>
    if r.state.selling = false then s.refuse h .wrongEventState
    else
      match r.window with
      | none => s.refuse h .wrongEventState
      | some w =>
        match f.firstBad w.liveStart with
        | some i => s.badField h i
        | none => (s.applyHold f.event w f.hold).finish h .ok [])

/-- EVENT_HOLD (R21). -/
def execEventHold (s : State) : Result :=
  match s.link.holder with
  | .held h =>
    match h.request with
    | .eventHold f => .next (s.holdEvent h f)
    | _ => .next s
  | _ => .next s

/-- The changes of a cancel (R22). -/
def State.cancelEvent (s : State) (n : Nat) : State :=
  let s1 := (s.endKeys n).changeState n .cancelled
  (s1.setEvent n
    { s1.event n with marks := { (s1.event n).marks with cancel := true, blackout := false } }).markSet n

/-- EVENT-CANCEL at its owner (R18, R22). -/
def State.cancelRequest (s : State) (h : HeldRequest) (n : Nat) : State :=
  s.eventGate h n (fun r =>
    if r.state.admitting then (s.cancelEvent n).finish h .ok []
    else s.refuse h .wrongEventState)

/-- EVENT_CANCEL (R22). -/
def execEventCancel (s : State) : Result :=
  match s.link.holder with
  | .held h =>
    match h.request with
    | .eventCancel n => .next (s.cancelRequest h n)
    | _ => .next s
  | _ => .next s

/-- A CANCELLED event becomes CLOSED with the RETIRE mark (R23, R24). -/
def State.giveUpCancelled (s : State) (n : Nat) : State :=
  let s1 := s.changeState n .closed
  (s1.setEvent n
    { s1.event n with marks := { (s1.event n).marks with retire := true } }).markSet n

/-- EVENT-CLEAR at its owner (R18, R23). -/
def State.clearRequest (s : State) (h : HeldRequest) (n : Nat) : State :=
  s.eventGate h n (fun r =>
    match r.state with
    | .retired => (s.emptyEvent n).finish h .ok []
    | .scheduled =>
      if r.counts.admitted = 0 then (s.emptyEvent n).finish h .ok []
      else s.refuse h .wrongEventState
    | .cancelled =>
      if s.cancelSweepDone n then (s.giveUpCancelled n).finish h .ok []
      else s.refuse h .wrongEventState
    | .empty | .onSale | .preview | .live | .overtime | .closed => s.refuse h .wrongEventState)

/-- EVENT_CLEAR (R23). -/
def execEventClear (s : State) : Result :=
  match s.link.holder with
  | .held h =>
    match h.request with
    | .eventClear n => .next (s.clearRequest h n)
    | _ => .next s
  | _ => .next s

/-- A range is appended, the repeats restart, and in ON-SALE or a keyed state the BLACKOUT mark is set (R25). -/
def State.addRange (s : State) (n : Nat) (x : Range) : State :=
  let r := s.event n
  let r1 := { r with blackout := r.blackout ++ [x], repeatsOwed := s.stateRepeat }
  if r.state.selling then
    (s.setEvent n { r1 with marks := { r1.marks with blackout := true } }).markSet n
  else s.setEvent n r1

/-- BLACKOUT-ADD at its owner (R18, R25). -/
def State.addRangeRequest (s : State) (h : HeldRequest) (n lo hi : Nat) : State :=
  s.eventGate h n (fun r =>
    if r.state.admitting = false then s.refuse h .wrongEventState
    else
      match badRange [{ low := lo, high := hi }] 2 with
      | some i => s.badField h i
      | none =>
        if 8 ≤ r.blackout.length then s.refuse h .listFull
        else (s.addRange n { low := lo, high := hi }).finish h .ok [])

/-- BLACKOUT_ADD (R25). -/
def execBlackoutAdd (s : State) : Result :=
  match s.link.holder with
  | .held h =>
    match h.request with
    | .blackoutAdd n lo hi => .next (s.addRangeRequest h n lo hi)
    | _ => .next s
  | _ => .next s

/-- BLACKOUT-REMOVE at its owner: the first equal range is removed (R18, R26). -/
def State.removeRangeRequest (s : State) (h : HeldRequest) (n lo hi : Nat) : State :=
  s.eventGate h n (fun r =>
    if r.state.admitting = false then s.refuse h .wrongEventState
    else
      match badRange [{ low := lo, high := hi }] 2 with
      | some i => s.badField h i
      | none =>
        if ({ low := lo, high := hi } : Range) ∈ r.blackout then
          (s.setEvent n
            { r with
              blackout := r.blackout.erase { low := lo, high := hi }
              repeatsOwed := s.stateRepeat }).finish h .ok []
        else s.refuse h .notFound)

/-- BLACKOUT_REMOVE (R26). -/
def execBlackoutRemove (s : State) : Result :=
  match s.link.holder with
  | .held h =>
    match h.request with
    | .blackoutRemove n lo hi => .next (s.removeRangeRequest h n lo hi)
    | _ => .next s
  | _ => .next s

/-- A key is already present for an epoch (R105, check 6). -/
def KeyFields.holds (k : KeyFields) (epoch : Nat) : Bool :=
  (epoch == k.epoch && k.current.isSome) || (epoch == k.epoch + 1 && k.next.isSome)
    || (epoch == k.epoch + 2 && k.onDeck.isSome)

/-- The key fields with a key stored in the first free position, when the epoch is the one it belongs to (R105,
check 7; R106). -/
def KeyFields.load (k : KeyFields) (epoch : Nat) (key : Key) : Option KeyFields :=
  if k.next.isNone then
    if epoch = k.epoch + 1 then some { k with next := some key, announceCount := 0 } else none
  else if k.onDeck.isNone then
    if epoch = k.epoch + 2 then some { k with onDeck := some key } else none
  else none

/-- KEY-LOAD at its owner (R105, R106). The conditions of a waiting event are checked again after a load into next;
after a load into on-deck the check finds nothing changed. -/
def State.loadKey (s : State) (h : HeldRequest) (n epoch : Nat) (key : Key) : State :=
  s.eventGate h n (fun r =>
    if r.state.admitting = false then s.refuse h .wrongEventState
    else if epoch = 0 then s.badField h 2
    else if r.keys.holds epoch then s.refuse h .keyPresent
    else
      match r.keys.load epoch key with
      | none => s.refuse h .keyOrder
      | some keys =>
        if r.keys.next.isNone then
          ((s.setEvent n { r with keys := keys }).recheck n).finish h .ok []
        else (s.setEvent n { r with keys := keys }).finish h .ok [])

/-- KEY_LOAD (R105). -/
def execKeyLoad (s : State) : Result :=
  match s.link.holder with
  | .held h =>
    match h.request with
    | .keyLoad n epoch key => .next (s.loadKey h n epoch key)
    | _ => .next s
  | _ => .next s

end Sys2Proof.Machine
end

