-- ==== Sys2Proof/Machine/GrantRequests.lean ====
section
/-! DEFINITION. The grant requests: their claim of the store port, and the store operation that carries one out
(02_the_grant_store, section 2.9). -/

namespace Sys2Proof.Machine

/-! ## Taking a request (R47) -/

/-- The request engine waits for the port or holds it. -/
def StorePort.requestStands (p : StorePort) : Bool := p.request || p.state == .request

/-- A grant request at the moment it is taken: NOT-READY in STARTING and CLOSING, otherwise a claim of the store
port; a request whose claim stands makes no other (R43, R47). -/
def State.takeGrantRequest (s : State) (h : HeldRequest) : State :=
  match s.night with
  | .starting => s.refuse h .notReady
  | .closing => s.refuse h .notReady
  | .setup => if s.port.requestStands then s else s.claimRequest
  | .opened => if s.port.requestStands then s else s.claimRequest

/-- GRANT_ADD (R47, R48). -/
def execGrantAdd (s : State) : Result :=
  match s.link.holder with
  | .held h =>
    match h.request with
    | .grantAdd _ => .next (s.takeGrantRequest h)
    | _ => .next s
  | _ => .next s

/-- GRANT_REVOKE (R47, R53). -/
def execGrantRevoke (s : State) : Result :=
  match s.link.holder with
  | .held h =>
    match h.request with
    | .grantRevoke _ _ => .next (s.takeGrantRequest h)
    | _ => .next s
  | _ => .next s

/-- GRANT_QUERY (R47, R55). -/
def execGrantQuery (s : State) : Result :=
  match s.link.holder with
  | .held h =>
    match h.request with
    | .grantQuery _ _ => .next (s.takeGrantRequest h)
    | _ => .next s
  | _ => .next s

/-! ## GRANT-ADD (R48 to R52) -/

/-- A decoder address: 1 to 4,294,967,294 (00_scope, section 4). -/
def decoderOk (d : Nat) : Bool := within 1 4294967294 d

/-- The index of the first bad field of GRANT-ADD after its event number (R48, check 4). -/
def AddFields.firstBad (f : AddFields) : Option Nat :=
  if !decoderOk f.decoder then some 1
  else if (GrantKind.ofNumber f.kind).isNone then some 3
  else if 255 < f.region then some 4
  else none

/-- The kind a GRANT-ADD without bad fields names. -/
def AddFields.grantKind (f : AddFields) : GrantKind :=
  match GrantKind.ofNumber f.kind with
  | some k => k
  | none => .purchased

/-- The moment a slot is stamped with: the night clock, or 0 in SETUP (R29, R50, R51). -/
def State.stamp (s : State) : Nat := if s.night = .opened then s.clock.clock else 0

/-- The grant a GRANT-ADD writes. -/
def AddFields.grant (f : AddFields) (stamp : Nat) : Grant :=
  { decoder := f.decoder, event := f.event, kind := f.grantKind, region := f.region,
    admittedAt := stamp }

/-- A slot written PENDING with a grant, its queue mark kept (R50, R51). -/
def Slot.withGrant (x : Slot) (g : Grant) : Slot :=
  { state := .pending, grant := some g, emissions := 0, reason := none, mark := x.mark }

/-- Slots drawn counts an insert that takes an EMPTY slot (R35, R51). -/
def State.drawSlot (s : State) (was : SlotState) : State :=
  if was = .empty then { s with store := { s.store with drawn := s.store.drawn + 1 } } else s

/-- A reinstatement (R50). -/
def State.reinstate (s : State) (n : Nat) (f : AddFields) : State :=
  ((s.putSlot n ((s.slot n).withGrant (f.grant s.stamp))).report f.event Counts.reinstate).appendFresh n

/-- An insert (R51). -/
def State.insert (s : State) (n : Nat) (f : AddFields) : State :=
  (((s.putSlot n ((s.slot n).withGrant (f.grant s.stamp))).drawSlot (s.slot n).state).report f.event
    Counts.insert).appendFresh n

/-- What follows GRANT-ADD's lookup (R48). -/
def State.addAfterLookup (s : State) (h : HeldRequest) (f : AddFields) : Lookup → State
  | .found n =>
    if (s.slot n).state = .revoking then (s.reinstate n f).finish h .reinstated (leBytes 3 n)
    else s.finish h .alreadyHeld (leBytes 3 n)
  | .missing (some n) => (s.insert n f).finish h .ok (leBytes 3 n)
  | .missing none =>
    (s.count (fun c => { c with storeFullCount := bump c.storeFullCount })).refuse h .storeFull

/-- GRANT-ADD under the store port (R48). -/
def State.addGrant (s : State) (h : HeldRequest) (f : AddFields) : State :=
  if 31 < f.event then s.badField h 2
  else if (s.event f.event).state = .empty then s.refuse h .noEvent
  else if (s.event f.event).state.admitting = false then s.refuse h .wrongEventState
  else
    match f.firstBad with
    | some i => s.badField h i
    | none =>
      if f.grantKind = .purchased ∧ blackedOut (s.event f.event).blackout f.region = true then
        s.refuse h .blackedOut
      else
        (s.lookup f.decoder f.event).2.addAfterLookup h f (s.lookup f.decoder f.event).1

/-! ## GRANT-REVOKE (R53, R54) -/

/-- A grant withdrawn without emission (R53). -/
def State.revokeUnsent (s : State) (n event : Nat) : State :=
  (s.putSlot n (s.slot n).vacate).reportRevoked event

/-- A grant written REVOKING, with an urgent append attempt (R54). -/
def State.revokeSent (s : State) (n : Nat) (why : RevokeReason) : State :=
  (s.putSlot n ((s.slot n).revoke why)).appendUrgent n

/-- What follows GRANT-REVOKE's lookup (R53, R54). -/
def State.revokeAfterLookup (s : State) (h : HeldRequest) (decoder event : Nat) : Lookup → State
  | .missing _ => s.refuse h .notFound
  | .found n =>
    if (s.slot n).state = .revoking then s.refuse h .alreadyRevoking
    else if (s.slot n).state = .pending ∧ s.inFlight decoder event = false then
      (s.revokeUnsent n event).finish h .ok []
    else (s.revokeSent n .customer).finish h .ok []

/-- GRANT-REVOKE under the store port (R53). -/
def State.revokeGrant (s : State) (h : HeldRequest) (decoder event : Nat) : State :=
  if 31 < event then s.badField h 2
  else if (s.event event).state = .empty then s.refuse h .noEvent
  else if (s.event event).state.finished then s.refuse h .wrongEventState
  else if !decoderOk decoder then s.badField h 1
  else (s.lookup decoder event).2.revokeAfterLookup h decoder event (s.lookup decoder event).1

/-! ## GRANT-QUERY (R55) -/

/-- A slot's bank, A 0 and B 1, and its position in it (R27, section 11.2). -/
def State.bankBytes (s : State) (n : Nat) : List Byte :=
  if n < s.store.sizeA then byte1 0 :: leBytes 3 n
  else byte1 1 :: leBytes 3 (n - s.store.sizeA)

/-- The body of GRANT-QUERY (R55, section 11.2); the fields of an absent grant are zeros (R184). -/
def State.queryBody (s : State) (n : Nat) : List Byte :=
  let x := s.slot n
  leBytes 3 n ++ s.bankBytes n ++ [byte1 x.state.number]
    ++ (match x.grant with
      | none => [byte1 0, byte1 0]
      | some g => [byte1 g.kind.number, byte1 g.region])
    ++ [byte1 x.emissions, byte1 x.mark.number, byte1 (RevokeReason.number x.reason)]
    ++ (match x.grant with
      | none => zeros 3
      | some g => leBytes 3 g.admittedAt)

/-- What follows GRANT-QUERY's lookup (R55). -/
def State.queryAfterLookup (s : State) (h : HeldRequest) : Lookup → State
  | .missing _ => s.refuse h .notFound
  | .found n => s.finish h .ok (s.queryBody n)

/-- GRANT-QUERY under the store port (R55). -/
def State.queryGrant (s : State) (h : HeldRequest) (decoder event : Nat) : State :=
  if 31 < event then s.badField h 2
  else if !decoderOk decoder then s.badField h 1
  else (s.lookup decoder event).2.queryAfterLookup h (s.lookup decoder event).1

/-! ## The store operation (R44, R47) -/

/-- REQUEST_STORE_OPERATION (R47): once the request engine holds the port, the held request is carried out whole,
and the port is granted again. -/
def execRequestStoreOperation (upset : List Nat) (s : State) : Result :=
  match s.port.state, s.link.holder with
  | .request, .held h =>
    let s1 := s.upset upset
    match h.request with
    | .grantAdd f =>
      s.withinStore (s.home f.decoder f.event) (.next (s1.addGrant h f).releasePort)
    | .grantRevoke d e => s.withinStore (s.home d e) (.next (s1.revokeGrant h d e).releasePort)
    | .grantQuery d e => s.withinStore (s.home d e) (.next (s1.queryGrant h d e).releasePort)
    | _ => .next s
  | _, _ => .next s

end Sys2Proof.Machine
end

