-- ==== Sys2Proof/Machine/LinkSteps.lean ====
section
/-! DEFINITION. The control link's steps: the receiver, its failures, the line break, the request holder and the
end of a reply (09_the_control_link, sections 9.1 to 9.3). -/

namespace Sys2Proof.Machine

/-- The receiver and the failure run are set. -/
def State.setReceiver (s : State) (r : Receiver) (run : Nat) : State :=
  { s with link := { s.link with receiver := r, failureRun := run } }

/-- Where an address character leads the receiver (R162). -/
def State.lead (s : State) (value : Byte) : Receiver :=
  if value.toNat = 31 then .addressed true
  else if s.ownAddress = some value.toNat then .addressed false
  else .passing

/-- A frame being collected fails: it is counted, and the receiver goes where the failure leads, or to LOCKED when
the failure run reaches 4 (R163). -/
def State.failFrame (s : State) (leads : Receiver) (f : Counters → Counters) : State :=
  if 4 ≤ s.link.failureRun + 1 then
    ((s.count f).count (fun c => { c with locks := bump c.locks })).setReceiver .locked 4
  else (s.count f).setReceiver leads (s.link.failureRun + 1)

/-- ADDRESS_CHARACTER (R162): in ADDRESSED the frame being collected is interrupted (R163); in LOCKED the
character is ignored (R164). -/
def execAddressCharacter (value : Byte) (s : State) : Result :=
  match s.link.receiver with
  | .hunt => .next (s.setReceiver (s.lead value) s.link.failureRun)
  | .passing => .next (s.setReceiver (s.lead value) s.link.failureRun)
  | .addressed _ =>
    .next (s.failFrame (s.lead value)
      (fun c => { c with interruptedFrames := bump c.interruptedFrames }))
  | .locked => .next s

/-- CHARACTER_FAILURE (R163): only a frame being collected is affected. -/
def execCharacterFailure (s : State) : Result :=
  match s.link.receiver with
  | .addressed _ =>
    .next (s.failFrame .hunt (fun c => { c with characterFailures := bump c.characterFailures }))
  | .hunt | .passing | .locked => .next s

/-- LENGTH_FAILURE (R163): a length character below 2 or above 252. -/
def execLengthFailure (length : Byte) (s : State) : Result :=
  match s.link.receiver with
  | .addressed _ =>
    if within 2 252 length.toNat then .next s
    else .next (s.failFrame .hunt (fun c => { c with lengthFailures := bump c.lengthFailures }))
  | .hunt | .passing | .locked => .next s

/-- GAP_FAILURE (R163). -/
def execGapFailure (s : State) : Result :=
  match s.link.receiver with
  | .addressed _ =>
    .next (s.failFrame .hunt (fun c => { c with gapFailures := bump c.gapFailures }))
  | .hunt | .passing | .locked => .next s

/-- LINE_BREAK (R164): in every receiver state, HUNT and a failure run of 0. -/
def execLineBreak (s : State) : Result := .next (s.setReceiver .hunt 0)

/-- The requests a unit in STARTING takes (R166). -/
def Request.inStarting : Request → Bool
  | .unitId => true
  | .unitStatus => true
  | .countersRead _ | .noticeFetch | .noticeAck _ | .unitReset | .configRead | .configWrite _
  | .settingsSave | .nightOpen _ | .nightClose _ | .busClear | .eventDefine _ | .eventRead _
  | .eventHold _ | .eventCancel _ | .eventClear _ | .blackoutAdd _ _ _ | .blackoutRemove _ _ _
  | .keyLoad _ _ _ | .epochSelect _ | .grantAdd _ | .grantRevoke _ _ | .grantQuery _ _ => false

/-- A FREE holder takes a good frame: code, length and night state are checked, and a request that passes is
held for its owner (R165, R166). -/
def State.acceptFrame (s : State) (broadcast : Bool) (f : FrameRead) : State :=
  match Request.read f.code f.body with
  | .error r => s.answer broadcast f.tag f.code r []
  | .ok q =>
    if s.night = .starting ∧ q.inStarting = false then s.answer broadcast f.tag f.code .notReady []
    else s.setHolder (.held { broadcast := broadcast, tag := f.tag, request := q })

/-- A good frame is handed to the holder, or discarded as an overrun (R165). -/
def State.handOver (s : State) (broadcast : Bool) (f : FrameRead) : State :=
  let s1 := (s.setReceiver .hunt 0).count (fun c => { c with framesTaken := bump c.framesTaken })
  match s.link.holder with
  | .free => s1.acceptFrame broadcast f
  | .held _ | .replying _ =>
    (s1.raise .linkOverrun).count (fun c => { c with overruns := bump c.overruns })

/-- REQUEST_FRAME (R165): a complete frame is handed over when its CRC is good and fails otherwise (R163). The
characters of a frame that is not complete change nothing. -/
def execRequestFrame (characters : List Byte) (s : State) : Result :=
  match s.link.receiver with
  | .addressed broadcast =>
    match readFrame characters with
    | none => .next s
    | some f =>
      if f.good then .next (s.handOver broadcast f)
      else .next (s.failFrame .hunt (fun c => { c with crcFailures := bump c.crcFailures }))
  | .hunt | .passing | .locked => .next s

/-- The reply answers an addressed UNIT-RESET that was taken (R168). -/
def Reply.resets (r : Reply) : Bool := r.code == Request.unitReset.code && r.result == .ok

/-- REPLY_COMPLETE (R165): the holder becomes FREE; at the end of UNIT-RESET's reply the reset is performed
(R168). -/
def execReplyComplete (pins : Straps) (s : State) : Result :=
  match s.link.holder with
  | .replying r => if r.resets then .next (s.unitReset pins) else .next (s.setHolder .free)
  | .free | .held _ => .next s

end Sys2Proof.Machine
end

