-- ==== Sys2Proof/Machine/NightRequests.lean ====
section
/-! DEFINITION. NIGHT-OPEN and NIGHT-CLOSE (08_running_a_night), and EPOCH-SELECT (R107). -/

namespace Sys2Proof.Machine

/-- Every block takes up the night (R153): the clock stands at the start time in REFERENCE, the bus IDLE, the
carousel WAITING; OPEN locks the configuration. -/
def State.openNight (s : State) (start : Nat) : State :=
  { s with
    night := .opened
    clock :=
      { clock := start, source := .reference, lastTick := some s.timer.now,
        lastPulse := some s.timer.now }
    bus := { s.bus with state := .idle }
    carousel := { s.carousel with run := .waiting } }

/-- NIGHT_OPEN (R152, R153). -/
def execNightOpen (s : State) : Result :=
  match s.link.holder with
  | .held h =>
    match h.request with
    | .nightOpen start =>
      match s.night with
      | .starting => .next (s.refuse h .notReady)
      | .opened => .next (s.refuse h .wrongNightState)
      | .closing => .next (s.refuse h .wrongNightState)
      | .setup =>
        if 16777215 < start then .next (s.badField h 1)
        else .next ((s.openNight start).finish h .ok [])
    | _ => .next s
  | _ => .next s

/-- The states that stop a plain close (R155). -/
def EventState.stopsClose (e : EventState) : Bool :=
  e.selling || e == .cancelled || e == .closed

/-- The sweep engine is SWEEPING. -/
def EngineState.isSweeping : EngineState → Bool
  | .sweeping _ => true
  | .idle => false
  | .wiping _ => false

/-- Events or a sweep stop a plain close (R155). -/
def State.active (s : State) : Bool :=
  s.events.any (fun r => r.state.stopsClose) || s.sweep.engine.isSweeping

/-- A forced close posts a CLEAR record for each keyed event, in event-number order (R116, R157). -/
def State.postForcedClears : State → List Nat → State
  | s, [] => s
  | s, n :: ns =>
    State.postForcedClears (if (s.event n).state.keyed then s.postClear n else s) ns

/-- The completion claims a close leaves: the one that holds the port, its tag voided with its record (R45, R92,
log 16). -/
def StorePort.keptCompletions (p : StorePort) : List Tag :=
  match p.state with
  | .completion => (p.completions.take 1).map (Tag.voidIf (fun _ => true))
  | .idle | .composition | .request | .visit _ _ _ | .wipeWrite => []

/-- The attempt a close leaves: one whose store operation holds the port, which places nothing (R102). -/
def State.keptAttempt (s : State) : Attempt :=
  match s.port.state with
  | .composition => s.carousel.attempt
  | .idle | .completion | .request | .visit _ _ _ | .wipeWrite => .none

/-- A close at every block (R156, section 8.4): records EMPTY, the clock stopped with its value kept, the
carousel STOPPED, staging emptied, a packet in sending left to finish with its tag discarded, the claims
waiting at the port dropped, a WIPE asked for. -/
def State.closeNight (s : State) : State :=
  { s with
    night := .closing
    clock := { s.clock with source := .stopped, lastTick := none, lastPulse := none }
    events := List.replicate 32 EventRecord.empty
    carousel := { s.carousel.atRest .stopped with attempt := s.keptAttempt }
    bus := { s.bus with
      state := .off
      staging := none
      sending := s.bus.sending.map (fun k => { k with tag := none }) }
    port :=
      { state := s.port.state, composition := false, completions := s.port.keptCompletions,
        request := false, sweep := false }
    sweep := { s.sweep with wipePending := true } }

/-- A close that passes its checks (R156, R157). -/
def State.takeClose (s : State) (forced : Bool) : State :=
  if forced then (s.postForcedClears (List.range 32)).closeNight else s.closeNight

/-- NIGHT_CLOSE (R155, R156). -/
def execNightClose (s : State) : Result :=
  match s.link.holder with
  | .held h =>
    match h.request with
    | .nightClose close =>
      match s.night with
      | .starting => .next (s.refuse h .notReady)
      | .setup => .next (s.refuse h .wrongNightState)
      | .closing => .next (s.refuse h .wrongNightState)
      | .opened =>
        match boolOfNumber close with
        | none => .next (s.badField h 1)
        | some forced =>
          if forced = false ∧ s.active = true then .next (s.refuse h .active)
          else .next ((s.takeClose forced).finish h .ok [])
    | _ => .next s
  | _ => .next s

/-- EPOCH_SELECT (R107). -/
def execEpochSelect (s : State) : Result :=
  match s.link.holder with
  | .held h =>
    match h.request with
    | .epochSelect v =>
      match EpochSelection.ofNumber v with
      | none => .next (s.badField h 1)
      | some sel => .next (({ s with selection := sel } : State).finish h .ok [])
    | _ => .next s
  | _ => .next s

end Sys2Proof.Machine
end

