-- ==== Sys2Proof/Machine/UnitRequests.lean ====
section
/-! DEFINITION. The unit, notice and settings requests: UNIT-ID, UNIT-STATUS, COUNTERS-READ, NOTICE-FETCH,
NOTICE-ACK, UNIT-RESET, CONFIG-READ, CONFIG-WRITE, SETTINGS-SAVE (09, sections 9.4 and 9.5; 10). Each acts on
the request holder when it holds that request, and changes nothing otherwise (log 1, log 2). -/

namespace Sys2Proof.Machine

/-- The body of UNIT-ID (R169, section 11.2). -/
def State.idBody (s : State) : List Byte :=
  leBytes 2 0x0C88 ++ [byte1 1, byte1 s.straps.unitAddress.val,
    byte1 (flagsByte [s.straps.primary, s.straps.linkRate, s.straps.load])]

/-- UNIT_ID (R169). -/
def execUnitId (s : State) : Result :=
  match s.link.holder with
  | .held h =>
    match h.request with
    | .unitId => .next (s.finish h .ok s.idBody)
    | _ => .next s
  | _ => .next s

/-- The earliest-deadline report in UNIT-STATUS. -/
def deadlineBytes : Option Deadline → List Byte
  | none => zeros 6
  | some d => [byte1 1, byte1 d.event] ++ leBytes 3 d.time ++ [byte1 (deadlineKindNumber d.kind)]

/-- The sweep state in UNIT-STATUS; fields not present in the state reported are zeros (R56, R184). -/
def engineBytes : EngineState → List Byte
  | .idle => zeros 15
  | .wiping c => [byte1 1] ++ zeros 5 ++ leBytes 3 c ++ zeros 6
  | .sweeping w =>
    [byte1 2, byte1 w.kind.number, byte1 w.event] ++ leBytes 3 w.start ++ leBytes 3 w.cursor
      ++ leBytes 3 w.visited ++ countBytes 3 w.changed

/-- The bus flags of UNIT-STATUS (R121, section 11.2). -/
def State.busFlags (s : State) : Nat :=
  flagsByte [s.bus.staging.isSome, s.bus.sending.isSome, s.request, s.holdsGrant, s.drive,
    s.bus.lines.ready]

/-- Arbiter state and flags, requester granted, last granted and pairs in service; zeros in a secondary, where
the arbiter is absent (R128, R169). -/
def State.arbiterBytes (s : State) : List Byte :=
  if s.straps.primary then
    (match s.arbiter.state with
      | .idle => [byte1 1, byte1 0, byte1 0]
      | .granted r taken => [byte1 2, byte1 (bitOf taken), byte1 r.number]
      | .fault => [byte1 3, byte1 0, byte1 0])
      ++ [byte1 s.arbiter.lastGranted.number, byte1 s.settings.record.pairs.byte]
  else zeros 5

/-- The body of UNIT-STATUS (R169, section 11.2). -/
def State.statusBody (s : State) : List Byte :=
  [byte1 s.night.number] ++ leBytes 3 s.clock.clock ++ [byte1 s.clock.source.number]
    ++ deadlineBytes s.earliestDeadline
    ++ leBytes 3 s.store.sizeA ++ leBytes 3 s.store.sizeB
    ++ leBytes 3 s.store.drawn ++ leBytes 3 s.store.damaged
    ++ leBytes 2 s.carousel.fresh.length ++ leBytes 2 s.carousel.urgent.length
    ++ leBytes 3 s.carousel.cursor ++ leBytes 4 s.carousel.pass
    ++ engineBytes s.sweep.engine ++ [byte1 s.sweep.lastServed]
    ++ [byte1 s.bus.state.number, byte1 s.busFlags] ++ s.arbiterBytes
    ++ [byte1 s.scrambler.queue.length, byte1 (bitOf s.presenting), byte1 s.selection.number]
    ++ [byte1 s.link.receiver.number, byte1 s.link.holder.number, byte1 s.link.failureRun]
    ++ [byte1 (bitOf s.notice.master), byte1 (bitOf s.settings.save.isSome),
      byte1 s.settings.lastSave.number, byte1 s.settings.lastLoad.number]

/-- UNIT_STATUS (R169), with the levels on the bus lines at that moment. -/
def execUnitStatus (lines : BusLines) (s : State) : Result :=
  match s.link.holder with
  | .held h =>
    match h.request with
    | .unitStatus =>
      .next ((s.sampleLines lines).finish h .ok (s.sampleLines lines).statusBody)
    | _ => .next s
  | _ => .next s

/-- The counters in the order of R170. -/
def Counters.list (c : Counters) : List Nat :=
  [c.framesTaken, c.gapFailures, c.characterFailures, c.interruptedFrames, c.lengthFailures,
    c.crcFailures, c.overruns, c.locks, c.damageCount, c.storeFullCount, c.freshOverflow,
    c.urgentOverflow, c.keyPackets, c.statePackets, c.grantPackets, c.revokePackets,
    c.switchesAccepted, c.clearsAccepted, c.switchesWithdrawn, c.lostPackets, c.grantTimeouts,
    c.arbiterFaults, c.flywheelSeconds, c.absorbedPulses]

/-- The body of COUNTERS-READ (section 11.2). -/
def Counters.bytes (c : Counters) : List Byte := c.list.flatMap (leBytes 4)

/-- COUNTERS_READ (R170): with clear-after-read set the counters are cleared in the same step. -/
def execCountersRead (s : State) : Result :=
  match s.link.holder with
  | .held h =>
    match h.request with
    | .countersRead clear =>
      match boolOfNumber clear with
      | none => .next (s.badField h 1)
      | some false => .next (s.finish h .ok s.counters.bytes)
      | some true => .next ((s.count (fun _ => Counters.zero)).finish h .ok s.counters.bytes)
    | _ => .next s
  | _ => .next s

/-- The notice unit is replaced. -/
def State.setNotice (s : State) (n : Notice) : State := { s with notice := n }

/-- The events with a cause pending, in event-number order, each with its causes, whatever their masks (R173). -/
def State.pendingEvents (s : State) : List (Nat × BitVec 4) :=
  (List.range 32).filterMap (fun n =>
    if (s.event n).causes = 0#4 then none else some (n, (s.event n).causes))

/-- The body of NOTICE-FETCH (R173, section 11.2), with the master enable as the request finds it (log 20). -/
def State.noticeBody (s : State) : List Byte :=
  leBytes 2 s.unitCauses.toNat ++ leBytes 2 s.notice.unitMasks.toNat
    ++ [byte1 s.notice.eventMasks.toNat, byte1 (bitOf s.notice.master),
      byte1 s.pendingEvents.length]
    ++ s.pendingEvents.flatMap (fun p => [byte1 p.1, byte1 p.2.toNat])

/-- NOTICE_FETCH (R173): the master enable is cleared in the same step; no cause is. -/
def execNoticeFetch (s : State) : Result :=
  match s.link.holder with
  | .held h =>
    match h.request with
    | .noticeFetch =>
      .next ((s.setNotice { s.notice with master := false }).finish h .ok s.noticeBody)
    | _ => .next s
  | _ => .next s

/-- The index of the first bad entry field of NOTICE-ACK, counting from `i` (R174, R184). -/
def AckFields.badEntry : List AckEntry → Nat → Option Nat
  | [], _ => none
  | e :: es, i =>
    if 31 < e.event then some i
    else if e.causes &&& 0xF0#8 != 0#8 then some (i + 1)
    else AckFields.badEntry es (i + 2)

/-- The index of the first bad field of NOTICE-ACK; masks not given are not checked (R174, R184). -/
def AckFields.firstBad (a : AckFields) : Option Nat :=
  if a.causes &&& 0xF800#16 != 0#16 then some 1
  else if a.flags &&& 0xFC#8 != 0#8 then some 2
  else if a.flags.getLsbD 0 && a.unitMasks &&& 0xF800#16 != 0#16 then some 3
  else if a.flags.getLsbD 1 && a.eventMasks &&& 0xF0#8 != 0#8 then some 4
  else if (boolOfNumber a.rearm).isNone then some 5
  else if 32 < a.entryCount then some 6
  else AckFields.badEntry a.entries 7

/-- The named event causes of the listed events are cleared (R174). -/
def State.ackEvents : State → List AckEntry → State
  | s, [] => s
  | s, e :: es =>
    State.ackEvents
      (s.setEvent e.event
        { s.event e.event with
          causes := (s.event e.event).causes &&& ~~~(e.causes.setWidth 4) }) es

/-- The notice unit after an acknowledgement: the named causes cleared, the masks given replaced, the master
enable set on re-arm, which a listen-only unit treats as LEAVE (R174). -/
def Notice.acknowledge (n : Notice) (a : AckFields) (listenOnly : Bool) : Notice :=
  { causes := n.causes &&& ~~~(a.causes.setWidth 10)
    unitMasks := if a.flags.getLsbD 0 then a.unitMasks.setWidth 11 else n.unitMasks
    eventMasks := if a.flags.getLsbD 1 then a.eventMasks.setWidth 4 else n.eventMasks
    master := n.master || (a.rearm == 1 && !listenOnly) }

/-- NOTICE_ACK (R174). -/
def execNoticeAck (s : State) : Result :=
  match s.link.holder with
  | .held h =>
    match h.request with
    | .noticeAck a =>
      match a.firstBad with
      | some i => .next (s.badField h i)
      | none =>
        .next (((s.ackEvents a.entries).setNotice
          (s.notice.acknowledge a s.ownAddress.isNone)).finish h .ok [])
    | _ => .next s
  | _ => .next s

/-- UNIT_RESET (R168): an addressed one is answered OK and performed at the end of its reply; a broadcast one is
performed at once. -/
def execUnitReset (pins : Straps) (s : State) : Result :=
  match s.link.holder with
  | .held h =>
    match h.request with
    | .unitReset =>
      if h.broadcast then .next (s.unitReset pins) else .next (s.finish h .ok [])
    | _ => .next s
  | _ => .next s

/-- CONFIG_READ (R177). -/
def execConfigRead (s : State) : Result :=
  match s.link.holder with
  | .held h =>
    match h.request with
    | .configRead => .next (s.finish h .ok s.settings.record.bytes)
    | _ => .next s
  | _ => .next s

/-- Two records differ in nothing but the pairs in service (R178). -/
def ConfigRecord.samePairsAside (a b : ConfigRecord) : Bool := { a with pairs := b.pairs } == b

/-- CONFIG_WRITE (R178): fields, then lock, then the record in force takes the thirteen fields. -/
def execConfigWrite (s : State) : Result :=
  match s.link.holder with
  | .held h =>
    match h.request with
    | .configWrite r =>
      match r.firstBad with
      | some i => .next (s.badField h i)
      | none =>
        if s.locked = true ∧ r.record.samePairsAside s.settings.record = false then
          .next (s.refuse h .locked)
        else
          .next (({ s with settings := { s.settings with record := r.record } } : State).finish h .ok [])
    | _ => .next s
  | _ => .next s

/-- SETTINGS_SAVE (R181). -/
def execSettingsSave (s : State) : Result :=
  match s.link.holder with
  | .held h =>
    match h.request with
    | .settingsSave =>
      match s.settings.save with
      | some _ => .next (s.refuse h .saveBusy)
      | none =>
        .next (({ s with
          settings := { s.settings with save := some s.settings.record } } : State).finish h .ok [])
    | _ => .next s
  | _ => .next s

end Sys2Proof.Machine
end

