-- ==== Sys2Proof/Machine/ScramblerSteps.lean ====
section
/-! DEFINITION. The scrambler port's steps (05, R117 to R120). -/

namespace Sys2Proof.Machine

/-- SCRAMBLER_READY (R118): the presentation follows the level. -/
def execScramblerReady (level : Bool) (s : State) : Result :=
  .next { s with scrambler := { s.scrambler with ready := level } }

/-- An accepted record is counted (R119). -/
def Counters.countAccepted (c : Counters) : ScramblerPayload → Counters
  | .switch _ _ _ => { c with switchesAccepted := bump c.switchesAccepted }
  | .clear _ => { c with clearsAccepted := bump c.clearsAccepted }

/-- A record is accepted: it leaves the head, is counted, and its event's conditions are checked again (R118,
R119). -/
def State.acceptRecord (s : State) (r : ScramblerRecord) (rest : List ScramblerRecord) : State :=
  ((s.setScramblerQueue rest).count (fun c => c.countAccepted r.payload)).recheck r.event

/-- SCRAMBLER_ACCEPT (R118): a strobe takes the record presented, and is ignored when none is. -/
def execScramblerAccept (s : State) : Result :=
  if s.scrambler.ready then
    match s.scrambler.queue with
    | [] => .next s
    | r :: rest => .next (s.acceptRecord r rest)
  else .next s

end Sys2Proof.Machine
end

