-- ==== Sys2Proof/Machine/StartUp.lean ====
section
/-! DEFINITION. The start-up and settings-block steps: HARDWARE_RESET, SETTINGS_LOAD_END, SAVE_DONE
(10_configuration_and_start_up). -/

namespace Sys2Proof.Machine

/-- The unit at a hardware reset: the straps are latched, the record holds the defaults, the timer begins at 0
(R182, step 1), with the sizes in force those of the default record (R27). -/
def State.hardwareReset (s : State) (pins : Straps) (load : LoadResult) : State :=
  s.resetBlocks pins ConfigRecord.default load { now := 0, cycleTickAt := 0 } 16384 0

/-- HARDWARE_RESET (R182): with LOAD latched at 1 the load begins; with LOAD at 0 no load is made and the WIPE
starts at once (R180). -/
def execHardwareReset (pins : Straps) (s : State) : Result :=
  if pins.load then .next (s.hardwareReset pins .loading)
  else .next (s.hardwareReset pins .notLoaded).startWipe

/-- What the load finds, and the record then in force (R180, R186). -/
def Settings.finding (t : Settings) (acknowledged : Bool) : LoadResult × ConfigRecord :=
  if acknowledged then
    match t.eeprom with
    | .cutShort => (.badCrc, ConfigRecord.default)
    | .stored b =>
      if crcBytes (b.take 21) = b.drop 21 then
        match (RawConfig.ofBytes b).firstBad with
        | none => (.ok, (RawConfig.ofBytes b).record)
        | some _ => (.badField, ConfigRecord.default)
      else (.badCrc, ConfigRecord.default)
  else (.noAck, ConfigRecord.default)

/-- SETTINGS_LOAD_END (R180): the result and the record in force are set, a failed load raises
SETTINGS-LOAD-FAILED, and the WIPE of start-up starts in the same step. -/
def execSettingsLoadEnd (acknowledged : Bool) (s : State) : Result :=
  if s.settings.lastLoad = .loading then
    let f := s.settings.finding acknowledged
    let s1 : State := { s with settings := { s.settings with lastLoad := f.1, record := f.2 } }
    if f.1 = .ok then .next s1.startWipe else .next (s1.raise .settingsLoadFailed).startWipe
  else .next s

/-- The EEPROM after the first `n` of 23 bytes were acknowledged: those are new, the others keep their old values
(R181, R186, log 12). -/
def EepromCopy.written (e : EepromCopy) (new : List Byte) (n : Nat) : EepromCopy :=
  if 23 ≤ n then .stored new
  else
    match e with
    | .stored old => .stored (new.take n ++ old.drop n)
    | .cutShort => .cutShort

/-- SAVE_DONE (R181): with every byte acknowledged the last save result is OK, otherwise FAILED; the save record
becomes absent, the save state IDLE, and SAVE-DONE is raised. -/
def execSaveDone (acknowledged : Nat) (s : State) : Result :=
  match s.settings.save with
  | none => .next s
  | some r =>
    .next
      (({ s with
          settings := { s.settings with
            save := none
            lastSave := if 23 ≤ acknowledged then .ok else .failed
            eeprom := s.settings.eeprom.written r.storedBytes acknowledged } } : State).raise .saveDone)

end Sys2Proof.Machine
end

