-- ==== Sys2Proof/Machine/SweepSteps.lean ====
section
/-! DEFINITION. The sweep engine's steps: a visit, the start of a WIPE and its slot writes (03_sweeps). -/

namespace Sys2Proof.Machine

/-! ## What a visit does to its slot (R61 to R65) -/

/-- A live slot of the event that is not REVOKING is revoked: unsent to VACANT, otherwise to REVOKING (R62,
R63). -/
def State.revokeVisited (s : State) (n : Nat) (g : Grant) (why : RevokeReason) : State :=
  if (s.slot n).state = .pending ∧ s.inFlight g.decoder g.event = false then
    s.revokeUnsent n g.event
  else s.revokeSent n why

/-- A live slot is retired (R64). -/
def State.retireVisited (s : State) (n event : Nat) : State :=
  (s.putSlot n (s.slot n).vacate).report event Counts.retire

/-- A visit of a kind acts on a slot that holds a grant of its event (R63, R64, R65). -/
def Slot.visited (x : Slot) (g : Grant) (kind : SweepKind) (ranges : List Range) : Bool :=
  match kind with
  | .cancel => x.state.granted
  | .retire => x.state.isLive
  | .blackout => g.kind == .purchased && x.state.granted && blackedOut ranges g.region

/-- The grant a visit acts on: that of a live slot of the sweep's event which the kind reaches (R61). -/
def State.visitUse (s : State) (n event : Nat) (kind : SweepKind) (ranges : List Range) :
    Option Grant :=
  match (s.slot n).grant with
  | none => none
  | some g =>
    if g.event = event ∧ (s.slot n).visited g kind ranges = true then some g else none

/-- The action of a visit (R63, R64, R65). -/
def State.visitAct (s : State) (n : Nat) (g : Grant) : SweepKind → State
  | .cancel => s.revokeVisited n g .cancelled
  | .retire => s.retireVisited n g.event
  | .blackout => s.revokeVisited n g .blackout

/-! ## Completion (R70) -/

/-- The event table's action at the completion of a sweep, by its kind (R11, R12, R70). -/
def State.sweepEffect (s : State) (n : Nat) : SweepKind → State
  | .retire =>
    (s.setEvent n { s.event n with counts := (s.event n).counts.lose }).changeState n .retired
  | .cancel => if (s.event n).counts.live = 0 then s.changeState n .retired else s
  | .blackout => s

/-- A completed sweep: SWEEP-DONE, the action of its kind, the engine IDLE and a new choice at once (R70). -/
def State.completeSweep (s : State) (n : Nat) (kind : SweepKind) : State :=
  (((s.setEvent n ((s.event n).raise .sweepDone)).sweepEffect n kind).setEngine .idle).chooseSweep

/-! ## A visit (R60) -/

/-- The sweep after a visit: the cursor at the successor, one more visited, one more changed if the visit acted. A
visit that a new lap has overtaken is none of that lap's, which begins at its slot: the cursor stays there (R60, R67,
R68; log 13). -/
def Sweep.moved (w : Sweep) (next : Nat) (acted overtaken : Bool) : Sweep :=
  { w with
    cursor := if overtaken then w.cursor else next
    visited := if overtaken then w.visited else w.visited + 1
    changed := if acted then w.changed + 1 else w.changed }

/-- The end of a visit. The lap is complete when the cursor has come back to the start point (R60), which an overtaken
visit does not bring about; a sweep that a NIGHT-CLOSE abandons neither completes nor goes on (R71, R72). -/
def State.endVisit (s : State) (w : Sweep) (overtaken : Bool) : State :=
  let s1 := s.setEngine (.sweeping w)
  if s.sweep.wipePending then s1.releasePort
  else if w.cursor = w.start ∧ overtaken = false then (s1.completeSweep w.event w.kind).releasePort
  else s1.releasePort.claimSweep

/-- A visit of the slot at the cursor under the kind and ranges it was granted with (R61, R65). -/
def State.visit (s : State) (w : Sweep) (kind : SweepKind) (ranges : List Range) (overtaken : Bool) :
    State :=
  let s1 := s.check w.cursor
  match s1.visitUse w.cursor w.event kind ranges with
  | some g =>
    (s1.visitAct w.cursor g kind).endVisit (w.moved (s.successor w.cursor) true overtaken) overtaken
  | none => s1.endVisit (w.moved (s.successor w.cursor) false overtaken) overtaken

/-- SWEEP_VISIT (R60). -/
def execSweepVisit (upset : List Nat) (s : State) : Result :=
  match s.port.state, s.sweep.engine with
  | .visit kind ranges overtaken, .sweeping w =>
    s.withinStore w.cursor (.next ((s.upset upset).visit w kind ranges overtaken))
  | _, _ => .next s

/-! ## The WIPE (R72 to R74) -/

/-- WIPE_START (R72): the WIPE a NIGHT-CLOSE asked for starts once the port is free (log 17). -/
def execWipeStart (s : State) : Result :=
  if s.sweep.wipePending = true ∧ s.port.state = .idle then .next s.startWipe else .next s

/-- The WIPE is complete: WIPE-DONE, the engine IDLE, the unit in SETUP (R74). -/
def State.wipeDone (s : State) : State :=
  { (s.setEngine .idle).raise .wipeDone with night := .setup }

/-- A slot write of a WIPE, and what follows it (R73, R74). -/
def State.wipeSlot (s : State) (c : Nat) : State :=
  let s1 := s.putSlot c blankSlot
  if c + 1 = s.slotCount then s1.wipeDone.releasePort
  else (s1.setEngine (.wiping (c + 1))).releasePort.claimSweep

/-- WIPE_WRITE (R73). -/
def execWipeWrite (s : State) : Result :=
  match s.port.state, s.sweep.engine with
  | .wipeWrite, .wiping c => s.withinStore c (.next (s.wipeSlot c))
  | _, _ => .next s

end Sys2Proof.Machine
end

