-- ==== Sys2Proof/Machine/Dispatch.lean ====
section
/-! DEFINITION. The meaning of each command. -/

namespace Sys2Proof.Machine

/-- A command's effect on the unit; the queue of waiting commands is not its concern. -/
def exec (i : Instr) (s : State) : Host.Outcome State Fault Refusal :=
  match i with
  | .hardwareReset pins => Sys2Proof.Machine.execHardwareReset pins s
  | .settingsLoadEnd acknowledged => Sys2Proof.Machine.execSettingsLoadEnd acknowledged s
  | .saveDone acknowledged => Sys2Proof.Machine.execSaveDone acknowledged s
  | .addressCharacter value => Sys2Proof.Machine.execAddressCharacter value s
  | .characterFailure => Sys2Proof.Machine.execCharacterFailure s
  | .lengthFailure length => Sys2Proof.Machine.execLengthFailure length s
  | .gapFailure => Sys2Proof.Machine.execGapFailure s
  | .lineBreak => Sys2Proof.Machine.execLineBreak s
  | .requestFrame characters => Sys2Proof.Machine.execRequestFrame characters s
  | .replyComplete pins => Sys2Proof.Machine.execReplyComplete pins s
  | .unitId => Sys2Proof.Machine.execUnitId s
  | .unitStatus lines => Sys2Proof.Machine.execUnitStatus lines s
  | .countersRead => Sys2Proof.Machine.execCountersRead s
  | .noticeFetch => Sys2Proof.Machine.execNoticeFetch s
  | .noticeAck => Sys2Proof.Machine.execNoticeAck s
  | .unitReset pins => Sys2Proof.Machine.execUnitReset pins s
  | .configRead => Sys2Proof.Machine.execConfigRead s
  | .configWrite => Sys2Proof.Machine.execConfigWrite s
  | .settingsSave => Sys2Proof.Machine.execSettingsSave s
  | .nightOpen => Sys2Proof.Machine.execNightOpen s
  | .nightClose => Sys2Proof.Machine.execNightClose s
  | .busClear lines => Sys2Proof.Machine.execBusClear lines s
  | .eventDefine => Sys2Proof.Machine.execEventDefine s
  | .eventRead => Sys2Proof.Machine.execEventRead s
  | .eventHold => Sys2Proof.Machine.execEventHold s
  | .eventCancel => Sys2Proof.Machine.execEventCancel s
  | .eventClear => Sys2Proof.Machine.execEventClear s
  | .blackoutAdd => Sys2Proof.Machine.execBlackoutAdd s
  | .blackoutRemove => Sys2Proof.Machine.execBlackoutRemove s
  | .keyLoad => Sys2Proof.Machine.execKeyLoad s
  | .epochSelect => Sys2Proof.Machine.execEpochSelect s
  | .grantAdd => Sys2Proof.Machine.execGrantAdd s
  | .grantRevoke => Sys2Proof.Machine.execGrantRevoke s
  | .grantQuery => Sys2Proof.Machine.execGrantQuery s
  | .requestStoreOperation upset => Sys2Proof.Machine.execRequestStoreOperation upset s
  | .secondPulse elapsed order => Sys2Proof.Machine.execSecondPulse elapsed order s
  | .flywheelEntry order => Sys2Proof.Machine.execFlywheelEntry order s
  | .flywheelSecond order => Sys2Proof.Machine.execFlywheelSecond order s
  | .cycleTick => Sys2Proof.Machine.execCycleTick s
  | .compositionAttempt => Sys2Proof.Machine.execCompositionAttempt s
  | .urgentDequeue upset => Sys2Proof.Machine.execUrgentDequeue upset s
  | .freshDequeue upset => Sys2Proof.Machine.execFreshDequeue upset s
  | .refreshRead upset => Sys2Proof.Machine.execRefreshRead upset s
  | .arbiterGrant lines => Sys2Proof.Machine.execArbiterGrant lines s
  | .packetStart lines => Sys2Proof.Machine.execPacketStart lines s
  | .grantTaken lines => Sys2Proof.Machine.execGrantTaken lines s
  | .grantEnd lines => Sys2Proof.Machine.execGrantEnd lines s
  | .grantTimeout lines => Sys2Proof.Machine.execGrantTimeout lines s
  | .arbiterFault lines => Sys2Proof.Machine.execArbiterFault lines s
  | .sendEnd => Sys2Proof.Machine.execSendEnd s
  | .grantCompletionUpdate upset => Sys2Proof.Machine.execGrantCompletionUpdate upset s
  | .revokeCompletionUpdate upset => Sys2Proof.Machine.execRevokeCompletionUpdate upset s
  | .sweepVisit upset => Sys2Proof.Machine.execSweepVisit upset s
  | .wipeStart => Sys2Proof.Machine.execWipeStart s
  | .wipeWrite => Sys2Proof.Machine.execWipeWrite s
  | .scramblerReady level => Sys2Proof.Machine.execScramblerReady level s
  | .scramblerAccept => Sys2Proof.Machine.execScramblerAccept s

end Sys2Proof.Machine
end

