-- ==== Sys2Proof/Machine/Step.lean ====
section
/-! DEFINITION. One step of the unit: the command that has waited longest is taken; with none waiting a
millisecond passes. -/

namespace Sys2Proof.Machine

/-- The queue of waiting commands is replaced. -/
def State.setPending (s : State) (q : List Instr) : State := { s with pending := q }

/-- A millisecond of the free-running timer passes (R140, section 4.2; log 3). -/
def State.idle (s : State) : State := { s with timer := { s.timer with now := s.timer.now + 1 } }

/-- One step. -/
def step (s : State) : Host.Outcome State Fault Refusal :=
  match s.pending with
  | [] => .next s.idle
  | c :: rest => exec c (s.setPending rest)

/-- The state with the command a word spells put at the front of its queue; no row gives bits, so no word spells
one. -/
def State.withFetchWord (s : State) (nbits w : Nat) : State :=
  match decodeTableWord nbits w with
  | none => s
  | some c => s.setPending (c :: s.pending)

end Sys2Proof.Machine
end

