-- ==== Sys2Proof/Safety.lean ====
section
/-! DEFINITION. What is claimed of the unit: how a request ends, how a frame fails, what a reset leaves, and the laws
that hold between steps. These are written from the manual beside the model, for the statements to use. -/

namespace Sys2Proof.Machine

/-! ## Requests -/

/-- The request holder holds `h`, whose request is `q` (R165). -/
def State.holding (s : State) (h : HeldRequest) (q : Request) : Prop :=
  s.link.holder = .held h ∧ h.request = q

/-- The state with a result handed back: the reply being sent, or the holder FREE when the frame was broadcast, and
nothing else (R165, R167). -/
def State.replied (s : State) (h : HeldRequest) (r : ResultCode) (body : List Byte) : State :=
  { s with
    link := { s.link with
      holder :=
        match h.broadcast with
        | true => .free
        | false => .replying { tag := h.tag, code := h.request.code, result := r, body := body } } }

/-- A frame's characters after its address character, with a good CRC (R161, R183). -/
def goodFrame (tag code : Byte) (body : List Byte) : List Byte :=
  let covered := BitVec.ofNat 8 (body.length + 2) :: tag :: code :: body
  covered ++ [BitVec.ofNat 8 (crc covered).toNat, BitVec.ofNat 8 ((crc covered).toNat / 256)]

/-- What a failed frame leaves (R163): it is counted, the failure run is one more, and the receiver goes to `leads`,
or to LOCKED, counted, when the run reaches 4. -/
def State.failed (s : State) (leads : Receiver) (f : Counters → Counters) : State :=
  if s.link.failureRun + 1 < 4 then
    { s with
      link := { s.link with receiver := leads, failureRun := s.link.failureRun + 1 }
      counters := f s.counters }
  else
    { s with
      link := { s.link with receiver := .locked, failureRun := 4 }
      counters := { f s.counters with locks := bump (f s.counters).locks } }

/-! ## The configuration record (R176) -/

/-- The thirteen fields lie in the ranges of R176. -/
structure RawConfig.InRange (r : RawConfig) : Prop where
  bankA : r.bankA ∈ [16384, 32768, 65536, 131072]
  bankB : r.bankB ∈ [0, 16384, 32768, 65536, 131072] ∧ r.bankB ≤ r.bankA
  cycleLength : 96 ≤ r.cycleLength ∧ r.cycleLength ≤ 4096
  urgentShare : r.urgentShare ≤ r.cycleLength - 64
  freshShare : r.freshShare ≤ r.cycleLength - 64 - r.urgentShare
  confirmCount : 1 ≤ r.confirmCount ∧ r.confirmCount ≤ 15
  revokeCount : 1 ≤ r.revokeCount ∧ r.revokeCount ≤ 15
  heldInterval : 1 ≤ r.heldInterval ∧ r.heldInterval ≤ 64
  stateRepeat : 1 ≤ r.stateRepeat ∧ r.stateRepeat ≤ 63
  announceMinimum : 1 ≤ r.announceMinimum ∧ r.announceMinimum ≤ 63
  shortEpoch : 4 ≤ r.shortEpoch ∧ r.shortEpoch ≤ 60
  longEpoch : 20 ≤ r.longEpoch ∧ r.longEpoch ≤ 900 ∧ r.shortEpoch < r.longEpoch
  pairs : r.pairs &&& 0xF1#8 = 0#8

/-- The thirteen fields of a record as a frame or the EEPROM carries them (R186). -/
def ConfigRecord.InRange (r : ConfigRecord) : Prop := r.raw.InRange

/-- The fields of EVENT-DEFINE after the event number lie in the ranges of R19. -/
structure DefineFields.InRange (d : DefineFields) : Prop where
  service : 1 ≤ d.service ∧ d.service ≤ 65535
  flags : d.flags &&& 0xFE#8 = 0#8
  times : d.saleOpen ≤ 16777215 ∧ d.liveStart ≤ 16777215 ∧ d.scheduledClose ≤ 16777215
  preview : d.flags.getLsbD 0 = true →
    d.previewStart ≤ 16777215 ∧ d.saleOpen ≤ d.previewStart ∧ d.previewStart < d.liveStart
  live : d.saleOpen < d.liveStart
  close : d.liveStart < d.scheduledClose ∧ d.scheduledClose - d.liveStart ≤ 86400
  count : d.rangeCount ≤ 8
  ranges : ∀ r ∈ d.ranges, r.low ≤ r.high ∧ r.high ≤ 255

/-! ## Resets (R135, R168, R182) -/

/-- What hardware reset and UNIT-RESET leave alike in every block. -/
structure State.AfterReset (t : State) (pins : Straps) : Prop where
  night : t.night = .starting
  straps : t.straps = pins
  clock : t.clock = { clock := 0, source := .stopped, lastTick := none, lastPulse := none }
  save : t.settings.save = none ∧ t.settings.lastSave = .none
  events : t.events = List.replicate 32 EventRecord.empty
  selection : t.selection = .short
  scrambler : t.scrambler.queue = []
  store : t.store.drawn = 0 ∧ t.store.damaged = 0
  claims : t.port.composition = false ∧ t.port.completions = [] ∧ t.port.request = false
    ∧ t.port.sweep = false
  sweep : t.sweep.lastServed = 31 ∧ t.sweep.wipePending = false
  carousel : t.carousel = Carousel.reset
  bus : t.bus.state = .off ∧ t.bus.staging = none ∧ t.bus.sending = none
  arbiter : t.arbiter = { state := .idle, lastGranted := .pair3 }
  link : t.link = { receiver := .hunt, failureRun := 0, holder := .free }
  notice : t.notice = { causes := 0#10, unitMasks := 0x7FF#11, eventMasks := 0xF#4, master := false }
  counters : t.counters = Counters.zero

/-- What no reset reaches: the SRAM's contents, the levels on the input lines, the commands that wait. -/
def State.KeptByReset (s t : State) : Prop :=
  t.store.memory = s.store.memory ∧ t.bus.lines = s.bus.lines
    ∧ t.scrambler.ready = s.scrambler.ready ∧ t.pending = s.pending

/-- A WIPE has started (R72): the engine WIPING at slot 0 with its first write granted, the sizes in force those of
the record, the queues empty, the refresh cursor and pass number 0. -/
structure State.Wiping (t : State) : Prop where
  engine : t.sweep = { engine := .wiping 0, lastServed := 31, wipePending := false }
  port : t.port.state = .wipeWrite ∧ t.port.sweep = false
  sizes : t.store.sizeA = t.settings.record.bankA ∧ t.store.sizeB = t.settings.record.bankB
  drawn : t.store.drawn = 0 ∧ t.store.damaged = 0
  queues : t.carousel.fresh = [] ∧ t.carousel.urgent = []
  cursor : t.carousel.cursor = 0 ∧ t.carousel.pass = 0
  marks : ∀ r ∈ t.events, r.marks = Marks.none

/-! ## The store port (R43) -/

/-- The port when the operation that held it has ended: granted to the waiting claimant of highest rank, the carousel's
completion updates first, then its composition reads, the request engine and the sweep engine, or IDLE (R43). -/
def State.portReleased (s : State) : StorePort :=
  if s.port.completions ≠ [] then { s.port with state := .completion }
  else if s.port.composition = true then { s.port with state := .composition, composition := false }
  else if s.port.request = true then { s.port with state := .request, request := false }
  else
    match s.port.sweep, s.sweep.engine with
    | true, .sweeping w =>
      { s.port with state := .visit w.kind (s.event w.event).blackout false, sweep := false }
    | true, .wiping _ => { s.port with state := .wipeWrite, sweep := false }
    | true, .idle => { s.port with state := .idle, sweep := false }
    | false, _ => { s.port with state := .idle }

/-- What a mark does to the store port that stood as `p` (R58, R67): nothing, a visit that it overtakes (log 13), or a
claim of the sweep engine, granted at once if the port is IDLE and no claim of higher rank waits. -/
def State.PortMarked (t : State) (p : StorePort) : Prop :=
  t.port = p
    ∨ t.port = { p with state := match p.state with | .visit k ranges _ => .visit k ranges true | other => other }
    ∨ (p.state ≠ .idle ∧ t.port = { p with sweep := true })
    ∨ (p.state = .idle ∧ t.port = State.portReleased { t with port := { p with sweep := true } })

/-! ## The end of an event (R10, R22, R115) -/

/-- The event carries the mark of a kind. -/
def EventRecord.marked (r : EventRecord) : SweepKind → Prop
  | .cancel => r.marks.cancel = true
  | .retire => r.marks.retire = true
  | .blackout => r.marks.blackout = true

/-- A sweep of a kind is asked for or has begun: its mark is present, or the engine runs it. -/
def State.sweepAsked (t : State) (n : Nat) (kind : SweepKind) : Prop :=
  (t.event n).marked kind
    ∨ ∃ w, t.sweep.engine = .sweeping w ∧ w.kind = kind ∧ w.event = n

/-- A tag after the KEY tags of an event have been voided (R109). -/
def Tag.keyVoided (n : Nat) (t : Tag) : Tag :=
  match t.content with
  | .key e _ => { t with voided := if e = n then true else t.voided }
  | .state _ _ => t
  | .grant _ _ _ => t
  | .revoke _ _ _ => t

/-- A packet after the KEY tags of an event have been voided: its message stays (R109, R115). -/
def Packet.keyVoided (n : Nat) (p : Packet) : Packet := { p with tag := p.tag.map (Tag.keyVoided n) }

/-- Event `n` of `s` has ended in `t`, in the state `target` with a sweep of kind `kind` asked for: its keys
discarded and a CLEAR record posted if it was keyed, its window, hold, blackout list and counts kept. Of the other
events at most marks change, and only the engine, its claim, the scrambler queue, one counter and the tags of the
event's KEY messages change besides. A queued SWITCH record that the CLEAR record replaces counts as withdrawn
(R117), and the tags of the event's KEY messages in flight are voided (R109, R115). -/
structure State.Ended (s t : State) (n : Nat) (target : EventState) (kind : SweepKind) : Prop where
  state : (t.event n).state = target
  window : (t.event n).window = (s.event n).window
  hold : (t.event n).hold = (s.event n).hold
  ranges : (t.event n).blackout = (s.event n).blackout
  counts : (t.event n).counts = (s.event n).counts
  causes : (t.event n).causes = (s.event n).causes ||| 1#4
  repeats : (t.event n).repeatsOwed = s.settings.record.stateRepeat
  keys : (t.event n).keys =
    { epoch := (s.event n).keys.epoch, current := none, next := none, onDeck := none,
      announceCount := 0, epochStart := (s.event n).keys.epochStart,
      length := (s.event n).keys.length, keyLate := false }
  marks : (t.event n).marks.blackout = false ∧ t.sweepAsked n kind
  others : ∀ m, m ≠ n → ∃ k : Marks, t.event m = { s.event m with marks := k }
  cleared : (s.event n).state.keyed = true →
    t.scrambler.queue = s.scrambler.queue.filter (fun r => !(r.event == n))
      ++ [{ event := n, payload := .clear (s.event n).service }]
  withdrawn : (s.event n).state.keyed = true →
    (∃ service epoch key, { event := n, payload := .switch service epoch key } ∈ s.scrambler.queue) →
    t.counters = { s.counters with switchesWithdrawn := bump s.counters.switchesWithdrawn }
  notWithdrawn : (∀ service epoch key, { event := n, payload := .switch service epoch key } ∉ s.scrambler.queue) →
    t.counters = s.counters
  notCleared : (s.event n).state.keyed = false → t.scrambler = s.scrambler ∧ t.counters = s.counters
  bus : t.bus = { s.bus with
    staging := s.bus.staging.map (Packet.keyVoided n), sending := s.bus.sending.map (Packet.keyVoided n) }
  updates : t.port.completions = s.port.completions.map (Tag.keyVoided n)
  port : t.PortMarked { s.port with completions := s.port.completions.map (Tag.keyVoided n) }
  left : t.night = s.night ∧ t.straps = s.straps ∧ t.timer = s.timer ∧ t.clock = s.clock
    ∧ t.settings = s.settings ∧ t.selection = s.selection ∧ t.store = s.store
    ∧ t.carousel = s.carousel ∧ t.arbiter = s.arbiter ∧ t.link = s.link ∧ t.notice = s.notice
    ∧ t.pending = s.pending

/-! ## Store operations (R44, R47) -/

/-- The slot memory is in canonical form. -/
def State.storeOk (s : State) : Prop := s.store.memory.wf = true

/-- The request engine holds the store port for the request `q` of `h`, and `v` is the unit with the slots `u`
corrupted: the state a request operation works on. -/
structure State.Operates (s v : State) (h : HeldRequest) (q : Request) (u : List Nat) : Prop where
  holding : s.holding h q
  port : s.port.state = .request
  corrupted : v = s.upset u
  store : 0 < s.slotCount
  canonical : s.storeOk

/-- A slot holds a live grant of a pair (R31). -/
def Slot.LiveFor (x : Slot) (decoder event : Nat) : Prop :=
  (x.state = .pending ∨ x.state = .announced ∨ x.state = .held ∨ x.state = .revoking)
    ∧ ∃ g, x.grant = some g ∧ g.decoder = decoder ∧ g.event = event

/-- What a store operation by the request engine leaves in every case, and the port it releases (R43). -/
def State.KeptByRequest (s t : State) : Prop :=
  t.night = s.night ∧ t.straps = s.straps ∧ t.timer = s.timer ∧ t.clock = s.clock
    ∧ t.settings = s.settings ∧ t.selection = s.selection ∧ t.scrambler = s.scrambler
    ∧ t.sweep = s.sweep ∧ t.bus = s.bus ∧ t.arbiter = s.arbiter ∧ t.pending = s.pending
    ∧ t.store.sizeA = s.store.sizeA ∧ t.store.sizeB = s.store.sizeB ∧ t.port = s.portReleased

/-- The holder after a result (R165). -/
def HeldRequest.After (h : HeldRequest) (r : ResultCode) (body : List Byte) : Holder :=
  match h.broadcast with
  | true => .free
  | false => .replying { tag := h.tag, code := h.request.code, result := r, body := body }

/-- No message for the pair is in flight (R46). -/
def State.NotInFlight (s : State) (decoder event : Nat) : Prop :=
  ∀ t ∈ s.tagsInFlight, ∀ n, t.content ≠ .grant n decoder event ∧ t.content ≠ .revoke n decoder event

/-- A composed packet stands in staging: counted in the cycle, the attempt over, the request asserted (R80, R92,
R123). -/
structure State.Composed (s t : State) (m : Message) (c : TagContent) : Prop where
  staging : t.bus.staging =
    some { message := m, tag := some { cycle := s.carousel.cycle, content := c, voided := false } }
  sending : t.bus.sending = s.bus.sending ∧ t.bus.lines = s.bus.lines
  request : t.bus.state = if s.bus.state = .idle then .requesting else s.bus.state
  composed : t.carousel.composed = s.carousel.composed + 1
  attempt : t.carousel.attempt = .none

/-- What a composition read leaves in every case. -/
def State.KeptByRead (s t : State) : Prop :=
  t.night = s.night ∧ t.straps = s.straps ∧ t.timer = s.timer ∧ t.clock = s.clock
    ∧ t.settings = s.settings ∧ t.events = s.events ∧ t.selection = s.selection
    ∧ t.scrambler = s.scrambler ∧ t.sweep = s.sweep ∧ t.arbiter = s.arbiter ∧ t.link = s.link
    ∧ t.pending = s.pending ∧ t.store.sizeA = s.store.sizeA ∧ t.store.sizeB = s.store.sizeB
    ∧ t.store.drawn = s.store.drawn

/-- The carousel holds the store port for an attempt that stands at `a`, in a running cycle, and reads slot `n`; `v` is the
unit with the slots `u` corrupted. -/
structure State.Reads (s v : State) (a : Attempt) (n : Nat) (u : List Nat) : Prop where
  port : s.port.state = .composition
  attempt : s.carousel.attempt = a
  running : s.carousel.run = .running
  corrupted : v = s.upset u
  inside : n < s.slotCount
  canonical : s.storeOk

/-- A completion update holds the store port with the tag `t` at the head; `v` is the unit with the slots `u` corrupted, and
the slot `n` passes its check. -/
structure State.Updates (s v : State) (t : Tag) (rest : List Tag) (n : Nat) (u : List Nat) : Prop where
  port : s.port.state = .completion
  head : s.port.completions = t :: rest
  notVoided : t.voided = false
  corrupted : v = s.upset u
  inside : n < s.slotCount
  canonical : s.storeOk
  good : (v.cell n).checkGood = true

/-- What a completion update leaves in every case; its tag is taken off the waiting updates and the port is released
(R43, R96). -/
def State.KeptByUpdate (s t : State) (rest : List Tag) : Prop :=
  t.night = s.night ∧ t.straps = s.straps ∧ t.timer = s.timer ∧ t.clock = s.clock
    ∧ t.settings = s.settings ∧ t.selection = s.selection ∧ t.scrambler = s.scrambler
    ∧ t.sweep = s.sweep ∧ t.carousel = s.carousel ∧ t.bus = s.bus ∧ t.arbiter = s.arbiter
    ∧ t.link = s.link ∧ t.notice = s.notice ∧ t.counters = s.counters ∧ t.pending = s.pending
    ∧ t.store = { s.store with memory := t.store.memory }
    ∧ t.port = State.portReleased { s with port := { s.port with completions := rest } }

/-- The sweep engine holds the store port for a visit of the sweep `w` under the kind and ranges it was granted with, `o`
telling whether a new lap has begun since; `v` is the unit with the slots `u` corrupted, and the slot at the cursor passes
its check. -/
structure State.Visits (s v : State) (w : Sweep) (k : SweepKind) (ranges : List Range) (o : Bool)
    (u : List Nat) : Prop where
  port : s.port.state = .visit k ranges o
  engine : s.sweep.engine = .sweeping w
  corrupted : v = s.upset u
  inside : w.cursor < s.slotCount
  canonical : s.storeOk
  good : (v.cell w.cursor).checkGood = true

/-- What a visit leaves in every case. -/
def State.KeptByVisit (s t : State) : Prop :=
  t.night = s.night ∧ t.straps = s.straps ∧ t.timer = s.timer ∧ t.clock = s.clock
    ∧ t.settings = s.settings ∧ t.selection = s.selection ∧ t.scrambler = s.scrambler
    ∧ t.bus = s.bus ∧ t.arbiter = s.arbiter ∧ t.link = s.link ∧ t.pending = s.pending
    ∧ t.store = { s.store with memory := t.store.memory }

/-! ## Readings the statements share -/

/-- The port when a composition read has ended and the attempt claims a further one behind the claims that wait
(R43, R81). -/
def State.portReclaimed (s : State) : StorePort :=
  if s.portReleased.state = .idle then { s.portReleased with state := .composition, composition := false }
  else { s.portReleased with composition := true }

/-- Where an attempt that stood at a read stands after the read yielded nothing and left the carousel `c`: at the
next read of the same step while its condition of R81 holds, else at the next step that has work, or at none, which
is step 7. A step 4 makes 32 reads (R81, R85, R86, R90). -/
def ConfigRecord.stepAfter (r : ConfigRecord) (c : Carousel) : Attempt → Attempt
  | .urgentShare =>
    if c.urgentComposed < r.urgentShare ∧ c.urgent ≠ [] then .urgentShare
    else if c.freshComposed < r.freshShare ∧ c.fresh ≠ [] then .freshShare
    else .refresh 0
  | .freshShare =>
    if c.freshComposed < r.freshShare ∧ c.fresh ≠ [] then .freshShare else .refresh 0
  | .refresh reads =>
    if reads + 1 < 32 then .refresh (reads + 1)
    else if c.urgent ≠ [] then .urgentRest else if c.fresh ≠ [] then .freshRest else .none
  | .urgentRest => if c.urgent ≠ [] then .urgentRest else if c.fresh ≠ [] then .freshRest else .none
  | .freshRest => if c.fresh ≠ [] then .freshRest else .none
  | .none => .none

/-- The carousel of a cycle that has ended: WAITING with the cycle's fields at rest (R76, R79). -/
def Carousel.cycleEnded (c : Carousel) : Carousel :=
  { c with
    run := .waiting, composed := 0, finished := 0, urgentComposed := 0, freshComposed := 0, owed := [],
    attempt := .none, exhausted := false }

/-- The attempt goes on from the step `a`, whose read yielded nothing and left the carousel `c`: the next read is
claimed at the port; at step 7 no further attempt begins in the cycle, which ends at once when every packet composed
has finished (R79, R80, R81). -/
def State.GoesOn (s t : State) (c : Carousel) (a : Attempt) : Prop :=
  t.bus = s.bus
  ∧ (s.settings.record.stepAfter c a ≠ .none →
      t.carousel = { c with attempt := s.settings.record.stepAfter c a } ∧ t.port = s.portReclaimed)
  ∧ (s.settings.record.stepAfter c a = .none →
      t.port = s.portReleased
      ∧ t.carousel =
          if s.settings.record.cycleLength ≤ c.finished ∨ c.finished = c.composed then c.cycleEnded
          else { c with attempt := .none, exhausted := true })

/-- The refresh cursor offers the slot `x`, which holds the grant `g`, at a pass (R89). -/
def State.Offered (s : State) (x : Slot) (g : Grant) (pass : Nat) : Prop :=
  x.grant = some g
    ∧ (((x.state = .pending ∨ x.state = .announced
          ∨ (x.state = .held ∧ pass % s.settings.record.heldInterval = 0))
        ∧ ((s.event g.event).state.selling = true ∨ (s.event g.event).state = .cancelled))
      ∨ (x.state = .revoking ∧ (s.event g.event).state ≠ .closed ∧ (s.event g.event).state ≠ .retired))

/-- A packet composed in the cycle `c` has finished: it counts in that cycle only, which ends when its packets are
spent or when nothing was eligible and every packet composed has finished (R79). -/
def State.packetFinished (s : State) (c : Nat) : State :=
  if s.carousel.run = .running ∧ s.carousel.cycle = c then
    { s with
      carousel :=
        if s.settings.record.cycleLength ≤ s.carousel.finished + 1
            ∨ (s.carousel.exhausted = true ∧ s.carousel.finished + 1 = s.carousel.composed) then
          s.carousel.cycleEnded
        else { s.carousel with finished := s.carousel.finished + 1 } }
  else s

/-- The field of an index, 1 to 13, lies out of its range of R176; the range of a field that depends on earlier
fields is taken from those fields of the same record. -/
def RawConfig.FieldOut (r : RawConfig) (i : Nat) : Prop :=
  (i = 1 ∧ r.bankA ∉ [16384, 32768, 65536, 131072])
    ∨ (i = 2 ∧ ¬ (r.bankB ∈ [0, 16384, 32768, 65536, 131072] ∧ r.bankB ≤ r.bankA))
    ∨ (i = 3 ∧ ¬ (96 ≤ r.cycleLength ∧ r.cycleLength ≤ 4096))
    ∨ (i = 4 ∧ ¬ r.urgentShare ≤ r.cycleLength - 64)
    ∨ (i = 5 ∧ ¬ r.freshShare ≤ r.cycleLength - 64 - r.urgentShare)
    ∨ (i = 6 ∧ ¬ (1 ≤ r.confirmCount ∧ r.confirmCount ≤ 15))
    ∨ (i = 7 ∧ ¬ (1 ≤ r.revokeCount ∧ r.revokeCount ≤ 15))
    ∨ (i = 8 ∧ ¬ (1 ≤ r.heldInterval ∧ r.heldInterval ≤ 64))
    ∨ (i = 9 ∧ ¬ (1 ≤ r.stateRepeat ∧ r.stateRepeat ≤ 63))
    ∨ (i = 10 ∧ ¬ (1 ≤ r.announceMinimum ∧ r.announceMinimum ≤ 63))
    ∨ (i = 11 ∧ ¬ (4 ≤ r.shortEpoch ∧ r.shortEpoch ≤ 60))
    ∨ (i = 12 ∧ ¬ (20 ≤ r.longEpoch ∧ r.longEpoch ≤ 900 ∧ r.shortEpoch < r.longEpoch))
    ∨ (i = 13 ∧ r.pairs &&& 0xF1#8 ≠ 0#8)

/-- Where an address character leads the receiver (R162): the broadcast address and the own address, which lies from
1 to 30, to ADDRESSED, every other to PASSING. -/
def State.leadsTo (s : State) (v : Byte) : Receiver :=
  if v = 31#8 then .addressed true
  else if v.toNat = s.straps.unitAddress.val ∧ 1 ≤ v.toNat ∧ v.toNat ≤ 30 then .addressed false
  else .passing

/-- The field of an index of NOTICE-ACK lies out of its range (R174, R184): a bit that names nothing among the
causes to clear, the mask flags, or a mask that is given; a re-arm neither 0 nor 1; more than 32 entries; and, two
fields for each entry from 7 on, an event number above 31 or a cause bit that names nothing. -/
def AckFields.FieldOut (a : AckFields) (i : Nat) : Prop :=
  (i = 1 ∧ a.causes &&& 0xF800#16 ≠ 0#16)
    ∨ (i = 2 ∧ a.flags &&& 0xFC#8 ≠ 0#8)
    ∨ (i = 3 ∧ a.flags.getLsbD 0 = true ∧ a.unitMasks &&& 0xF800#16 ≠ 0#16)
    ∨ (i = 4 ∧ a.flags.getLsbD 1 = true ∧ a.eventMasks &&& 0xF0#8 ≠ 0#8)
    ∨ (i = 5 ∧ 1 < a.rearm)
    ∨ (i = 6 ∧ 32 < a.entryCount)
    ∨ ∃ k e, a.entries[k]? = some e
        ∧ ((i = 7 + 2 * k ∧ 31 < e.event) ∨ (i = 8 + 2 * k ∧ e.causes &&& 0xF0#8 ≠ 0#8))

/-- The field of an index of EVENT-DEFINE after its event number lies out of its range, or fails a check that
relates it to an earlier field: such a check names the later of the two (R19, R184). The ranges take two fields each
from 9 on. -/
def DefineFields.FieldOut (d : DefineFields) (i : Nat) : Prop :=
  (i = 2 ∧ ¬ (1 ≤ d.service ∧ d.service ≤ 65535))
    ∨ (i = 3 ∧ d.flags &&& 0xFE#8 ≠ 0#8)
    ∨ (i = 4 ∧ 16777215 < d.saleOpen)
    ∨ (i = 5 ∧ d.flags.getLsbD 0 = true ∧ (16777215 < d.previewStart ∨ d.previewStart < d.saleOpen))
    ∨ (i = 6 ∧ (16777215 < d.liveStart
        ∨ d.liveStart ≤ (if d.flags.getLsbD 0 = true then d.previewStart else d.saleOpen)))
    ∨ (i = 7 ∧ (16777215 < d.scheduledClose ∨ d.scheduledClose ≤ d.liveStart
        ∨ d.liveStart + 86400 < d.scheduledClose))
    ∨ (i = 8 ∧ 8 < d.rangeCount)
    ∨ ∃ k r, d.ranges[k]? = some r
        ∧ ((i = 9 + 2 * k ∧ 255 < r.low) ∨ (i = 10 + 2 * k ∧ (255 < r.high ∨ r.high < r.low)))

/-- The work that stops a plain NIGHT-CLOSE (R155): an event ON-SALE, keyed, CANCELLED or CLOSED, or an engine that
is SWEEPING. -/
def State.Active (s : State) : Prop :=
  (∃ r ∈ s.events, r.state = .onSale ∨ r.state = .preview ∨ r.state = .live ∨ r.state = .overtime
    ∨ r.state = .cancelled ∨ r.state = .closed) ∨ ∃ w, s.sweep.engine = .sweeping w

/-- A cancel sweep has completed (R12): the CANCEL mark is absent and the engine is not running a CANCEL sweep of
the event. -/
def State.CancelSwept (s : State) (n : Nat) : Prop :=
  (s.event n).marks.cancel = false
    ∧ ∀ w, s.sweep.engine = .sweeping w → ¬ (w.kind = .cancel ∧ w.event = n)

/-- The advance conditions of an event: a next key, announced at least the minimum, with no record of the event in
the scrambler queue (R110, R114). -/
def State.Ready (s : State) (n : Nat) : Prop :=
  (s.event n).keys.next ≠ none
    ∧ s.settings.record.announceMinimum ≤ (s.event n).keys.announceCount
    ∧ ∀ r ∈ s.scrambler.queue, r.event ≠ n

/-- The clock has reached the epoch boundary of an event (R5, R110): epoch start + length in force. -/
def State.AtBoundary (s : State) (n : Nat) : Prop :=
  ∃ start length, (s.event n).keys.epochStart = some start ∧ (s.event n).keys.length = some length
    ∧ start + length ≤ s.clock.clock

/-- The key fields an advance leaves (R111). -/
def State.AdvancedKeys (s : State) (n : Nat) : KeyFields :=
  { epoch := (s.event n).keys.epoch + 1, current := (s.event n).keys.next,
    next := (s.event n).keys.onDeck, onDeck := none, announceCount := 0,
    epochStart := some s.clock.clock,
    length := some (match s.selection with
      | .short => s.settings.record.shortEpoch
      | .long => s.settings.record.longEpoch),
    keyLate := false }

/-- A deadline pending for an event, by its state (R145); a held epoch and a boundary beyond the last night second
have none (R110, R142). -/
def State.Pending (s : State) (d : Deadline) : Prop :=
  d.event ≤ 31 ∧ ∃ (r : EventRecord) (w : Window), r = s.event d.event ∧ r.window = some w
    ∧ ((r.state = .scheduled ∧ d.kind = .saleOpen ∧ d.time = w.saleOpen)
      ∨ (r.state = .onSale ∧ r.keys.keyLate = false ∧ w.previewStart = none ∧ d.kind = .live
          ∧ d.time = w.liveStart)
      ∨ (r.state = .onSale ∧ r.keys.keyLate = false ∧ d.kind = .preview
          ∧ w.previewStart = some d.time)
      ∨ (r.state = .preview ∧ d.kind = .live ∧ d.time = w.liveStart)
      ∨ (r.state = .live ∧ w.scheduledClose < effectiveCloseOf w.scheduledClose r.hold
          ∧ d.kind = .close ∧ d.time = w.scheduledClose)
      ∨ ((r.state = .onSale ∨ r.state = .preview ∨ r.state = .overtime
            ∨ (r.state = .live ∧ effectiveCloseOf w.scheduledClose r.hold ≤ w.scheduledClose))
          ∧ d.kind = .close ∧ d.time = effectiveCloseOf w.scheduledClose r.hold)
      ∨ ((r.state = .preview ∨ r.state = .live ∨ r.state = .overtime) ∧ r.keys.keyLate = false
          ∧ d.kind = .epoch ∧ d.time ≤ 16777215
          ∧ ∃ a b, r.keys.epochStart = some a ∧ r.keys.length = some b ∧ d.time = a + b))

/-- A GRANT-ADD whose checks pass (R48). -/
def State.Admits (s : State) (f : AddFields) : Prop :=
  f.event ≤ 31 ∧ (s.event f.event).state.admitting = true ∧ 1 ≤ f.decoder ∧ f.decoder ≤ 4294967294
    ∧ (f.kind = 1 ∨ f.kind = 2) ∧ f.region ≤ 255
    ∧ (f.kind = 1 → ∀ x ∈ (s.event f.event).blackout, ¬ (x.low ≤ f.region ∧ f.region ≤ x.high))

/-- The grant a GRANT-ADD writes: its fields, with the night clock in OPEN and 0 in SETUP (R50, R51). -/
def State.GrantOf (s : State) (f : AddFields) : Grant :=
  { decoder := f.decoder, event := f.event
    kind := if f.kind = 1 then .purchased else .complimentary, region := f.region
    admittedAt := if s.night = .opened then s.clock.clock else 0 }

/-- Why a GRANT candidate is converted at emission, if it is (R91). -/
def State.Converts (s : State) (g : Grant) (why : RevokeReason) : Prop :=
  ((s.event g.event).state = .cancelled ∧ why = .cancelled)
    ∨ ((s.event g.event).state ≠ .cancelled ∧ g.kind = .purchased ∧ why = .blackout
        ∧ ∃ x ∈ (s.event g.event).blackout, x.low ≤ g.region ∧ g.region ≤ x.high)

/-- What a CANCEL or BLACKOUT visit does to a slot it is to revoke (R54, R62, R63, R65): unsent it is VACANT, live
is one less and revoked one more; otherwise it is REVOKING with an urgent append attempt, whose overflow is counted
and raised. -/
def State.VisitRevokes (s v t : State) (n : Nat) (g : Grant) (why : RevokeReason) : Prop :=
  ((v.slot n).state = .pending → s.NotInFlight g.decoder g.event → 1 ≤ (s.event g.event).counts.live →
    g.event < s.events.length → (s.event g.event).state ≠ .empty →
    t.slot n = { v.slot n with state := .vacant, emissions := 0, reason := none }
    ∧ (t.event g.event).counts =
        { (s.event g.event).counts with
          live := (s.event g.event).counts.live - 1
          revoked := (s.event g.event).counts.revoked + 1 }
    ∧ ((s.event g.event).state ≠ .cancelled ∨ ¬ s.CancelSwept g.event →
        t.event g.event = { s.event g.event with counts := (t.event g.event).counts })
    ∧ t.carousel = s.carousel ∧ t.notice = s.notice ∧ t.counters = s.counters)
  ∧ (((v.slot n).state = .announced ∨ (v.slot n).state = .held
      ∨ ((v.slot n).state = .pending ∧ ¬ s.NotInFlight g.decoder g.event)) →
    t.slot n =
      { v.slot n with
        state := .revoking, emissions := 0, reason := some why
        mark := if (v.slot n).mark = .none ∧ s.carousel.urgent.length < 256 then .urgent
          else (v.slot n).mark }
    ∧ t.carousel =
      { s.carousel with
        urgent := if (v.slot n).mark = .none ∧ s.carousel.urgent.length < 256 then
            s.carousel.urgent ++ [n] else s.carousel.urgent }
    ∧ t.events = s.events
    ∧ (¬ ((v.slot n).mark = .none ∧ 256 ≤ s.carousel.urgent.length) →
        t.notice = s.notice ∧ t.counters = s.counters)
    ∧ ((v.slot n).mark = .none ∧ 256 ≤ s.carousel.urgent.length →
        t.notice = { s.notice with causes := s.notice.causes ||| 0x008#10 }
        ∧ t.counters = { s.counters with urgentOverflow := bump s.counters.urgentOverflow }))

/-- The visit of a sweep of the event `n` reaches the slot `x`, which holds the grant `g` of that event: a CANCEL
visit a PENDING, ANNOUNCED or HELD slot, a BLACKOUT visit such a slot that is PURCHASED in a region of the ranges, a
RETIRE visit every live slot (R63, R64, R65). -/
def Slot.Reached (x : Slot) (n : Nat) (g : Grant) (k : SweepKind) (ranges : List Range) : Prop :=
  x.LiveFor g.decoder n ∧ x.grant = some g ∧ (k ≠ .retire → x.state ≠ .revoking)
    ∧ (k = .blackout → g.kind = .purchased ∧ ∃ y ∈ ranges, y.low ≤ g.region ∧ g.region ≤ y.high)

/-- What an advance to the key `key` leaves (R111, R113, R117): the event's key fields, KEY-LOW when no key follows,
a SWITCH record at the tail of the scrambler queue, and the state entered, if one is, with the effects of a change
of state (R7, R9). -/
def State.advanced (s : State) (n : Nat) (key : Key) (entered : Option EventState) : State :=
  { s with
    events := s.events.set n
      { s.event n with
        state := match entered with | none => (s.event n).state | some x => x
        causes := (s.event n).causes ||| (if entered = none then 0#4 else 1#4)
          ||| (if (s.event n).keys.onDeck = none then 4#4 else 0#4)
        repeatsOwed :=
          match entered with
          | none => (s.event n).repeatsOwed
          | some _ => s.settings.record.stateRepeat
        keys := s.AdvancedKeys n }
    scrambler := { s.scrambler with
      queue := s.scrambler.queue
        ++ [{ event := n, payload := .switch (s.event n).service ((s.event n).keys.epoch + 1) key }] } }

/-- The conditions of the event `n` are checked again in `a`, which leaves `b` (R8, R112, R114): nothing happens
unless the event waits for a key and its conditions are true. A held epoch then advances. An event in key wait
enters the state its window gives at the present clock, with the close and overtime of the deadline steps taken at
once (R7). -/
def State.Rechecks (a b : State) (n : Nat) : Prop :=
  (((a.event n).keys.keyLate = false ∨ ¬ a.Ready n
      ∨ ((a.event n).state ≠ .onSale ∧ (a.event n).state.keyed = false)) → b = a)
  ∧ ∀ key, (a.event n).keys.keyLate = true → a.Ready n → (a.event n).keys.next = some key →
    ((a.event n).state.keyed = true → b = a.advanced n key none)
    ∧ ∀ (w : Window) (first : EventState), (a.event n).state = .onSale → (a.event n).window = some w →
        first = (if w.previewStart ≠ none ∧ a.clock.clock < w.liveStart then .preview else .live) →
        (a.clock.clock < effectiveCloseOf w.scheduledClose (a.event n).hold →
          b = a.advanced n key
            (some (if first = .live ∧ w.scheduledClose ≤ a.clock.clock then .overtime else first)))
        ∧ (effectiveCloseOf w.scheduledClose (a.event n).hold ≤ a.clock.clock →
          (a.advanced n key (some first)).Ended b n .closed .retire)

/-- The unit `t` after an IDLE engine of `s` has chosen (R58, R59): nothing happens with no event marked; otherwise
the first marked event after last served, counting modulo 32, is taken. Its mark is cleared, its lap begins at the
refresh cursor with nothing visited or changed, last served becomes the event, and the first visit claims the port.
-/
def State.Chose (s t : State) : Prop :=
  ((∀ r ∈ s.events, r.marks = { cancel := false, retire := false, blackout := false }) → t = s)
  ∧ ∀ (i n : Nat) (k : SweepKind) (u : State), i < 32 → n = (s.sweep.lastServed + 1 + i) % 32 →
    (∀ j, j < i → ∀ q, ¬ (s.event ((s.sweep.lastServed + 1 + j) % 32)).marked q) →
    (∀ q, (s.event n).marked q ↔ q = k) →
    u = { s with
      events := s.events.set n
        { s.event n with marks := { cancel := false, retire := false, blackout := false } }
      sweep := { s.sweep with
        engine := .sweeping
          { kind := k, event := n, start := s.carousel.cursor, cursor := s.carousel.cursor,
            visited := 0, changed := 0 }
        lastServed := n }
      port := { s.port with sweep := true } } →
    t = { u with port := if s.port.state = .idle then u.portReleased else u.port }

/-- The record that the completion of a sweep leaves its event (R11, R12, R70): SWEEP-DONE, and by the kind of the
sweep RETIRED with what is live moved to lost, RETIRED when nothing is live, or no change of state. -/
def State.sweepEnded (a : State) (w : Sweep) : EventRecord :=
  match w.kind with
  | .retire =>
    { a.event w.event with
      state := .retired, causes := (a.event w.event).causes ||| 9#4
      repeatsOwed := a.settings.record.stateRepeat
      counts := { (a.event w.event).counts with
        lost := (a.event w.event).counts.lost + (a.event w.event).counts.live
        live := 0 } }
  | .cancel =>
    if (a.event w.event).counts.live = 0 then
      { a.event w.event with
        state := .retired, causes := (a.event w.event).causes ||| 9#4
        repeatsOwed := a.settings.record.stateRepeat }
    else { a.event w.event with causes := (a.event w.event).causes ||| 8#4 }
  | .blackout => { a.event w.event with causes := (a.event w.event).causes ||| 8#4 }

/-- The engine's answer to the mark of kind `k` set for the event `n` alone. An IDLE engine takes it at once and its
first visit claims the port (R58); a BLACKOUT sweep of the event that runs is converted, or its lap restarts: it
goes on under `k` from the present cursor with nothing visited, the slots changed kept, and a visit that holds the
port is overtaken (R67, R68); while another sweep runs the mark waits (R69). -/
def State.SweepAsked (s t : State) (n : Nat) (k : SweepKind) : Prop :=
  (s.sweep.engine = .idle → (∀ m, m ≠ n → ∀ q, ¬ (s.event m).marked q) →
    (t.event n).marks = { cancel := false, retire := false, blackout := false }
    ∧ t.sweep = { s.sweep with
        engine := .sweeping
          { kind := k, event := n, start := s.carousel.cursor, cursor := s.carousel.cursor,
            visited := 0, changed := 0 }
        lastServed := n }
    ∧ (s.port = { state := .idle, composition := false, completions := [], request := false, sweep := false } →
        t.port = { s.port with state := .visit k (t.event n).blackout false })
    ∧ (s.port.state ≠ .idle → t.port.state = s.port.state ∧ t.port.sweep = true))
  ∧ (∀ w, s.sweep.engine = .sweeping w → w.event = n → w.kind = .blackout →
    (t.event n).marks = { cancel := false, retire := false, blackout := false }
    ∧ t.sweep = { s.sweep with engine := .sweeping { w with kind := k, start := w.cursor, visited := 0 } }
    ∧ t.port.sweep = s.port.sweep
    ∧ (∀ q r o, s.port.state = .visit q r o → t.port.state = .visit q r true)
    ∧ ((∀ q r o, s.port.state ≠ .visit q r o) → t.port.state = s.port.state))
  ∧ (∀ w, s.sweep.engine = .sweeping w → (w.event ≠ n ∨ w.kind ≠ .blackout) →
    (∀ q, (t.event n).marked q ↔ q = k) ∧ t.sweep = s.sweep ∧ t.port.sweep = s.port.sweep
    ∧ t.port.state = s.port.state)

/-- The bytes from offset `o` on hold the number `v` in `n` little-endian bytes (section 11). -/
def holdsAt (b : List Byte) (o n v : Nat) : Prop :=
  ∀ i, i < n → byteAt b (o + i) = BitVec.ofNat 8 (v / 256 ^ i)

/-- Every byte from offset `o` on, before offset `e`, is `x`. -/
def filledAt (b : List Byte) (o e : Nat) (x : Byte) : Prop :=
  ∀ i, o ≤ i → i < e → byteAt b i = x

/-! ## Laws between steps -/

/-- Admitted equals live plus revoked plus retired plus lost (R14). -/
def Counts.Balanced (c : Counts) : Prop := c.admitted = c.live + c.revoked + c.retired + c.lost

/-- Every record's counts balance (R14). -/
def State.countsOk (s : State) : Prop := ∀ r ∈ s.events, r.counts.Balanced

/-- The clock is STOPPED, the carousel STOPPED and the bus OFF exactly while the unit is not OPEN; a WIPE runs only
in STARTING and CLOSING, is asked for only in CLOSING, and follows the load of start-up (R72, R77, R122, R138,
R148). -/
structure State.nightOk (s : State) : Prop where
  clock : s.clock.source = .stopped ↔ s.night ≠ .opened
  carousel : s.carousel.run = .stopped ↔ s.night ≠ .opened
  bus : s.bus.state = .off ↔ s.night ≠ .opened
  wiping : ∀ c, s.sweep.engine = .wiping c →
    (s.night = .starting ∨ s.night = .closing) ∧ s.sweep.wipePending = false
      ∧ s.settings.lastLoad ≠ .loading
  asked : s.sweep.wipePending = true → s.night = .closing
  loading : s.settings.lastLoad = .loading → s.night = .starting

/-- The clock is a night second (R137, R142). -/
def State.clockOk (s : State) : Prop := s.clock.clock ≤ 16777215

/-- There are 32 event records, and the scrambler queue holds at most one record of any of their numbers (R1,
R117). -/
structure State.scramblerOk (s : State) : Prop where
  table : s.events.length = 32
  once : (s.scrambler.queue.map (fun r => r.event)).Nodup
  numbers : ∀ r ∈ s.scrambler.queue, r.event < 32

/-- The queues stay within their capacities (R40, R83). -/
def State.queuesOk (s : State) : Prop :=
  s.carousel.fresh.length ≤ 1024 ∧ s.carousel.urgent.length ≤ 256

/-- The failure run is at most 4, and 4 exactly in LOCKED (R163, R164). -/
def State.linkOk (s : State) : Prop :=
  s.link.failureRun ≤ 4 ∧ (s.link.receiver = .locked ↔ s.link.failureRun = 4)

/-- The record in force is valid (R176, R178, R180). -/
def State.configOk (s : State) : Prop := s.settings.record.InRange

/-- The relations of R103 between an event's key fields and its state: the current key is present exactly in a keyed
state, the on-deck key only with the next key, the announce count is 0 without a next key, epoch start and length in
force are present from the first entry on, before which the epoch is 0; an EMPTY record holds the EMPTY values. -/
structure EventRecord.KeysRelate (r : EventRecord) : Prop where
  current : r.keys.current.isSome = true ↔ r.state.keyed = true
  onDeck : r.keys.onDeck.isSome = true → r.keys.next.isSome = true
  announced : r.keys.next = none → r.keys.announceCount = 0
  entered : (r.keys.epochStart.isSome = true ↔ 1 ≤ r.keys.epoch)
    ∧ (r.keys.length.isSome = true ↔ 1 ≤ r.keys.epoch)
  first : r.state = .scheduled ∨ r.state = .onSale → r.keys.epoch = 0
  keyed : r.state.keyed = true → 1 ≤ r.keys.epoch
  empty : r.state = .empty → r.keys = KeyFields.empty

/-- The state in which an event can carry a mark of a kind, or be swept for it (R10, R15, R22, R24, R25). -/
def EventState.SweptFor (e : EventState) : SweepKind → Prop
  | .cancel => e = .cancelled
  | .retire => e = .closed
  | .blackout => e.selling = true

/-- The key fields of every event keep the relations of R103. A mark stands only in the state it belongs to, so an event
carries at most one (R59). While no WIPE is asked for, the event of a running sweep is in the state of its kind and
carries no mark (R69). -/
structure State.eventsOk (s : State) : Prop where
  keys : ∀ r ∈ s.events, r.KeysRelate
  marks : ∀ r ∈ s.events, ∀ k, r.marked k → r.state.SweptFor k
  running : ∀ w, s.sweep.engine = .sweeping w → s.sweep.wipePending = false →
    (s.event w.event).state.SweptFor w.kind ∧ ∀ k, ¬ (s.event w.event).marked k

/-- The queue-mark law of R40: a slot's mark is FRESH exactly when its number stands in the fresh queue, URGENT exactly when
it stands in the urgent queue, and no number stands twice. -/
structure State.QueueMarks (s : State) : Prop where
  once : (s.carousel.fresh ++ s.carousel.urgent).Nodup
  inside : ∀ n ∈ s.carousel.fresh ++ s.carousel.urgent, n < s.slotCount
  fresh : ∀ n, n < s.slotCount → ((s.slot n).mark = .fresh ↔ n ∈ s.carousel.fresh)
  urgent : ∀ n, n < s.slotCount → ((s.slot n).mark = .urgent ↔ n ∈ s.carousel.urgent)

/-- The law of R31, and what it rests on: a pair has at most one live slot, which stands in the pair's probe window with no
EMPTY slot before it (R37, R38). -/
structure State.PairsLiveOnce (s : State) : Prop where
  once : ∀ m n d e, m < s.slotCount → n < s.slotCount → (s.slot m).LiveFor d e → (s.slot n).LiveFor d e → m = n
  reached : ∀ n d e, n < s.slotCount → (s.slot n).LiveFor d e →
    ∃ i, i < 16 ∧ n = (s.home d e + i) % s.slotCount
      ∧ ∀ j, j < i → (s.slot ((s.home d e + j) % s.slotCount)).state ≠ .empty

/-- The store and its queues by what the engine does: once a WIPE has emptied the store the laws of R31 and R40 hold; while one
runs, the slots it has passed are as it writes them, the queues are empty and it alone uses the port (R72, R73); before the
WIPE of start-up nothing does. Until the next night is set up no event exists, and a WIPE asked for finds no other claim
waiting (R45, R72). -/
structure State.slotsOk (s : State) : Prop where
  settled : s.night ≠ .starting → (∀ c, s.sweep.engine ≠ .wiping c) → s.QueueMarks ∧ s.PairsLiveOnce
  wiping : ∀ c, s.sweep.engine = .wiping c →
    s.carousel.fresh = [] ∧ s.carousel.urgent = [] ∧ (∀ n, n < c → s.slot n = blankSlot)
      ∧ s.port =
        { state := .wipeWrite, composition := false, completions := [], request := false, sweep := false }
  starting : s.night = .starting → (∀ c, s.sweep.engine ≠ .wiping c) →
    s.carousel.fresh = [] ∧ s.carousel.urgent = [] ∧ s.sweep.engine = .idle
      ∧ s.port =
        { state := .idle, composition := false, completions := [], request := false, sweep := false }
  noEvents : s.night = .starting ∨ s.night = .closing → ∀ r ∈ s.events, r = EventRecord.empty
  closing : s.night = .closing → s.sweep.wipePending = true ∨ ∃ c, s.sweep.engine = .wiping c
  asked : s.sweep.wipePending = true →
    s.port.composition = false ∧ s.port.request = false ∧ s.port.sweep = false
      ∧ (s.port.state ≠ .completion → s.port.completions = [])

end Sys2Proof.Machine
end

