-- ==== Sys2Proof/Certificates/Slice0/Obligations.lean ====
section
/-! DEFINITION. The statements: what the manual's rules say the commands do. Each says in which states a command
completes, what its next state holds and, by an equation with the state before, what it leaves. -/

open Sys2Proof Sys2Proof.Machine

/-! ## Steps -/

/-- A step takes the command that has waited longest and is its effect on the unit with the others still waiting. -/
def Obligations.StepTakesFrontCommand : Prop :=
  ∀ (c : Instr) (rest : List Instr) (s : State),
    step { s with pending := c :: rest } = exec c { s with pending := rest }

/-- With no command waiting a millisecond of the timer passes and nothing else changes. The model's choice (log 3).
Nor does a step that is not due change anything in these cases: a request command of the list, while the holder is
FREE or REPLYING and so holds no request; and the arbiter's five steps in a secondary, which has no arbiter, beyond
the levels they take in. Both are the model's choices (logs 2 and 29). -/
def Obligations.UndueStepsChangeNothing : Prop :=
  (∀ s : State, s.pending = [] →
      step s = .next { s with timer := { s.timer with now := s.timer.now + 1 } })
  ∧ ((∀ (s : State) (c : Instr), (s.link.holder = .free ∨ ∃ r, s.link.holder = .replying r) →
      c ∈ [Instr.unitId, .countersRead, .noticeFetch, .noticeAck, .configRead, .configWrite,
        .settingsSave, .nightOpen, .nightClose, .eventDefine, .eventRead, .eventHold, .eventCancel,
        .eventClear, .blackoutAdd, .blackoutRemove, .keyLoad, .epochSelect, .grantAdd, .grantRevoke,
        .grantQuery] → exec c s = .next s)
    ∧ (∀ (s : State) (l : BusLines) (c : Instr), s.straps.primary = false →
      c ∈ [Instr.arbiterGrant l, .grantTaken l, .grantEnd l, .grantTimeout l, .arbiterFault l] →
      exec c s = .next { s with bus := { s.bus with lines := l } }))

/-! ## Resets and the settings block -/

/-- HARDWARE_RESET completes in every state (R182): the blocks at their reset values, the defaults in force, the
timer at 0; with LOAD at 1 the load has begun, the port and engine are IDLE and the sizes in force are 16,384 and 0
(R27), with LOAD at 0 the WIPE has started. An EEPROM with no save in progress is kept, and a copy whose save the
reset cuts short fails its CRC at the next load (R181); that the model keeps such a copy as one value without bytes
is its choice (log 12). -/
def Obligations.HardwareResetStartsUp : Prop :=
  ∀ (pins : Straps) (s : State), ∃ t : State,
    exec (.hardwareReset pins) s = .next t ∧ t.AfterReset pins ∧ s.KeptByReset t
      ∧ t.settings.record = ConfigRecord.default
      ∧ t.timer = { now := 0, cycleTickAt := 0 }
      ∧ (s.settings.save = none → t.settings.eeprom = s.settings.eeprom)
      ∧ (∀ r, s.settings.save = some r → t.settings.eeprom = .cutShort)
      ∧ (pins.load = true →
          t.settings.lastLoad = .loading ∧ t.sweep.engine = .idle ∧ t.port.state = .idle
            ∧ t.store.sizeA = 16384 ∧ t.store.sizeB = 0)
      ∧ (pins.load = false → t.settings.lastLoad = .notLoaded ∧ t.Wiping)

/-- UNIT_RESET and the end of its reply (R168). An addressed request is answered OK and changes nothing more; the
reset is performed when that reply has been sent. A broadcast request performs it at once. The reset keeps the
record in force and starts a WIPE. That it leaves the millisecond timer, which no request moves (section 4.2), is
the model's choice (log 24, DESIGN CHOICE), for step 1 of R182, which UNIT-RESET takes too, begins the timer.
REPLY_COMPLETE frees the holder and changes nothing else, unless the reply is UNIT-RESET's OK (R165). -/
def Obligations.UnitResetIsPerformedOnce : Prop :=
  ((∀ (pins : Straps) (s : State) (h : HeldRequest), s.holding h .unitReset → h.broadcast = false →
      exec (.unitReset pins) s = .next (s.replied h .ok []))
    ∧ (∀ (pins : Straps) (s : State) (h : HeldRequest), s.holding h .unitReset → h.broadcast = true →
      ∃ t : State, exec (.unitReset pins) s = .next t ∧ t.AfterReset pins ∧ s.KeptByReset t ∧ t.Wiping
        ∧ t.settings.record = s.settings.record ∧ t.settings.lastLoad = .notLoaded
        ∧ t.timer = s.timer)
    ∧ (∀ (pins : Straps) (s : State) (tag : Byte) (body : List Byte),
      s.link.holder = .replying { tag := tag, code := 0x06#8, result := .ok, body := body } →
      ∃ t : State, exec (.replyComplete pins) s = .next t ∧ t.AfterReset pins ∧ s.KeptByReset t
        ∧ t.Wiping ∧ t.settings.record = s.settings.record ∧ t.settings.lastLoad = .notLoaded
        ∧ t.timer = s.timer))
  ∧ (∀ (pins : Straps) (s : State) (r : Reply), s.link.holder = .replying r →
      (r.code ≠ 0x06#8 ∨ r.result ≠ .ok) →
      exec (.replyComplete pins) s = .next { s with link := { s.link with holder := .free } })

/-- SETTINGS_LOAD_END (R180): what the load finds, the record then in force, the cause of a failed load, and the
WIPE of start-up in the same step. The settings it does not name, the link, the counters, the clock, the selection,
the scramblers, the bus and the slot memory are left. That a copy whose save a reset cut short is a value of its
own, always found with a failing CRC, is the model's choice (log 12, DEDUCED from R181). -/
def Obligations.LoadEndSetsRecordAndWipes : Prop :=
  ∀ (ack : Bool) (s : State), s.settings.lastLoad = .loading → ∃ t : State,
    exec (.settingsLoadEnd ack) s = .next t
      ∧ (ack = false → t.settings.lastLoad = .noAck)
      ∧ (ack = true → s.settings.eeprom = .cutShort → t.settings.lastLoad = .badCrc)
      ∧ (∀ b, ack = true → s.settings.eeprom = .stored b →
          (crcBytes (b.take 21) ≠ b.drop 21 → t.settings.lastLoad = .badCrc)
          ∧ (crcBytes (b.take 21) = b.drop 21 → ¬ (RawConfig.ofBytes b).InRange →
              t.settings.lastLoad = .badField)
          ∧ (crcBytes (b.take 21) = b.drop 21 → (RawConfig.ofBytes b).InRange →
              t.settings.lastLoad = .ok ∧ t.settings.record = (RawConfig.ofBytes b).record))
      ∧ (t.settings.lastLoad ≠ .ok →
          t.settings.record = ConfigRecord.default
            ∧ t.notice = { s.notice with causes := s.notice.causes ||| 0x080#10 })
      ∧ (t.settings.lastLoad = .ok → t.notice = s.notice)
      ∧ (s.port.state = .idle → s.port.completions = [] → s.port.composition = false →
          s.port.request = false → t.Wiping)
      ∧ t.settings.eeprom = s.settings.eeprom ∧ t.settings.save = s.settings.save
      ∧ t.settings.lastSave = s.settings.lastSave ∧ t.link = s.link ∧ t.counters = s.counters
      ∧ t.clock = s.clock ∧ t.timer = s.timer ∧ t.selection = s.selection
      ∧ t.scrambler = s.scrambler ∧ t.bus = s.bus ∧ t.arbiter = s.arbiter ∧ t.straps = s.straps
      ∧ t.night = s.night ∧ t.store.memory = s.store.memory ∧ t.pending = s.pending

/-- SETTINGS_SAVE captures the record and answers OK, or SAVE-BUSY while a save runs (R181). SAVE_DONE ends a save
(R181, R186): OK with all 23 bytes acknowledged and those bytes in the EEPROM; otherwise FAILED, the bytes from the
first one not acknowledged keeping their old values. SAVE-DONE is raised in either case, and nothing else changes.
-/
def Obligations.SavesCaptureAndStoreRecord : Prop :=
  ((∀ (s : State) (h : HeldRequest), s.holding h .settingsSave → s.settings.save = none →
      exec .settingsSave s =
        .next (({ s with settings := { s.settings with save := some s.settings.record } } : State).replied
          h .ok []))
    ∧ (∀ (s : State) (h : HeldRequest) (r : ConfigRecord), s.holding h .settingsSave →
      s.settings.save = some r → exec .settingsSave s = .next (s.replied h .saveBusy [])))
  ∧ (∀ (n : Nat) (s : State) (r : ConfigRecord), s.settings.save = some r →
      (23 ≤ n →
        exec (.saveDone n) s = .next { s with
          settings := { s.settings with
            save := none, lastSave := .ok, eeprom := .stored (r.bytes ++ crcBytes r.bytes) }
          notice := { s.notice with causes := s.notice.causes ||| 0x100#10 } })
      ∧ (∀ old : List Byte, n < 23 → s.settings.eeprom = .stored old →
        exec (.saveDone n) s = .next { s with
          settings := { s.settings with
            save := none, lastSave := .failed
            eeprom := .stored ((r.bytes ++ crcBytes r.bytes).take n ++ old.drop n) }
          notice := { s.notice with causes := s.notice.causes ||| 0x100#10 } }))

/-- A valid record's 21 bytes read back as that record, and with their CRC pass the load's tests (R180, R186). -/
def Obligations.StoredRecordLoadsBack : Prop :=
  ∀ r : ConfigRecord, r.InRange →
    r.bytes.length = 21 ∧ RawConfig.ofBytes (r.bytes ++ crcBytes r.bytes) = r.raw
      ∧ (RawConfig.ofBytes (r.bytes ++ crcBytes r.bytes)).record = r
      ∧ crcBytes ((r.bytes ++ crcBytes r.bytes).take 21) = (r.bytes ++ crcBytes r.bytes).drop 21

/-! ## The control link -/

/-- ADDRESS_CHARACTER outside a frame and outside LOCKED (R162): the broadcast address and the own address lead to
ADDRESSED, every other to PASSING; nothing else changes. The failures of a frame being collected (R163): each counts
its own counter and lengthens the failure run; the receiver goes to HUNT, or, when a new address character
interrupts the frame, where that address leads it, or to LOCKED at the fourth failure. REQUEST_FRAME whose CRC
characters are not those of its characters: a CRC failure (R163). -/
def Obligations.ReceiverFollowsCharacters : Prop :=
  (∀ (v : Byte) (s : State), (s.link.receiver = .hunt ∨ s.link.receiver = .passing) →
      exec (.addressCharacter v) s =
        .next { s with link := { s.link with receiver := s.leadsTo v } })
  ∧ (∀ (b : Bool) (s : State), s.link.receiver = .addressed b →
      exec .characterFailure s =
          .next (s.failed .hunt (fun c => { c with characterFailures := bump c.characterFailures }))
      ∧ exec .gapFailure s =
          .next (s.failed .hunt (fun c => { c with gapFailures := bump c.gapFailures }))
      ∧ (∀ n : Byte, (n.toNat < 2 ∨ 252 < n.toNat) →
        exec (.lengthFailure n) s =
          .next (s.failed .hunt (fun c => { c with lengthFailures := bump c.lengthFailures })))
      ∧ (∀ v : Byte, exec (.addressCharacter v) s =
          .next (s.failed (s.leadsTo v)
            (fun c => { c with interruptedFrames := bump c.interruptedFrames }))))
  ∧ (∀ (s : State) (b : Bool) (tag code lo hi : Byte) (body : List Byte),
      s.link.receiver = .addressed b → body.length ≤ 250 →
      crcBytes (BitVec.ofNat 8 (body.length + 2) :: tag :: code :: body) ≠ [lo, hi] →
      exec (.requestFrame (BitVec.ofNat 8 (body.length + 2) :: tag :: code :: body ++ [lo, hi])) s =
        .next (s.failed .hunt (fun c => { c with crcFailures := bump c.crcFailures })))

/-- In LOCKED every character is ignored; a line break leads every receiver state to HUNT with a failure run of 0,
counts nothing and changes nothing else (R164). -/
def Obligations.LockedUntilLineBreak : Prop :=
  (∀ s : State, s.link.receiver = .locked →
    (∀ v : Byte, exec (.addressCharacter v) s = .next s)
    ∧ exec .characterFailure s = .next s
    ∧ exec .gapFailure s = .next s
    ∧ (∀ n : Byte, exec (.lengthFailure n) s = .next s)
    ∧ (∀ cs : List Byte, exec (.requestFrame cs) s = .next s))
  ∧ (∀ s : State,
    exec .lineBreak s = .next { s with link := { s.link with receiver := .hunt, failureRun := 0 } })

/-- REQUEST_FRAME with a good CRC, a FREE holder and a request the night state allows: the request is held, the
frame counted, the failure run 0, and nothing else changes (R165, R166). REQUEST_FRAME with a good CRC and a FREE
holder whose request fails the link's checks: the frame is counted and answered BAD-CODE, BAD-LENGTH or NOT-READY,
in that order, and not held (R166). REQUEST_FRAME while the holder is HELD or REPLYING: the good frame is counted
and discarded as an overrun, and the held request or reply stands (R165). -/
def Obligations.GoodFramesReachHolder : Prop :=
  (∀ (s : State) (b : Bool) (tag : Byte) (q : Request),
      s.link.receiver = .addressed b → s.link.holder = .free → q.fits = true →
      (s.night ≠ .starting ∨ q = .unitId ∨ q = .unitStatus) →
      exec (.requestFrame (goodFrame tag q.code q.body)) s =
        .next { s with
          link :=
            { receiver := .hunt, failureRun := 0,
              holder := .held { broadcast := b, tag := tag, request := q } }
          counters := { s.counters with framesTaken := bump s.counters.framesTaken } })
  ∧ (∀ (s : State) (b : Bool) (tag code : Byte) (body : List Byte) (r : ResultCode),
      s.link.receiver = .addressed b → s.link.holder = .free → body.length ≤ 250 →
      (Request.read code body = .error r
        ∨ (r = .notReady ∧ s.night = .starting ∧
            ∃ q : Request, Request.read code body = .ok q ∧ q ≠ .unitId ∧ q ≠ .unitStatus)) →
      (r = .badCode ∨ r = .badLength ∨ r = .notReady)
      ∧ exec (.requestFrame (goodFrame tag code body)) s =
        .next { s with
          link :=
            { receiver := .hunt, failureRun := 0,
              holder :=
                match b with
                | true => .free
                | false => .replying { tag := tag, code := code, result := r, body := [] } }
          counters := { s.counters with framesTaken := bump s.counters.framesTaken } })
  ∧ (∀ (s : State) (b : Bool) (tag code : Byte) (body : List Byte),
      s.link.receiver = .addressed b → s.link.holder ≠ .free → body.length ≤ 250 →
      exec (.requestFrame (goodFrame tag code body)) s =
        .next { s with
          link := { s.link with receiver := .hunt, failureRun := 0 }
          notice := { s.notice with causes := s.notice.causes ||| 0x001#10 }
          counters := { s.counters with
            framesTaken := bump s.counters.framesTaken, overruns := bump s.counters.overruns } })

/-- Every request, with every field at every value its width admits, reads back from the frame that carries it
(R161, R184). A character of the link is eleven levels, a mark being true: the start bit at space, the eight data
bits least significant first, the mark bit, the stop bit at mark (R160). Eleven levels are taken as a character
exactly when they are one's, so none is taken whose stop bit is at space. The reply line carries the characters of
the reply one after another and rests at mark after them and without a reply; the bit rate follows the latched
LINK-RATE. -/
def Obligations.RequestFramesReadBack : Prop :=
  (∀ (tag : Byte) (q : Request), q.fits = true →
      readFrame (goodFrame tag q.code q.body) =
          some { tag := tag, code := q.code, body := q.body, good := true }
        ∧ Request.read q.code q.body = .ok q)
  ∧ ((∀ c : Character, c.levels.length = 11 ∧ c.levels[0]? = some false
        ∧ (∀ i, i < 8 → c.levels[i + 1]? = some (c.data.getLsbD i))
        ∧ c.levels[9]? = some c.mark ∧ c.levels[10]? = some true)
    ∧ (∀ (l : List Bool) (c : Character), Character.ofLevels l = some c ↔ l = c.levels)
    ∧ (∀ (s : State) (i k : Nat) (c : Character), s.replyLine[i]? = some c → k < 11 →
        some (s.replyLevel (11 * i + k)) = c.levels[k]?)
    ∧ (∀ (s : State) (bit : Nat), 11 * s.replyLine.length ≤ bit → s.replyLevel bit = true)
    ∧ ∀ s : State, s.bitRate = if s.straps.linkRate = true then 460800 else 115200)

/-! ## The unit and notice requests -/

/-- UNIT_ID returns the part number, version 1, the latched address and the latched straps (R169). UNIT_STATUS takes
in the bus lines, answers with the 67 bytes of section 11.2 and changes nothing else (R169): the night state, the
clock and its source, the earliest-deadline report, the sizes in force and occupancy, queue depths, refresh cursor,
pass number, engine, last served, bus and arbiter, scrambler, selection, link, master enable and settings, in that
order, with zeros for what the state reported does not have; slots changed beyond its three bytes is a free value
(log 19). COUNTERS_READ returns the 24 counters of the unit in the order of R170, four bytes each, and clears them
when asked; a clear-after-read neither 0 nor 1 is BAD-FIELD 1. A counter holds at its maximum (R170). CONFIG_READ
returns the record in force in 21 bytes and changes nothing else (R177, R186). CONFIG_WRITE (R178): a record with a
field out of its range gives BAD-FIELD with the index of the first such field in index order; a valid record is
LOCKED out in OPEN and CLOSING when it differs in more than the pairs in service; every other valid record is taken
whole. -/
def Obligations.UnitAndConfigRequestsReport : Prop :=
  (∀ (s : State) (h : HeldRequest), s.holding h .unitId →
      exec .unitId s = .next (s.replied h .ok
        [0x88#8, 0x0C#8, 0x01#8, BitVec.ofNat 8 s.straps.unitAddress.val,
          BitVec.ofNat 8 ((if s.straps.primary then 1 else 0) + (if s.straps.linkRate then 2 else 0)
            + (if s.straps.load then 4 else 0))]))
  ∧ (∀ (l : BusLines) (s : State) (h : HeldRequest), s.holding h .unitStatus →
      ∃ b : List Byte, b.length = 67
        ∧ exec (.unitStatus l) s =
            .next (({ s with bus := { s.bus with lines := l } } : State).replied h .ok b)
        ∧ ∀ one : Bool → Nat, one = (fun x => if x then 1 else 0) →
          b =
            [BitVec.ofNat 8 s.night.number] ++ leBytes 3 s.clock.clock
            ++ [BitVec.ofNat 8 s.clock.source.number]
            ++ (match s.earliestDeadline with
              | none => [0#8, 0#8, 0#8, 0#8, 0#8, 0#8]
              | some d =>
                [1#8, BitVec.ofNat 8 d.event] ++ leBytes 3 d.time
                  ++ [BitVec.ofNat 8 (deadlineKindNumber d.kind)])
            ++ leBytes 3 s.store.sizeA ++ leBytes 3 s.store.sizeB ++ leBytes 3 s.store.drawn
            ++ leBytes 3 s.store.damaged ++ leBytes 2 s.carousel.fresh.length
            ++ leBytes 2 s.carousel.urgent.length ++ leBytes 3 s.carousel.cursor
            ++ leBytes 4 s.carousel.pass
            ++ (match s.sweep.engine with
              | .idle => List.replicate 15 0#8
              | .wiping c => [1#8, 0#8, 0#8, 0#8, 0#8, 0#8] ++ leBytes 3 c ++ List.replicate 6 0#8
              | .sweeping w =>
                [2#8, BitVec.ofNat 8 w.kind.number, BitVec.ofNat 8 w.event] ++ leBytes 3 w.start
                  ++ leBytes 3 w.cursor ++ leBytes 3 w.visited
                  ++ (if w.changed ≤ 16777215 then leBytes 3 w.changed
                    else leBytes 3 (freeCount w.changed).toNat))
            ++ [BitVec.ofNat 8 s.sweep.lastServed, BitVec.ofNat 8 s.bus.state.number,
              BitVec.ofNat 8
                (one s.bus.staging.isSome + 2 * one s.bus.sending.isSome + 4 * one s.bus.staging.isSome
                  + 8 * one (if s.straps.primary then
                      (match s.arbiter.state with | .granted .own _ => true | _ => false) else l.gnt)
                  + 16 * one (l.drive || s.bus.sending.isSome) + 32 * one l.ready)]
            ++ (if s.straps.primary then
                (match s.arbiter.state with
                  | .idle => [1#8, 0#8, 0#8]
                  | .granted r taken => [2#8, BitVec.ofNat 8 (one taken), BitVec.ofNat 8 r.number]
                  | .fault => [3#8, 0#8, 0#8])
                ++ [BitVec.ofNat 8 s.arbiter.lastGranted.number,
                  BitVec.ofNat 8 (2 * one s.settings.record.pairs.pair1
                    + 4 * one s.settings.record.pairs.pair2 + 8 * one s.settings.record.pairs.pair3)]
              else [0#8, 0#8, 0#8, 0#8, 0#8])
            ++ [BitVec.ofNat 8 s.scrambler.queue.length,
              BitVec.ofNat 8 (one (s.scrambler.ready && decide (s.scrambler.queue ≠ []))),
              BitVec.ofNat 8 s.selection.number, BitVec.ofNat 8 s.link.receiver.number, 1#8,
              BitVec.ofNat 8 s.link.failureRun, BitVec.ofNat 8 (one s.notice.master),
              BitVec.ofNat 8 (one s.settings.save.isSome), BitVec.ofNat 8 s.settings.lastSave.number,
              BitVec.ofNat 8 s.settings.lastLoad.number])
  ∧ (∀ (s : State) (h : HeldRequest) (clear : Nat), s.holding h (.countersRead clear) →
      ∀ b : List Byte,
        b = [s.counters.framesTaken, s.counters.gapFailures, s.counters.characterFailures,
            s.counters.interruptedFrames, s.counters.lengthFailures, s.counters.crcFailures,
            s.counters.overruns, s.counters.locks, s.counters.damageCount, s.counters.storeFullCount,
            s.counters.freshOverflow, s.counters.urgentOverflow, s.counters.keyPackets,
            s.counters.statePackets, s.counters.grantPackets, s.counters.revokePackets,
            s.counters.switchesAccepted, s.counters.clearsAccepted, s.counters.switchesWithdrawn,
            s.counters.lostPackets, s.counters.grantTimeouts, s.counters.arbiterFaults,
            s.counters.flywheelSeconds, s.counters.absorbedPulses].flatMap (leBytes 4) →
        b.length = 96
        ∧ (clear = 0 → exec .countersRead s = .next (s.replied h .ok b))
        ∧ (clear = 1 →
            exec .countersRead s =
              .next (({ s with counters := Counters.zero } : State).replied h .ok b))
        ∧ (1 < clear → exec .countersRead s = .next (s.replied h .badField [1#8]))
        ∧ ∀ c, bump c = if c < 4294967295 then c + 1 else c)
  ∧ (∀ (s : State) (h : HeldRequest), s.holding h .configRead →
      exec .configRead s = .next (s.replied h .ok s.settings.record.bytes))
  ∧ (∀ (s : State) (h : HeldRequest) (r : RawConfig), s.holding h (.configWrite r) →
      (¬ r.InRange → ∃ i, r.FieldOut i ∧ (∀ j, j < i → ¬ r.FieldOut j) ∧
        exec .configWrite s = .next (s.replied h .badField [BitVec.ofNat 8 i]))
      ∧ (r.InRange → (s.night = .opened ∨ s.night = .closing) →
        { r.record with pairs := s.settings.record.pairs } ≠ s.settings.record →
        exec .configWrite s = .next (s.replied h .locked []))
      ∧ (r.InRange →
        ((s.night ≠ .opened ∧ s.night ≠ .closing)
          ∨ { r.record with pairs := s.settings.record.pairs } = s.settings.record) →
        exec .configWrite s =
          .next (({ s with settings := { s.settings with record := r.record } } : State).replied h .ok [])))

/-- NOTICE_FETCH clears the master enable and nothing else; its body gives the unit causes with EVENT-ATTENTION,
both masks, the master enable, and an entry for each event with a cause pending (R173). That the body gives the
master enable as it was before the fetch cleared it is the model's choice (log 20, DESIGN CHOICE), for the manual
does not say which. NOTICE_ACK of a well-formed request clears the causes named, replaces the masks given and sets
the master enable on re-arm in a unit that has an own address; of every event it changes the causes alone; nothing
else changes (R174). A bit that names nothing, an event above 31, a re-arm neither 0 nor 1 or more than 32 entries
is BAD-FIELD and changes nothing; the reply names the first bad field, entries counted per occurrence (R184; log 21,
the model's DEDUCED order). ATTENTION is asserted exactly when the master enable is set and an enabled cause is
pending, EVENT-ATTENTION being pending while some event has a cause of an enabled kind (R172). -/
def Obligations.NoticesAreFetchedAndAcknowledged : Prop :=
  (∀ (s : State) (h : HeldRequest), s.holding h .noticeFetch →
      ∃ b : List Byte,
        exec .noticeFetch s =
            .next (({ s with notice := { s.notice with master := false } } : State).replied h .ok b)
        ∧ b.take 2 = leBytes 2 s.unitCauses.toNat
        ∧ (b.drop 2).take 2 = leBytes 2 s.notice.unitMasks.toNat
        ∧ byteAt b 4 = BitVec.ofNat 8 s.notice.eventMasks.toNat
        ∧ byteAt b 5 = BitVec.ofNat 8 (if s.notice.master then 1 else 0)
        ∧ byteAt b 6 = BitVec.ofNat 8
            ((List.range 32).filter (fun n => (s.event n).causes != 0#4)).length
        ∧ b.drop 7 = (List.range 32).flatMap (fun n =>
            if (s.event n).causes = 0#4 then []
            else [BitVec.ofNat 8 n, BitVec.ofNat 8 (s.event n).causes.toNat]))
  ∧ (∀ (s : State) (h : HeldRequest) (a : AckFields), s.holding h (.noticeAck a) →
      (a.causes &&& 0xF800#16 = 0#16 → a.flags &&& 0xFC#8 = 0#8 →
        (a.flags.getLsbD 0 = true → a.unitMasks &&& 0xF800#16 = 0#16) →
        (a.flags.getLsbD 1 = true → a.eventMasks &&& 0xF0#8 = 0#8) → a.rearm ≤ 1 → a.entryCount ≤ 32 →
        (∀ e ∈ a.entries, e.event ≤ 31 ∧ e.causes &&& 0xF0#8 = 0#8) →
        ∃ events : List EventRecord,
          exec .noticeAck s =
            .next (({ s with
              events := events
              notice :=
                { causes := s.notice.causes &&& ~~~(a.causes.setWidth 10)
                  unitMasks := if a.flags.getLsbD 0 then a.unitMasks.setWidth 11 else s.notice.unitMasks
                  eventMasks := if a.flags.getLsbD 1 then a.eventMasks.setWidth 4 else s.notice.eventMasks
                  master := s.notice.master
                    || decide (a.rearm = 1 ∧ 1 ≤ s.straps.unitAddress.val ∧ s.straps.unitAddress.val ≤ 30) } }
              : State).replied h .ok [])
          ∧ events.length = s.events.length
          ∧ ∀ n, ∃ c : BitVec 4,
              events.getD n EventRecord.empty =
                { s.events.getD n EventRecord.empty with causes := c }
              ∧ ∀ i, c.getLsbD i = true ↔
                  ((s.events.getD n EventRecord.empty).causes.getLsbD i = true
                    ∧ ∀ e ∈ a.entries, e.event = n → e.causes.getLsbD i = false))
      ∧ ((a.causes &&& 0xF800#16 ≠ 0#16 ∨ a.flags &&& 0xFC#8 ≠ 0#8
          ∨ (a.flags.getLsbD 0 = true ∧ a.unitMasks &&& 0xF800#16 ≠ 0#16)
          ∨ (a.flags.getLsbD 1 = true ∧ a.eventMasks &&& 0xF0#8 ≠ 0#8) ∨ 1 < a.rearm
          ∨ 32 < a.entryCount ∨ ∃ e ∈ a.entries, 31 < e.event ∨ e.causes &&& 0xF0#8 ≠ 0#8) →
        ∃ i, a.FieldOut i ∧ (∀ j, j < i → ¬ a.FieldOut j)
          ∧ exec .noticeAck s = .next (s.replied h .badField [BitVec.ofNat 8 i])))
  ∧ (∀ s : State,
      (s.eventAttention = true ↔ ∃ r ∈ s.events, r.causes &&& s.notice.eventMasks ≠ 0#4)
      ∧ (s.attention = true ↔
          s.notice.master = true
            ∧ ((s.notice.causes.setWidth 11 &&& s.notice.unitMasks ≠ 0#11)
              ∨ (s.eventAttention = true ∧ s.notice.unitMasks.getLsbD 10 = true))))

/-! ## Nights -/

/-- NIGHT_OPEN (R153): in SETUP with a start time in range the night opens, and nothing else changes; a start time
out of range is BAD-FIELD 1; in OPEN and CLOSING it is WRONG-NIGHT-STATE (R152). -/
def Obligations.NightOpenStartsNight : Prop :=
  ∀ (s : State) (h : HeldRequest) (start : Nat), s.holding h (.nightOpen start) →
    (s.night = .setup → start ≤ 16777215 →
      exec .nightOpen s =
        .next (({ s with
          night := .opened
          clock :=
            { clock := start, source := .reference, lastTick := some s.timer.now,
              lastPulse := some s.timer.now }
          bus := { s.bus with state := .idle }
          carousel := { s.carousel with run := .waiting } } : State).replied h .ok []))
    ∧ (s.night = .setup → 16777215 < start →
      exec .nightOpen s = .next (s.replied h .badField [1#8]))
    ∧ ((s.night = .opened ∨ s.night = .closing) →
      exec .nightOpen s = .next (s.replied h .wrongNightState []))

/-- NIGHT_CLOSE in OPEN (R155, R156): plain with nothing active, or forced. The records become EMPTY, the clock
stops with its value kept, the carousel stops, staging empties, a packet in sending stays without its tag (R96,
R102, R136), the port's claims are dropped with its granted operation kept (R45), a completion update that holds the
port is voided with its record and a composition read that holds it belongs to an attempt that places nothing (R102;
log 16, the model's DEDUCED choice), and a WIPE is asked for. A plain close leaves the scrambler queue and the
counters. A forced one drops the queued records of each keyed event, counts each event whose SWITCH record was
withdrawn, and appends the events' CLEAR records in event-number order (R116, R117, R157). Nothing else changes.
NIGHT_CLOSE refused (R155): a plain close while work is active, any close outside OPEN, a forced field neither 0 nor
1; nothing else changes. -/
def Obligations.NightCloseStopsNight : Prop :=
  (∀ (s : State) (h : HeldRequest) (forced : Nat) (queue : List ScramblerRecord) (withdrawn : Nat),
      s.holding h (.nightClose forced) → s.night = .opened →
      (forced = 1 ∨ (forced = 0 ∧ ¬ s.Active)) →
      (forced = 0 → queue = s.scrambler.queue ∧ withdrawn = 0) →
      (forced = 1 → ∀ keyed : List Nat, keyed = (List.range 32).filter (fun n => (s.event n).state.keyed) →
        queue = s.scrambler.queue.filter (fun r => !keyed.contains r.event)
            ++ keyed.map (fun n => { event := n, payload := .clear (s.event n).service })
        ∧ withdrawn = (keyed.filter (fun n => s.scrambler.queue.any (fun r => r.event == n
            && (match r.payload with | .switch _ _ _ => true | .clear _ => false)))).length) →
      exec .nightClose s =
        .next (({ s with
          night := .closing
          clock := { clock := s.clock.clock, source := .stopped, lastTick := none, lastPulse := none }
          events := List.replicate 32 EventRecord.empty
          scrambler := { s.scrambler with queue := queue }
          counters := { s.counters with switchesWithdrawn := bump^[withdrawn] s.counters.switchesWithdrawn }
          carousel := { s.carousel with
            run := .stopped, composed := 0, finished := 0, urgentComposed := 0, freshComposed := 0
            owed := [], exhausted := false
            attempt := if s.port.state = .composition then s.carousel.attempt else .none }
          bus := { s.bus with
            state := .off, staging := none
            sending := s.bus.sending.map (fun k => { message := k.message, tag := none }) }
          port :=
            { state := s.port.state, composition := false, request := false, sweep := false
              completions := if s.port.state = .completion then
                  (s.port.completions.take 1).map (fun t => { t with voided := true })
                else [] }
          sweep := { s.sweep with wipePending := true } } : State).replied h .ok []))
  ∧ (∀ (s : State) (h : HeldRequest) (forced : Nat), s.holding h (.nightClose forced) →
      (s.night = .opened → forced = 0 → s.Active →
        exec .nightClose s = .next (s.replied h .active []))
      ∧ ((s.night = .setup ∨ s.night = .closing) →
        exec .nightClose s = .next (s.replied h .wrongNightState []))
      ∧ (s.night = .opened → 1 < forced → exec .nightClose s = .next (s.replied h .badField [1#8])))

/-- EPOCH_SELECT stores SHORT or LONG and changes nothing else; another value is BAD-FIELD 1 (R107). -/
def Obligations.EpochSelectStoresSelection : Prop :=
  ∀ (s : State) (h : HeldRequest) (v : Nat), s.holding h (.epochSelect v) →
    (v = 0 → exec .epochSelect s = .next (({ s with selection := .short } : State).replied h .ok []))
    ∧ (v = 1 → exec .epochSelect s = .next (({ s with selection := .long } : State).replied h .ok []))
    ∧ (1 < v → exec .epochSelect s = .next (s.replied h .badField [1#8]))

/-! ## The insertion bus -/

/-- BUS_CLEAR takes in the bus lines (R133): with neither the unit nor a primary's arbiter in FAULT it is OK without
effect; with DRIVE released each that is in FAULT becomes IDLE; with DRIVE asserted it is WRONG-STATE. -/
def Obligations.BusClearReturnsFromFault : Prop :=
  ∀ (l : BusLines) (s : State) (h : HeldRequest), s.holding h .busClear →
    ∀ u : State, u = { s with bus := { s.bus with lines := l } } →
    (s.bus.state ≠ .fault → (s.straps.primary = false ∨ s.arbiter.state ≠ .fault) →
      exec (.busClear l) s = .next (u.replied h .ok []))
    ∧ ((s.bus.state = .fault ∨ (s.straps.primary = true ∧ s.arbiter.state = .fault)) →
      l.drive = false → s.bus.sending = none →
      exec (.busClear l) s =
        .next (({ u with
          bus := { u.bus with state := if s.bus.state = .fault then .idle else s.bus.state }
          arbiter := { s.arbiter with
            state := if s.straps.primary = true ∧ s.arbiter.state = .fault then .idle
              else s.arbiter.state } } : State).replied h .ok []))
    ∧ ((s.bus.state = .fault ∨ (s.straps.primary = true ∧ s.arbiter.state = .fault)) →
      (l.drive = true ∨ s.bus.sending ≠ none) →
      exec (.busClear l) s = .next (u.replied h .wrongState []))

/-- ARBITER_GRANT in a primary whose arbiter is IDLE, with READY asserted and DRIVE released (R128, R129): the grant
goes to the first eligible requester after last granted in the order own, 1, 2, 3; with none eligible nothing but
the levels taken in changes. No grant is made while READY is deasserted or the arbiter is not IDLE (R129), nor while
DRIVE is asserted, which is log 18's DEDUCED choice, the model's: R130 is tested on the level and takes an IDLE
arbiter first. The arbiter's watch of DRIVE in a primary, whether another unit asserts it or the primary's own,
which sends a packet (R129, R130, R132): GRANT_TAKEN, GRANT_END, GRANT_TIMEOUT and ARBITER_FAULT; last granted is
kept, and nothing else changes but the counter and cause of each. -/
def Obligations.ArbiterGrantsAndWatches : Prop :=
  (∀ (l : BusLines) (s : State), s.straps.primary = true →
      ∀ (u : State) (order : List Requester) (may : Requester → Prop),
        u = { s with bus := { s.bus with lines := l } } →
        order = (match s.arbiter.lastGranted with
          | .own => [.pair1, .pair2, .pair3, .own]
          | .pair1 => [.pair2, .pair3, .own, .pair1]
          | .pair2 => [.pair3, .own, .pair1, .pair2]
          | .pair3 => [.own, .pair1, .pair2, .pair3]) →
        may = (fun r => match r with
          | .own => s.bus.staging ≠ none
          | .pair1 => l.req1 = true ∧ s.settings.record.pairs.pair1 = true
          | .pair2 => l.req2 = true ∧ s.settings.record.pairs.pair2 = true
          | .pair3 => l.req3 = true ∧ s.settings.record.pairs.pair3 = true) →
        (s.arbiter.state = .idle → l.ready = true → l.drive = false → s.bus.sending = none →
          (∀ before r after, order = before ++ r :: after → may r → (∀ q ∈ before, ¬ may q) →
            exec (.arbiterGrant l) s =
              .next { u with arbiter := { state := .granted r false, lastGranted := r } })
          ∧ ((∀ q, ¬ may q) → exec (.arbiterGrant l) s = .next u))
        ∧ ((s.arbiter.state ≠ .idle ∨ l.ready = false ∨ l.drive = true ∨ s.bus.sending ≠ none) →
          exec (.arbiterGrant l) s = .next u))
  ∧ (∀ (l : BusLines) (s : State), s.straps.primary = true →
      ∀ u : State, u = { s with bus := { s.bus with lines := l } } →
      (∀ r taken, s.arbiter.state = .granted r taken → (l.drive = true ∨ s.bus.sending ≠ none) →
        exec (.grantTaken l) s =
          .next { u with arbiter := { state := .granted r true, lastGranted := s.arbiter.lastGranted } })
      ∧ (∀ r, s.arbiter.state = .granted r true → l.drive = false → s.bus.sending = none →
        exec (.grantEnd l) s =
          .next { u with arbiter := { state := .idle, lastGranted := s.arbiter.lastGranted } })
      ∧ (∀ r, s.arbiter.state = .granted r false → l.drive = false → s.bus.sending = none →
        exec (.grantTimeout l) s =
          .next { u with
            arbiter := { state := .idle, lastGranted := s.arbiter.lastGranted }
            counters := { s.counters with grantTimeouts := bump s.counters.grantTimeouts } })
      ∧ (s.arbiter.state = .idle → (l.drive = true ∨ s.bus.sending ≠ none) →
        exec (.arbiterFault l) s =
          .next { u with
            arbiter := { state := .fault, lastGranted := s.arbiter.lastGranted }
            counters := { s.counters with arbiterFaults := bump s.counters.arbiterFaults }
            notice := { s.notice with causes := s.notice.causes ||| 0x010#10 } }))

/-- PACKET_START of a REQUESTING unit that is OPEN and holds a grant (R124, R126): with DRIVE released the staged
packet moves to sending; with DRIVE asserted it is lost, the unit is in FAULT and BUS-FAULT is raised, and the
packet finishes without completion in the cycle that its tag names, which may end (R79). Nothing else changes. -/
def Obligations.PacketStartsOrFaults : Prop :=
  ∀ (l : BusLines) (s : State), s.bus.state = .requesting → s.night = .opened →
    ((s.straps.primary = false ∧ l.gnt = true)
      ∨ (s.straps.primary = true ∧ ∃ taken, s.arbiter.state = .granted .own taken)) →
    ∀ u : State, u = { s with bus := { s.bus with lines := l } } →
    (l.drive = false → s.bus.sending = none →
      exec (.packetStart l) s =
        .next { u with bus := { u.bus with state := .sending, staging := none, sending := s.bus.staging } })
    ∧ ((l.drive = true ∨ s.bus.sending ≠ none) → ∀ lost : State,
      lost = { u with
        bus := { u.bus with state := .fault, staging := none }
        counters := { s.counters with lostPackets := bump s.counters.lostPackets }
        notice := { s.notice with causes := s.notice.causes ||| 0x010#10 } } →
      (∀ (p : Packet) (t : Tag), s.bus.staging = some p → p.tag = some t →
        exec (.packetStart l) s = .next (lost.packetFinished t.cycle))
      ∧ ((∀ (p : Packet) (t : Tag), s.bus.staging = some p → p.tag ≠ some t) →
        exec (.packetStart l) s = .next lost))

/-- SEND_END completes with a packet in sending (R125): sending empties and a SENDING unit becomes REQUESTING or
IDLE. A packet without a tag, or outside OPEN, books nothing and nothing else changes (R96). With a tag in OPEN the
packet is counted by its kind (R101), booked, and finishes in the cycle it was composed in, which may end (R79).
That a GRANT or REVOKE packet finishes here, before its completion update, is log 14's DEDUCED choice, the model's:
R96 can be read to finish it at the update. A voided tag books nothing (R96). A KEY message that carried the present
next key raises its announce count, which holds at 255, and has the event's conditions checked again (R99, R109); a
STATE message whose state the event still holds lowers the repeats owed (R100); a GRANT or REVOKE claims its
completion update behind those that wait (R96), which an IDLE port grants. How the end of an event treats a visit
under way and a CLEAR record that still waits rests on logs 13 and 31, the model's DEDUCED readings. -/
def Obligations.SendEndReportsCompletion : Prop :=
  ∀ (s : State) (p : Packet), s.bus.sending = some p →
    ∀ u : State,
      u = { s with bus := { s.bus with
              sending := none
              state := if s.bus.state = .sending then
                  (if s.bus.staging = none then .idle else .requesting) else s.bus.state } } →
    ((p.tag = none ∨ s.night ≠ .opened) → exec .sendEnd s = .next u)
    ∧ (∀ (t : Tag) (a : State), p.tag = some t → s.night = .opened →
      a = { u with
        counters :=
          match t.content with
          | .key _ _ => { s.counters with keyPackets := bump s.counters.keyPackets }
          | .state _ _ => { s.counters with statePackets := bump s.counters.statePackets }
          | .grant _ _ _ => { s.counters with grantPackets := bump s.counters.grantPackets }
          | .revoke _ _ _ => { s.counters with revokePackets := bump s.counters.revokePackets } } →
      ∃ b : State, exec .sendEnd s = .next (b.packetFinished t.cycle)
      ∧ (t.voided = true → b = a)
      ∧ (∀ n carried, t.voided = false → t.content = .key n carried →
          ((∃ key, (s.event n).keys.next = some key) → carried = some ((s.event n).keys.epoch + 1) →
            State.Rechecks
              { a with
                events := a.events.set n
                  { s.event n with
                    keys := { (s.event n).keys with
                      announceCount := if (s.event n).keys.announceCount < 255 then
                        (s.event n).keys.announceCount + 1 else (s.event n).keys.announceCount } } } b n)
          ∧ (((s.event n).keys.next = none ∨ carried ≠ some ((s.event n).keys.epoch + 1)) → b = a))
      ∧ (∀ n carried, t.voided = false → t.content = .state n carried →
          ((s.event n).state ≠ .empty → (s.event n).state = carried → 0 < (s.event n).repeatsOwed →
            b = { a with
              events := a.events.set n
                { s.event n with repeatsOwed := (s.event n).repeatsOwed - 1 } })
          ∧ (((s.event n).state = .empty ∨ (s.event n).state ≠ carried ∨ (s.event n).repeatsOwed = 0) →
            b = a))
      ∧ (∀ n d e, t.voided = false → (t.content = .grant n d e ∨ t.content = .revoke n d e) →
          b = { a with
            port := { s.port with
              completions := s.port.completions ++ [t]
              state := if s.port.state = .idle then .completion else s.port.state } }))

/-! ## The event table -/

/-- EVENT_DEFINE in SETUP or OPEN (R18, R19): an EMPTY record with fields in range becomes SCHEDULED with the fields
given, no hold, counts 0, no marks, no keys, STATE-CHANGED raised and the repeats set; a record that is not EMPTY is
WRONG-EVENT-STATE. Fields out of range are BAD-FIELD: the reply names the first bad field, of two related fields the
later, ranges counted per occurrence (R184; log 21, the model's DEDUCED order). Nothing else changes. -/
def Obligations.EventDefineFillsRecord : Prop :=
  ∀ (s : State) (h : HeldRequest) (d : DefineFields), s.holding h (.eventDefine d) →
    ((s.night = .setup ∨ s.night = .opened) → d.event ≤ 31 → (s.event d.event).state = .empty →
      d.InRange →
      exec .eventDefine s =
        .next (({ s with
          events := s.events.set d.event
            { state := .scheduled
              window := some
                { service := d.service, saleOpen := d.saleOpen
                  previewStart := if d.flags.getLsbD 0 then some d.previewStart else none
                  liveStart := d.liveStart, scheduledClose := d.scheduledClose }
              hold := none, blackout := d.ranges
              repeatsOwed := s.settings.record.stateRepeat
              counts :=
                { admitted := 0, live := 0, revoked := 0, retired := 0, lost := 0, reinstated := 0 }
              marks := { cancel := false, retire := false, blackout := false }
              causes := 1#4
              keys :=
                { epoch := 0, current := none, next := none, onDeck := none, announceCount := 0,
                  epochStart := none, length := none, keyLate := false } } } : State).replied h .ok []))
    ∧ (s.night = .closing → exec .eventDefine s = .next (s.replied h .wrongNightState []))
    ∧ ((s.night = .setup ∨ s.night = .opened) → 31 < d.event →
        exec .eventDefine s = .next (s.replied h .badField [1#8]))
    ∧ ((s.night = .setup ∨ s.night = .opened) → d.event ≤ 31 → (s.event d.event).state ≠ .empty →
        exec .eventDefine s = .next (s.replied h .wrongEventState []))
    ∧ ((s.night = .setup ∨ s.night = .opened) → d.event ≤ 31 → (s.event d.event).state = .empty →
        ¬ d.InRange → ∃ i, d.FieldOut i ∧ (∀ j, j < i → ¬ d.FieldOut j)
          ∧ exec .eventDefine s = .next (s.replied h .badField [BitVec.ofNat 8 i]))

/-- The requests of the event table and KEY-LOAD check, in this order, the night state, the event number and the
record's existence, and change nothing when a check fails (R18, R105). -/
def Obligations.EventRequestsAreGated : Prop :=
  ∀ (s : State) (h : HeldRequest) (n : Nat) (c : Instr),
    ((∃ f : HoldFields, c = .eventHold ∧ f.event = n ∧ s.holding h (.eventHold f))
      ∨ (c = .eventCancel ∧ s.holding h (.eventCancel n))
      ∨ (c = .eventClear ∧ s.holding h (.eventClear n))
      ∨ (∃ lo hi, c = .blackoutAdd ∧ s.holding h (.blackoutAdd n lo hi))
      ∨ (∃ lo hi, c = .blackoutRemove ∧ s.holding h (.blackoutRemove n lo hi))
      ∨ (∃ e k, c = .keyLoad ∧ s.holding h (.keyLoad n e k))) →
    (s.night = .closing → exec c s = .next (s.replied h .wrongNightState []))
    ∧ ((s.night = .setup ∨ s.night = .opened) → 31 < n →
        exec c s = .next (s.replied h .badField [1#8]))
    ∧ ((s.night = .setup ∨ s.night = .opened) → n ≤ 31 → (s.event n).state = .empty →
        exec c s = .next (s.replied h .noEvent []))

/-- EVENT_READ returns the record in the 83 bytes of section 11.2, an EMPTY one too, and changes nothing (R20):
number, state, definition, hold, effective close, blackout list, repeats, counts, marks, causes and keys, zeros for
what is absent; an event above 31 is BAD-FIELD 1. A count beyond its four bytes is a free value (log 19). -/
def Obligations.EventReadReturnsRecord : Prop :=
  ∀ (s : State) (h : HeldRequest) (n : Nat), s.holding h (.eventRead n) →
    (31 < n → exec .eventRead s = .next (s.replied h .badField [1#8]))
    ∧ (n ≤ 31 → ∃ b : List Byte, b.length = 83
      ∧ exec .eventRead s = .next (s.replied h .ok b)
      ∧ ∀ (r : EventRecord) (one : Bool → Nat) (count : Nat → List Byte), r = s.event n →
        one = (fun x => if x then 1 else 0) →
        count = (fun c => if c ≤ 4294967295 then leBytes 4 c else leBytes 4 (freeCount c).toNat) →
        b =
          [BitVec.ofNat 8 n, BitVec.ofNat 8 r.state.number,
            BitVec.ofNat 8
              (one r.window.isSome
                + 2 * one (match r.window with | none => false | some w => w.previewStart.isSome)
                + 4 * one r.hold.isSome)]
          ++ (match r.window with
            | none => List.replicate 14 0#8
            | some w =>
              leBytes 2 w.service ++ leBytes 3 w.saleOpen
                ++ leBytes 3 (match w.previewStart with | none => 0 | some t => t)
                ++ leBytes 3 w.liveStart ++ leBytes 3 w.scheduledClose)
          ++ (match r.hold with
            | none => List.replicate 4 0#8
            | some x => BitVec.ofNat 8 x.kind.number :: leBytes 3 x.time)
          ++ leBytes 3 (match r.window with
            | none => 0
            | some w => effectiveCloseOf w.scheduledClose r.hold)
          ++ [BitVec.ofNat 8 r.blackout.length]
          ++ (r.blackout.flatMap (fun x => [BitVec.ofNat 8 x.low, BitVec.ofNat 8 x.high])
              ++ List.replicate 16 0#8).take 16
          ++ [BitVec.ofNat 8 r.repeatsOwed]
          ++ count r.counts.admitted ++ count r.counts.live ++ count r.counts.revoked
          ++ count r.counts.retired ++ count r.counts.lost ++ count r.counts.reinstated
          ++ [BitVec.ofNat 8
              (one r.marks.cancel + 2 * one r.marks.retire + 4 * one r.marks.blackout),
            BitVec.ofNat 8 r.causes.toNat]
          ++ leBytes 2 r.keys.epoch
          ++ [BitVec.ofNat 8
              (one r.keys.current.isSome + 2 * one r.keys.next.isSome + 4 * one r.keys.onDeck.isSome
                + 8 * one r.keys.epochStart.isSome + 16 * one r.keys.keyLate)]
          ++ leBytes 2 (if r.keys.current.isSome then r.keys.epoch else 0)
          ++ leBytes 2 (if r.keys.next.isSome then r.keys.epoch + 1 else 0)
          ++ leBytes 2 (if r.keys.onDeck.isSome then r.keys.epoch + 2 else 0)
          ++ [BitVec.ofNat 8 r.keys.announceCount]
          ++ leBytes 3 (match r.keys.epochStart with | none => 0 | some t => t)
          ++ leBytes 2 (match r.keys.length with | none => 0 | some t => t))

/-- The effective close (R3): the scheduled close without a hold, the later of it and a TENTATIVE hold, a FIRM hold
outright; it is the close EVENT-READ reports and a STATE message carries. The entry deadline (R5): preview-start if
present, otherwise live-start. The groups of states that the rules name: keyed, on sale or keyed, admitting grants
(R48), and CLOSED or RETIRED. -/
def Obligations.EffectiveCloseFollowsHold : Prop :=
  (∀ c : Nat, effectiveCloseOf c none = c)
  ∧ (∀ c t : Nat, effectiveCloseOf c (some { time := t, kind := .tentative }) = if c < t then t else c)
  ∧ (∀ c t : Nat, effectiveCloseOf c (some { time := t, kind := .firm }) = t)
  ∧ (∀ (r : EventRecord) (w : Window) (n : Nat), r.window = some w →
      r.effectiveClose = some (effectiveCloseOf w.scheduledClose r.hold)
      ∧ r.stateMessage n =
          .state w.service n r.state w.liveStart (effectiveCloseOf w.scheduledClose r.hold) r.blackout)
  ∧ (∀ w : Window, w.entryDeadline = match w.previewStart with | some t => t | none => w.liveStart)
  ∧ ∀ e : EventState,
      (e.keyed = true ↔ e = .preview ∨ e = .live ∨ e = .overtime)
      ∧ (e.selling = true ↔ e = .onSale ∨ e = .preview ∨ e = .live ∨ e = .overtime)
      ∧ (e.admitting = true ↔ e = .scheduled ∨ e = .onSale ∨ e = .preview ∨ e = .live ∨ e = .overtime)
      ∧ (e.finished = true ↔ e = .closed ∨ e = .retired)

/-- EVENT_HOLD of an ON-SALE or keyed event (R21): with a kind and a time in range, or without a time, the hold is
replaced or removed. An effective close later than the clock changes the hold and, when it moved, the repeats; one
not later closes the event. A bad kind or time is BAD-FIELD, and an event in another state WRONG-EVENT-STATE. That
with both bad the kind, the earlier field, is named is log 21's DEDUCED order, the model's, from R166 and R184: R21
lists the time first. How the end of an event treats a visit under way and a CLEAR record that still waits rests on
logs 13 and 31, the model's DEDUCED readings. -/
def Obligations.EventHoldMovesClose : Prop :=
  ∀ (s : State) (h : HeldRequest) (f : HoldFields) (w : Window), s.holding h (.eventHold f) →
    s.events.length = 32 → (s.night = .setup ∨ s.night = .opened) → f.event ≤ 31 →
    (s.event f.event).window = some w →
    ((s.event f.event).state ≠ .empty → (s.event f.event).state.selling = false →
      exec .eventHold s = .next (s.replied h .wrongEventState []))
    ∧ ((s.event f.event).state.selling = true →
      ∀ (hold : Option Hold) (s1 : State),
        ((f.flags = 0#8 ∧ hold = none)
          ∨ (f.flags = 1#8 ∧ f.kind = 1 ∧ hold = some { time := f.time, kind := .firm })
          ∨ (f.flags = 1#8 ∧ f.kind = 2 ∧ hold = some { time := f.time, kind := .tentative })) →
        (f.flags = 1#8 → f.time ≤ 16777215 ∧ f.time ≤ w.liveStart + 86400) →
        s1 = { s with
          events := s.events.set f.event
            { s.event f.event with
              hold := hold
              repeatsOwed :=
                if effectiveCloseOf w.scheduledClose hold
                    = effectiveCloseOf w.scheduledClose (s.event f.event).hold then
                  (s.event f.event).repeatsOwed
                else s.settings.record.stateRepeat } } →
        (s.clock.clock < effectiveCloseOf w.scheduledClose hold →
          exec .eventHold s = .next (s1.replied h .ok []))
        ∧ (effectiveCloseOf w.scheduledClose hold ≤ s.clock.clock →
          ∃ t : State, exec .eventHold s = .next (t.replied h .ok [])
            ∧ s1.Ended t f.event .closed .retire))
    ∧ ((s.event f.event).state.selling = true → f.flags ≠ 0#8 → f.flags ≠ 1#8 →
      exec .eventHold s = .next (s.replied h .badField [2#8]))
    ∧ ((s.event f.event).state.selling = true → f.flags = 1#8 →
      ((f.kind ≠ 1 ∧ f.kind ≠ 2) → exec .eventHold s = .next (s.replied h .badField [3#8]))
      ∧ ((f.kind = 1 ∨ f.kind = 2) → (16777215 < f.time ∨ w.liveStart + 86400 < f.time) →
          exec .eventHold s = .next (s.replied h .badField [4#8])))

/-- EVENT_CANCEL of an event in SCHEDULED to OVERTIME (R22): CANCELLED with the CANCEL mark, the keys ended; in any
other state but EMPTY it is WRONG-EVENT-STATE. How the end of an event treats a visit under way and a CLEAR record
that still waits rests on logs 13 and 31, the model's DEDUCED readings. EVENT_CLEAR (R23): a RETIRED event, or a
SCHEDULED one that has admitted nothing, becomes EMPTY with the tags of its packets voided (R92); a CANCELLED event
whose cancel sweep has completed becomes CLOSED with a RETIRE sweep asked for; every other is WRONG-EVENT-STATE.
Besides, at most other events' marks, the engine and its claim of the store port change (R58, R67). -/
def Obligations.EventsAreCancelledAndCleared : Prop :=
  (∀ (s : State) (h : HeldRequest) (n : Nat), s.holding h (.eventCancel n) → s.events.length = 32 →
      (s.night = .setup ∨ s.night = .opened) → n ≤ 31 →
      ((s.event n).state.admitting = true → ∃ t : State,
        exec .eventCancel s = .next (t.replied h .ok []) ∧ s.Ended t n .cancelled .cancel)
      ∧ (((s.event n).state = .closed ∨ (s.event n).state = .cancelled ∨ (s.event n).state = .retired) →
        exec .eventCancel s = .next (s.replied h .wrongEventState [])))
  ∧ (∀ (s : State) (h : HeldRequest) (n : Nat), s.holding h (.eventClear n) → s.events.length = 32 →
      (s.night = .setup ∨ s.night = .opened) → n ≤ 31 →
      (((s.event n).state = .retired ∨ ((s.event n).state = .scheduled ∧ (s.event n).counts.admitted = 0)) →
        ∀ void : Tag → Tag,
          (∀ t, void t = match t.content with
            | .key e _ | .state e _ | .grant _ _ e | .revoke _ _ e =>
              if e = n then { t with voided := true } else t) →
          exec .eventClear s =
            .next (({ s with
              events := s.events.set n EventRecord.empty
              bus := { s.bus with
                staging := s.bus.staging.map (fun k => { k with tag := k.tag.map void })
                sending := s.bus.sending.map (fun k => { k with tag := k.tag.map void }) }
              port := { s.port with completions := s.port.completions.map void } } : State).replied h .ok []))
      ∧ ((s.event n).state = .cancelled → s.CancelSwept n →
        ∃ (t : State) (k : Marks),
          exec .eventClear s = .next (t.replied h .ok [])
          ∧ t.event n =
            { s.event n with
              state := .closed, causes := (s.event n).causes ||| 1#4
              repeatsOwed := s.settings.record.stateRepeat, marks := k }
          ∧ t.sweepAsked n .retire
          ∧ (∀ m, m ≠ n → ∃ j : Marks, t.event m = { s.event m with marks := j })
          ∧ t.scrambler = s.scrambler ∧ t.store = s.store ∧ t.carousel = s.carousel ∧ t.bus = s.bus
          ∧ t.clock = s.clock ∧ t.settings = s.settings ∧ t.notice = s.notice
          ∧ t.counters = s.counters ∧ t.night = s.night ∧ t.straps = s.straps ∧ t.timer = s.timer
          ∧ t.selection = s.selection ∧ t.arbiter = s.arbiter ∧ t.link = s.link ∧ t.pending = s.pending
          ∧ t.PortMarked s.port)
      ∧ (((s.event n).state.selling = true ∨ (s.event n).state = .closed
          ∨ ((s.event n).state = .scheduled ∧ (s.event n).counts.admitted ≠ 0)
          ∨ ((s.event n).state = .cancelled ∧ ¬ s.CancelSwept n)) →
        exec .eventClear s = .next (s.replied h .wrongEventState [])))

/-- BLACKOUT_ADD (R25): a good range is appended and the repeats restart; of an ON-SALE or keyed event a BLACKOUT
sweep is asked for, or its running one goes on; a SCHEDULED event gets no mark. A list of 8 is LIST-FULL. Besides,
at most other events' marks, the engine and its claim of the store port change. A BLACKOUT-ADD for the event of a
running BLACKOUT sweep restarts its lap at the present cursor under the same kind, with the slots changed kept and
no mark left (R68). A visit that holds the port stays granted under its old list and is marked as overtaken by the
new lap (log 13, DEDUCED). BLACKOUT_REMOVE removes the first equal range and restarts the repeats, or is NOT-FOUND
(R26); nothing else changes. The checks of BLACKOUT-ADD and BLACKOUT-REMOVE after the event's existence, in order
(R18, R25, R26, R184): a CLOSED, CANCELLED or RETIRED event is WRONG-EVENT-STATE; a low above 255 is BAD-FIELD 2, a
high above 255 or below low BAD-FIELD 3 (log 21, the model's DEDUCED order of fields); nothing changes. -/
def Obligations.BlackoutRequestsEditList : Prop :=
  (∀ (s : State) (h : HeldRequest) (n lo hi : Nat), s.holding h (.blackoutAdd n lo hi) →
      s.events.length = 32 → (s.night = .setup ∨ s.night = .opened) → n ≤ 31 → lo ≤ hi → hi ≤ 255 →
      ((s.event n).state.admitting = true → 8 ≤ (s.event n).blackout.length →
        exec .blackoutAdd s = .next (s.replied h .listFull []))
      ∧ ((s.event n).state = .scheduled → (s.event n).blackout.length < 8 →
        exec .blackoutAdd s =
          .next (({ s with
            events := s.events.set n
              { s.event n with
                blackout := (s.event n).blackout ++ [{ low := lo, high := hi }]
                repeatsOwed := s.settings.record.stateRepeat } } : State).replied h .ok []))
      ∧ ((s.event n).state.selling = true → (s.event n).blackout.length < 8 →
        ∃ (t : State) (k : Marks),
          exec .blackoutAdd s = .next (t.replied h .ok [])
          ∧ t.event n =
            { s.event n with
              blackout := (s.event n).blackout ++ [{ low := lo, high := hi }]
              repeatsOwed := s.settings.record.stateRepeat, marks := k }
          ∧ t.sweepAsked n .blackout
          ∧ (∀ m, m ≠ n → ∃ j : Marks, t.event m = { s.event m with marks := j })
          ∧ t.scrambler = s.scrambler ∧ t.store = s.store ∧ t.carousel = s.carousel ∧ t.bus = s.bus
          ∧ t.clock = s.clock ∧ t.settings = s.settings ∧ t.notice = s.notice
          ∧ t.counters = s.counters ∧ t.night = s.night ∧ t.straps = s.straps ∧ t.timer = s.timer
          ∧ t.selection = s.selection ∧ t.arbiter = s.arbiter ∧ t.link = s.link ∧ t.pending = s.pending
          ∧ t.PortMarked s.port)
      ∧ (((s.event n).state = .closed ∨ (s.event n).state = .cancelled ∨ (s.event n).state = .retired) →
        exec .blackoutAdd s = .next (s.replied h .wrongEventState [])))
  ∧ (∀ (s : State) (h : HeldRequest) (n lo hi : Nat) (w : Sweep), s.holding h (.blackoutAdd n lo hi) →
      s.events.length = 32 → (s.night = .setup ∨ s.night = .opened) → n ≤ 31 → lo ≤ hi → hi ≤ 255 →
      (s.event n).state.selling = true → (s.event n).blackout.length < 8 →
      (s.event n).marks = { cancel := false, retire := false, blackout := false } →
      s.sweep.engine = .sweeping w → w.kind = .blackout → w.event = n →
      exec .blackoutAdd s =
        .next (({ s with
          events := s.events.set n
            { s.event n with
              blackout := (s.event n).blackout ++ [{ low := lo, high := hi }]
              repeatsOwed := s.settings.record.stateRepeat }
          port := { s.port with
            state := match s.port.state with | .visit kind ranges _ => .visit kind ranges true | other => other }
          sweep := { s.sweep with
            engine := .sweeping { w with start := w.cursor, visited := 0 } } } : State).replied h .ok []))
  ∧ (∀ (s : State) (h : HeldRequest) (n lo hi : Nat), s.holding h (.blackoutRemove n lo hi) →
      (s.night = .setup ∨ s.night = .opened) → n ≤ 31 → (s.event n).state.admitting = true →
      lo ≤ hi → hi ≤ 255 →
      (∀ before after, (s.event n).blackout = before ++ { low := lo, high := hi } :: after →
        ({ low := lo, high := hi } : Range) ∉ before →
        exec .blackoutRemove s =
          .next (({ s with
            events := s.events.set n
              { s.event n with
                blackout := before ++ after
                repeatsOwed := s.settings.record.stateRepeat } } : State).replied h .ok []))
      ∧ (({ low := lo, high := hi } : Range) ∉ (s.event n).blackout →
        exec .blackoutRemove s = .next (s.replied h .notFound [])))
  ∧ (∀ (s : State) (h : HeldRequest) (n lo hi : Nat) (c : Instr),
      ((c = .blackoutAdd ∧ s.holding h (.blackoutAdd n lo hi))
        ∨ (c = .blackoutRemove ∧ s.holding h (.blackoutRemove n lo hi))) →
      (s.night = .setup ∨ s.night = .opened) → n ≤ 31 →
      (((s.event n).state = .closed ∨ (s.event n).state = .cancelled ∨ (s.event n).state = .retired) →
        exec c s = .next (s.replied h .wrongEventState []))
      ∧ ((s.event n).state.admitting = true →
        (255 < lo → exec c s = .next (s.replied h .badField [2#8]))
        ∧ (lo ≤ 255 → (255 < hi ∨ hi < lo) → exec c s = .next (s.replied h .badField [3#8]))))

/-! ## Keys and deadlines -/

/-- KEY_LOAD (R105, R106), with an announce minimum of at least 1: the key of the next epoch goes into next with
announce count 0, the key after it into on-deck, and nothing else changes; an epoch of 0, one whose key is present
and any other are refused by name. A CLOSED, CANCELLED or RETIRED event refuses keys with WRONG-EVENT-STATE,
whatever the epoch named, and nothing changes (R105). -/
def Obligations.KeyLoadStoresKey : Prop :=
  (∀ (s : State) (h : HeldRequest) (n e : Nat) (key : Key), s.holding h (.keyLoad n e key) →
      (s.night = .setup ∨ s.night = .opened) → n ≤ 31 → (s.event n).state.admitting = true →
      1 ≤ s.settings.record.announceMinimum → s.events.length = 32 →
      (e = (s.event n).keys.epoch + 1 → (s.event n).keys.next = none →
        exec .keyLoad s =
          .next (({ s with
            events := s.events.set n
              { s.event n with
                keys := { (s.event n).keys with next := some key, announceCount := 0 } } } : State).replied
            h .ok []))
      ∧ (e = (s.event n).keys.epoch + 2 → (s.event n).keys.next ≠ none → (s.event n).keys.onDeck = none →
        exec .keyLoad s =
          .next (({ s with
            events := s.events.set n
              { s.event n with keys := { (s.event n).keys with onDeck := some key } } } : State).replied
            h .ok []))
      ∧ (e = 0 → exec .keyLoad s = .next (s.replied h .badField [2#8]))
      ∧ (1 ≤ e →
        ((e = (s.event n).keys.epoch ∧ (s.event n).keys.current ≠ none)
          ∨ (e = (s.event n).keys.epoch + 1 ∧ (s.event n).keys.next ≠ none)
          ∨ (e = (s.event n).keys.epoch + 2 ∧ (s.event n).keys.onDeck ≠ none)) →
        exec .keyLoad s = .next (s.replied h .keyPresent []))
      ∧ (1 ≤ e → (e = (s.event n).keys.epoch → (s.event n).keys.current = none) →
        (e = (s.event n).keys.epoch + 1 → (s.event n).keys.next = none) →
        (e = (s.event n).keys.epoch + 2 → (s.event n).keys.onDeck = none) →
        (e ≠ (s.event n).keys.epoch + 1 ∨ (s.event n).keys.next ≠ none) →
        (e ≠ (s.event n).keys.epoch + 2 ∨ (s.event n).keys.next = none) →
        exec .keyLoad s = .next (s.replied h .keyOrder [])))
  ∧ (∀ (s : State) (h : HeldRequest) (n e : Nat) (key : Key), s.holding h (.keyLoad n e key) →
      (s.night = .setup ∨ s.night = .opened) → n ≤ 31 →
      ((s.event n).state = .closed ∨ (s.event n).state = .cancelled ∨ (s.event n).state = .retired) →
      exec .keyLoad s = .next (s.replied h .wrongEventState []))

/-- The deadline steps of one event that fall alone (R5): sale open, key wait, live, overtime, and nothing when no
step is due. Nothing is due (R5): of an event without a definition or in EMPTY, CLOSED, CANCELLED or RETIRED no step
ever is; of an event on sale before its entry deadline, or keyed before its boundary and its next change of state,
none is at that second. Steps that fall at one second follow each other, each from the state that the one before it
left (R5): sale open, entry or key wait, live and overtime leave what the event's steps are then taken from at the
same clock. The earliest-deadline report names the pending deadline of smallest time, ties going to the smallest
event number and then to step order, and none when none is pending (R145, R146). -/
def Obligations.DeadlineStepsMoveEvent : Prop :=
  (∀ (s : State) (n : Nat) (w : Window), n < s.events.length → (s.event n).window = some w →
      s.clock.clock < effectiveCloseOf w.scheduledClose (s.event n).hold →
      ((s.event n).state = .scheduled → w.saleOpen ≤ s.clock.clock → s.clock.clock < w.entryDeadline →
        s.deadlineSteps n = s.setEvent n
          { s.event n with
            state := .onSale, causes := (s.event n).causes ||| 1#4
            repeatsOwed := s.settings.record.stateRepeat })
      ∧ ((s.event n).state = .scheduled → s.clock.clock < w.saleOpen → s.deadlineSteps n = s)
      ∧ ((s.event n).state = .onSale → w.entryDeadline ≤ s.clock.clock → ¬ s.Ready n →
        (s.event n).keys.keyLate = false →
        s.deadlineSteps n = s.setEvent n
          { s.event n with
            causes := (s.event n).causes ||| 2#4
            keys := { (s.event n).keys with keyLate := true } })
      ∧ ((s.event n).state = .onSale → (s.event n).keys.keyLate = true → ¬ s.Ready n →
        s.deadlineSteps n = s)
      ∧ ((s.event n).state = .preview → w.liveStart ≤ s.clock.clock →
        s.clock.clock < w.scheduledClose → ¬ s.AtBoundary n →
        s.deadlineSteps n = s.setEvent n
          { s.event n with
            state := .live, causes := (s.event n).causes ||| 1#4
            repeatsOwed := s.settings.record.stateRepeat })
      ∧ ((s.event n).state = .live → w.scheduledClose ≤ s.clock.clock → ¬ s.AtBoundary n →
        s.deadlineSteps n = s.setEvent n
          { s.event n with
            state := .overtime, causes := (s.event n).causes ||| 1#4
            repeatsOwed := s.settings.record.stateRepeat }))
  ∧ ((∀ (s : State) (n : Nat), ((s.event n).window = none ∨ (s.event n).state = .empty
        ∨ (s.event n).state = .closed ∨ (s.event n).state = .cancelled ∨ (s.event n).state = .retired) →
        s.deadlineSteps n = s)
    ∧ ∀ (s : State) (n : Nat) (w : Window), (s.event n).window = some w →
      s.clock.clock < effectiveCloseOf w.scheduledClose (s.event n).hold →
      ((s.event n).state = .onSale → s.clock.clock < w.entryDeadline → s.deadlineSteps n = s)
      ∧ ((s.event n).state = .preview → s.clock.clock < w.liveStart → ¬ s.AtBoundary n →
        s.deadlineSteps n = s)
      ∧ ((s.event n).state = .live → s.clock.clock < w.scheduledClose → ¬ s.AtBoundary n →
        s.deadlineSteps n = s)
      ∧ ((s.event n).state = .overtime → ¬ s.AtBoundary n → s.deadlineSteps n = s))
  ∧ (∀ (s : State) (n : Nat) (w : Window) (becomes : EventState → EventRecord), n < s.events.length →
      (s.event n).window = some w →
      becomes = (fun x => { s.event n with
        state := x, causes := (s.event n).causes ||| 1#4, repeatsOwed := s.settings.record.stateRepeat }) →
      ((s.event n).state = .scheduled → w.saleOpen ≤ s.clock.clock →
        s.deadlineSteps n = (s.setEvent n (becomes .onSale)).deadlineSteps n)
      ∧ (∀ key, (s.event n).state = .onSale → w.entryDeadline ≤ s.clock.clock → s.Ready n →
        (s.event n).keys.next = some key →
        s.deadlineSteps n =
          (s.advanced n key
            (some (if w.previewStart ≠ none ∧ s.clock.clock < w.liveStart then .preview else .live))).deadlineSteps n)
      ∧ ((s.event n).state = .onSale → w.entryDeadline ≤ s.clock.clock → ¬ s.Ready n →
        (s.event n).keys.keyLate = false →
        s.deadlineSteps n =
          (s.setEvent n
            { s.event n with
              causes := (s.event n).causes ||| 2#4
              keys := { (s.event n).keys with keyLate := true } }).deadlineSteps n)
      ∧ ((s.event n).state = .preview → w.liveStart ≤ s.clock.clock →
        s.deadlineSteps n = (s.setEvent n (becomes .live)).deadlineSteps n)
      ∧ ((s.event n).state = .live → w.scheduledClose ≤ s.clock.clock →
        s.clock.clock < effectiveCloseOf w.scheduledClose (s.event n).hold →
        s.deadlineSteps n = (s.setEvent n (becomes .overtime)).deadlineSteps n))
  ∧ (∀ s : State,
      (s.earliestDeadline = none ↔ ∀ d, ¬ s.Pending d)
      ∧ ∀ d, s.earliestDeadline = some d ↔
          (s.Pending d ∧ ∀ q, s.Pending q →
            d.time < q.time ∨ (d.time = q.time ∧ (d.event < q.event
              ∨ (d.event = q.event ∧ deadlineKindNumber d.kind ≤ deadlineKindNumber q.kind)))))

/-- Entry and advance (R7, R111, R114): an ON-SALE event at its entry deadline with the conditions true becomes
PREVIEW or LIVE under its first key, and a keyed event at its boundary with the conditions true takes its next key;
a SWITCH record goes to the tail of the scrambler queue, KEY-LOW is raised when no key follows, and nothing else
changes. A keyed event at its boundary whose conditions fail, for want of a next key, of its announcements or of a
free place in the scrambler queue, holds its epoch (R110, R112): KEY-LATE is raised and key-late set, once; at a
later second of the hold nothing is raised and nothing changes. -/
def Obligations.EntryAndAdvanceSwitchKeys : Prop :=
  (∀ (s : State) (n : Nat) (w : Window) (key : Key), n < s.events.length →
      (s.event n).window = some w → (s.event n).keys.next = some key →
      s.clock.clock < effectiveCloseOf w.scheduledClose (s.event n).hold →
      1 ≤ s.settings.record.shortEpoch → 1 ≤ s.settings.record.longEpoch →
      (s.Ready n → (s.event n).state = .onSale → w.entryDeadline ≤ s.clock.clock →
        s.clock.clock < w.scheduledClose →
        s.deadlineSteps n =
          { s.setEvent n
              { s.event n with
                state := if w.previewStart ≠ none ∧ s.clock.clock < w.liveStart then .preview else .live
                causes := (s.event n).causes ||| (if (s.event n).keys.onDeck = none then 5#4 else 1#4)
                repeatsOwed := s.settings.record.stateRepeat
                keys := s.AdvancedKeys n } with
            scrambler := { s.scrambler with
              queue := s.scrambler.queue
                ++ [{ event := n,
                      payload := .switch w.service ((s.event n).keys.epoch + 1) key }] } })
      ∧ (s.Ready n → ((s.event n).state = .overtime
          ∨ ((s.event n).state = .live ∧ s.clock.clock < w.scheduledClose)
          ∨ ((s.event n).state = .preview ∧ s.clock.clock < w.liveStart)) → s.AtBoundary n →
        s.deadlineSteps n =
          { s.setEvent n
              { s.event n with
                causes := (s.event n).causes ||| (if (s.event n).keys.onDeck = none then 4#4 else 0#4)
                keys := s.AdvancedKeys n } with
            scrambler := { s.scrambler with
              queue := s.scrambler.queue
                ++ [{ event := n,
                      payload := .switch w.service ((s.event n).keys.epoch + 1) key }] } }))
  ∧ (∀ (s : State) (n : Nat) (w : Window), n < s.events.length → (s.event n).window = some w →
      s.clock.clock < effectiveCloseOf w.scheduledClose (s.event n).hold → ¬ s.Ready n →
      ((s.event n).state = .overtime
        ∨ ((s.event n).state = .live ∧ s.clock.clock < w.scheduledClose)
        ∨ ((s.event n).state = .preview ∧ s.clock.clock < w.liveStart)) →
      s.AtBoundary n →
      ((s.event n).keys.keyLate = false →
        s.deadlineSteps n = s.setEvent n
          { s.event n with
            causes := (s.event n).causes ||| 2#4
            keys := { (s.event n).keys with keyLate := true } })
      ∧ ((s.event n).keys.keyLate = true → s.deadlineSteps n = s))

/-- The close step (R5, R8, R10): an ON-SALE or keyed event whose effective close has been reached, and which no
earlier step moves, an event in key wait among them, is CLOSED with its keys ended and a RETIRE sweep asked for. How
the end of an event treats a visit under way and a CLEAR record that still waits rests on logs 13 and 31, the
model's DEDUCED readings. -/
def Obligations.CloseStepEndsEvent : Prop :=
  ∀ (s : State) (n : Nat) (w : Window), n < s.events.length → (s.event n).window = some w →
    effectiveCloseOf w.scheduledClose (s.event n).hold ≤ s.clock.clock →
    ((s.event n).state = .live ∨ (s.event n).state = .overtime
      ∨ ((s.event n).state = .preview ∧ s.clock.clock < w.liveStart)
      ∨ ((s.event n).state = .onSale
        ∧ (s.clock.clock < w.entryDeadline ∨ (¬ s.Ready n ∧ (s.event n).keys.keyLate = true)))) →
    s.Ended (s.deadlineSteps n) n .closed .retire

/-! ## The grant store -/

/-- The home slot (R36): (d + 7,919 × e) mod (A+B), formed exactly; neighbouring decoders have adjacent home slots,
and one decoder's events lie 7,919 slots apart, reduced modulo the slot space. -/
def Obligations.HomeSlotOfPair : Prop :=
  ∀ (s : State) (d e : Nat),
    s.home d e = (d + 7919 * e) % (s.store.sizeA + s.store.sizeB)
    ∧ s.home (d + 1) e = (s.home d e + 1) % (s.store.sizeA + s.store.sizeB)
    ∧ s.home d (e + 1) = (s.home d e + 7919) % (s.store.sizeA + s.store.sizeB)

/-- The successor of a slot is the next number, and of the last slot slot 0, across the join of the banks (R28). The
probe window (R37): 16 slots from home, home + i modulo the slot space, each the successor of the one before,
distinct and inside the slot space whatever the sizes. A lookup over slots whose checks pass (R38, R39): it changes
nothing; it ends at the first live slot of the pair that no EMPTY slot precedes, or finds none, and then the
candidate is the first VACANT slot before the EMPTY slot it ended at, or that slot. A lookup leaves what the read
and check of the slots it read leaves, and a second lookup finds the same and changes nothing (R33, R38). -/
def Obligations.LookupFollowsWindow : Prop :=
  (∀ (s : State) (d e : Nat), 16384 ≤ s.store.sizeA + s.store.sizeB →
      (∀ n, n < s.store.sizeA + s.store.sizeB →
          s.successor n = if n + 1 < s.store.sizeA + s.store.sizeB then n + 1 else 0)
        ∧ (s.window d e).length = 16 ∧ (s.window d e).Nodup
        ∧ (∀ n ∈ s.window d e, n < s.store.sizeA + s.store.sizeB)
        ∧ (s.window d e).head? = some (s.home d e)
        ∧ (∀ i, i < 16 →
            (s.window d e).getD i 0 = (s.home d e + i) % (s.store.sizeA + s.store.sizeB))
        ∧ ∀ i, i < 15 → (s.window d e).getD (i + 1) 0 = s.successor ((s.window d e).getD i 0))
  ∧ (∀ (s : State) (d e : Nat), (∀ n ∈ s.window d e, (s.cell n).checkGood = true) →
      ∃ r : Lookup, s.lookup d e = (r, s)
        ∧ ((∃ n before after, r = .found n ∧ s.window d e = before ++ n :: after
              ∧ (s.slot n).LiveFor d e
              ∧ ∀ m ∈ before, (s.slot m).state ≠ .empty ∧ ¬ (s.slot m).LiveFor d e)
          ∨ (∃ c before after, r = .missing c ∧ s.window d e = before ++ after
              ∧ (∀ m ∈ before, (s.slot m).state ≠ .empty ∧ ¬ (s.slot m).LiveFor d e)
              ∧ (∀ m, after.head? = some m → (s.slot m).state = .empty)
              ∧ c = (before.find? (fun m => (s.slot m).state == .vacant)).or after.head?)))
  ∧ (∀ (s w : State) (d e : Nat) (r : Lookup), s.storeOk → s.lookup d e = (r, w) →
      w.lookup d e = (r, w)
      ∧ ∃ before after, s.window d e = before ++ after ∧ w = before.foldl State.check s)

/-- The read and check (R32, R33): a slot whose check byte agrees is left with everything else as it is; a slot
whose check fails is rewritten DAMAGED with every field of its grant absent and the mark its queues give it,
STORE-DAMAGE is raised, and the damage count and the damaged-slot figure rise; no other slot and nothing else
changes. A store operation of the request engine, the carousel or the sweep engine whose reads find failing slots is
that operation on the unit in which those slots have been rewritten DAMAGED before anything else is done (R32, R33).
-/
def Obligations.CheckRewritesDamagedSlot : Prop :=
  (∀ (s : State) (n : Nat), s.storeOk →
      ((s.cell n).checkGood = true → s.check n = s)
      ∧ ((s.cell n).checkGood = false →
        (s.check n).slot n =
            { state := .damaged, grant := none, emissions := 0, reason := none,
              mark := if n ∈ s.carousel.fresh then .fresh
                else if n ∈ s.carousel.urgent then .urgent else .none }
        ∧ ((s.check n).cell n).checkGood = true
        ∧ (∀ m, m ≠ n → (s.check n).cell m = s.cell m)
        ∧ ∃ memory : Memory, s.check n =
            { s with
              store := { s.store with
                memory := memory
                damaged := if s.store.damaged + 1 ≤ s.slotCount then s.store.damaged + 1 else s.slotCount }
              notice := { s.notice with causes := s.notice.causes ||| 0x002#10 }
              counters := { s.counters with damageCount := bump s.counters.damageCount } }))
  ∧ (∀ (u : List Nat) (s v : State), v = s.upset u → s.storeOk →
      (∀ (h : HeldRequest) (q : Request) (d e : Nat) (r : Lookup) (w : State), s.holding h q →
        s.port.state = .request → 0 < s.slotCount → e ≤ 31 → 1 ≤ d → d ≤ 4294967294 →
        ((∃ f, q = .grantAdd f ∧ f.decoder = d ∧ f.event = e ∧ s.Admits f)
          ∨ (q = .grantRevoke d e
            ∧ ((s.event e).state.admitting = true ∨ (s.event e).state = .cancelled))
          ∨ q = .grantQuery d e) →
        v.lookup d e = (r, w) →
        exec (.requestStoreOperation u) s = exec (.requestStoreOperation []) w)
      ∧ (∀ n rest, s.port.state = .composition → n < s.slotCount →
        ((s.carousel.attempt = .urgentShare ∨ s.carousel.attempt = .urgentRest) →
          s.carousel.urgent = n :: rest →
          exec (.urgentDequeue u) s = exec (.urgentDequeue []) (v.check n))
        ∧ ((s.carousel.attempt = .freshShare ∨ s.carousel.attempt = .freshRest) →
          s.carousel.fresh = n :: rest →
          exec (.freshDequeue u) s = exec (.freshDequeue []) (v.check n))
        ∧ (∀ reads, s.carousel.attempt = .refresh reads → s.carousel.cursor = n →
          exec (.refreshRead u) s = exec (.refreshRead []) (v.check n)))
      ∧ (∀ n d e (t : Tag) rest, s.port.state = .completion → s.port.completions = t :: rest →
        t.voided = false → n < s.slotCount →
        (t.content = .grant n d e →
          exec (.grantCompletionUpdate u) s = exec (.grantCompletionUpdate []) (v.check n))
        ∧ (t.content = .revoke n d e →
          exec (.revokeCompletionUpdate u) s = exec (.revokeCompletionUpdate []) (v.check n)))
      ∧ (∀ k ranges o w, s.port.state = .visit k ranges o → s.sweep.engine = .sweeping w →
        w.cursor < s.slotCount →
        exec (.sweepVisit u) s = exec (.sweepVisit []) (v.check w.cursor)))

/-- GRANT_ADD, GRANT_REVOKE and GRANT_QUERY in SETUP and OPEN claim the store port, and an IDLE port is granted to
the request unless the carousel waits; in CLOSING they are NOT-READY (R43, R47). The checks of GRANT-REVOKE and
GRANT-QUERY under the store port, in order (R53, R55): the event number, for GRANT-REVOKE the event's existence and
state, and the decoder address; the request is answered so, and nothing but the port and what corruption has come to
changes. GRANT-QUERY of a pair with a live grant, in any event state (R55): slot number, bank and position, state,
kind, region, emissions, mark, reason and admitted-at; without one NOT-FOUND; nothing is written. -/
def Obligations.GrantRequestsClaimAndQuery : Prop :=
  (∀ (s : State) (h : HeldRequest) (c : Instr),
      ((∃ f, c = .grantAdd ∧ s.holding h (.grantAdd f))
        ∨ (∃ d e, c = .grantRevoke ∧ s.holding h (.grantRevoke d e))
        ∨ (∃ d e, c = .grantQuery ∧ s.holding h (.grantQuery d e))) →
      (s.night = .closing → exec c s = .next (s.replied h .notReady []))
      ∧ ((s.night = .setup ∨ s.night = .opened) → s.port.request = false → s.port.state ≠ .request →
        ∃ p : StorePort, exec c s = .next { s with port := p }
          ∧ p.completions = s.port.completions ∧ p.sweep = s.port.sweep
          ∧ (s.port.state = .idle → s.port.composition = false → s.port.completions = [] →
              p.state = .request ∧ p.request = false ∧ p.composition = false)
          ∧ (s.port.state ≠ .idle →
              p.state = s.port.state ∧ p.request = true ∧ p.composition = s.port.composition)))
  ∧ (∀ (s v : State) (h : HeldRequest) (q : Request) (d e : Nat) (u : List Nat), s.Operates v h q u →
      (q = .grantRevoke d e ∨ q = .grantQuery d e) →
      ∀ (r : ResultCode) (body : List Byte),
        ((31 < e ∧ r = .badField ∧ body = [2#8])
          ∨ (q = .grantRevoke d e ∧ e ≤ 31 ∧ (s.event e).state = .empty ∧ r = .noEvent ∧ body = [])
          ∨ (q = .grantRevoke d e ∧ e ≤ 31 ∧ ((s.event e).state = .closed ∨ (s.event e).state = .retired)
              ∧ r = .wrongEventState ∧ body = [])
          ∨ (e ≤ 31 ∧ (d = 0 ∨ 4294967294 < d) ∧ r = .badField ∧ body = [1#8]
              ∧ (q = .grantRevoke d e → (s.event e).state ≠ .empty ∧ (s.event e).state ≠ .closed
                  ∧ (s.event e).state ≠ .retired))) →
        ∃ t : State, exec (.requestStoreOperation u) s = .next t
          ∧ t.link = { s.link with holder := h.After r body } ∧ t.store = v.store ∧ t.events = s.events
          ∧ t.carousel = s.carousel ∧ t.notice = s.notice ∧ t.counters = s.counters ∧ s.KeptByRequest t)
  ∧ (∀ (s v : State) (h : HeldRequest) (d e : Nat) (u : List Nat), s.Operates v h (.grantQuery d e) u →
      e ≤ 31 → 1 ≤ d → d ≤ 4294967294 →
      (∀ n g, v.lookup d e = (.found n, v) → (v.slot n).grant = some g →
        ∃ t : State, exec (.requestStoreOperation u) s = .next t
          ∧ t.link = { s.link with
              holder := (h.After .ok
              (leBytes 3 n
                ++ (if n < s.store.sizeA then 0#8 :: leBytes 3 n else 1#8 :: leBytes 3 (n - s.store.sizeA))
                ++ [BitVec.ofNat 8 (v.slot n).state.number, BitVec.ofNat 8 g.kind.number,
                  BitVec.ofNat 8 g.region, BitVec.ofNat 8 (v.slot n).emissions,
                  BitVec.ofNat 8 (v.slot n).mark.number,
                  BitVec.ofNat 8 (RevokeReason.number (v.slot n).reason)]
                ++ leBytes 3 g.admittedAt)) }
          ∧ t.store = v.store ∧ t.events = s.events ∧ t.carousel = s.carousel ∧ t.notice = s.notice
          ∧ t.counters = s.counters ∧ s.KeptByRequest t)
      ∧ (∀ c, v.lookup d e = (.missing c, v) →
        ∃ t : State, exec (.requestStoreOperation u) s = .next t
          ∧ t.link = { s.link with holder := h.After .notFound [] } ∧ t.store = v.store ∧ t.events = s.events
          ∧ t.carousel = s.carousel ∧ t.notice = s.notice ∧ t.counters = s.counters
          ∧ s.KeptByRequest t))

/-- The checks of GRANT-ADD under the store port, in order (R48): BAD-FIELD for the event number, NO-EVENT,
WRONG-EVENT-STATE, BAD-FIELD for decoder, kind and region, BLACKED-OUT; the request is answered so, and nothing but
the port and what corruption has come to changes. GRANT-ADD without a match or a candidate is STORE-FULL: the
store-full count rises, no cause is raised and no slot is written (R52). -/
def Obligations.GrantAddIsRefused : Prop :=
  (∀ (s v : State) (h : HeldRequest) (f : AddFields) (u : List Nat), s.Operates v h (.grantAdd f) u →
      ∀ (r : ResultCode) (body : List Byte),
        ((31 < f.event ∧ r = .badField ∧ body = [2#8])
          ∨ (f.event ≤ 31 ∧ (s.event f.event).state = .empty ∧ r = .noEvent ∧ body = [])
          ∨ (f.event ≤ 31 ∧ (s.event f.event).state.finished = true ∧ r = .wrongEventState ∧ body = [])
          ∨ (f.event ≤ 31 ∧ (s.event f.event).state = .cancelled ∧ r = .wrongEventState ∧ body = [])
          ∨ (f.event ≤ 31 ∧ (s.event f.event).state.admitting = true ∧ r = .badField
              ∧ ((body = [1#8] ∧ (f.decoder = 0 ∨ 4294967294 < f.decoder))
                ∨ (body = [3#8] ∧ 1 ≤ f.decoder ∧ f.decoder ≤ 4294967294 ∧ f.kind ≠ 1 ∧ f.kind ≠ 2)
                ∨ (body = [4#8] ∧ 1 ≤ f.decoder ∧ f.decoder ≤ 4294967294 ∧ (f.kind = 1 ∨ f.kind = 2)
                  ∧ 255 < f.region)))
          ∨ (f.event ≤ 31 ∧ (s.event f.event).state.admitting = true ∧ r = .blackedOut ∧ body = []
              ∧ 1 ≤ f.decoder ∧ f.decoder ≤ 4294967294 ∧ f.kind = 1 ∧ f.region ≤ 255
              ∧ ∃ x ∈ (s.event f.event).blackout, x.low ≤ f.region ∧ f.region ≤ x.high)) →
        ∃ t : State, exec (.requestStoreOperation u) s = .next t
          ∧ t.link = { s.link with holder := h.After r body } ∧ t.store = v.store ∧ t.events = s.events
          ∧ t.carousel = s.carousel ∧ t.notice = s.notice ∧ t.counters = s.counters ∧ s.KeptByRequest t)
  ∧ (∀ (s v : State) (h : HeldRequest) (f : AddFields) (u : List Nat),
      s.Operates v h (.grantAdd f) u → s.Admits f →
      v.lookup f.decoder f.event = (.missing none, v) →
      ∃ t : State, exec (.requestStoreOperation u) s = .next t
        ∧ t.link = { s.link with holder := h.After .storeFull [] }
        ∧ t.counters = { s.counters with storeFullCount := bump s.counters.storeFullCount }
        ∧ t.store = v.store ∧ t.events = s.events ∧ t.carousel = s.carousel ∧ t.notice = s.notice
        ∧ s.KeptByRequest t)

/-- GRANT-ADD inserts in the candidate slot (R51): the slot is PENDING with the request's grant, admitted and live
are one more, an EMPTY slot counts as drawn, and a fresh append attempt is made; the answer is OK with the slot
number even when the fresh queue is full. Every other slot, event and count is left. -/
def Obligations.GrantAddInserts : Prop :=
  ∀ (s v : State) (h : HeldRequest) (f : AddFields) (u : List Nat) (n : Nat),
    s.Operates v h (.grantAdd f) u → s.Admits f → s.events.length = 32 →
    v.lookup f.decoder f.event = (.missing (some n), v) →
    ∃ t : State, exec (.requestStoreOperation u) s = .next t
      ∧ t.slot n =
        { state := .pending, grant := some (s.GrantOf f), emissions := 0, reason := none
          mark := if (v.slot n).mark = .none ∧ s.carousel.fresh.length < 1024 then .fresh
            else (v.slot n).mark }
      ∧ (∀ m, m ≠ n → t.cell m = v.cell m)
      ∧ t.events = s.events.set f.event
          { s.event f.event with
            counts := { (s.event f.event).counts with
              admitted := (s.event f.event).counts.admitted + 1
              live := (s.event f.event).counts.live + 1 } }
      ∧ t.store.drawn = (if (v.slot n).state = .empty then s.store.drawn + 1 else s.store.drawn)
      ∧ t.store.damaged = s.store.damaged
      ∧ t.carousel = { s.carousel with
          fresh := if (v.slot n).mark = .none ∧ s.carousel.fresh.length < 1024 then
              s.carousel.fresh ++ [n] else s.carousel.fresh }
      ∧ (¬ ((v.slot n).mark = .none ∧ 1024 ≤ s.carousel.fresh.length) →
          t.notice = s.notice ∧ t.counters = s.counters)
      ∧ ((v.slot n).mark = .none ∧ 1024 ≤ s.carousel.fresh.length →
          t.notice = { s.notice with causes := s.notice.causes ||| 0x004#10 }
          ∧ t.counters = { s.counters with freshOverflow := bump s.counters.freshOverflow })
      ∧ t.link = { s.link with holder := h.After .ok (leBytes 3 n) } ∧ s.KeptByRequest t

/-- GRANT-ADD of a pair that is REVOKING reinstates it in its slot (R50): PENDING with the request's grant,
emissions 0, no reason, one more reinstated, and a fresh append attempt, whose overflow is counted and raised (R41);
the answer is REINSTATED with the slot number, also when the fresh queue is full. -/
def Obligations.GrantAddReinstates : Prop :=
  ∀ (s v : State) (h : HeldRequest) (f : AddFields) (u : List Nat) (n : Nat),
    s.Operates v h (.grantAdd f) u → s.Admits f → s.events.length = 32 →
    v.lookup f.decoder f.event = (.found n, v) → (v.slot n).state = .revoking →
    ∃ t : State, exec (.requestStoreOperation u) s = .next t
      ∧ t.slot n =
        { state := .pending, grant := some (s.GrantOf f), emissions := 0, reason := none
          mark := if (v.slot n).mark = .none ∧ s.carousel.fresh.length < 1024 then .fresh
            else (v.slot n).mark }
      ∧ (∀ m, m ≠ n → t.cell m = v.cell m)
      ∧ t.events = s.events.set f.event
          { s.event f.event with
            counts := { (s.event f.event).counts with
              reinstated := (s.event f.event).counts.reinstated + 1 } }
      ∧ t.store.drawn = s.store.drawn ∧ t.store.damaged = s.store.damaged
      ∧ t.carousel = { s.carousel with
          fresh := if (v.slot n).mark = .none ∧ s.carousel.fresh.length < 1024 then
              s.carousel.fresh ++ [n] else s.carousel.fresh }
      ∧ (¬ ((v.slot n).mark = .none ∧ 1024 ≤ s.carousel.fresh.length) →
          t.notice = s.notice ∧ t.counters = s.counters)
      ∧ ((v.slot n).mark = .none ∧ 1024 ≤ s.carousel.fresh.length →
          t.notice = { s.notice with causes := s.notice.causes ||| 0x004#10 }
          ∧ t.counters = { s.counters with freshOverflow := bump s.counters.freshOverflow })
      ∧ t.link = { s.link with holder := h.After .reinstated (leBytes 3 n) } ∧ s.KeptByRequest t

/-- GRANT-ADD whose lookup finds a live match that is PENDING, ANNOUNCED or HELD (R49): the result is ALREADY-HELD,
its body the slot number, the port is handed on, and every slot, the queues, the event table and everything else are
left as the lookup left them, so that no kind or region is written and no append attempt is made. -/
def Obligations.GrantAddAlreadyHeld : Prop :=
  ∀ (s v w : State) (h : HeldRequest) (f : AddFields) (u : List Nat) (n : Nat),
    s.Operates v h (.grantAdd f) u → s.Admits f →
    v.lookup f.decoder f.event = (.found n, w) →
    ((w.slot n).state = .pending ∨ (w.slot n).state = .announced ∨ (w.slot n).state = .held) →
    ∃ t : State, exec (.requestStoreOperation u) s = .next t
      ∧ t.link = { s.link with holder := h.After .alreadyHeld (leBytes 3 n) }
      ∧ t.store = w.store ∧ t.events = s.events ∧ t.carousel = s.carousel ∧ t.notice = w.notice
      ∧ t.counters = w.counters ∧ s.KeptByRequest t

/-- GRANT-REVOKE (R53, R54): a PENDING grant of which nothing is in flight becomes VACANT and is counted revoked;
another PENDING, ANNOUNCED or HELD grant becomes REVOKING with reason CUSTOMER and an urgent append attempt; a
REVOKING one is ALREADY-REVOKING; no match is NOT-FOUND. A CANCELLED event whose cancel sweep has completed becomes
RETIRED when its last live grant becomes VACANT (R12). The request is answered, and nothing else changes but the
port and what corruption has come to. -/
def Obligations.GrantRevokeWithdraws : Prop :=
  ∀ (s v : State) (h : HeldRequest) (d e : Nat) (u : List Nat), s.Operates v h (.grantRevoke d e) u →
    e ≤ 31 → s.events.length = 32 → 1 ≤ d → d ≤ 4294967294 →
    ((s.event e).state.admitting = true ∨ (s.event e).state = .cancelled) →
    (∀ n, v.lookup d e = (.found n, v) → (v.slot n).state = .pending → s.NotInFlight d e →
      1 ≤ (s.event e).counts.live →
      ∃ t : State, exec (.requestStoreOperation u) s = .next t
        ∧ t.slot n = { v.slot n with state := .vacant, emissions := 0, reason := none }
        ∧ (∀ m, m ≠ n → t.cell m = v.cell m)
        ∧ (t.event e).counts =
            { (s.event e).counts with
              live := (s.event e).counts.live - 1
              revoked := (s.event e).counts.revoked + 1 }
        ∧ (∀ m, m ≠ e → t.event m = s.event m)
        ∧ (((s.event e).state ≠ .cancelled ∨ ¬ s.CancelSwept e ∨ 1 < (s.event e).counts.live) →
            t.event e = { s.event e with counts := (t.event e).counts })
        ∧ ((s.event e).state = .cancelled → s.CancelSwept e → (s.event e).counts.live = 1 →
            t.event e =
              { s.event e with
                state := .retired, counts := (t.event e).counts, causes := (s.event e).causes ||| 1#4
                repeatsOwed := s.settings.record.stateRepeat })
        ∧ t.store.drawn = s.store.drawn ∧ t.store.damaged = s.store.damaged
        ∧ t.carousel = s.carousel ∧ t.notice = s.notice ∧ t.counters = s.counters
        ∧ t.link = { s.link with holder := h.After .ok [] } ∧ s.KeptByRequest t)
    ∧ (∀ n, v.lookup d e = (.found n, v) →
      ((v.slot n).state = .announced ∨ (v.slot n).state = .held
        ∨ ((v.slot n).state = .pending ∧ ¬ s.NotInFlight d e)) →
      ∃ t : State, exec (.requestStoreOperation u) s = .next t
        ∧ t.slot n =
          { v.slot n with
            state := .revoking, emissions := 0, reason := some .customer
            mark := if (v.slot n).mark = .none ∧ s.carousel.urgent.length < 256 then .urgent
              else (v.slot n).mark }
        ∧ (∀ m, m ≠ n → t.cell m = v.cell m)
        ∧ t.carousel = { s.carousel with
            urgent := if (v.slot n).mark = .none ∧ s.carousel.urgent.length < 256 then
                s.carousel.urgent ++ [n] else s.carousel.urgent }
        ∧ ((v.slot n).mark = .none → 256 ≤ s.carousel.urgent.length →
            t.notice = { s.notice with causes := s.notice.causes ||| 0x008#10 }
            ∧ t.counters = { s.counters with urgentOverflow := bump s.counters.urgentOverflow })
        ∧ (((v.slot n).mark ≠ .none ∨ s.carousel.urgent.length < 256) →
            t.notice = s.notice ∧ t.counters = s.counters)
        ∧ t.store.drawn = s.store.drawn ∧ t.store.damaged = s.store.damaged
        ∧ t.events = s.events ∧ t.link = { s.link with holder := h.After .ok [] } ∧ s.KeptByRequest t)
    ∧ (∀ (l : Lookup) (r : ResultCode), v.lookup d e = (l, v) →
      ((∃ n, l = .found n ∧ (v.slot n).state = .revoking ∧ r = .alreadyRevoking)
        ∨ (∃ c, l = .missing c ∧ r = .notFound)) →
      ∃ t : State, exec (.requestStoreOperation u) s = .next t
        ∧ t.link = { s.link with holder := h.After r [] } ∧ t.store = v.store ∧ t.events = s.events
        ∧ t.carousel = s.carousel ∧ t.notice = s.notice ∧ t.counters = s.counters
        ∧ s.KeptByRequest t)

/-! ## Time -/

/-- SECOND_PULSE (R138, R139, R141, R142), at a moment `m` of the timer. In STOPPED only the timer moves. In
REFERENCE the pulse is taken, and the clock below its last value rises by one with the deadline steps of all 32
events, each once. In FLYWHEEL the source returns to REFERENCE with CLOCK-RESTORED, and a pulse less than 500 ms
after the last tick is absorbed and counted. At its last value, 16,777,215, the clock stays and no deadline step is
taken, and the rest is as usual (R142). The steps are those of the events named by the command, in that order, and
then of the others (log 6). FLYWHEEL_ENTRY and FLYWHEEL_SECOND (R140): entry 1,500 ms after last tick raises
CLOCK-FLYWHEEL; each second supplied is counted, sets last tick to its moment on the grid of whole seconds from the
last pulse, leaves last pulse, and advances the clock with its deadline steps; at 16,777,215 the clock stays and no
deadline step is taken (R142). Taken in another source state, either changes nothing (log 2). -/
def Obligations.SecondsAdvanceClock : Prop :=
  (∀ (elapsed : Nat) (order : List Nat) (s : State) (m : Nat), m = s.timer.now + elapsed →
      (eventOrder order).Perm (List.range 32)
      ∧ (order.Nodup → (∀ n ∈ order, n < 32) → ∃ others, eventOrder order = order ++ others)
      ∧ (∀ (u : State) (events : List Nat), u.deadlinesOf events = events.foldl State.deadlineSteps u)
      ∧ (s.clock.source = .stopped →
        exec (.secondPulse elapsed order) s = .next { s with timer := { s.timer with now := m } })
      ∧ (s.clock.source = .reference → s.clock.clock < 16777215 →
        exec (.secondPulse elapsed order) s = .next (State.deadlinesOf
          { s with
            timer := { s.timer with now := m }
            clock :=
              { clock := s.clock.clock + 1, source := .reference, lastTick := some m, lastPulse := some m } }
          (eventOrder order)))
      ∧ (s.clock.source = .reference → 16777215 ≤ s.clock.clock →
        exec (.secondPulse elapsed order) s = .next
          { s with
            timer := { s.timer with now := m }
            clock := { s.clock with lastTick := some m, lastPulse := some m } })
      ∧ (∀ a, s.clock.source = .flywheel → s.clock.lastTick = some a → m < a + 500 →
        exec (.secondPulse elapsed order) s = .next
          { s with
            timer := { s.timer with now := m }
            clock := { s.clock with source := .reference, lastTick := some m, lastPulse := some m }
            notice := { s.notice with causes := s.notice.causes ||| 0x040#10 }
            counters := { s.counters with absorbedPulses := bump s.counters.absorbedPulses } })
      ∧ (∀ a, s.clock.source = .flywheel → s.clock.lastTick = some a → a + 500 ≤ m →
        s.clock.clock < 16777215 →
        exec (.secondPulse elapsed order) s = .next (State.deadlinesOf
          { s with
            timer := { s.timer with now := m }
            clock :=
              { clock := s.clock.clock + 1, source := .reference, lastTick := some m, lastPulse := some m }
            notice := { s.notice with causes := s.notice.causes ||| 0x040#10 } }
          (eventOrder order)))
      ∧ (∀ a, s.clock.source = .flywheel → s.clock.lastTick = some a → a + 500 ≤ m →
        16777215 ≤ s.clock.clock →
        exec (.secondPulse elapsed order) s = .next
          { s with
            timer := { s.timer with now := m }
            clock := { s.clock with source := .reference, lastTick := some m, lastPulse := some m }
            notice := { s.notice with causes := s.notice.causes ||| 0x040#10 } }))
  ∧ (∀ (order : List Nat) (s : State) (a p : Nat), s.clock.lastTick = some a → s.clock.lastPulse = some p →
      (s.clock.source = .reference → s.timer.now ≤ a + 1500 → s.clock.clock < 16777215 →
        exec (.flywheelEntry order) s = .next (State.deadlinesOf
          { s with
            timer := { s.timer with now := a + 1500 }
            clock :=
              { clock := s.clock.clock + 1, source := .flywheel, lastTick := some (a + 1500),
                lastPulse := some p }
            notice := { s.notice with causes := s.notice.causes ||| 0x020#10 }
            counters := { s.counters with flywheelSeconds := bump s.counters.flywheelSeconds } }
          (eventOrder order)))
      ∧ (∀ k, s.clock.source = .flywheel → p + 1000 * k ≤ a → a < p + 1000 * (k + 1) →
        s.timer.now ≤ p + 1000 * (k + 1) → s.clock.clock < 16777215 →
        exec (.flywheelSecond order) s = .next (State.deadlinesOf
          { s with
            timer := { s.timer with now := p + 1000 * (k + 1) }
            clock :=
              { clock := s.clock.clock + 1, source := .flywheel, lastTick := some (p + 1000 * (k + 1)),
                lastPulse := some p }
            counters := { s.counters with flywheelSeconds := bump s.counters.flywheelSeconds } }
          (eventOrder order)))
      ∧ (s.clock.source = .reference → s.timer.now ≤ a + 1500 → 16777215 ≤ s.clock.clock →
        exec (.flywheelEntry order) s = .next
          { s with
            timer := { s.timer with now := a + 1500 }
            clock := { s.clock with source := .flywheel, lastTick := some (a + 1500) }
            notice := { s.notice with causes := s.notice.causes ||| 0x020#10 }
            counters := { s.counters with flywheelSeconds := bump s.counters.flywheelSeconds } })
      ∧ (∀ k, s.clock.source = .flywheel → p + 1000 * k ≤ a → a < p + 1000 * (k + 1) →
        s.timer.now ≤ p + 1000 * (k + 1) → 16777215 ≤ s.clock.clock →
        exec (.flywheelSecond order) s = .next
          { s with
            timer := { s.timer with now := p + 1000 * (k + 1) }
            clock := { s.clock with lastTick := some (p + 1000 * (k + 1)) }
            counters := { s.counters with flywheelSeconds := bump s.counters.flywheelSeconds } })
      ∧ (s.clock.source ≠ .reference → exec (.flywheelEntry order) s = .next s)
      ∧ (s.clock.source ≠ .flywheel → exec (.flywheelSecond order) s = .next s))

/-- CYCLE_TICK (R77, R78), 250 ms after the tick before: a WAITING carousel of an OPEN unit begins a cycle with its
counts 0 and the owed list built from the event table in event order, KEY before STATE; otherwise only the timer
moves. -/
def Obligations.CycleTickStartsCycle : Prop :=
  ∀ (s : State) (m : Nat), m = s.timer.cycleTickAt + 250 → s.timer.now ≤ m →
    ((s.carousel.run ≠ .waiting ∨ s.night ≠ .opened) →
      exec .cycleTick s = .next { s with timer := { now := m, cycleTickAt := m } })
    ∧ (s.carousel.run = .waiting → s.night = .opened →
      ∃ owed : List OwedEntry,
        exec .cycleTick s = .next { s with
          timer := { now := m, cycleTickAt := m }
          carousel := { s.carousel with
            run := .running, composed := 0, finished := 0, urgentComposed := 0, freshComposed := 0
            owed := owed, attempt := .none, exhausted := false, cycle := s.carousel.cycle + 1 } }
        ∧ owed = (List.range 32).flatMap (fun n =>
            (if (s.event n).state = .onSale ∨ (s.event n).state = .preview
                ∨ (s.event n).state = .live ∨ (s.event n).state = .overtime then
              [OwedEntry.key n] else [])
            ++ (if (s.event n).repeatsOwed = 0 then [] else [OwedEntry.state n])))

/-! ## The carousel -/

/-- COMPOSITION_ATTEMPT begins when every condition of R80 holds and takes the owed list from its head (R81, R82). A
head entry whose event can still have its message is composed into staging; one whose event cannot is dropped as if
it had not been owed; with no entry the attempt claims a read of the urgent queue within its share, else of the
fresh queue within its share, else of the refresh cursor. -/
def Obligations.CompositionAttemptTakesOwed : Prop :=
  ∀ s : State, s.carousel.run = .running → s.night = .opened → s.bus.staging = none →
    s.bus.state ≠ .fault → s.carousel.composed < s.settings.record.cycleLength →
    s.carousel.exhausted = false → s.carousel.attempt = .none →
    (∀ n rest, s.carousel.owed = .key n :: rest →
      ((s.event n).state.keyed = true ∨ ((s.event n).state = .onSale ∧ (s.event n).keys.next ≠ none)) →
      ∃ t : State, exec .compositionAttempt s = .next t
        ∧ s.Composed t ((s.event n).keyMessage n)
            (.key n ((s.event n).keys.next.map (fun _ => (s.event n).keys.epoch + 1)))
        ∧ t = { s with carousel := t.carousel, bus := t.bus }
        ∧ t.carousel = { s.carousel with
            owed := rest, composed := s.carousel.composed + 1, attempt := .none })
    ∧ (∀ n rest, s.carousel.owed = .state n :: rest →
      (s.event n).state ≠ .empty → 0 < (s.event n).repeatsOwed →
      ∃ t : State, exec .compositionAttempt s = .next t
        ∧ s.Composed t ((s.event n).stateMessage n) (.state n (s.event n).state)
        ∧ t = { s with carousel := t.carousel, bus := t.bus }
        ∧ t.carousel = { s.carousel with
            owed := rest, composed := s.carousel.composed + 1, attempt := .none })
    ∧ (∀ n rest,
      ((s.carousel.owed = .key n :: rest ∧ (s.event n).state.keyed = false
          ∧ ((s.event n).state ≠ .onSale ∨ (s.event n).keys.next = none))
        ∨ (s.carousel.owed = .state n :: rest
          ∧ ((s.event n).state = .empty ∨ (s.event n).repeatsOwed = 0))) →
      exec .compositionAttempt s =
        exec .compositionAttempt { s with carousel := { s.carousel with owed := rest } })
    ∧ (∀ a : Attempt, s.carousel.owed = [] →
      a = (if s.carousel.urgentComposed < s.settings.record.urgentShare ∧ s.carousel.urgent ≠ [] then
            Attempt.urgentShare
          else if s.carousel.freshComposed < s.settings.record.freshShare ∧ s.carousel.fresh ≠ [] then
            Attempt.freshShare
          else Attempt.refresh 0) →
      ∃ p : StorePort,
        exec .compositionAttempt s =
          .next { s with carousel := { s.carousel with attempt := a }, port := p }
        ∧ (s.port.state = .idle → s.port.completions = [] → p.state = .composition)
        ∧ (s.port.state ≠ .idle → p.state = s.port.state ∧ p.composition = true)
        ∧ p.completions = s.port.completions ∧ p.request = s.port.request ∧ p.sweep = s.port.sweep)

/-- The KEY message of an event (R93): current epoch and key while keyed, absent while ON-SALE; the next epoch and
key when loaded; open view exactly in PREVIEW. The STATE message of an event carries its service, state, live-start,
effective close and blackout list (R94). Every packet has 64 bytes with the CRC of the first 62 at its end, and
begins with the number of its kind (R185). Bytes 1 to 61 of each packet lie as R185's table lays them,
little-endian, with an absent field as zeros and FFh from the end of the body on. A scrambler record has 22 bytes:
type, service, epoch, parity and key of a SWITCH record; type, service and zeros of a CLEAR record (R185). What the
unit drives. The reply line carries the frame of the reply being sent: the latched own address in the one character
whose mark bit is 1, then length, tag, code, result, body and CRC; without a reply, or in a listen-only unit,
nothing (R160, R167, R183). The record lines carry the head record exactly while one is presented (R118), and DATA
the packet being sent (R124). -/
def Obligations.MessagesAndPackets : Prop :=
  (∀ (r : EventRecord) (n : Nat) (w : Window), r.window = some w →
      (r.state = .onSale → ∀ k, r.keys.next = some k →
        r.keyMessage n = .key w.service n 0 none (some (r.keys.epoch + 1, k)) false)
      ∧ (r.state.keyed = true →
        r.keyMessage n =
          .key w.service n r.keys.epoch r.keys.current
            (match r.keys.next with | none => none | some k => some (r.keys.epoch + 1, k))
            (decide (r.state = .preview))))
  ∧ (∀ (r : EventRecord) (n : Nat) (w : Window) (close : Nat), r.window = some w →
      r.effectiveClose = some close →
      r.stateMessage n = .state w.service n r.state w.liveStart close r.blackout)
  ∧ (∀ m : Message, m.bytes.length = 64 ∧ m.bytes.drop 62 = crcBytes (m.bytes.take 62)
      ∧ byteAt m.bytes 0 =
        (match m with
          | .key _ _ _ _ _ _ => 1#8 | .state _ _ _ _ _ _ => 2#8
          | .grant _ _ _ _ => 3#8 | .revoke _ _ _ _ => 4#8))
  ∧ ((∀ (service event epoch : Nat) (current : Option Key) (next : Option (Nat × Key)) (openView : Bool)
        (b : List Byte), b = (Message.key service event epoch current next openView).bytes →
      holdsAt b 1 2 service ∧ holdsAt b 3 1 event
      ∧ holdsAt b 4 1 ((if current = none then 0 else 1) + (if next = none then 0 else 2)
          + (if openView = true then 4 else 0))
      ∧ (∀ k, current = some k →
          holdsAt b 5 2 epoch ∧ holdsAt b 7 1 (epoch % 2) ∧ holdsAt b 8 16 k.toNat)
      ∧ (current = none → filledAt b 5 24 0#8)
      ∧ (∀ e k, next = some (e, k) → holdsAt b 24 2 e ∧ holdsAt b 26 16 k.toNat)
      ∧ (next = none → filledAt b 24 42 0#8)
      ∧ filledAt b 42 62 0xFF#8)
    ∧ (∀ (service event live close : Nat) (carried : EventState) (ranges : List Range) (b : List Byte),
      ranges.length ≤ 8 → b = (Message.state service event carried live close ranges).bytes →
      holdsAt b 1 2 service ∧ holdsAt b 3 1 event
      ∧ holdsAt b 4 1
          (match carried with
            | .empty => 0 | .scheduled => 1 | .onSale => 2 | .preview => 3 | .live => 4
            | .overtime => 5 | .closed => 6 | .cancelled => 7 | .retired => 8)
      ∧ holdsAt b 5 3 live ∧ holdsAt b 8 3 close ∧ holdsAt b 11 1 ranges.length
      ∧ (∀ i r, ranges[i]? = some r → holdsAt b (12 + 2 * i) 1 r.low ∧ holdsAt b (13 + 2 * i) 1 r.high)
      ∧ filledAt b (12 + 2 * ranges.length) 28 0#8 ∧ filledAt b 28 62 0xFF#8)
    ∧ (∀ (decoder event service : Nat) (kind : GrantKind) (b : List Byte),
      b = (Message.grant decoder event service kind).bytes →
      holdsAt b 1 4 decoder ∧ holdsAt b 5 1 event ∧ holdsAt b 6 2 service
      ∧ holdsAt b 8 1 (match kind with | .purchased => 1 | .complimentary => 2)
      ∧ filledAt b 9 62 0xFF#8)
    ∧ (∀ (decoder event service : Nat) (reason : Option RevokeReason) (b : List Byte),
      b = (Message.revoke decoder event service reason).bytes →
      holdsAt b 1 4 decoder ∧ holdsAt b 5 1 event ∧ holdsAt b 6 2 service
      ∧ holdsAt b 8 1
          (match reason with
            | none => 0 | some .customer => 1 | some .blackout => 2 | some .cancelled => 3)
      ∧ filledAt b 9 62 0xFF#8))
  ∧ ((∀ (service epoch : Nat) (key : Key) (b : List Byte),
      b = (ScramblerPayload.switch service epoch key).bytes →
      b.length = 22 ∧ holdsAt b 0 1 1 ∧ holdsAt b 1 2 service ∧ holdsAt b 3 2 epoch
      ∧ holdsAt b 5 1 (epoch % 2) ∧ holdsAt b 6 16 key.toNat)
    ∧ ∀ (service : Nat) (b : List Byte), b = (ScramblerPayload.clear service).bytes →
      b.length = 22 ∧ holdsAt b 0 1 2 ∧ holdsAt b 1 2 service ∧ filledAt b 3 22 0#8)
  ∧ ((∀ (s : State) (r : Reply) (covered : List Byte), s.link.holder = .replying r →
      1 ≤ s.straps.unitAddress.val → s.straps.unitAddress.val ≤ 30 →
      covered = [BitVec.ofNat 8 (r.body.length + 3), r.tag, r.code, BitVec.ofNat 8 r.result.number] ++ r.body →
      s.replyLine =
        { mark := true, data := BitVec.ofNat 8 s.straps.unitAddress.val }
          :: (covered ++ crcBytes covered).map (fun x => { mark := false, data := x }))
    ∧ (∀ s : State, ((∀ r, s.link.holder ≠ .replying r) ∨ s.straps.unitAddress.val = 0
        ∨ s.straps.unitAddress.val = 31) → s.replyLine = [])
    ∧ (∀ (s : State) (r : ScramblerRecord) (rest : List ScramblerRecord), s.scrambler.queue = r :: rest →
      s.recordLines = if s.scrambler.ready = true then some r.payload.bytes else none)
    ∧ (∀ s : State, s.scrambler.queue = [] → s.recordLines = none)
    ∧ (∀ (s : State) (p : Packet), s.bus.sending = some p → s.dataLines = p.message.bytes)
    ∧ (∀ s : State, s.bus.sending = none → s.dataLines = []))

/-- URGENT_DEQUEUE of a slot that passes its check (R85): the entry leaves the head and the slot's mark becomes
NONE. With the slot REVOKING and its event neither CLOSED nor RETIRED a REVOKE message is composed and counted in
the urgent share, and the port is free for the claims that wait. Otherwise the entry is dropped, nothing is
composed, and the attempt goes on with the same step while its condition of R81 holds, then with the next.
REFRESH_READ of a slot that passes its check (R87 to R91): the cursor moves to its successor, a wrap counts a pass,
and the mark stays. Eligible are PENDING and ANNOUNCED slots of an event that is ON-SALE, keyed or CANCELLED, HELD
ones also when the pass before the move is a multiple of k, and REVOKING ones unless the event is CLOSED or RETIRED;
they are composed or converted. Any other slot is left and nothing is composed: the attempt reads on, until the step
has made 32 reads (R90), and then goes on with the next step. -/
def Obligations.UrgentAndRefreshReadsSend : Prop :=
  (∀ (s v : State) (a : Attempt) (n : Nat) (rest u : List Nat), s.Reads v a n u →
      (a = .urgentShare ∨ a = .urgentRest) → s.carousel.urgent = n :: rest →
      (v.cell n).checkGood = true →
      ∃ t : State, exec (.urgentDequeue u) s = .next t
        ∧ t.slot n = { v.slot n with mark := .none } ∧ (∀ m, m ≠ n → t.cell m = v.cell m)
        ∧ t.carousel.urgent = rest ∧ t.carousel.fresh = s.carousel.fresh
        ∧ t.carousel.cursor = s.carousel.cursor ∧ t.carousel.pass = s.carousel.pass
        ∧ s.KeptByRead t ∧ t.notice = s.notice ∧ t.counters = s.counters
        ∧ (∀ g, (v.slot n).state = .revoking → (v.slot n).grant = some g →
            (s.event g.event).state ≠ .closed → (s.event g.event).state ≠ .retired →
            s.Composed t
                (.revoke g.decoder g.event (s.event g.event).service (v.slot n).reason)
                (.revoke n g.decoder g.event)
            ∧ t.carousel.urgentComposed = s.carousel.urgentComposed + 1
            ∧ t.carousel.freshComposed = s.carousel.freshComposed
            ∧ t.port = s.portReleased)
        ∧ (((v.slot n).state ≠ .revoking ∨ (v.slot n).grant = none
            ∨ ∃ g, (v.slot n).grant = some g
              ∧ ((s.event g.event).state = .closed ∨ (s.event g.event).state = .retired)) →
            s.GoesOn t { s.carousel with urgent := rest } a))
  ∧ (∀ (s v : State) (reads n : Nat) (u : List Nat), s.Reads v (.refresh reads) n u →
      s.carousel.cursor = n → (v.cell n).checkGood = true →
      ∃ (t : State) (c : Carousel), exec (.refreshRead u) s = .next t
        ∧ c = { s.carousel with
            cursor := if n + 1 = s.slotCount then 0 else n + 1
            pass :=
              if n + 1 = s.slotCount then
                (if s.carousel.pass = 4294967295 then 0 else (s.carousel.pass + 1) % 4294967296)
              else s.carousel.pass }
        ∧ (∀ m, m ≠ n → t.cell m = v.cell m)
        ∧ t.carousel.cursor = c.cursor ∧ t.carousel.pass = c.pass
        ∧ t.carousel.fresh = s.carousel.fresh ∧ t.carousel.urgent = s.carousel.urgent
        ∧ s.KeptByRead t ∧ t.notice = s.notice ∧ t.counters = s.counters
        ∧ (∀ g, s.Offered (v.slot n) g s.carousel.pass →
            t.port = s.portReleased
            ∧ t.carousel.urgentComposed = s.carousel.urgentComposed
            ∧ t.carousel.freshComposed = s.carousel.freshComposed
            ∧ ((v.slot n).state ≠ .revoking → (∀ why, ¬ s.Converts g why) →
              t.slot n = v.slot n
              ∧ s.Composed t (.grant g.decoder g.event (s.event g.event).service g.kind)
                  (.grant n g.decoder g.event))
            ∧ (∀ why, (v.slot n).state ≠ .revoking → s.Converts g why →
              t.slot n = { v.slot n with state := .revoking, emissions := 0, reason := some why }
              ∧ s.Composed t (.revoke g.decoder g.event (s.event g.event).service (some why))
                  (.revoke n g.decoder g.event))
            ∧ ((v.slot n).state = .revoking →
              t.slot n = v.slot n
              ∧ s.Composed t (.revoke g.decoder g.event (s.event g.event).service (v.slot n).reason)
                  (.revoke n g.decoder g.event)))
        ∧ ((∀ g, ¬ s.Offered (v.slot n) g s.carousel.pass) →
            t.slot n = v.slot n ∧ s.GoesOn t c (.refresh reads)))

/-- FRESH_DEQUEUE of a slot that passes its check (R86, R91): the entry leaves the head and the slot's mark becomes
NONE. A PENDING slot whose event is ON-SALE or keyed is composed into a GRANT message, or converted: written
REVOKING with emissions 0 and composed into a REVOKE message; either counts in the fresh share. Any other entry is
dropped, and the attempt goes on with the same step while its condition of R81 holds, then with the next. -/
def Obligations.FreshDequeueSendsGrant : Prop :=
  ∀ (s v : State) (a : Attempt) (n : Nat) (rest u : List Nat), s.Reads v a n u →
    (a = .freshShare ∨ a = .freshRest) → s.carousel.fresh = n :: rest →
    (v.cell n).checkGood = true →
    ∃ t : State, exec (.freshDequeue u) s = .next t
      ∧ (∀ m, m ≠ n → t.cell m = v.cell m)
      ∧ t.carousel.fresh = rest ∧ t.carousel.urgent = s.carousel.urgent
      ∧ t.carousel.cursor = s.carousel.cursor ∧ t.carousel.pass = s.carousel.pass
      ∧ s.KeptByRead t ∧ t.notice = s.notice ∧ t.counters = s.counters
      ∧ (∀ g, (v.slot n).state = .pending → (v.slot n).grant = some g →
          (s.event g.event).state.selling = true →
          t.carousel.freshComposed = s.carousel.freshComposed + 1 ∧ t.port = s.portReleased
          ∧ ((∀ why, ¬ s.Converts g why) →
              t.slot n = { v.slot n with mark := .none }
              ∧ s.Composed t (.grant g.decoder g.event (s.event g.event).service g.kind)
                  (.grant n g.decoder g.event))
          ∧ (∀ why, s.Converts g why →
              t.slot n =
                { v.slot n with state := .revoking, emissions := 0, reason := some why, mark := .none }
              ∧ s.Composed t (.revoke g.decoder g.event (s.event g.event).service (some why))
                  (.revoke n g.decoder g.event)))
      ∧ (((v.slot n).state ≠ .pending ∨ (v.slot n).grant = none
          ∨ ∃ g, (v.slot n).grant = some g ∧ (s.event g.event).state.selling = false) →
          t.slot n = { v.slot n with mark := .none }
          ∧ s.GoesOn t { s.carousel with fresh := rest } a)

/-- GRANT_COMPLETION_UPDATE (R97): a slot that still holds the pair PENDING, ANNOUNCED or HELD has its emissions
counted, holding at 255; PENDING becomes ANNOUNCED, and ANNOUNCED becomes HELD at the confirm count. Any other slot
is left. No count of the event changes. -/
def Obligations.GrantCompletionBooksEmission : Prop :=
  ∀ (s v : State) (t : Tag) (rest : List Tag) (n d e : Nat) (u : List Nat), s.Updates v t rest n u →
    t.content = .grant n d e →
    ∃ z : State, exec (.grantCompletionUpdate u) s = .next z
      ∧ s.KeptByUpdate z rest ∧ z.events = s.events ∧ (∀ m, m ≠ n → z.cell m = v.cell m)
      ∧ (∀ g c, (v.slot n).grant = some g → g.decoder = d → g.event = e →
          c = (if (v.slot n).emissions < 255 then (v.slot n).emissions + 1 else (v.slot n).emissions) →
          (((v.slot n).state = .pending ∨ (v.slot n).state = .announced) →
            z.slot n =
              { v.slot n with
                emissions := c
                state := if s.settings.record.confirmCount ≤ c then .held else .announced })
          ∧ ((v.slot n).state = .held → z.slot n = { v.slot n with emissions := c }))
      ∧ (((v.slot n).state ≠ .pending ∧ (v.slot n).state ≠ .announced ∧ (v.slot n).state ≠ .held) →
          z.slot n = v.slot n)
      ∧ ((∀ g, (v.slot n).grant = some g → ¬ (g.decoder = d ∧ g.event = e)) → z.slot n = v.slot n)

/-- REVOKE_COMPLETION_UPDATE (R98, R12, R13): a slot that still holds the pair REVOKING has its emissions counted;
at the revoke count it is VACANT, live is one less and revoked one more, and a CANCELLED event whose cancel sweep
has completed becomes RETIRED when live comes to 0. Any other slot is left. -/
def Obligations.RevokeCompletionVacatesAtCount : Prop :=
  ∀ (s v : State) (t : Tag) (rest : List Tag) (n d e : Nat) (u : List Nat), s.Updates v t rest n u →
    t.content = .revoke n d e → e < s.events.length → 1 ≤ (s.event e).counts.live →
    (s.event e).state ≠ .empty →
    ∃ z : State, exec (.revokeCompletionUpdate u) s = .next z
      ∧ s.KeptByUpdate z rest ∧ (∀ m, m ≠ n → z.cell m = v.cell m)
      ∧ (∀ m, m ≠ e → z.event m = s.event m)
      ∧ (∀ g c counts, (v.slot n).grant = some g → g.decoder = d → g.event = e →
          (v.slot n).state = .revoking →
          c = (if (v.slot n).emissions < 255 then (v.slot n).emissions + 1 else (v.slot n).emissions) →
          counts = { (s.event e).counts with
            live := (s.event e).counts.live - 1, revoked := (s.event e).counts.revoked + 1 } →
          (c < s.settings.record.revokeCount →
            z.slot n = { v.slot n with emissions := c } ∧ z.events = s.events)
          ∧ (s.settings.record.revokeCount ≤ c →
            z.slot n = { v.slot n with state := .vacant, emissions := 0, reason := none }
            ∧ ((s.event e).state = .cancelled → s.CancelSwept e → (s.event e).counts.live = 1 →
                z.event e =
                  { s.event e with
                    state := .retired, counts := counts, causes := (s.event e).causes ||| 1#4
                    repeatsOwed := s.settings.record.stateRepeat })
            ∧ (((s.event e).state ≠ .cancelled ∨ ¬ s.CancelSwept e ∨ 1 < (s.event e).counts.live) →
                z.event e = { s.event e with counts := counts })))
      ∧ (((v.slot n).state ≠ .revoking
          ∨ ∀ g, (v.slot n).grant = some g → ¬ (g.decoder = d ∧ g.event = e)) →
          z.slot n = v.slot n ∧ z.events = s.events)

/-! ## Sweeps -/

/-- SWEEP_VISIT within a lap (R60 to R65): the cursor moves to its successor, one more slot is visited, one more
changed when the visit reached the slot. A CANCEL visit revokes every PENDING, ANNOUNCED and HELD slot of the event;
a BLACKOUT visit those that are PURCHASED in a region of the ranges; a RETIRE visit vacates every live slot of the
event and counts it retired. Every other slot is left, and the next visit claims the port. The visit acts under the
kind and ranges it was granted with; when a conversion or restart has begun a new lap since (R67, R68), that lap
begins at this slot, which it is still to visit, so the cursor and the slots visited stay: log 13's DEDUCED choice,
the model's, for the manual does not say in which lap that visit counts. -/
def Obligations.SweepVisitActsByKind : Prop :=
  ∀ (s v : State) (w : Sweep) (k : SweepKind) (ranges : List Range) (o : Bool) (u : List Nat),
    s.Visits v w k ranges o u → s.sweep.wipePending = false →
    (o = true ∨ s.successor w.cursor ≠ w.start) →
    ∃ t : State, exec (.sweepVisit u) s = .next t
      ∧ s.KeptByVisit t ∧ (∀ m, m ≠ w.cursor → t.cell m = v.cell m)
      ∧ (∀ m, m ≠ w.event → t.event m = s.event m)
      ∧ t.carousel.fresh = s.carousel.fresh ∧ t.carousel.cursor = s.carousel.cursor
      ∧ (s.port.sweep = false →
          t.port = State.portReleased { t with port := { s.port with sweep := true } })
      ∧ (∀ g, (v.slot w.cursor).Reached w.event g k ranges →
          t.sweep.engine =
            .sweeping { w with
              cursor := if o then w.cursor else s.successor w.cursor
              visited := if o then w.visited else w.visited + 1
              changed := w.changed + 1 }
          ∧ (k = .cancel → s.VisitRevokes v t w.cursor g .cancelled)
          ∧ (k = .blackout → s.VisitRevokes v t w.cursor g .blackout)
          ∧ (k = .retire → 1 ≤ (s.event w.event).counts.live → w.event < s.events.length →
            (s.event w.event).state ≠ .empty →
            t.slot w.cursor = { v.slot w.cursor with state := .vacant, emissions := 0, reason := none }
            ∧ t.carousel = s.carousel ∧ t.notice = s.notice ∧ t.counters = s.counters
            ∧ t.event w.event =
              { s.event w.event with
                counts := { (s.event w.event).counts with
                  live := (s.event w.event).counts.live - 1
                  retired := (s.event w.event).counts.retired + 1 } }))
      ∧ ((∀ g, ¬ (v.slot w.cursor).Reached w.event g k ranges) →
          t.sweep.engine =
            .sweeping { w with
              cursor := if o then w.cursor else s.successor w.cursor
              visited := if o then w.visited else w.visited + 1 }
          ∧ t.store = v.store ∧ t.events = s.events ∧ t.carousel = s.carousel
          ∧ t.notice = s.notice ∧ t.counters = s.counters)

/-- The visit that brings the cursor back to the start point completes the sweep (R60, R70), whatever its slot holds
and whatever it did there: after the visit's own act, as within a lap, the event has the record that the completion
leaves, the engine is IDLE with last served kept, it chooses anew at once, and the port is granted to the claims
that wait. An IDLE engine that chooses takes the first marked event after last served, counting modulo 32 (R58,
R59). The marks of an event reach the engine (R22, R23, R25, R58, R67, R68, R69): the CANCEL mark of EVENT-CANCEL,
the BLACKOUT mark of BLACKOUT-ADD, and the RETIRE mark of the close step, of an EVENT-HOLD that closes the event,
and of an EVENT-CLEAR that gives up a CANCELLED one. That the visit a conversion overtakes stays outside the new lap
is log 13's DEDUCED choice. -/
def Obligations.SweepsCompleteAndAreChosen : Prop :=
  (∀ (s v : State) (w : Sweep) (u : List Nat) (k : SweepKind) (ranges : List Range),
      s.Visits v w k ranges false u → s.sweep.wipePending = false → s.successor w.cursor = w.start →
      w.event < 32 → s.events.length = 32 →
      ∃ a d t : State, exec (.sweepVisit u) s = .next { t with port := t.portReleased }
        ∧ (∀ g, (v.slot w.cursor).Reached w.event g k ranges →
            a = v.visitAct w.cursor g k
            ∧ (k = .cancel → s.VisitRevokes v a w.cursor g .cancelled)
            ∧ (k = .blackout → s.VisitRevokes v a w.cursor g .blackout)
            ∧ (k = .retire → 1 ≤ (s.event w.event).counts.live → (s.event w.event).state ≠ .empty →
              a.slot w.cursor = { v.slot w.cursor with state := .vacant, emissions := 0, reason := none }
              ∧ (a.event w.event).counts =
                { (s.event w.event).counts with
                  live := (s.event w.event).counts.live - 1
                  retired := (s.event w.event).counts.retired + 1 }))
        ∧ ((∀ g, ¬ (v.slot w.cursor).Reached w.event g k ranges) → a = v)
        ∧ (∀ m, m ≠ w.cursor → a.cell m = v.cell m) ∧ (∀ m, m ≠ w.event → a.event m = s.event m)
        ∧ d = { a with
            events := a.events.set w.event (a.sweepEnded w)
            sweep := { s.sweep with engine := .idle } }
        ∧ d.Chose t)
  ∧ (∀ s : State, s.events.length = 32 → s.Chose s.chooseSweep)
  ∧ (∀ (s : State) (n : Nat), s.events.length = 32 → n ≤ 31 → (s.night = .setup ∨ s.night = .opened) →
      (s.event n).marks.cancel = false → (s.event n).marks.retire = false →
      (∀ h, s.holding h (.eventCancel n) → (s.event n).state.admitting = true →
        ∃ t : State, exec .eventCancel s = .next (t.replied h .ok []) ∧ s.SweepAsked t n .cancel)
      ∧ (∀ h lo hi, s.holding h (.blackoutAdd n lo hi) → lo ≤ hi → hi ≤ 255 →
        (s.event n).state.selling = true → (s.event n).blackout.length < 8 →
        ∃ t : State, exec .blackoutAdd s = .next (t.replied h .ok []) ∧ s.SweepAsked t n .blackout)
      ∧ (∀ (w : Window), (s.event n).window = some w →
          effectiveCloseOf w.scheduledClose (s.event n).hold ≤ s.clock.clock →
          ((s.event n).state = .live ∨ (s.event n).state = .overtime
            ∨ ((s.event n).state = .preview ∧ s.clock.clock < w.liveStart)
            ∨ ((s.event n).state = .onSale
                ∧ (s.clock.clock < w.entryDeadline ∨ (¬ s.Ready n ∧ (s.event n).keys.keyLate = true)))) →
          s.SweepAsked (s.deadlineSteps n) n .retire)
      ∧ (∀ h (f : HoldFields) (w : Window), s.holding h (.eventHold f) → f.event = n → f.flags = 1#8 →
        f.kind = 1 → (s.event n).state.selling = true → (s.event n).window = some w →
        f.time ≤ s.clock.clock → f.time ≤ 16777215 → f.time ≤ w.liveStart + 86400 →
        ∃ t : State, exec .eventHold s = .next (t.replied h .ok []) ∧ s.SweepAsked t n .retire)
      ∧ (∀ h, s.holding h (.eventClear n) → (s.event n).state = .cancelled → s.CancelSwept n →
        (s.event n).marks.blackout = false →
        ∃ t : State, exec .eventClear s = .next (t.replied h .ok []) ∧ s.SweepAsked t n .retire))

/-- WIPE_START takes the free port for the WIPE a night close asked for (R72). WIPE_WRITE makes the slot at the
cursor EMPTY with a correct check byte whatever it held, and moves on, the next write claiming the port behind the
claims that wait; the write of the last slot ends the WIPE: WIPE-DONE, the engine IDLE, the unit in SETUP, the port
granted to the claims that wait or IDLE (R43, R73, R74). No other slot changes. -/
def Obligations.WipeEmptiesStore : Prop :=
  (∀ s : State, s.sweep.wipePending = true → s.port.state = .idle → s.port.completions = [] →
      s.port.composition = false → s.port.request = false →
      ∃ t : State, exec .wipeStart s = .next t ∧ t.Wiping ∧ t.night = s.night ∧ t.clock = s.clock
        ∧ t.settings = s.settings ∧ t.store.memory = s.store.memory ∧ t.scrambler = s.scrambler
        ∧ t.bus = s.bus ∧ t.arbiter = s.arbiter ∧ t.link = s.link ∧ t.notice = s.notice
        ∧ t.counters = s.counters ∧ t.carousel.run = s.carousel.run)
  ∧ (∀ (s : State) (c : Nat), s.port.state = .wipeWrite → s.sweep.engine = .wiping c → c < s.slotCount →
      s.storeOk →
      ∃ t : State, exec .wipeWrite s = .next t
        ∧ t.cell c =
          { slot := { state := .empty, grant := none, emissions := 0, reason := none, mark := .none }
            checkGood := true }
        ∧ (∀ m, m ≠ c → t.cell m = s.cell m)
        ∧ t.events = s.events ∧ t.carousel = s.carousel ∧ t.counters = s.counters ∧ t.clock = s.clock
        ∧ t.settings = s.settings ∧ t.scrambler = s.scrambler ∧ t.bus = s.bus ∧ t.link = s.link
        ∧ t.arbiter = s.arbiter ∧ t.store.drawn = s.store.drawn ∧ t.store.damaged = s.store.damaged
        ∧ (c + 1 < s.slotCount →
            t.sweep = { s.sweep with engine := .wiping (c + 1) } ∧ t.night = s.night
            ∧ t.notice = s.notice
            ∧ (s.port.sweep = false →
                t.port = State.portReleased { t with port := { s.port with sweep := true } }))
        ∧ (c + 1 = s.slotCount →
            t.sweep = { s.sweep with engine := .idle } ∧ t.night = .setup
            ∧ t.notice = { s.notice with causes := s.notice.causes ||| 0x200#10 }
            ∧ t.port = State.portReleased { t with port := s.port }))

/-! ## The scrambler port -/

/-- SCRAMBLER_READY follows the level and changes nothing else. SCRAMBLER_ACCEPT takes the head record exactly while
one is presented and counts it by its kind; of a record whose event waits for no key nothing more changes (R118,
R119). The acceptance that frees a held epoch takes its advance at that moment (R112, R119): the event's next key
becomes current and its SWITCH record joins the queue behind the others. The record that leaves the head is counted,
and the conditions of its event are checked again in the state it leaves: a held epoch, in PREVIEW, LIVE or
OVERTIME, advances; an event in key wait enters PREVIEW or LIVE, with KEY-LOW when no key follows and the close and
overtime steps taken at once (R7, R8, R112, R113, R114, R119). How the end of an event treats a visit under way and
a CLEAR record that still waits rests on logs 13 and 31, the model's DEDUCED readings. -/
def Obligations.ScramblerTakesHeadRecord : Prop :=
  ((∀ (level : Bool) (s : State),
      exec (.scramblerReady level) s = .next { s with scrambler := { s.scrambler with ready := level } })
    ∧ (∀ s : State, (s.scrambler.ready = false ∨ s.scrambler.queue = []) →
      exec .scramblerAccept s = .next s)
    ∧ (∀ (s : State) (r : ScramblerRecord) (rest : List ScramblerRecord), s.scrambler.ready = true →
      s.scrambler.queue = r :: rest → (s.event r.event).keys.keyLate = false →
      exec .scramblerAccept s =
        .next { s with
          scrambler := { s.scrambler with queue := rest }
          counters :=
            match r.payload with
            | .switch _ _ _ => { s.counters with switchesAccepted := bump s.counters.switchesAccepted }
            | .clear _ => { s.counters with clearsAccepted := bump s.counters.clearsAccepted } }))
  ∧ (∀ (s : State) (r : ScramblerRecord) (rest : List ScramblerRecord) (w : Window) (key : Key),
      s.scrambler.ready = true → s.scrambler.queue = r :: rest → r.event < s.events.length →
      (∀ q ∈ rest, q.event ≠ r.event) → (s.event r.event).state = .live →
      (s.event r.event).window = some w → (s.event r.event).keys.keyLate = true →
      (s.event r.event).keys.next = some key →
      s.settings.record.announceMinimum ≤ (s.event r.event).keys.announceCount →
      ∃ t : State, exec .scramblerAccept s = .next t
        ∧ (t.event r.event).keys = s.AdvancedKeys r.event
        ∧ (t.event r.event).state = .live
        ∧ t.scrambler.queue = rest
            ++ [{ event := r.event,
                  payload := .switch w.service ((s.event r.event).keys.epoch + 1) key }]
        ∧ (∀ m, m ≠ r.event → t.event m = s.event m)
        ∧ t.store = s.store ∧ t.carousel = s.carousel ∧ t.bus = s.bus ∧ t.clock = s.clock
        ∧ t.notice = s.notice ∧ t.link = s.link ∧ t.settings = s.settings)
  ∧ (∀ (s a : State) (r : ScramblerRecord) (rest : List ScramblerRecord), s.scrambler.ready = true →
      s.scrambler.queue = r :: rest → r.event < s.events.length →
      a = { s with
        scrambler := { s.scrambler with queue := rest }
        counters :=
          match r.payload with
          | .switch _ _ _ => { s.counters with switchesAccepted := bump s.counters.switchesAccepted }
          | .clear _ => { s.counters with clearsAccepted := bump s.counters.clearsAccepted } } →
      ∃ t : State, exec .scramblerAccept s = .next t ∧ a.Rechecks t r.event)

/-! ## Laws that every step keeps -/

/-- Every step keeps the slot memory in canonical form, whatever command it takes. That form, a list of rising slot
numbers without the entries that an unlisted slot reads as, is the model's own way to hold the SRAM (log 9, DESIGN
CHOICE); the manual gives slots, not a form of them. -/
def Obligations.StepsKeepStoreCanonical : Prop :=
  ∀ s t : State, s.storeOk → step s = .next t → t.storeOk

/-- Every step keeps, in every event record, admitted equal to live plus revoked plus retired plus lost (R14). -/
def Obligations.StepsKeepCountsBalanced : Prop :=
  ∀ s t : State, s.countsOk → step s = .next t → t.countsOk

/-- Every step keeps the clock, the carousel and the bus in step with the night state: STOPPED, STOPPED and OFF
exactly while the unit is not OPEN, with a WIPE only in STARTING and CLOSING (R77, R122, R138, R148). Every step
keeps the clock within the night seconds (R137, R142). -/
def Obligations.StepsKeepNightAndClock : Prop :=
  (∀ s t : State, s.nightOk → step s = .next t → t.nightOk)
  ∧ (∀ s t : State, s.clockOk → step s = .next t → t.clockOk)

/-- Every step keeps the scrambler queue at no more than one record of any event number, hence at 32 records (R117).
-/
def Obligations.StepsKeepOneRecordPerEvent : Prop :=
  (∀ s t : State, s.scramblerOk → step s = .next t → t.scramblerOk)
  ∧ ∀ s : State, s.scramblerOk → s.scrambler.queue.length ≤ 32

/-- Every step keeps the fresh queue at no more than 1,024 entries and the urgent queue at no more than 256 (R40,
R83), the failure run at no more than 4 with LOCKED exactly at 4 (R163, R164), and the record in force valid (R176).
-/
def Obligations.StepsKeepBounds : Prop :=
  ∀ s t : State, s.queuesOk → s.linkOk → s.configOk → step s = .next t →
    t.queuesOk ∧ t.linkOk ∧ t.configOk

/-- Every step keeps the relations of R103 between an event's key fields and its state, with each mark only in the
state it belongs to and the event of a running sweep in the state of its kind without a mark (R10, R15, R59, R69).
-/
def Obligations.StepsKeepKeyRelations : Prop :=
  ∀ s t : State, s.eventsOk → step s = .next t → t.eventsOk

/-- Every step keeps the queue-mark law of R40 and the law of R31 that a pair has at most one live slot: between
WIPEs they hold; while a WIPE runs its written slots are blank, the queues are empty and it alone uses the port
(R72, R73). -/
def Obligations.StepsKeepQueueMarks : Prop :=
  ∀ s t : State, s.storeOk → s.nightOk → s.slotsOk → step s = .next t → t.slotsOk

/-- Every law that steps keep holds right after reset. Right after reset the unit stands as the reset values of its
blocks say, with the straps, lines and EEPROM of log 11: the default record, an empty store and the WIPE of start-up
begun. -/
def Obligations.ResetStateKeepsLaws : Prop :=
  (State.reset.storeOk ∧ State.reset.countsOk ∧ State.reset.nightOk ∧ State.reset.clockOk
      ∧ State.reset.scramblerOk ∧ State.reset.queuesOk ∧ State.reset.linkOk ∧ State.reset.configOk
      ∧ State.reset.eventsOk ∧ State.reset.slotsOk)
  ∧ (State.reset.AfterReset State.reset.straps ∧ State.reset.Wiping
      ∧ State.reset.settings.record =
        { bankA := 16384, bankB := 0, cycleLength := 512, urgentShare := 64, freshShare := 256,
          confirmCount := 3, revokeCount := 4, heldInterval := 8, stateRepeat := 16,
          announceMinimum := 8, shortEpoch := 10, longEpoch := 60,
          pairs := { pair1 := false, pair2 := false, pair3 := false } }
      ∧ State.reset.settings.lastLoad = .notLoaded ∧ State.reset.timer = { now := 0, cycleTickAt := 0 }
      ∧ State.reset.store.memory = [] ∧ State.reset.pending = [])
end

