-- ==== Sys2Proof/Laws/State.lean ====
section
/-! SUPPORT. What each update of the state leaves and sets, one lemma per field per update, so that no proof need
unfold a record update. -/

namespace Sys2Proof.Machine

variable (s : State)

/-! ### setEvent -/

@[simp] theorem State.setEvent_night (n : Nat) (r : EventRecord) : (s.setEvent n r).night = s.night := rfl
@[simp] theorem State.setEvent_straps (n : Nat) (r : EventRecord) : (s.setEvent n r).straps = s.straps := rfl
@[simp] theorem State.setEvent_timer (n : Nat) (r : EventRecord) : (s.setEvent n r).timer = s.timer := rfl
@[simp] theorem State.setEvent_clock (n : Nat) (r : EventRecord) : (s.setEvent n r).clock = s.clock := rfl
@[simp] theorem State.setEvent_settings (n : Nat) (r : EventRecord) :
    (s.setEvent n r).settings =
      s.settings := rfl
@[simp] theorem State.setEvent_events (n : Nat) (r : EventRecord) :
    (s.setEvent n r).events =
      s.events.set n r := rfl
@[simp] theorem State.setEvent_selection (n : Nat) (r : EventRecord) :
    (s.setEvent n r).selection =
      s.selection := rfl
@[simp] theorem State.setEvent_scrambler (n : Nat) (r : EventRecord) :
    (s.setEvent n r).scrambler =
      s.scrambler := rfl
@[simp] theorem State.setEvent_store (n : Nat) (r : EventRecord) : (s.setEvent n r).store = s.store := rfl
@[simp] theorem State.setEvent_port (n : Nat) (r : EventRecord) : (s.setEvent n r).port = s.port := rfl
@[simp] theorem State.setEvent_sweep (n : Nat) (r : EventRecord) : (s.setEvent n r).sweep = s.sweep := rfl
@[simp] theorem State.setEvent_carousel (n : Nat) (r : EventRecord) :
    (s.setEvent n r).carousel =
      s.carousel := rfl
@[simp] theorem State.setEvent_bus (n : Nat) (r : EventRecord) : (s.setEvent n r).bus = s.bus := rfl
@[simp] theorem State.setEvent_arbiter (n : Nat) (r : EventRecord) :
    (s.setEvent n r).arbiter =
      s.arbiter := rfl
@[simp] theorem State.setEvent_link (n : Nat) (r : EventRecord) : (s.setEvent n r).link = s.link := rfl
@[simp] theorem State.setEvent_notice (n : Nat) (r : EventRecord) : (s.setEvent n r).notice = s.notice := rfl
@[simp] theorem State.setEvent_counters (n : Nat) (r : EventRecord) :
    (s.setEvent n r).counters =
      s.counters := rfl
@[simp] theorem State.setEvent_pending (n : Nat) (r : EventRecord) :
    (s.setEvent n r).pending =
      s.pending := rfl

/-! ### setHolder -/

@[simp] theorem State.setHolder_night (h : Holder) : (s.setHolder h).night = s.night := rfl
@[simp] theorem State.setHolder_straps (h : Holder) : (s.setHolder h).straps = s.straps := rfl
@[simp] theorem State.setHolder_timer (h : Holder) : (s.setHolder h).timer = s.timer := rfl
@[simp] theorem State.setHolder_clock (h : Holder) : (s.setHolder h).clock = s.clock := rfl
@[simp] theorem State.setHolder_settings (h : Holder) : (s.setHolder h).settings = s.settings := rfl
@[simp] theorem State.setHolder_events (h : Holder) : (s.setHolder h).events = s.events := rfl
@[simp] theorem State.setHolder_selection (h : Holder) : (s.setHolder h).selection = s.selection := rfl
@[simp] theorem State.setHolder_scrambler (h : Holder) : (s.setHolder h).scrambler = s.scrambler := rfl
@[simp] theorem State.setHolder_store (h : Holder) : (s.setHolder h).store = s.store := rfl
@[simp] theorem State.setHolder_port (h : Holder) : (s.setHolder h).port = s.port := rfl
@[simp] theorem State.setHolder_sweep (h : Holder) : (s.setHolder h).sweep = s.sweep := rfl
@[simp] theorem State.setHolder_carousel (h : Holder) : (s.setHolder h).carousel = s.carousel := rfl
@[simp] theorem State.setHolder_bus (h : Holder) : (s.setHolder h).bus = s.bus := rfl
@[simp] theorem State.setHolder_arbiter (h : Holder) : (s.setHolder h).arbiter = s.arbiter := rfl
@[simp] theorem State.setHolder_link (h : Holder) : (s.setHolder h).link = { s.link with holder := h } := rfl
@[simp] theorem State.setHolder_notice (h : Holder) : (s.setHolder h).notice = s.notice := rfl
@[simp] theorem State.setHolder_counters (h : Holder) : (s.setHolder h).counters = s.counters := rfl
@[simp] theorem State.setHolder_pending (h : Holder) : (s.setHolder h).pending = s.pending := rfl

/-! ### setReceiver -/

@[simp] theorem State.setReceiver_night (r : Receiver) (run : Nat) :
    (s.setReceiver r run).night =
      s.night := rfl
@[simp] theorem State.setReceiver_straps (r : Receiver) (run : Nat) :
    (s.setReceiver r run).straps =
      s.straps := rfl
@[simp] theorem State.setReceiver_timer (r : Receiver) (run : Nat) :
    (s.setReceiver r run).timer =
      s.timer := rfl
@[simp] theorem State.setReceiver_clock (r : Receiver) (run : Nat) :
    (s.setReceiver r run).clock =
      s.clock := rfl
@[simp] theorem State.setReceiver_settings (r : Receiver) (run : Nat) :
    (s.setReceiver r run).settings =
      s.settings := rfl
@[simp] theorem State.setReceiver_events (r : Receiver) (run : Nat) :
    (s.setReceiver r run).events =
      s.events := rfl
@[simp] theorem State.setReceiver_selection (r : Receiver) (run : Nat) :
    (s.setReceiver r run).selection =
      s.selection := rfl
@[simp] theorem State.setReceiver_scrambler (r : Receiver) (run : Nat) :
    (s.setReceiver r run).scrambler =
      s.scrambler := rfl
@[simp] theorem State.setReceiver_store (r : Receiver) (run : Nat) :
    (s.setReceiver r run).store =
      s.store := rfl
@[simp] theorem State.setReceiver_port (r : Receiver) (run : Nat) : (s.setReceiver r run).port = s.port := rfl
@[simp] theorem State.setReceiver_sweep (r : Receiver) (run : Nat) :
    (s.setReceiver r run).sweep =
      s.sweep := rfl
@[simp] theorem State.setReceiver_carousel (r : Receiver) (run : Nat) :
    (s.setReceiver r run).carousel =
      s.carousel := rfl
@[simp] theorem State.setReceiver_bus (r : Receiver) (run : Nat) : (s.setReceiver r run).bus = s.bus := rfl
@[simp] theorem State.setReceiver_arbiter (r : Receiver) (run : Nat) :
    (s.setReceiver r run).arbiter =
      s.arbiter := rfl
@[simp] theorem State.setReceiver_link (r : Receiver) (run : Nat) :
    (s.setReceiver r run).link =
      { s.link with receiver := r, failureRun := run } := rfl
@[simp] theorem State.setReceiver_notice (r : Receiver) (run : Nat) :
    (s.setReceiver r run).notice =
      s.notice := rfl
@[simp] theorem State.setReceiver_counters (r : Receiver) (run : Nat) :
    (s.setReceiver r run).counters =
      s.counters := rfl
@[simp] theorem State.setReceiver_pending (r : Receiver) (run : Nat) :
    (s.setReceiver r run).pending =
      s.pending := rfl

/-! ### setPort -/

@[simp] theorem State.setPort_night (p : StorePort) : (s.setPort p).night = s.night := rfl
@[simp] theorem State.setPort_straps (p : StorePort) : (s.setPort p).straps = s.straps := rfl
@[simp] theorem State.setPort_timer (p : StorePort) : (s.setPort p).timer = s.timer := rfl
@[simp] theorem State.setPort_clock (p : StorePort) : (s.setPort p).clock = s.clock := rfl
@[simp] theorem State.setPort_settings (p : StorePort) : (s.setPort p).settings = s.settings := rfl
@[simp] theorem State.setPort_events (p : StorePort) : (s.setPort p).events = s.events := rfl
@[simp] theorem State.setPort_selection (p : StorePort) : (s.setPort p).selection = s.selection := rfl
@[simp] theorem State.setPort_scrambler (p : StorePort) : (s.setPort p).scrambler = s.scrambler := rfl
@[simp] theorem State.setPort_store (p : StorePort) : (s.setPort p).store = s.store := rfl
@[simp] theorem State.setPort_port (p : StorePort) : (s.setPort p).port = p := rfl
@[simp] theorem State.setPort_sweep (p : StorePort) : (s.setPort p).sweep = s.sweep := rfl
@[simp] theorem State.setPort_carousel (p : StorePort) : (s.setPort p).carousel = s.carousel := rfl
@[simp] theorem State.setPort_bus (p : StorePort) : (s.setPort p).bus = s.bus := rfl
@[simp] theorem State.setPort_arbiter (p : StorePort) : (s.setPort p).arbiter = s.arbiter := rfl
@[simp] theorem State.setPort_link (p : StorePort) : (s.setPort p).link = s.link := rfl
@[simp] theorem State.setPort_notice (p : StorePort) : (s.setPort p).notice = s.notice := rfl
@[simp] theorem State.setPort_counters (p : StorePort) : (s.setPort p).counters = s.counters := rfl
@[simp] theorem State.setPort_pending (p : StorePort) : (s.setPort p).pending = s.pending := rfl

/-! ### setCarousel -/

@[simp] theorem State.setCarousel_night (c : Carousel) : (s.setCarousel c).night = s.night := rfl
@[simp] theorem State.setCarousel_straps (c : Carousel) : (s.setCarousel c).straps = s.straps := rfl
@[simp] theorem State.setCarousel_timer (c : Carousel) : (s.setCarousel c).timer = s.timer := rfl
@[simp] theorem State.setCarousel_clock (c : Carousel) : (s.setCarousel c).clock = s.clock := rfl
@[simp] theorem State.setCarousel_settings (c : Carousel) : (s.setCarousel c).settings = s.settings := rfl
@[simp] theorem State.setCarousel_events (c : Carousel) : (s.setCarousel c).events = s.events := rfl
@[simp] theorem State.setCarousel_selection (c : Carousel) : (s.setCarousel c).selection = s.selection := rfl
@[simp] theorem State.setCarousel_scrambler (c : Carousel) : (s.setCarousel c).scrambler = s.scrambler := rfl
@[simp] theorem State.setCarousel_store (c : Carousel) : (s.setCarousel c).store = s.store := rfl
@[simp] theorem State.setCarousel_port (c : Carousel) : (s.setCarousel c).port = s.port := rfl
@[simp] theorem State.setCarousel_sweep (c : Carousel) : (s.setCarousel c).sweep = s.sweep := rfl
@[simp] theorem State.setCarousel_carousel (c : Carousel) : (s.setCarousel c).carousel = c := rfl
@[simp] theorem State.setCarousel_bus (c : Carousel) : (s.setCarousel c).bus = s.bus := rfl
@[simp] theorem State.setCarousel_arbiter (c : Carousel) : (s.setCarousel c).arbiter = s.arbiter := rfl
@[simp] theorem State.setCarousel_link (c : Carousel) : (s.setCarousel c).link = s.link := rfl
@[simp] theorem State.setCarousel_notice (c : Carousel) : (s.setCarousel c).notice = s.notice := rfl
@[simp] theorem State.setCarousel_counters (c : Carousel) : (s.setCarousel c).counters = s.counters := rfl
@[simp] theorem State.setCarousel_pending (c : Carousel) : (s.setCarousel c).pending = s.pending := rfl

/-! ### setFresh -/

@[simp] theorem State.setFresh_night (q : List Nat) : (s.setFresh q).night = s.night := rfl
@[simp] theorem State.setFresh_straps (q : List Nat) : (s.setFresh q).straps = s.straps := rfl
@[simp] theorem State.setFresh_timer (q : List Nat) : (s.setFresh q).timer = s.timer := rfl
@[simp] theorem State.setFresh_clock (q : List Nat) : (s.setFresh q).clock = s.clock := rfl
@[simp] theorem State.setFresh_settings (q : List Nat) : (s.setFresh q).settings = s.settings := rfl
@[simp] theorem State.setFresh_events (q : List Nat) : (s.setFresh q).events = s.events := rfl
@[simp] theorem State.setFresh_selection (q : List Nat) : (s.setFresh q).selection = s.selection := rfl
@[simp] theorem State.setFresh_scrambler (q : List Nat) : (s.setFresh q).scrambler = s.scrambler := rfl
@[simp] theorem State.setFresh_store (q : List Nat) : (s.setFresh q).store = s.store := rfl
@[simp] theorem State.setFresh_port (q : List Nat) : (s.setFresh q).port = s.port := rfl
@[simp] theorem State.setFresh_sweep (q : List Nat) : (s.setFresh q).sweep = s.sweep := rfl
@[simp] theorem State.setFresh_carousel (q : List Nat) :
    (s.setFresh q).carousel =
      { s.carousel with fresh := q } := rfl
@[simp] theorem State.setFresh_bus (q : List Nat) : (s.setFresh q).bus = s.bus := rfl
@[simp] theorem State.setFresh_arbiter (q : List Nat) : (s.setFresh q).arbiter = s.arbiter := rfl
@[simp] theorem State.setFresh_link (q : List Nat) : (s.setFresh q).link = s.link := rfl
@[simp] theorem State.setFresh_notice (q : List Nat) : (s.setFresh q).notice = s.notice := rfl
@[simp] theorem State.setFresh_counters (q : List Nat) : (s.setFresh q).counters = s.counters := rfl
@[simp] theorem State.setFresh_pending (q : List Nat) : (s.setFresh q).pending = s.pending := rfl

/-! ### setUrgent -/

@[simp] theorem State.setUrgent_night (q : List Nat) : (s.setUrgent q).night = s.night := rfl
@[simp] theorem State.setUrgent_straps (q : List Nat) : (s.setUrgent q).straps = s.straps := rfl
@[simp] theorem State.setUrgent_timer (q : List Nat) : (s.setUrgent q).timer = s.timer := rfl
@[simp] theorem State.setUrgent_clock (q : List Nat) : (s.setUrgent q).clock = s.clock := rfl
@[simp] theorem State.setUrgent_settings (q : List Nat) : (s.setUrgent q).settings = s.settings := rfl
@[simp] theorem State.setUrgent_events (q : List Nat) : (s.setUrgent q).events = s.events := rfl
@[simp] theorem State.setUrgent_selection (q : List Nat) : (s.setUrgent q).selection = s.selection := rfl
@[simp] theorem State.setUrgent_scrambler (q : List Nat) : (s.setUrgent q).scrambler = s.scrambler := rfl
@[simp] theorem State.setUrgent_store (q : List Nat) : (s.setUrgent q).store = s.store := rfl
@[simp] theorem State.setUrgent_port (q : List Nat) : (s.setUrgent q).port = s.port := rfl
@[simp] theorem State.setUrgent_sweep (q : List Nat) : (s.setUrgent q).sweep = s.sweep := rfl
@[simp] theorem State.setUrgent_carousel (q : List Nat) :
    (s.setUrgent q).carousel =
      { s.carousel with urgent := q } := rfl
@[simp] theorem State.setUrgent_bus (q : List Nat) : (s.setUrgent q).bus = s.bus := rfl
@[simp] theorem State.setUrgent_arbiter (q : List Nat) : (s.setUrgent q).arbiter = s.arbiter := rfl
@[simp] theorem State.setUrgent_link (q : List Nat) : (s.setUrgent q).link = s.link := rfl
@[simp] theorem State.setUrgent_notice (q : List Nat) : (s.setUrgent q).notice = s.notice := rfl
@[simp] theorem State.setUrgent_counters (q : List Nat) : (s.setUrgent q).counters = s.counters := rfl
@[simp] theorem State.setUrgent_pending (q : List Nat) : (s.setUrgent q).pending = s.pending := rfl

/-! ### setOwed -/

@[simp] theorem State.setOwed_night (q : List OwedEntry) : (s.setOwed q).night = s.night := rfl
@[simp] theorem State.setOwed_straps (q : List OwedEntry) : (s.setOwed q).straps = s.straps := rfl
@[simp] theorem State.setOwed_timer (q : List OwedEntry) : (s.setOwed q).timer = s.timer := rfl
@[simp] theorem State.setOwed_clock (q : List OwedEntry) : (s.setOwed q).clock = s.clock := rfl
@[simp] theorem State.setOwed_settings (q : List OwedEntry) : (s.setOwed q).settings = s.settings := rfl
@[simp] theorem State.setOwed_events (q : List OwedEntry) : (s.setOwed q).events = s.events := rfl
@[simp] theorem State.setOwed_selection (q : List OwedEntry) : (s.setOwed q).selection = s.selection := rfl
@[simp] theorem State.setOwed_scrambler (q : List OwedEntry) : (s.setOwed q).scrambler = s.scrambler := rfl
@[simp] theorem State.setOwed_store (q : List OwedEntry) : (s.setOwed q).store = s.store := rfl
@[simp] theorem State.setOwed_port (q : List OwedEntry) : (s.setOwed q).port = s.port := rfl
@[simp] theorem State.setOwed_sweep (q : List OwedEntry) : (s.setOwed q).sweep = s.sweep := rfl
@[simp] theorem State.setOwed_carousel (q : List OwedEntry) :
    (s.setOwed q).carousel =
      { s.carousel with owed := q } := rfl
@[simp] theorem State.setOwed_bus (q : List OwedEntry) : (s.setOwed q).bus = s.bus := rfl
@[simp] theorem State.setOwed_arbiter (q : List OwedEntry) : (s.setOwed q).arbiter = s.arbiter := rfl
@[simp] theorem State.setOwed_link (q : List OwedEntry) : (s.setOwed q).link = s.link := rfl
@[simp] theorem State.setOwed_notice (q : List OwedEntry) : (s.setOwed q).notice = s.notice := rfl
@[simp] theorem State.setOwed_counters (q : List OwedEntry) : (s.setOwed q).counters = s.counters := rfl
@[simp] theorem State.setOwed_pending (q : List OwedEntry) : (s.setOwed q).pending = s.pending := rfl

/-! ### setBus -/

@[simp] theorem State.setBus_night (b : BusInterface) : (s.setBus b).night = s.night := rfl
@[simp] theorem State.setBus_straps (b : BusInterface) : (s.setBus b).straps = s.straps := rfl
@[simp] theorem State.setBus_timer (b : BusInterface) : (s.setBus b).timer = s.timer := rfl
@[simp] theorem State.setBus_clock (b : BusInterface) : (s.setBus b).clock = s.clock := rfl
@[simp] theorem State.setBus_settings (b : BusInterface) : (s.setBus b).settings = s.settings := rfl
@[simp] theorem State.setBus_events (b : BusInterface) : (s.setBus b).events = s.events := rfl
@[simp] theorem State.setBus_selection (b : BusInterface) : (s.setBus b).selection = s.selection := rfl
@[simp] theorem State.setBus_scrambler (b : BusInterface) : (s.setBus b).scrambler = s.scrambler := rfl
@[simp] theorem State.setBus_store (b : BusInterface) : (s.setBus b).store = s.store := rfl
@[simp] theorem State.setBus_port (b : BusInterface) : (s.setBus b).port = s.port := rfl
@[simp] theorem State.setBus_sweep (b : BusInterface) : (s.setBus b).sweep = s.sweep := rfl
@[simp] theorem State.setBus_carousel (b : BusInterface) : (s.setBus b).carousel = s.carousel := rfl
@[simp] theorem State.setBus_bus (b : BusInterface) : (s.setBus b).bus = b := rfl
@[simp] theorem State.setBus_arbiter (b : BusInterface) : (s.setBus b).arbiter = s.arbiter := rfl
@[simp] theorem State.setBus_link (b : BusInterface) : (s.setBus b).link = s.link := rfl
@[simp] theorem State.setBus_notice (b : BusInterface) : (s.setBus b).notice = s.notice := rfl
@[simp] theorem State.setBus_counters (b : BusInterface) : (s.setBus b).counters = s.counters := rfl
@[simp] theorem State.setBus_pending (b : BusInterface) : (s.setBus b).pending = s.pending := rfl

/-! ### sampleLines -/

@[simp] theorem State.sampleLines_night (l : BusLines) : (s.sampleLines l).night = s.night := rfl
@[simp] theorem State.sampleLines_straps (l : BusLines) : (s.sampleLines l).straps = s.straps := rfl
@[simp] theorem State.sampleLines_timer (l : BusLines) : (s.sampleLines l).timer = s.timer := rfl
@[simp] theorem State.sampleLines_clock (l : BusLines) : (s.sampleLines l).clock = s.clock := rfl
@[simp] theorem State.sampleLines_settings (l : BusLines) : (s.sampleLines l).settings = s.settings := rfl
@[simp] theorem State.sampleLines_events (l : BusLines) : (s.sampleLines l).events = s.events := rfl
@[simp] theorem State.sampleLines_selection (l : BusLines) : (s.sampleLines l).selection = s.selection := rfl
@[simp] theorem State.sampleLines_scrambler (l : BusLines) : (s.sampleLines l).scrambler = s.scrambler := rfl
@[simp] theorem State.sampleLines_store (l : BusLines) : (s.sampleLines l).store = s.store := rfl
@[simp] theorem State.sampleLines_port (l : BusLines) : (s.sampleLines l).port = s.port := rfl
@[simp] theorem State.sampleLines_sweep (l : BusLines) : (s.sampleLines l).sweep = s.sweep := rfl
@[simp] theorem State.sampleLines_carousel (l : BusLines) : (s.sampleLines l).carousel = s.carousel := rfl
@[simp] theorem State.sampleLines_bus (l : BusLines) :
    (s.sampleLines l).bus =
      { s.bus with lines := l } := rfl
@[simp] theorem State.sampleLines_arbiter (l : BusLines) : (s.sampleLines l).arbiter = s.arbiter := rfl
@[simp] theorem State.sampleLines_link (l : BusLines) : (s.sampleLines l).link = s.link := rfl
@[simp] theorem State.sampleLines_notice (l : BusLines) : (s.sampleLines l).notice = s.notice := rfl
@[simp] theorem State.sampleLines_counters (l : BusLines) : (s.sampleLines l).counters = s.counters := rfl
@[simp] theorem State.sampleLines_pending (l : BusLines) : (s.sampleLines l).pending = s.pending := rfl

/-! ### setArbiter -/

@[simp] theorem State.setArbiter_night (a : Arbiter) : (s.setArbiter a).night = s.night := rfl
@[simp] theorem State.setArbiter_straps (a : Arbiter) : (s.setArbiter a).straps = s.straps := rfl
@[simp] theorem State.setArbiter_timer (a : Arbiter) : (s.setArbiter a).timer = s.timer := rfl
@[simp] theorem State.setArbiter_clock (a : Arbiter) : (s.setArbiter a).clock = s.clock := rfl
@[simp] theorem State.setArbiter_settings (a : Arbiter) : (s.setArbiter a).settings = s.settings := rfl
@[simp] theorem State.setArbiter_events (a : Arbiter) : (s.setArbiter a).events = s.events := rfl
@[simp] theorem State.setArbiter_selection (a : Arbiter) : (s.setArbiter a).selection = s.selection := rfl
@[simp] theorem State.setArbiter_scrambler (a : Arbiter) : (s.setArbiter a).scrambler = s.scrambler := rfl
@[simp] theorem State.setArbiter_store (a : Arbiter) : (s.setArbiter a).store = s.store := rfl
@[simp] theorem State.setArbiter_port (a : Arbiter) : (s.setArbiter a).port = s.port := rfl
@[simp] theorem State.setArbiter_sweep (a : Arbiter) : (s.setArbiter a).sweep = s.sweep := rfl
@[simp] theorem State.setArbiter_carousel (a : Arbiter) : (s.setArbiter a).carousel = s.carousel := rfl
@[simp] theorem State.setArbiter_bus (a : Arbiter) : (s.setArbiter a).bus = s.bus := rfl
@[simp] theorem State.setArbiter_arbiter (a : Arbiter) : (s.setArbiter a).arbiter = a := rfl
@[simp] theorem State.setArbiter_link (a : Arbiter) : (s.setArbiter a).link = s.link := rfl
@[simp] theorem State.setArbiter_notice (a : Arbiter) : (s.setArbiter a).notice = s.notice := rfl
@[simp] theorem State.setArbiter_counters (a : Arbiter) : (s.setArbiter a).counters = s.counters := rfl
@[simp] theorem State.setArbiter_pending (a : Arbiter) : (s.setArbiter a).pending = s.pending := rfl

/-! ### setEngine -/

@[simp] theorem State.setEngine_night (e : EngineState) : (s.setEngine e).night = s.night := rfl
@[simp] theorem State.setEngine_straps (e : EngineState) : (s.setEngine e).straps = s.straps := rfl
@[simp] theorem State.setEngine_timer (e : EngineState) : (s.setEngine e).timer = s.timer := rfl
@[simp] theorem State.setEngine_clock (e : EngineState) : (s.setEngine e).clock = s.clock := rfl
@[simp] theorem State.setEngine_settings (e : EngineState) : (s.setEngine e).settings = s.settings := rfl
@[simp] theorem State.setEngine_events (e : EngineState) : (s.setEngine e).events = s.events := rfl
@[simp] theorem State.setEngine_selection (e : EngineState) : (s.setEngine e).selection = s.selection := rfl
@[simp] theorem State.setEngine_scrambler (e : EngineState) : (s.setEngine e).scrambler = s.scrambler := rfl
@[simp] theorem State.setEngine_store (e : EngineState) : (s.setEngine e).store = s.store := rfl
@[simp] theorem State.setEngine_port (e : EngineState) : (s.setEngine e).port = s.port := rfl
@[simp] theorem State.setEngine_sweep (e : EngineState) :
    (s.setEngine e).sweep =
      { s.sweep with engine := e } := rfl
@[simp] theorem State.setEngine_carousel (e : EngineState) : (s.setEngine e).carousel = s.carousel := rfl
@[simp] theorem State.setEngine_bus (e : EngineState) : (s.setEngine e).bus = s.bus := rfl
@[simp] theorem State.setEngine_arbiter (e : EngineState) : (s.setEngine e).arbiter = s.arbiter := rfl
@[simp] theorem State.setEngine_link (e : EngineState) : (s.setEngine e).link = s.link := rfl
@[simp] theorem State.setEngine_notice (e : EngineState) : (s.setEngine e).notice = s.notice := rfl
@[simp] theorem State.setEngine_counters (e : EngineState) : (s.setEngine e).counters = s.counters := rfl
@[simp] theorem State.setEngine_pending (e : EngineState) : (s.setEngine e).pending = s.pending := rfl

/-! ### setClock -/

@[simp] theorem State.setClock_night (c : NightClock) : (s.setClock c).night = s.night := rfl
@[simp] theorem State.setClock_straps (c : NightClock) : (s.setClock c).straps = s.straps := rfl
@[simp] theorem State.setClock_timer (c : NightClock) : (s.setClock c).timer = s.timer := rfl
@[simp] theorem State.setClock_clock (c : NightClock) : (s.setClock c).clock = c := rfl
@[simp] theorem State.setClock_settings (c : NightClock) : (s.setClock c).settings = s.settings := rfl
@[simp] theorem State.setClock_events (c : NightClock) : (s.setClock c).events = s.events := rfl
@[simp] theorem State.setClock_selection (c : NightClock) : (s.setClock c).selection = s.selection := rfl
@[simp] theorem State.setClock_scrambler (c : NightClock) : (s.setClock c).scrambler = s.scrambler := rfl
@[simp] theorem State.setClock_store (c : NightClock) : (s.setClock c).store = s.store := rfl
@[simp] theorem State.setClock_port (c : NightClock) : (s.setClock c).port = s.port := rfl
@[simp] theorem State.setClock_sweep (c : NightClock) : (s.setClock c).sweep = s.sweep := rfl
@[simp] theorem State.setClock_carousel (c : NightClock) : (s.setClock c).carousel = s.carousel := rfl
@[simp] theorem State.setClock_bus (c : NightClock) : (s.setClock c).bus = s.bus := rfl
@[simp] theorem State.setClock_arbiter (c : NightClock) : (s.setClock c).arbiter = s.arbiter := rfl
@[simp] theorem State.setClock_link (c : NightClock) : (s.setClock c).link = s.link := rfl
@[simp] theorem State.setClock_notice (c : NightClock) : (s.setClock c).notice = s.notice := rfl
@[simp] theorem State.setClock_counters (c : NightClock) : (s.setClock c).counters = s.counters := rfl
@[simp] theorem State.setClock_pending (c : NightClock) : (s.setClock c).pending = s.pending := rfl

/-! ### reach -/

@[simp] theorem State.reach_night (t : Nat) : (s.reach t).night = s.night := rfl
@[simp] theorem State.reach_straps (t : Nat) : (s.reach t).straps = s.straps := rfl
@[simp] theorem State.reach_timer (t : Nat) :
    (s.reach t).timer =
      { s.timer with now := max s.timer.now t } := rfl
@[simp] theorem State.reach_clock (t : Nat) : (s.reach t).clock = s.clock := rfl
@[simp] theorem State.reach_settings (t : Nat) : (s.reach t).settings = s.settings := rfl
@[simp] theorem State.reach_events (t : Nat) : (s.reach t).events = s.events := rfl
@[simp] theorem State.reach_selection (t : Nat) : (s.reach t).selection = s.selection := rfl
@[simp] theorem State.reach_scrambler (t : Nat) : (s.reach t).scrambler = s.scrambler := rfl
@[simp] theorem State.reach_store (t : Nat) : (s.reach t).store = s.store := rfl
@[simp] theorem State.reach_port (t : Nat) : (s.reach t).port = s.port := rfl
@[simp] theorem State.reach_sweep (t : Nat) : (s.reach t).sweep = s.sweep := rfl
@[simp] theorem State.reach_carousel (t : Nat) : (s.reach t).carousel = s.carousel := rfl
@[simp] theorem State.reach_bus (t : Nat) : (s.reach t).bus = s.bus := rfl
@[simp] theorem State.reach_arbiter (t : Nat) : (s.reach t).arbiter = s.arbiter := rfl
@[simp] theorem State.reach_link (t : Nat) : (s.reach t).link = s.link := rfl
@[simp] theorem State.reach_notice (t : Nat) : (s.reach t).notice = s.notice := rfl
@[simp] theorem State.reach_counters (t : Nat) : (s.reach t).counters = s.counters := rfl
@[simp] theorem State.reach_pending (t : Nat) : (s.reach t).pending = s.pending := rfl

/-! ### setNotice -/

@[simp] theorem State.setNotice_night (n : Notice) : (s.setNotice n).night = s.night := rfl
@[simp] theorem State.setNotice_straps (n : Notice) : (s.setNotice n).straps = s.straps := rfl
@[simp] theorem State.setNotice_timer (n : Notice) : (s.setNotice n).timer = s.timer := rfl
@[simp] theorem State.setNotice_clock (n : Notice) : (s.setNotice n).clock = s.clock := rfl
@[simp] theorem State.setNotice_settings (n : Notice) : (s.setNotice n).settings = s.settings := rfl
@[simp] theorem State.setNotice_events (n : Notice) : (s.setNotice n).events = s.events := rfl
@[simp] theorem State.setNotice_selection (n : Notice) : (s.setNotice n).selection = s.selection := rfl
@[simp] theorem State.setNotice_scrambler (n : Notice) : (s.setNotice n).scrambler = s.scrambler := rfl
@[simp] theorem State.setNotice_store (n : Notice) : (s.setNotice n).store = s.store := rfl
@[simp] theorem State.setNotice_port (n : Notice) : (s.setNotice n).port = s.port := rfl
@[simp] theorem State.setNotice_sweep (n : Notice) : (s.setNotice n).sweep = s.sweep := rfl
@[simp] theorem State.setNotice_carousel (n : Notice) : (s.setNotice n).carousel = s.carousel := rfl
@[simp] theorem State.setNotice_bus (n : Notice) : (s.setNotice n).bus = s.bus := rfl
@[simp] theorem State.setNotice_arbiter (n : Notice) : (s.setNotice n).arbiter = s.arbiter := rfl
@[simp] theorem State.setNotice_link (n : Notice) : (s.setNotice n).link = s.link := rfl
@[simp] theorem State.setNotice_notice (n : Notice) : (s.setNotice n).notice = n := rfl
@[simp] theorem State.setNotice_counters (n : Notice) : (s.setNotice n).counters = s.counters := rfl
@[simp] theorem State.setNotice_pending (n : Notice) : (s.setNotice n).pending = s.pending := rfl

/-! ### setScramblerQueue -/

@[simp] theorem State.setScramblerQueue_night (q : List ScramblerRecord) :
    (s.setScramblerQueue q).night =
      s.night := rfl
@[simp] theorem State.setScramblerQueue_straps (q : List ScramblerRecord) :
    (s.setScramblerQueue q).straps =
      s.straps := rfl
@[simp] theorem State.setScramblerQueue_timer (q : List ScramblerRecord) :
    (s.setScramblerQueue q).timer =
      s.timer := rfl
@[simp] theorem State.setScramblerQueue_clock (q : List ScramblerRecord) :
    (s.setScramblerQueue q).clock =
      s.clock := rfl
@[simp] theorem State.setScramblerQueue_settings (q : List ScramblerRecord) :
    (s.setScramblerQueue q).settings =
      s.settings := rfl
@[simp] theorem State.setScramblerQueue_events (q : List ScramblerRecord) :
    (s.setScramblerQueue q).events =
      s.events := rfl
@[simp] theorem State.setScramblerQueue_selection (q : List ScramblerRecord) :
    (s.setScramblerQueue q).selection =
      s.selection := rfl
@[simp] theorem State.setScramblerQueue_scrambler (q : List ScramblerRecord) :
    (s.setScramblerQueue q).scrambler =
      { s.scrambler with queue := q } := rfl
@[simp] theorem State.setScramblerQueue_store (q : List ScramblerRecord) :
    (s.setScramblerQueue q).store =
      s.store := rfl
@[simp] theorem State.setScramblerQueue_port (q : List ScramblerRecord) :
    (s.setScramblerQueue q).port =
      s.port := rfl
@[simp] theorem State.setScramblerQueue_sweep (q : List ScramblerRecord) :
    (s.setScramblerQueue q).sweep =
      s.sweep := rfl
@[simp] theorem State.setScramblerQueue_carousel (q : List ScramblerRecord) :
    (s.setScramblerQueue q).carousel =
      s.carousel := rfl
@[simp] theorem State.setScramblerQueue_bus (q : List ScramblerRecord) :
    (s.setScramblerQueue q).bus =
      s.bus := rfl
@[simp] theorem State.setScramblerQueue_arbiter (q : List ScramblerRecord) :
    (s.setScramblerQueue q).arbiter =
      s.arbiter := rfl
@[simp] theorem State.setScramblerQueue_link (q : List ScramblerRecord) :
    (s.setScramblerQueue q).link =
      s.link := rfl
@[simp] theorem State.setScramblerQueue_notice (q : List ScramblerRecord) :
    (s.setScramblerQueue q).notice =
      s.notice := rfl
@[simp] theorem State.setScramblerQueue_counters (q : List ScramblerRecord) :
    (s.setScramblerQueue q).counters =
      s.counters := rfl
@[simp] theorem State.setScramblerQueue_pending (q : List ScramblerRecord) :
    (s.setScramblerQueue q).pending =
      s.pending := rfl

/-! ### count -/

@[simp] theorem State.count_night (f : Counters → Counters) : (s.count f).night = s.night := rfl
@[simp] theorem State.count_straps (f : Counters → Counters) : (s.count f).straps = s.straps := rfl
@[simp] theorem State.count_timer (f : Counters → Counters) : (s.count f).timer = s.timer := rfl
@[simp] theorem State.count_clock (f : Counters → Counters) : (s.count f).clock = s.clock := rfl
@[simp] theorem State.count_settings (f : Counters → Counters) : (s.count f).settings = s.settings := rfl
@[simp] theorem State.count_events (f : Counters → Counters) : (s.count f).events = s.events := rfl
@[simp] theorem State.count_selection (f : Counters → Counters) : (s.count f).selection = s.selection := rfl
@[simp] theorem State.count_scrambler (f : Counters → Counters) : (s.count f).scrambler = s.scrambler := rfl
@[simp] theorem State.count_store (f : Counters → Counters) : (s.count f).store = s.store := rfl
@[simp] theorem State.count_port (f : Counters → Counters) : (s.count f).port = s.port := rfl
@[simp] theorem State.count_sweep (f : Counters → Counters) : (s.count f).sweep = s.sweep := rfl
@[simp] theorem State.count_carousel (f : Counters → Counters) : (s.count f).carousel = s.carousel := rfl
@[simp] theorem State.count_bus (f : Counters → Counters) : (s.count f).bus = s.bus := rfl
@[simp] theorem State.count_arbiter (f : Counters → Counters) : (s.count f).arbiter = s.arbiter := rfl
@[simp] theorem State.count_link (f : Counters → Counters) : (s.count f).link = s.link := rfl
@[simp] theorem State.count_notice (f : Counters → Counters) : (s.count f).notice = s.notice := rfl
@[simp] theorem State.count_counters (f : Counters → Counters) : (s.count f).counters = f s.counters := rfl
@[simp] theorem State.count_pending (f : Counters → Counters) : (s.count f).pending = s.pending := rfl

/-! ### raise -/

@[simp] theorem State.raise_night (c : UnitCause) : (s.raise c).night = s.night := rfl
@[simp] theorem State.raise_straps (c : UnitCause) : (s.raise c).straps = s.straps := rfl
@[simp] theorem State.raise_timer (c : UnitCause) : (s.raise c).timer = s.timer := rfl
@[simp] theorem State.raise_clock (c : UnitCause) : (s.raise c).clock = s.clock := rfl
@[simp] theorem State.raise_settings (c : UnitCause) : (s.raise c).settings = s.settings := rfl
@[simp] theorem State.raise_events (c : UnitCause) : (s.raise c).events = s.events := rfl
@[simp] theorem State.raise_selection (c : UnitCause) : (s.raise c).selection = s.selection := rfl
@[simp] theorem State.raise_scrambler (c : UnitCause) : (s.raise c).scrambler = s.scrambler := rfl
@[simp] theorem State.raise_store (c : UnitCause) : (s.raise c).store = s.store := rfl
@[simp] theorem State.raise_port (c : UnitCause) : (s.raise c).port = s.port := rfl
@[simp] theorem State.raise_sweep (c : UnitCause) : (s.raise c).sweep = s.sweep := rfl
@[simp] theorem State.raise_carousel (c : UnitCause) : (s.raise c).carousel = s.carousel := rfl
@[simp] theorem State.raise_bus (c : UnitCause) : (s.raise c).bus = s.bus := rfl
@[simp] theorem State.raise_arbiter (c : UnitCause) : (s.raise c).arbiter = s.arbiter := rfl
@[simp] theorem State.raise_link (c : UnitCause) : (s.raise c).link = s.link := rfl
@[simp] theorem State.raise_notice (c : UnitCause) :
    (s.raise c).notice =
      { s.notice with causes := s.notice.causes ||| unitCauseBit c } := rfl
@[simp] theorem State.raise_counters (c : UnitCause) : (s.raise c).counters = s.counters := rfl
@[simp] theorem State.raise_pending (c : UnitCause) : (s.raise c).pending = s.pending := rfl

/-! ### putCell -/

@[simp] theorem State.putCell_night (n : Nat) (c : Cell) : (s.putCell n c).night = s.night := rfl
@[simp] theorem State.putCell_straps (n : Nat) (c : Cell) : (s.putCell n c).straps = s.straps := rfl
@[simp] theorem State.putCell_timer (n : Nat) (c : Cell) : (s.putCell n c).timer = s.timer := rfl
@[simp] theorem State.putCell_clock (n : Nat) (c : Cell) : (s.putCell n c).clock = s.clock := rfl
@[simp] theorem State.putCell_settings (n : Nat) (c : Cell) : (s.putCell n c).settings = s.settings := rfl
@[simp] theorem State.putCell_events (n : Nat) (c : Cell) : (s.putCell n c).events = s.events := rfl
@[simp] theorem State.putCell_selection (n : Nat) (c : Cell) : (s.putCell n c).selection = s.selection := rfl
@[simp] theorem State.putCell_scrambler (n : Nat) (c : Cell) : (s.putCell n c).scrambler = s.scrambler := rfl
@[simp] theorem State.putCell_store (n : Nat) (c : Cell) :
    (s.putCell n c).store =
      { s.store with memory := s.store.memory.write n c } := rfl
@[simp] theorem State.putCell_port (n : Nat) (c : Cell) : (s.putCell n c).port = s.port := rfl
@[simp] theorem State.putCell_sweep (n : Nat) (c : Cell) : (s.putCell n c).sweep = s.sweep := rfl
@[simp] theorem State.putCell_carousel (n : Nat) (c : Cell) : (s.putCell n c).carousel = s.carousel := rfl
@[simp] theorem State.putCell_bus (n : Nat) (c : Cell) : (s.putCell n c).bus = s.bus := rfl
@[simp] theorem State.putCell_arbiter (n : Nat) (c : Cell) : (s.putCell n c).arbiter = s.arbiter := rfl
@[simp] theorem State.putCell_link (n : Nat) (c : Cell) : (s.putCell n c).link = s.link := rfl
@[simp] theorem State.putCell_notice (n : Nat) (c : Cell) : (s.putCell n c).notice = s.notice := rfl
@[simp] theorem State.putCell_counters (n : Nat) (c : Cell) : (s.putCell n c).counters = s.counters := rfl
@[simp] theorem State.putCell_pending (n : Nat) (c : Cell) : (s.putCell n c).pending = s.pending := rfl

/-! ### putSlot -/

@[simp] theorem State.putSlot_night (n : Nat) (x : Slot) : (s.putSlot n x).night = s.night := rfl
@[simp] theorem State.putSlot_straps (n : Nat) (x : Slot) : (s.putSlot n x).straps = s.straps := rfl
@[simp] theorem State.putSlot_timer (n : Nat) (x : Slot) : (s.putSlot n x).timer = s.timer := rfl
@[simp] theorem State.putSlot_clock (n : Nat) (x : Slot) : (s.putSlot n x).clock = s.clock := rfl
@[simp] theorem State.putSlot_settings (n : Nat) (x : Slot) : (s.putSlot n x).settings = s.settings := rfl
@[simp] theorem State.putSlot_events (n : Nat) (x : Slot) : (s.putSlot n x).events = s.events := rfl
@[simp] theorem State.putSlot_selection (n : Nat) (x : Slot) : (s.putSlot n x).selection = s.selection := rfl
@[simp] theorem State.putSlot_scrambler (n : Nat) (x : Slot) : (s.putSlot n x).scrambler = s.scrambler := rfl
@[simp] theorem State.putSlot_store (n : Nat) (x : Slot) :
    (s.putSlot n x).store =
      { s.store with memory := s.store.memory.write n { slot := x, checkGood := true } } := rfl
@[simp] theorem State.putSlot_port (n : Nat) (x : Slot) : (s.putSlot n x).port = s.port := rfl
@[simp] theorem State.putSlot_sweep (n : Nat) (x : Slot) : (s.putSlot n x).sweep = s.sweep := rfl
@[simp] theorem State.putSlot_carousel (n : Nat) (x : Slot) : (s.putSlot n x).carousel = s.carousel := rfl
@[simp] theorem State.putSlot_bus (n : Nat) (x : Slot) : (s.putSlot n x).bus = s.bus := rfl
@[simp] theorem State.putSlot_arbiter (n : Nat) (x : Slot) : (s.putSlot n x).arbiter = s.arbiter := rfl
@[simp] theorem State.putSlot_link (n : Nat) (x : Slot) : (s.putSlot n x).link = s.link := rfl
@[simp] theorem State.putSlot_notice (n : Nat) (x : Slot) : (s.putSlot n x).notice = s.notice := rfl
@[simp] theorem State.putSlot_counters (n : Nat) (x : Slot) : (s.putSlot n x).counters = s.counters := rfl
@[simp] theorem State.putSlot_pending (n : Nat) (x : Slot) : (s.putSlot n x).pending = s.pending := rfl

/-! ### setPending -/

@[simp] theorem State.setPending_night (q : List Instr) : (s.setPending q).night = s.night := rfl
@[simp] theorem State.setPending_straps (q : List Instr) : (s.setPending q).straps = s.straps := rfl
@[simp] theorem State.setPending_timer (q : List Instr) : (s.setPending q).timer = s.timer := rfl
@[simp] theorem State.setPending_clock (q : List Instr) : (s.setPending q).clock = s.clock := rfl
@[simp] theorem State.setPending_settings (q : List Instr) : (s.setPending q).settings = s.settings := rfl
@[simp] theorem State.setPending_events (q : List Instr) : (s.setPending q).events = s.events := rfl
@[simp] theorem State.setPending_selection (q : List Instr) : (s.setPending q).selection = s.selection := rfl
@[simp] theorem State.setPending_scrambler (q : List Instr) : (s.setPending q).scrambler = s.scrambler := rfl
@[simp] theorem State.setPending_store (q : List Instr) : (s.setPending q).store = s.store := rfl
@[simp] theorem State.setPending_port (q : List Instr) : (s.setPending q).port = s.port := rfl
@[simp] theorem State.setPending_sweep (q : List Instr) : (s.setPending q).sweep = s.sweep := rfl
@[simp] theorem State.setPending_carousel (q : List Instr) : (s.setPending q).carousel = s.carousel := rfl
@[simp] theorem State.setPending_bus (q : List Instr) : (s.setPending q).bus = s.bus := rfl
@[simp] theorem State.setPending_arbiter (q : List Instr) : (s.setPending q).arbiter = s.arbiter := rfl
@[simp] theorem State.setPending_link (q : List Instr) : (s.setPending q).link = s.link := rfl
@[simp] theorem State.setPending_notice (q : List Instr) : (s.setPending q).notice = s.notice := rfl
@[simp] theorem State.setPending_counters (q : List Instr) : (s.setPending q).counters = s.counters := rfl
@[simp] theorem State.setPending_pending (q : List Instr) : (s.setPending q).pending = q := rfl

/-! ### What follows for the readings of the state -/

@[simp] theorem State.slotCount_putCell (n : Nat) (c : Cell) :
    (s.putCell n c).slotCount = s.slotCount := rfl

@[simp] theorem State.slotCount_putSlot (n : Nat) (x : Slot) :
    (s.putSlot n x).slotCount = s.slotCount := rfl

@[simp] theorem State.setHolder_setHolder (h k : Holder) :
    (s.setHolder h).setHolder k = s.setHolder k := rfl

@[simp] theorem State.setPort_setPort (p q : StorePort) : (s.setPort p).setPort q = s.setPort q := rfl

/-- A request's result changes the holder alone (R165). -/
theorem State.finish_eq (h : HeldRequest) (r : ResultCode) (body : List Byte) :
    s.finish h r body =
      s.setHolder
        (if h.broadcast then .free
         else .replying { tag := h.tag, code := h.request.code, result := r, body := body }) := rfl

theorem State.refuse_eq (h : HeldRequest) (r : ResultCode) : s.refuse h r = s.finish h r [] := rfl

theorem State.badField_eq (h : HeldRequest) (i : Nat) :
    s.badField h i = s.finish h .badField [byte1 i] := rfl

end Sys2Proof.Machine
end

