-- ==== Sys2Proof/Laws/Formats.lean ====
section
/-! SUPPORT. What the byte formats do. -/

namespace Sys2Proof.Machine

/-- A little-endian number reads back, modulo its width. -/
theorem le_leBytes (n v : Nat) : le (leBytes n v) = v % 256 ^ n := by
  induction n generalizing v with
  | zero => simp [leBytes, le, Nat.mod_one]
  | succ n ih =>
    have e : (BitVec.ofNat 8 v).toNat = v % 256 := by simp
    simp only [leBytes, le, ih, e]
    rw [Nat.pow_succ, Nat.mul_comm (256^n) 256, Nat.mod_mul]

/-- Its length. -/
theorem length_leBytes (n v : Nat) : (leBytes n v).length = n := by
  induction n generalizing v with
  | zero => rfl
  | succ n ih => simp [leBytes, ih]

/-- A count has its width whatever its value (log 19). -/
theorem length_countBytes (n c : Nat) : (countBytes n c).length = n := by
  unfold countBytes; split <;> exact length_leBytes _ _

/-- The pairs in service read back. -/
theorem PairSet.ofByte_byte (p : PairSet) : PairSet.ofByte (byte1 p.byte) = p := by
  rcases p with ⟨a,b,c⟩; cases a <;> cases b <;> cases c <;> decide

/-- A check that yields nothing. -/
theorem check_none {c : Prop} [Decidable c] (i : Nat) (x : Option Nat) :
    (if c then some i else x) = none ↔ ¬c ∧ x = none := by by_cases h : c <;> simp [h]

/-- A record without a bad field is one in range (R176). -/
theorem RawConfig.firstBad_none (r : RawConfig) : r.firstBad = none ↔ r.InRange := by
  unfold RawConfig.firstBad
  constructor
  · intro h
    repeat' (rw [check_none] at h)
    simp [bankSizeOk, within] at h
    constructor <;> (try simp) <;> (try omega)
    simp [h]
  · rintro ⟨h1,h2,h3,h4,h5,h6,h7,h8,h9,h10,h11,h12,h13⟩
    simp at h1 h2
    repeat' (rw [check_none])
    simp [bankSizeOk, within]
    refine ⟨?_,?_,?_,?_,?_,?_,?_,?_,?_,?_,?_,?_,?_⟩ <;> omega

/-- One check of a chain that names the first failing index. -/
theorem check_some {c : Prop} [Decidable c] (i k : Nat) (x : Option Nat) :
    (if c then some i else x) = some k ↔ (c ∧ i = k) ∨ (¬ c ∧ x = some k) := by
  by_cases h : c <;> simp [h]

/-- The entries of NOTICE-ACK read back. -/
theorem readEntries_entryBytes (l : List AckEntry) (h : ∀ e ∈ l,
      e.event < 256) : readEntries (entryBytes l) = l := by
  induction l with
  | nil => rfl
  | cons x xs ih =>
    have hx := h x (by simp)
    simp [entryBytes, readEntries, ih (fun e he => h e (by simp [he])), byte1]
    rw [Nat.mod_eq_of_lt hx]

/-- Ranges read back. -/
theorem readRanges_rangeBytes (l : List Range) (h : ∀ e ∈ l, e.low < 256
      ∧ e.high < 256) : readRanges (rangeBytes l) = l := by
  induction l with
  | nil => rfl
  | cons x xs ih =>
    have hx := h x (by simp)
    simp [rangeBytes, readRanges, ih (fun e he => h e (by simp [he])), byte1]
    rw [Nat.mod_eq_of_lt hx.1, Nat.mod_eq_of_lt hx.2]

/-- The length of entries. -/
theorem length_entryBytes (l : List AckEntry) : (entryBytes l).length = 2 * l.length := by
  induction l with
  | nil => rfl
  | cons x xs ih => simp [entryBytes, ih]; omega

/-- The length of ranges. -/
theorem length_rangeBytes (l : List Range) : (rangeBytes l).length = 2 * l.length := by
  induction l with
  | nil => rfl
  | cons x xs ih => simp [rangeBytes, ih]; omega

/-- A key reads back (section 11.2, log 30). -/
theorem le_leBytes_key (k : Key) : le (leBytes 16 k.toNat) = k.toNat := by
  rw [le_leBytes]; exact Nat.mod_eq_of_lt (by have := k.isLt; norm_num at *; exact this)

/-- Entries of NOTICE-ACK without a bad field (R174). -/
theorem AckFields.badEntry_none (l : List AckEntry) (i : Nat) : AckFields.badEntry l i = none ↔ ∀ e ∈ l,
      e.event ≤ 31 ∧ e.causes &&& 0xF0#8 = 0#8 := by
  induction l generalizing i with
  | nil => simp [AckFields.badEntry]
  | cons x xs ih =>
    rw [AckFields.badEntry, check_none, check_none, ih]; simp [and_assoc]

/-- Ranges without a bad field (R184). -/
theorem badRange_none (l : List Range) (i : Nat) : badRange l i = none ↔ ∀ r ∈ l, r.low ≤ r.high
      ∧ r.high ≤ 255 := by
  induction l generalizing i with
  | nil => simp [badRange]
  | cons x xs ih =>
    rw [badRange, check_none, check_none, ih]; simp
    rw [← and_assoc]; refine and_congr ?_ Iff.rfl; omega

/-- A definition without a bad field is one in range (R19). -/
theorem DefineFields.firstBad_none (d : DefineFields) : d.firstBad = none ↔ d.InRange := by
  unfold DefineFields.firstBad
  rw [check_none, check_none, check_none, check_none, check_none, check_none, check_none, badRange_none]
  have hp : ¬ (d.previewBad = true) ↔ (d.flags.getLsbD 0 = true → d.previewStart ≤ 16777215
        ∧ d.saleOpen ≤ d.previewStart) := by
    unfold DefineFields.previewBad DefineFields.preview
    cases d.flags.getLsbD 0 <;> simp
  rw [hp]
  have hb : d.beforeLive = if d.flags.getLsbD 0 then d.previewStart else d.saleOpen := by
    unfold DefineFields.beforeLive DefineFields.preview
    cases d.flags.getLsbD 0 <;> simp
  rw [hb]
  cases hf : d.flags.getLsbD 0
  · constructor
    · rintro ⟨h1,h2,h3,h4,h5,h6,h7,h8⟩
      simp [within] at *
      constructor <;> (try simp [hf]) <;> (try omega)
    · rintro ⟨h1,h2,h3,h4,h5,h6,h7,h8⟩
      simp [within] at *
      refine ⟨?_,?_,?_,?_,?_,?_,?_⟩ <;> omega
  · constructor
    · rintro ⟨h1,h2,h3,h4,h5,h6,h7,h8⟩
      simp [within] at *
      constructor <;> (try simp [hf]) <;> (try omega)
    · rintro ⟨h1,h2,h3,h4,h5,h6,h7,h8⟩
      have := h4 hf
      simp [within] at *
      refine ⟨?_,?_,?_,?_,?_,?_,?_,?_⟩ <;> omega

/-- The levels of a character, one by one (R160). -/
theorem Character.levels_eq (c : Character) : c.levels =
    [false, c.data.getLsbD 0, c.data.getLsbD 1, c.data.getLsbD 2, c.data.getLsbD 3, c.data.getLsbD 4,
      c.data.getLsbD 5, c.data.getLsbD 6, c.data.getLsbD 7, c.mark, true] := rfl

/-- The levels of characters sent one after another, found by character and bit. -/
theorem Character.flatMap_levels_get (l : List Character) (i k : Nat) (c : Character) (h : l[i]? = some c)
    (hk : k < 11) : (l.flatMap Character.levels)[11 * i + k]? = c.levels[k]? := by
  induction l generalizing i with
  | nil => simp at h
  | cons d ds ih =>
    have hd : d.levels.length = 11 := rfl
    rw [List.flatMap_cons]
    cases i with
    | zero =>
      simp at h; subst h
      rw [List.getElem?_append_left (by omega)]; simp
    | succ i =>
      rw [List.getElem?_append_right (by omega), hd, show 11 * (i + 1) + k - 11 = 11 * i + k by omega]
      exact ih i (by simpa using h)

end Sys2Proof.Machine
end

