-- ==== Sys2Proof/Laws/Frames.lean ====
section
/-! SUPPORT. What each shared operation leaves as it is: one lemma per operation, one equation per field that it
does not touch. -/

namespace Sys2Proof.Machine

variable (s : State)

@[simp] theorem State.rewriteDamaged_keeps (n : Nat) :
    (s.rewriteDamaged n).night = s.night ∧ (s.rewriteDamaged n).straps = s.straps ∧
    (s.rewriteDamaged n).timer = s.timer ∧ (s.rewriteDamaged n).clock = s.clock ∧
    (s.rewriteDamaged n).settings = s.settings ∧ (s.rewriteDamaged n).events = s.events ∧
    (s.rewriteDamaged n).selection = s.selection ∧ (s.rewriteDamaged n).scrambler = s.scrambler ∧
    (s.rewriteDamaged n).port = s.port ∧ (s.rewriteDamaged n).sweep = s.sweep ∧
    (s.rewriteDamaged n).carousel = s.carousel ∧ (s.rewriteDamaged n).bus = s.bus ∧
    (s.rewriteDamaged n).arbiter = s.arbiter ∧ (s.rewriteDamaged n).link = s.link ∧
    (s.rewriteDamaged n).pending = s.pending := by
  simp [State.rewriteDamaged, State.bumpDamaged]

@[simp] theorem State.check_keeps (n : Nat) :
    (s.check n).night = s.night ∧ (s.check n).straps = s.straps ∧ (s.check n).timer = s.timer ∧
    (s.check n).clock = s.clock ∧ (s.check n).settings = s.settings ∧ (s.check n).events = s.events ∧
    (s.check n).selection = s.selection ∧ (s.check n).scrambler = s.scrambler ∧
    (s.check n).port = s.port ∧ (s.check n).sweep = s.sweep ∧ (s.check n).carousel = s.carousel ∧
    (s.check n).bus = s.bus ∧ (s.check n).arbiter = s.arbiter ∧ (s.check n).link = s.link ∧
    (s.check n).pending = s.pending := by
  unfold State.check
  repeat' split
  all_goals simp

@[simp] theorem State.upsetSlot_keeps (n : Nat) :
    (s.upsetSlot n).night = s.night ∧ (s.upsetSlot n).straps = s.straps ∧
    (s.upsetSlot n).timer = s.timer ∧ (s.upsetSlot n).clock = s.clock ∧
    (s.upsetSlot n).settings = s.settings ∧ (s.upsetSlot n).events = s.events ∧
    (s.upsetSlot n).selection = s.selection ∧ (s.upsetSlot n).scrambler = s.scrambler ∧
    (s.upsetSlot n).port = s.port ∧ (s.upsetSlot n).sweep = s.sweep ∧
    (s.upsetSlot n).carousel = s.carousel ∧ (s.upsetSlot n).bus = s.bus ∧
    (s.upsetSlot n).arbiter = s.arbiter ∧ (s.upsetSlot n).link = s.link ∧
    (s.upsetSlot n).notice = s.notice ∧ (s.upsetSlot n).counters = s.counters ∧
    (s.upsetSlot n).pending = s.pending := by
  unfold State.upsetSlot
  repeat' split
  all_goals simp

@[simp] theorem State.upset_keeps (l : List Nat) :
    (s.upset l).night = s.night ∧ (s.upset l).straps = s.straps ∧ (s.upset l).timer = s.timer ∧
    (s.upset l).clock = s.clock ∧ (s.upset l).settings = s.settings ∧ (s.upset l).events = s.events ∧
    (s.upset l).selection = s.selection ∧ (s.upset l).scrambler = s.scrambler ∧
    (s.upset l).port = s.port ∧ (s.upset l).sweep = s.sweep ∧ (s.upset l).carousel = s.carousel ∧
    (s.upset l).bus = s.bus ∧ (s.upset l).arbiter = s.arbiter ∧ (s.upset l).link = s.link ∧
    (s.upset l).notice = s.notice ∧ (s.upset l).counters = s.counters ∧ (s.upset l).pending = s.pending := by
  induction l generalizing s with
  | nil => simp [State.upset]
  | cons n ns ih => simp [State.upset, ih]

@[simp] theorem State.appendFresh_keeps (n : Nat) :
    (s.appendFresh n).night = s.night ∧ (s.appendFresh n).straps = s.straps ∧
    (s.appendFresh n).timer = s.timer ∧ (s.appendFresh n).clock = s.clock ∧
    (s.appendFresh n).settings = s.settings ∧ (s.appendFresh n).events = s.events ∧
    (s.appendFresh n).selection = s.selection ∧ (s.appendFresh n).scrambler = s.scrambler ∧
    (s.appendFresh n).port = s.port ∧ (s.appendFresh n).sweep = s.sweep ∧
    (s.appendFresh n).bus = s.bus ∧ (s.appendFresh n).arbiter = s.arbiter ∧
    (s.appendFresh n).link = s.link ∧ (s.appendFresh n).pending = s.pending := by
  unfold State.appendFresh
  repeat' split
  all_goals simp

@[simp] theorem State.appendUrgent_keeps (n : Nat) :
    (s.appendUrgent n).night = s.night ∧ (s.appendUrgent n).straps = s.straps ∧
    (s.appendUrgent n).timer = s.timer ∧ (s.appendUrgent n).clock = s.clock ∧
    (s.appendUrgent n).settings = s.settings ∧ (s.appendUrgent n).events = s.events ∧
    (s.appendUrgent n).selection = s.selection ∧ (s.appendUrgent n).scrambler = s.scrambler ∧
    (s.appendUrgent n).port = s.port ∧ (s.appendUrgent n).sweep = s.sweep ∧
    (s.appendUrgent n).bus = s.bus ∧ (s.appendUrgent n).arbiter = s.arbiter ∧
    (s.appendUrgent n).link = s.link ∧ (s.appendUrgent n).pending = s.pending := by
  unfold State.appendUrgent
  repeat' split
  all_goals simp

@[simp] theorem State.voidTags_keeps (p : TagContent → Bool) :
    (s.voidTags p).night = s.night ∧ (s.voidTags p).straps = s.straps ∧
    (s.voidTags p).timer = s.timer ∧ (s.voidTags p).clock = s.clock ∧
    (s.voidTags p).settings = s.settings ∧ (s.voidTags p).events = s.events ∧
    (s.voidTags p).selection = s.selection ∧ (s.voidTags p).scrambler = s.scrambler ∧
    (s.voidTags p).store = s.store ∧ (s.voidTags p).sweep = s.sweep ∧
    (s.voidTags p).carousel = s.carousel ∧ (s.voidTags p).arbiter = s.arbiter ∧
    (s.voidTags p).link = s.link ∧ (s.voidTags p).notice = s.notice ∧
    (s.voidTags p).counters = s.counters ∧ (s.voidTags p).pending = s.pending := by
  simp [State.voidTags]

@[simp] theorem State.changeState_keeps (n : Nat) (e : EventState) :
    (s.changeState n e).night = s.night ∧ (s.changeState n e).straps = s.straps ∧
    (s.changeState n e).timer = s.timer ∧ (s.changeState n e).clock = s.clock ∧
    (s.changeState n e).settings = s.settings ∧ (s.changeState n e).selection = s.selection ∧
    (s.changeState n e).scrambler = s.scrambler ∧ (s.changeState n e).store = s.store ∧
    (s.changeState n e).port = s.port ∧ (s.changeState n e).sweep = s.sweep ∧
    (s.changeState n e).carousel = s.carousel ∧ (s.changeState n e).bus = s.bus ∧
    (s.changeState n e).arbiter = s.arbiter ∧ (s.changeState n e).link = s.link ∧
    (s.changeState n e).notice = s.notice ∧ (s.changeState n e).counters = s.counters ∧
    (s.changeState n e).pending = s.pending := by
  simp [State.changeState]

@[simp] theorem State.emptyEvent_keeps (n : Nat) :
    (s.emptyEvent n).night = s.night ∧ (s.emptyEvent n).straps = s.straps ∧
    (s.emptyEvent n).timer = s.timer ∧ (s.emptyEvent n).clock = s.clock ∧
    (s.emptyEvent n).settings = s.settings ∧ (s.emptyEvent n).selection = s.selection ∧
    (s.emptyEvent n).scrambler = s.scrambler ∧ (s.emptyEvent n).store = s.store ∧
    (s.emptyEvent n).sweep = s.sweep ∧ (s.emptyEvent n).carousel = s.carousel ∧
    (s.emptyEvent n).arbiter = s.arbiter ∧ (s.emptyEvent n).link = s.link ∧
    (s.emptyEvent n).notice = s.notice ∧ (s.emptyEvent n).counters = s.counters ∧
    (s.emptyEvent n).pending = s.pending := by
  simp [State.emptyEvent]

@[simp] theorem State.arbitrate_keeps :
    (s.arbitrate).night = s.night ∧ (s.arbitrate).straps = s.straps ∧ (s.arbitrate).timer = s.timer ∧
    (s.arbitrate).clock = s.clock ∧ (s.arbitrate).settings = s.settings ∧
    (s.arbitrate).events = s.events ∧ (s.arbitrate).selection = s.selection ∧
    (s.arbitrate).scrambler = s.scrambler ∧ (s.arbitrate).store = s.store ∧
    (s.arbitrate).sweep = s.sweep ∧ (s.arbitrate).carousel = s.carousel ∧ (s.arbitrate).bus = s.bus ∧
    (s.arbitrate).arbiter = s.arbiter ∧ (s.arbitrate).link = s.link ∧ (s.arbitrate).notice = s.notice ∧
    (s.arbitrate).counters = s.counters ∧ (s.arbitrate).pending = s.pending := by
  unfold State.arbitrate
  repeat' split
  all_goals simp

@[simp] theorem State.releasePort_keeps :
    (s.releasePort).night = s.night ∧ (s.releasePort).straps = s.straps ∧
    (s.releasePort).timer = s.timer ∧ (s.releasePort).clock = s.clock ∧
    (s.releasePort).settings = s.settings ∧ (s.releasePort).events = s.events ∧
    (s.releasePort).selection = s.selection ∧ (s.releasePort).scrambler = s.scrambler ∧
    (s.releasePort).store = s.store ∧ (s.releasePort).sweep = s.sweep ∧
    (s.releasePort).carousel = s.carousel ∧ (s.releasePort).bus = s.bus ∧
    (s.releasePort).arbiter = s.arbiter ∧ (s.releasePort).link = s.link ∧
    (s.releasePort).notice = s.notice ∧ (s.releasePort).counters = s.counters ∧
    (s.releasePort).pending = s.pending := by
  simp [State.releasePort]

@[simp] theorem State.claimRequest_keeps :
    (s.claimRequest).night = s.night ∧ (s.claimRequest).straps = s.straps ∧
    (s.claimRequest).timer = s.timer ∧ (s.claimRequest).clock = s.clock ∧
    (s.claimRequest).settings = s.settings ∧ (s.claimRequest).events = s.events ∧
    (s.claimRequest).selection = s.selection ∧ (s.claimRequest).scrambler = s.scrambler ∧
    (s.claimRequest).store = s.store ∧ (s.claimRequest).sweep = s.sweep ∧
    (s.claimRequest).carousel = s.carousel ∧ (s.claimRequest).bus = s.bus ∧
    (s.claimRequest).arbiter = s.arbiter ∧ (s.claimRequest).link = s.link ∧
    (s.claimRequest).notice = s.notice ∧ (s.claimRequest).counters = s.counters ∧
    (s.claimRequest).pending = s.pending := by
  simp [State.claimRequest]

@[simp] theorem State.claimSweep_keeps :
    (s.claimSweep).night = s.night ∧ (s.claimSweep).straps = s.straps ∧
    (s.claimSweep).timer = s.timer ∧ (s.claimSweep).clock = s.clock ∧
    (s.claimSweep).settings = s.settings ∧ (s.claimSweep).events = s.events ∧
    (s.claimSweep).selection = s.selection ∧ (s.claimSweep).scrambler = s.scrambler ∧
    (s.claimSweep).store = s.store ∧ (s.claimSweep).sweep = s.sweep ∧
    (s.claimSweep).carousel = s.carousel ∧ (s.claimSweep).bus = s.bus ∧
    (s.claimSweep).arbiter = s.arbiter ∧ (s.claimSweep).link = s.link ∧
    (s.claimSweep).notice = s.notice ∧ (s.claimSweep).counters = s.counters ∧
    (s.claimSweep).pending = s.pending := by
  simp [State.claimSweep]

@[simp] theorem State.claimCompletion_keeps (t : Tag) :
    (s.claimCompletion t).night = s.night ∧ (s.claimCompletion t).straps = s.straps ∧
    (s.claimCompletion t).timer = s.timer ∧ (s.claimCompletion t).clock = s.clock ∧
    (s.claimCompletion t).settings = s.settings ∧ (s.claimCompletion t).events = s.events ∧
    (s.claimCompletion t).selection = s.selection ∧ (s.claimCompletion t).scrambler = s.scrambler ∧
    (s.claimCompletion t).store = s.store ∧ (s.claimCompletion t).sweep = s.sweep ∧
    (s.claimCompletion t).carousel = s.carousel ∧ (s.claimCompletion t).bus = s.bus ∧
    (s.claimCompletion t).arbiter = s.arbiter ∧ (s.claimCompletion t).link = s.link ∧
    (s.claimCompletion t).notice = s.notice ∧ (s.claimCompletion t).counters = s.counters ∧
    (s.claimCompletion t).pending = s.pending := by
  simp [State.claimCompletion]

@[simp] theorem State.claimComposition_keeps (a : Attempt) :
    (s.claimComposition a).night = s.night ∧ (s.claimComposition a).straps = s.straps ∧
    (s.claimComposition a).timer = s.timer ∧ (s.claimComposition a).clock = s.clock ∧
    (s.claimComposition a).settings = s.settings ∧ (s.claimComposition a).events = s.events ∧
    (s.claimComposition a).selection = s.selection ∧ (s.claimComposition a).scrambler = s.scrambler ∧
    (s.claimComposition a).store = s.store ∧ (s.claimComposition a).sweep = s.sweep ∧
    (s.claimComposition a).bus = s.bus ∧ (s.claimComposition a).arbiter = s.arbiter ∧
    (s.claimComposition a).link = s.link ∧ (s.claimComposition a).notice = s.notice ∧
    (s.claimComposition a).counters = s.counters ∧ (s.claimComposition a).pending = s.pending := by
  simp [State.claimComposition]

@[simp] theorem State.clearMark_keeps (n : Nat) (k : SweepKind) :
    (s.clearMark n k).night = s.night ∧ (s.clearMark n k).straps = s.straps ∧
    (s.clearMark n k).timer = s.timer ∧ (s.clearMark n k).clock = s.clock ∧
    (s.clearMark n k).settings = s.settings ∧ (s.clearMark n k).selection = s.selection ∧
    (s.clearMark n k).scrambler = s.scrambler ∧ (s.clearMark n k).store = s.store ∧
    (s.clearMark n k).port = s.port ∧ (s.clearMark n k).sweep = s.sweep ∧
    (s.clearMark n k).carousel = s.carousel ∧ (s.clearMark n k).bus = s.bus ∧
    (s.clearMark n k).arbiter = s.arbiter ∧ (s.clearMark n k).link = s.link ∧
    (s.clearMark n k).notice = s.notice ∧ (s.clearMark n k).counters = s.counters ∧
    (s.clearMark n k).pending = s.pending := by
  simp [State.clearMark]

@[simp] theorem State.startSweep_keeps (n : Nat) (k : SweepKind) :
    (s.startSweep n k).night = s.night ∧ (s.startSweep n k).straps = s.straps ∧
    (s.startSweep n k).timer = s.timer ∧ (s.startSweep n k).clock = s.clock ∧
    (s.startSweep n k).settings = s.settings ∧ (s.startSweep n k).selection = s.selection ∧
    (s.startSweep n k).scrambler = s.scrambler ∧ (s.startSweep n k).store = s.store ∧
    (s.startSweep n k).carousel = s.carousel ∧ (s.startSweep n k).bus = s.bus ∧
    (s.startSweep n k).arbiter = s.arbiter ∧ (s.startSweep n k).link = s.link ∧
    (s.startSweep n k).notice = s.notice ∧ (s.startSweep n k).counters = s.counters ∧
    (s.startSweep n k).pending = s.pending := by
  simp [State.startSweep]

@[simp] theorem State.chooseSweep_keeps :
    (s.chooseSweep).night = s.night ∧ (s.chooseSweep).straps = s.straps ∧
    (s.chooseSweep).timer = s.timer ∧ (s.chooseSweep).clock = s.clock ∧
    (s.chooseSweep).settings = s.settings ∧ (s.chooseSweep).selection = s.selection ∧
    (s.chooseSweep).scrambler = s.scrambler ∧ (s.chooseSweep).store = s.store ∧
    (s.chooseSweep).carousel = s.carousel ∧ (s.chooseSweep).bus = s.bus ∧
    (s.chooseSweep).arbiter = s.arbiter ∧ (s.chooseSweep).link = s.link ∧
    (s.chooseSweep).notice = s.notice ∧ (s.chooseSweep).counters = s.counters ∧
    (s.chooseSweep).pending = s.pending := by
  unfold State.chooseSweep
  repeat' split
  all_goals simp

@[simp] theorem State.takeOver_keeps (w : Sweep) (k : SweepKind) :
    (s.takeOver w k).night = s.night ∧ (s.takeOver w k).straps = s.straps ∧
    (s.takeOver w k).timer = s.timer ∧ (s.takeOver w k).clock = s.clock ∧
    (s.takeOver w k).settings = s.settings ∧ (s.takeOver w k).selection = s.selection ∧
    (s.takeOver w k).scrambler = s.scrambler ∧ (s.takeOver w k).store = s.store ∧
    (s.takeOver w k).carousel = s.carousel ∧
    (s.takeOver w k).bus = s.bus ∧ (s.takeOver w k).arbiter = s.arbiter ∧
    (s.takeOver w k).link = s.link ∧ (s.takeOver w k).notice = s.notice ∧
    (s.takeOver w k).counters = s.counters ∧ (s.takeOver w k).pending = s.pending := by
  simp [State.takeOver]

@[simp] theorem State.markSet_keeps (n : Nat) :
    (s.markSet n).night = s.night ∧ (s.markSet n).straps = s.straps ∧ (s.markSet n).timer = s.timer ∧
    (s.markSet n).clock = s.clock ∧ (s.markSet n).settings = s.settings ∧
    (s.markSet n).selection = s.selection ∧ (s.markSet n).scrambler = s.scrambler ∧
    (s.markSet n).store = s.store ∧ (s.markSet n).carousel = s.carousel ∧ (s.markSet n).bus = s.bus ∧
    (s.markSet n).arbiter = s.arbiter ∧ (s.markSet n).link = s.link ∧ (s.markSet n).notice = s.notice ∧
    (s.markSet n).counters = s.counters ∧ (s.markSet n).pending = s.pending := by
  unfold State.markSet
  repeat' split
  all_goals simp

@[simp] theorem State.retireIfDone_keeps (n : Nat) :
    (s.retireIfDone n).night = s.night ∧ (s.retireIfDone n).straps = s.straps ∧
    (s.retireIfDone n).timer = s.timer ∧ (s.retireIfDone n).clock = s.clock ∧
    (s.retireIfDone n).settings = s.settings ∧ (s.retireIfDone n).selection = s.selection ∧
    (s.retireIfDone n).scrambler = s.scrambler ∧ (s.retireIfDone n).store = s.store ∧
    (s.retireIfDone n).port = s.port ∧ (s.retireIfDone n).sweep = s.sweep ∧
    (s.retireIfDone n).carousel = s.carousel ∧ (s.retireIfDone n).bus = s.bus ∧
    (s.retireIfDone n).arbiter = s.arbiter ∧ (s.retireIfDone n).link = s.link ∧
    (s.retireIfDone n).notice = s.notice ∧ (s.retireIfDone n).counters = s.counters ∧
    (s.retireIfDone n).pending = s.pending := by
  unfold State.retireIfDone
  repeat' split
  all_goals simp

@[simp] theorem State.report_keeps (n : Nat) (f : Counts → Counts) :
    (s.report n f).night = s.night ∧ (s.report n f).straps = s.straps ∧
    (s.report n f).timer = s.timer ∧ (s.report n f).clock = s.clock ∧
    (s.report n f).settings = s.settings ∧ (s.report n f).selection = s.selection ∧
    (s.report n f).scrambler = s.scrambler ∧ (s.report n f).store = s.store ∧
    (s.report n f).port = s.port ∧ (s.report n f).sweep = s.sweep ∧
    (s.report n f).carousel = s.carousel ∧ (s.report n f).bus = s.bus ∧
    (s.report n f).arbiter = s.arbiter ∧ (s.report n f).link = s.link ∧
    (s.report n f).notice = s.notice ∧ (s.report n f).counters = s.counters ∧
    (s.report n f).pending = s.pending := by
  unfold State.report
  repeat' split
  all_goals simp

@[simp] theorem State.reportRevoked_keeps (n : Nat) :
    (s.reportRevoked n).night = s.night ∧ (s.reportRevoked n).straps = s.straps ∧
    (s.reportRevoked n).timer = s.timer ∧ (s.reportRevoked n).clock = s.clock ∧
    (s.reportRevoked n).settings = s.settings ∧ (s.reportRevoked n).selection = s.selection ∧
    (s.reportRevoked n).scrambler = s.scrambler ∧ (s.reportRevoked n).store = s.store ∧
    (s.reportRevoked n).port = s.port ∧ (s.reportRevoked n).sweep = s.sweep ∧
    (s.reportRevoked n).carousel = s.carousel ∧ (s.reportRevoked n).bus = s.bus ∧
    (s.reportRevoked n).arbiter = s.arbiter ∧ (s.reportRevoked n).link = s.link ∧
    (s.reportRevoked n).notice = s.notice ∧ (s.reportRevoked n).counters = s.counters ∧
    (s.reportRevoked n).pending = s.pending := by
  simp [State.reportRevoked]

@[simp] theorem State.postSwitch_keeps (n service epoch : Nat) (key : Key) :
    (s.postSwitch n service epoch key).night = s.night ∧
    (s.postSwitch n service epoch key).straps = s.straps ∧
    (s.postSwitch n service epoch key).timer = s.timer ∧
    (s.postSwitch n service epoch key).clock = s.clock ∧
    (s.postSwitch n service epoch key).settings = s.settings ∧
    (s.postSwitch n service epoch key).events = s.events ∧
    (s.postSwitch n service epoch key).selection = s.selection ∧
    (s.postSwitch n service epoch key).store = s.store ∧
    (s.postSwitch n service epoch key).port = s.port ∧
    (s.postSwitch n service epoch key).sweep = s.sweep ∧
    (s.postSwitch n service epoch key).carousel = s.carousel ∧
    (s.postSwitch n service epoch key).bus = s.bus ∧
    (s.postSwitch n service epoch key).arbiter = s.arbiter ∧
    (s.postSwitch n service epoch key).link = s.link ∧
    (s.postSwitch n service epoch key).notice = s.notice ∧
    (s.postSwitch n service epoch key).counters = s.counters ∧
    (s.postSwitch n service epoch key).pending = s.pending := by
  simp [State.postSwitch]

@[simp] theorem State.postClear_keeps (n : Nat) :
    (s.postClear n).night = s.night ∧ (s.postClear n).straps = s.straps ∧
    (s.postClear n).timer = s.timer ∧ (s.postClear n).clock = s.clock ∧
    (s.postClear n).settings = s.settings ∧ (s.postClear n).events = s.events ∧
    (s.postClear n).selection = s.selection ∧ (s.postClear n).store = s.store ∧
    (s.postClear n).port = s.port ∧ (s.postClear n).sweep = s.sweep ∧
    (s.postClear n).carousel = s.carousel ∧ (s.postClear n).bus = s.bus ∧
    (s.postClear n).arbiter = s.arbiter ∧ (s.postClear n).link = s.link ∧
    (s.postClear n).notice = s.notice ∧ (s.postClear n).pending = s.pending := by
  repeat' apply And.intro
  all_goals (simp only [State.postClear]; split <;> simp)

@[simp] theorem State.endKeys_keeps (n : Nat) :
    (s.endKeys n).night = s.night ∧ (s.endKeys n).straps = s.straps ∧ (s.endKeys n).timer = s.timer ∧
    (s.endKeys n).clock = s.clock ∧ (s.endKeys n).settings = s.settings ∧
    (s.endKeys n).selection = s.selection ∧ (s.endKeys n).store = s.store ∧
    (s.endKeys n).sweep = s.sweep ∧ (s.endKeys n).carousel = s.carousel ∧
    (s.endKeys n).arbiter = s.arbiter ∧ (s.endKeys n).link = s.link ∧ (s.endKeys n).notice = s.notice ∧
    (s.endKeys n).pending = s.pending := by
  unfold State.endKeys
  repeat' split
  all_goals simp

@[simp] theorem State.advance_keeps (n : Nat) :
    (s.advance n).night = s.night ∧ (s.advance n).straps = s.straps ∧ (s.advance n).timer = s.timer ∧
    (s.advance n).clock = s.clock ∧ (s.advance n).settings = s.settings ∧
    (s.advance n).selection = s.selection ∧ (s.advance n).store = s.store ∧
    (s.advance n).port = s.port ∧ (s.advance n).sweep = s.sweep ∧ (s.advance n).carousel = s.carousel ∧
    (s.advance n).bus = s.bus ∧ (s.advance n).arbiter = s.arbiter ∧ (s.advance n).link = s.link ∧
    (s.advance n).notice = s.notice ∧ (s.advance n).counters = s.counters ∧
    (s.advance n).pending = s.pending := by
  unfold State.advance
  repeat' split
  all_goals simp

@[simp] theorem State.enter_keeps (n : Nat) :
    (s.enter n).night = s.night ∧ (s.enter n).straps = s.straps ∧ (s.enter n).timer = s.timer ∧
    (s.enter n).clock = s.clock ∧ (s.enter n).settings = s.settings ∧
    (s.enter n).selection = s.selection ∧ (s.enter n).store = s.store ∧ (s.enter n).port = s.port ∧
    (s.enter n).sweep = s.sweep ∧ (s.enter n).carousel = s.carousel ∧ (s.enter n).bus = s.bus ∧
    (s.enter n).arbiter = s.arbiter ∧ (s.enter n).link = s.link ∧ (s.enter n).notice = s.notice ∧
    (s.enter n).counters = s.counters ∧ (s.enter n).pending = s.pending := by
  unfold State.enter
  repeat' split
  all_goals simp

@[simp] theorem State.closeEvent_keeps (n : Nat) :
    (s.closeEvent n).night = s.night ∧ (s.closeEvent n).straps = s.straps ∧
    (s.closeEvent n).timer = s.timer ∧ (s.closeEvent n).clock = s.clock ∧
    (s.closeEvent n).settings = s.settings ∧ (s.closeEvent n).selection = s.selection ∧
    (s.closeEvent n).store = s.store ∧ (s.closeEvent n).carousel = s.carousel ∧
    (s.closeEvent n).arbiter = s.arbiter ∧ (s.closeEvent n).link = s.link ∧
    (s.closeEvent n).notice = s.notice ∧ (s.closeEvent n).pending = s.pending := by
  simp [State.closeEvent]

@[simp] theorem State.setKeyLate_keeps (n : Nat) :
    (s.setKeyLate n).night = s.night ∧ (s.setKeyLate n).straps = s.straps ∧
    (s.setKeyLate n).timer = s.timer ∧ (s.setKeyLate n).clock = s.clock ∧
    (s.setKeyLate n).settings = s.settings ∧ (s.setKeyLate n).selection = s.selection ∧
    (s.setKeyLate n).scrambler = s.scrambler ∧ (s.setKeyLate n).store = s.store ∧
    (s.setKeyLate n).port = s.port ∧ (s.setKeyLate n).sweep = s.sweep ∧
    (s.setKeyLate n).carousel = s.carousel ∧ (s.setKeyLate n).bus = s.bus ∧
    (s.setKeyLate n).arbiter = s.arbiter ∧ (s.setKeyLate n).link = s.link ∧
    (s.setKeyLate n).notice = s.notice ∧ (s.setKeyLate n).counters = s.counters ∧
    (s.setKeyLate n).pending = s.pending := by
  unfold State.setKeyLate
  repeat' split
  all_goals simp

@[simp] theorem State.stepSaleOpen_keeps (n : Nat) (w : Window) :
    (s.stepSaleOpen n w).night = s.night ∧ (s.stepSaleOpen n w).straps = s.straps ∧
    (s.stepSaleOpen n w).timer = s.timer ∧ (s.stepSaleOpen n w).clock = s.clock ∧
    (s.stepSaleOpen n w).settings = s.settings ∧ (s.stepSaleOpen n w).selection = s.selection ∧
    (s.stepSaleOpen n w).scrambler = s.scrambler ∧ (s.stepSaleOpen n w).store = s.store ∧
    (s.stepSaleOpen n w).port = s.port ∧ (s.stepSaleOpen n w).sweep = s.sweep ∧
    (s.stepSaleOpen n w).carousel = s.carousel ∧ (s.stepSaleOpen n w).bus = s.bus ∧
    (s.stepSaleOpen n w).arbiter = s.arbiter ∧ (s.stepSaleOpen n w).link = s.link ∧
    (s.stepSaleOpen n w).notice = s.notice ∧ (s.stepSaleOpen n w).counters = s.counters ∧
    (s.stepSaleOpen n w).pending = s.pending := by
  unfold State.stepSaleOpen
  repeat' split
  all_goals simp

@[simp] theorem State.stepEntry_keeps (n : Nat) (w : Window) :
    (s.stepEntry n w).night = s.night ∧ (s.stepEntry n w).straps = s.straps ∧
    (s.stepEntry n w).timer = s.timer ∧ (s.stepEntry n w).clock = s.clock ∧
    (s.stepEntry n w).settings = s.settings ∧ (s.stepEntry n w).selection = s.selection ∧
    (s.stepEntry n w).store = s.store ∧ (s.stepEntry n w).port = s.port ∧
    (s.stepEntry n w).sweep = s.sweep ∧ (s.stepEntry n w).carousel = s.carousel ∧
    (s.stepEntry n w).bus = s.bus ∧ (s.stepEntry n w).arbiter = s.arbiter ∧
    (s.stepEntry n w).link = s.link ∧ (s.stepEntry n w).notice = s.notice ∧
    (s.stepEntry n w).counters = s.counters ∧ (s.stepEntry n w).pending = s.pending := by
  unfold State.stepEntry
  repeat' split
  all_goals simp

@[simp] theorem State.stepLive_keeps (n : Nat) (w : Window) :
    (s.stepLive n w).night = s.night ∧ (s.stepLive n w).straps = s.straps ∧
    (s.stepLive n w).timer = s.timer ∧ (s.stepLive n w).clock = s.clock ∧
    (s.stepLive n w).settings = s.settings ∧ (s.stepLive n w).selection = s.selection ∧
    (s.stepLive n w).scrambler = s.scrambler ∧ (s.stepLive n w).store = s.store ∧
    (s.stepLive n w).port = s.port ∧ (s.stepLive n w).sweep = s.sweep ∧
    (s.stepLive n w).carousel = s.carousel ∧ (s.stepLive n w).bus = s.bus ∧
    (s.stepLive n w).arbiter = s.arbiter ∧ (s.stepLive n w).link = s.link ∧
    (s.stepLive n w).notice = s.notice ∧ (s.stepLive n w).counters = s.counters ∧
    (s.stepLive n w).pending = s.pending := by
  unfold State.stepLive
  repeat' split
  all_goals simp

@[simp] theorem State.stepClose_keeps (n : Nat) (w : Window) :
    (s.stepClose n w).night = s.night ∧ (s.stepClose n w).straps = s.straps ∧
    (s.stepClose n w).timer = s.timer ∧ (s.stepClose n w).clock = s.clock ∧
    (s.stepClose n w).settings = s.settings ∧ (s.stepClose n w).selection = s.selection ∧
    (s.stepClose n w).store = s.store ∧ (s.stepClose n w).carousel = s.carousel ∧
    (s.stepClose n w).arbiter = s.arbiter ∧ (s.stepClose n w).link = s.link ∧
    (s.stepClose n w).notice = s.notice ∧ (s.stepClose n w).pending = s.pending := by
  unfold State.stepClose
  repeat' split
  all_goals simp

@[simp] theorem State.stepEpoch_keeps (n : Nat) :
    (s.stepEpoch n).night = s.night ∧ (s.stepEpoch n).straps = s.straps ∧
    (s.stepEpoch n).timer = s.timer ∧ (s.stepEpoch n).clock = s.clock ∧
    (s.stepEpoch n).settings = s.settings ∧ (s.stepEpoch n).selection = s.selection ∧
    (s.stepEpoch n).store = s.store ∧ (s.stepEpoch n).port = s.port ∧ (s.stepEpoch n).sweep = s.sweep ∧
    (s.stepEpoch n).carousel = s.carousel ∧ (s.stepEpoch n).bus = s.bus ∧
    (s.stepEpoch n).arbiter = s.arbiter ∧ (s.stepEpoch n).link = s.link ∧
    (s.stepEpoch n).notice = s.notice ∧ (s.stepEpoch n).counters = s.counters ∧
    (s.stepEpoch n).pending = s.pending := by
  unfold State.stepEpoch
  repeat' split
  all_goals simp

@[simp] theorem State.deadlineSteps_keeps (n : Nat) :
    (s.deadlineSteps n).night = s.night ∧ (s.deadlineSteps n).straps = s.straps ∧
    (s.deadlineSteps n).timer = s.timer ∧ (s.deadlineSteps n).clock = s.clock ∧
    (s.deadlineSteps n).settings = s.settings ∧ (s.deadlineSteps n).selection = s.selection ∧
    (s.deadlineSteps n).store = s.store ∧ (s.deadlineSteps n).carousel = s.carousel ∧
    (s.deadlineSteps n).arbiter = s.arbiter ∧ (s.deadlineSteps n).link = s.link ∧
    (s.deadlineSteps n).notice = s.notice ∧ (s.deadlineSteps n).pending = s.pending := by
  unfold State.deadlineSteps
  repeat' split
  all_goals simp

@[simp] theorem State.deadlinesOf_keeps (l : List Nat) :
    (s.deadlinesOf l).night = s.night ∧ (s.deadlinesOf l).straps = s.straps ∧
    (s.deadlinesOf l).timer = s.timer ∧ (s.deadlinesOf l).clock = s.clock ∧
    (s.deadlinesOf l).settings = s.settings ∧ (s.deadlinesOf l).selection = s.selection ∧
    (s.deadlinesOf l).store = s.store ∧ (s.deadlinesOf l).carousel = s.carousel ∧
    (s.deadlinesOf l).arbiter = s.arbiter ∧ (s.deadlinesOf l).link = s.link ∧
    (s.deadlinesOf l).notice = s.notice ∧ (s.deadlinesOf l).pending = s.pending := by
  induction l generalizing s with
  | nil => simp [State.deadlinesOf]
  | cons n ns ih => simp [State.deadlinesOf, ih]

@[simp] theorem State.advanceClock_keeps (order : List Nat) :
    (s.advanceClock order).night = s.night ∧ (s.advanceClock order).straps = s.straps ∧
    (s.advanceClock order).timer = s.timer ∧ (s.advanceClock order).settings = s.settings ∧
    (s.advanceClock order).selection = s.selection ∧ (s.advanceClock order).store = s.store ∧
    (s.advanceClock order).carousel = s.carousel ∧ (s.advanceClock order).arbiter = s.arbiter ∧
    (s.advanceClock order).link = s.link ∧ (s.advanceClock order).notice = s.notice ∧
    (s.advanceClock order).pending = s.pending := by
  unfold State.advanceClock
  repeat' split
  all_goals simp

@[simp] theorem State.closeStepNow_keeps (n : Nat) :
    (s.closeStepNow n).night = s.night ∧ (s.closeStepNow n).straps = s.straps ∧
    (s.closeStepNow n).timer = s.timer ∧ (s.closeStepNow n).clock = s.clock ∧
    (s.closeStepNow n).settings = s.settings ∧ (s.closeStepNow n).selection = s.selection ∧
    (s.closeStepNow n).store = s.store ∧ (s.closeStepNow n).carousel = s.carousel ∧
    (s.closeStepNow n).arbiter = s.arbiter ∧ (s.closeStepNow n).link = s.link ∧
    (s.closeStepNow n).notice = s.notice ∧ (s.closeStepNow n).pending = s.pending := by
  unfold State.closeStepNow
  repeat' split
  all_goals simp

@[simp] theorem State.recheck_keeps (n : Nat) :
    (s.recheck n).night = s.night ∧ (s.recheck n).straps = s.straps ∧ (s.recheck n).timer = s.timer ∧
    (s.recheck n).clock = s.clock ∧ (s.recheck n).settings = s.settings ∧
    (s.recheck n).selection = s.selection ∧ (s.recheck n).store = s.store ∧
    (s.recheck n).carousel = s.carousel ∧ (s.recheck n).arbiter = s.arbiter ∧
    (s.recheck n).link = s.link ∧ (s.recheck n).notice = s.notice ∧ (s.recheck n).pending = s.pending := by
  unfold State.recheck
  repeat' split
  all_goals simp

@[simp] theorem State.startCycle_keeps :
    (s.startCycle).night = s.night ∧ (s.startCycle).straps = s.straps ∧
    (s.startCycle).timer = s.timer ∧ (s.startCycle).clock = s.clock ∧
    (s.startCycle).settings = s.settings ∧ (s.startCycle).events = s.events ∧
    (s.startCycle).selection = s.selection ∧ (s.startCycle).scrambler = s.scrambler ∧
    (s.startCycle).store = s.store ∧ (s.startCycle).port = s.port ∧ (s.startCycle).sweep = s.sweep ∧
    (s.startCycle).bus = s.bus ∧ (s.startCycle).arbiter = s.arbiter ∧ (s.startCycle).link = s.link ∧
    (s.startCycle).notice = s.notice ∧ (s.startCycle).counters = s.counters ∧
    (s.startCycle).pending = s.pending := by
  simp [State.startCycle]

@[simp] theorem State.endCycle_keeps :
    (s.endCycle).night = s.night ∧ (s.endCycle).straps = s.straps ∧ (s.endCycle).timer = s.timer ∧
    (s.endCycle).clock = s.clock ∧ (s.endCycle).settings = s.settings ∧
    (s.endCycle).events = s.events ∧ (s.endCycle).selection = s.selection ∧
    (s.endCycle).scrambler = s.scrambler ∧ (s.endCycle).store = s.store ∧ (s.endCycle).port = s.port ∧
    (s.endCycle).sweep = s.sweep ∧ (s.endCycle).bus = s.bus ∧ (s.endCycle).arbiter = s.arbiter ∧
    (s.endCycle).link = s.link ∧ (s.endCycle).notice = s.notice ∧ (s.endCycle).counters = s.counters ∧
    (s.endCycle).pending = s.pending := by
  unfold State.endCycle
  repeat' split
  all_goals simp

@[simp] theorem State.finishPacket_keeps (c : Nat) :
    (s.finishPacket c).night = s.night ∧ (s.finishPacket c).straps = s.straps ∧
    (s.finishPacket c).timer = s.timer ∧ (s.finishPacket c).clock = s.clock ∧
    (s.finishPacket c).settings = s.settings ∧ (s.finishPacket c).events = s.events ∧
    (s.finishPacket c).selection = s.selection ∧ (s.finishPacket c).scrambler = s.scrambler ∧
    (s.finishPacket c).store = s.store ∧ (s.finishPacket c).port = s.port ∧
    (s.finishPacket c).sweep = s.sweep ∧ (s.finishPacket c).bus = s.bus ∧
    (s.finishPacket c).arbiter = s.arbiter ∧ (s.finishPacket c).link = s.link ∧
    (s.finishPacket c).notice = s.notice ∧ (s.finishPacket c).counters = s.counters ∧
    (s.finishPacket c).pending = s.pending := by
  unfold State.finishPacket
  repeat' split
  all_goals simp

@[simp] theorem State.place_keeps (m : Message) (c : TagContent) :
    (s.place m c).night = s.night ∧ (s.place m c).straps = s.straps ∧ (s.place m c).timer = s.timer ∧
    (s.place m c).clock = s.clock ∧ (s.place m c).settings = s.settings ∧
    (s.place m c).events = s.events ∧ (s.place m c).selection = s.selection ∧
    (s.place m c).scrambler = s.scrambler ∧ (s.place m c).store = s.store ∧
    (s.place m c).port = s.port ∧ (s.place m c).sweep = s.sweep ∧ (s.place m c).arbiter = s.arbiter ∧
    (s.place m c).link = s.link ∧ (s.place m c).notice = s.notice ∧
    (s.place m c).counters = s.counters ∧ (s.place m c).pending = s.pending := by
  simp [State.place]

@[simp] theorem State.endAttempt_keeps :
    (s.endAttempt).night = s.night ∧ (s.endAttempt).straps = s.straps ∧
    (s.endAttempt).timer = s.timer ∧ (s.endAttempt).clock = s.clock ∧
    (s.endAttempt).settings = s.settings ∧ (s.endAttempt).events = s.events ∧
    (s.endAttempt).selection = s.selection ∧ (s.endAttempt).scrambler = s.scrambler ∧
    (s.endAttempt).store = s.store ∧ (s.endAttempt).port = s.port ∧ (s.endAttempt).sweep = s.sweep ∧
    (s.endAttempt).bus = s.bus ∧ (s.endAttempt).arbiter = s.arbiter ∧ (s.endAttempt).link = s.link ∧
    (s.endAttempt).notice = s.notice ∧ (s.endAttempt).counters = s.counters ∧
    (s.endAttempt).pending = s.pending := by
  simp [State.endAttempt]

@[simp] theorem State.nothingEligible_keeps :
    (s.nothingEligible).night = s.night ∧ (s.nothingEligible).straps = s.straps ∧
    (s.nothingEligible).timer = s.timer ∧ (s.nothingEligible).clock = s.clock ∧
    (s.nothingEligible).settings = s.settings ∧ (s.nothingEligible).events = s.events ∧
    (s.nothingEligible).selection = s.selection ∧ (s.nothingEligible).scrambler = s.scrambler ∧
    (s.nothingEligible).store = s.store ∧ (s.nothingEligible).port = s.port ∧
    (s.nothingEligible).sweep = s.sweep ∧ (s.nothingEligible).bus = s.bus ∧
    (s.nothingEligible).arbiter = s.arbiter ∧ (s.nothingEligible).link = s.link ∧
    (s.nothingEligible).notice = s.notice ∧ (s.nothingEligible).counters = s.counters ∧
    (s.nothingEligible).pending = s.pending := by
  simp [State.nothingEligible]

@[simp] theorem State.tryFreshRest_keeps :
    (s.tryFreshRest).night = s.night ∧ (s.tryFreshRest).straps = s.straps ∧
    (s.tryFreshRest).timer = s.timer ∧ (s.tryFreshRest).clock = s.clock ∧
    (s.tryFreshRest).settings = s.settings ∧ (s.tryFreshRest).events = s.events ∧
    (s.tryFreshRest).selection = s.selection ∧ (s.tryFreshRest).scrambler = s.scrambler ∧
    (s.tryFreshRest).store = s.store ∧ (s.tryFreshRest).sweep = s.sweep ∧
    (s.tryFreshRest).bus = s.bus ∧ (s.tryFreshRest).arbiter = s.arbiter ∧
    (s.tryFreshRest).link = s.link ∧ (s.tryFreshRest).notice = s.notice ∧
    (s.tryFreshRest).counters = s.counters ∧ (s.tryFreshRest).pending = s.pending := by
  unfold State.tryFreshRest
  repeat' split
  all_goals simp

@[simp] theorem State.tryUrgentRest_keeps :
    (s.tryUrgentRest).night = s.night ∧ (s.tryUrgentRest).straps = s.straps ∧
    (s.tryUrgentRest).timer = s.timer ∧ (s.tryUrgentRest).clock = s.clock ∧
    (s.tryUrgentRest).settings = s.settings ∧ (s.tryUrgentRest).events = s.events ∧
    (s.tryUrgentRest).selection = s.selection ∧ (s.tryUrgentRest).scrambler = s.scrambler ∧
    (s.tryUrgentRest).store = s.store ∧ (s.tryUrgentRest).sweep = s.sweep ∧
    (s.tryUrgentRest).bus = s.bus ∧ (s.tryUrgentRest).arbiter = s.arbiter ∧
    (s.tryUrgentRest).link = s.link ∧ (s.tryUrgentRest).notice = s.notice ∧
    (s.tryUrgentRest).counters = s.counters ∧ (s.tryUrgentRest).pending = s.pending := by
  unfold State.tryUrgentRest
  repeat' split
  all_goals simp

@[simp] theorem State.tryRefresh_keeps (r : Nat) :
    (s.tryRefresh r).night = s.night ∧ (s.tryRefresh r).straps = s.straps ∧
    (s.tryRefresh r).timer = s.timer ∧ (s.tryRefresh r).clock = s.clock ∧
    (s.tryRefresh r).settings = s.settings ∧ (s.tryRefresh r).events = s.events ∧
    (s.tryRefresh r).selection = s.selection ∧ (s.tryRefresh r).scrambler = s.scrambler ∧
    (s.tryRefresh r).store = s.store ∧ (s.tryRefresh r).sweep = s.sweep ∧
    (s.tryRefresh r).bus = s.bus ∧ (s.tryRefresh r).arbiter = s.arbiter ∧
    (s.tryRefresh r).link = s.link ∧ (s.tryRefresh r).notice = s.notice ∧
    (s.tryRefresh r).counters = s.counters ∧ (s.tryRefresh r).pending = s.pending := by
  unfold State.tryRefresh
  repeat' split
  all_goals simp

@[simp] theorem State.tryFreshShare_keeps :
    (s.tryFreshShare).night = s.night ∧ (s.tryFreshShare).straps = s.straps ∧
    (s.tryFreshShare).timer = s.timer ∧ (s.tryFreshShare).clock = s.clock ∧
    (s.tryFreshShare).settings = s.settings ∧ (s.tryFreshShare).events = s.events ∧
    (s.tryFreshShare).selection = s.selection ∧ (s.tryFreshShare).scrambler = s.scrambler ∧
    (s.tryFreshShare).store = s.store ∧ (s.tryFreshShare).sweep = s.sweep ∧
    (s.tryFreshShare).bus = s.bus ∧ (s.tryFreshShare).arbiter = s.arbiter ∧
    (s.tryFreshShare).link = s.link ∧ (s.tryFreshShare).notice = s.notice ∧
    (s.tryFreshShare).counters = s.counters ∧ (s.tryFreshShare).pending = s.pending := by
  unfold State.tryFreshShare
  repeat' split
  all_goals simp

@[simp] theorem State.tryUrgentShare_keeps :
    (s.tryUrgentShare).night = s.night ∧ (s.tryUrgentShare).straps = s.straps ∧
    (s.tryUrgentShare).timer = s.timer ∧ (s.tryUrgentShare).clock = s.clock ∧
    (s.tryUrgentShare).settings = s.settings ∧ (s.tryUrgentShare).events = s.events ∧
    (s.tryUrgentShare).selection = s.selection ∧ (s.tryUrgentShare).scrambler = s.scrambler ∧
    (s.tryUrgentShare).store = s.store ∧ (s.tryUrgentShare).sweep = s.sweep ∧
    (s.tryUrgentShare).bus = s.bus ∧ (s.tryUrgentShare).arbiter = s.arbiter ∧
    (s.tryUrgentShare).link = s.link ∧ (s.tryUrgentShare).notice = s.notice ∧
    (s.tryUrgentShare).counters = s.counters ∧ (s.tryUrgentShare).pending = s.pending := by
  unfold State.tryUrgentShare
  repeat' split
  all_goals simp

@[simp] theorem State.tryOwed_keeps (l : List OwedEntry) :
    (State.tryOwed l s).night = s.night ∧ (State.tryOwed l s).straps = s.straps ∧
    (State.tryOwed l s).timer = s.timer ∧ (State.tryOwed l s).clock = s.clock ∧
    (State.tryOwed l s).settings = s.settings ∧ (State.tryOwed l s).events = s.events ∧
    (State.tryOwed l s).selection = s.selection ∧ (State.tryOwed l s).scrambler = s.scrambler ∧
    (State.tryOwed l s).store = s.store ∧ (State.tryOwed l s).sweep = s.sweep ∧
    (State.tryOwed l s).arbiter = s.arbiter ∧ (State.tryOwed l s).link = s.link ∧
    (State.tryOwed l s).notice = s.notice ∧ (State.tryOwed l s).counters = s.counters ∧
    (State.tryOwed l s).pending = s.pending := by
  induction l generalizing s with
  | nil => simp [State.tryOwed]
  | cons n ns ih =>
    unfold State.tryOwed
    split
    · simp
    · exact ih s

@[simp] theorem State.emit_keeps (m : Message) (c : TagContent) (f : Carousel → Carousel) :
    (s.emit m c f).night = s.night ∧ (s.emit m c f).straps = s.straps ∧
    (s.emit m c f).timer = s.timer ∧ (s.emit m c f).clock = s.clock ∧
    (s.emit m c f).settings = s.settings ∧ (s.emit m c f).events = s.events ∧
    (s.emit m c f).selection = s.selection ∧ (s.emit m c f).scrambler = s.scrambler ∧
    (s.emit m c f).store = s.store ∧ (s.emit m c f).port = s.port ∧ (s.emit m c f).sweep = s.sweep ∧
    (s.emit m c f).arbiter = s.arbiter ∧ (s.emit m c f).link = s.link ∧
    (s.emit m c f).notice = s.notice ∧ (s.emit m c f).counters = s.counters ∧
    (s.emit m c f).pending = s.pending := by
  unfold State.emit
  repeat' split
  all_goals simp

@[simp] theorem State.emitRevoke_keeps (n : Nat) (g : Grant) (why : Option RevokeReason) (f : Carousel → Carousel) :
    (s.emitRevoke n g why f).night = s.night ∧ (s.emitRevoke n g why f).straps = s.straps ∧
    (s.emitRevoke n g why f).timer = s.timer ∧ (s.emitRevoke n g why f).clock = s.clock ∧
    (s.emitRevoke n g why f).settings = s.settings ∧ (s.emitRevoke n g why f).events = s.events ∧
    (s.emitRevoke n g why f).selection = s.selection ∧
    (s.emitRevoke n g why f).scrambler = s.scrambler ∧ (s.emitRevoke n g why f).store = s.store ∧
    (s.emitRevoke n g why f).port = s.port ∧ (s.emitRevoke n g why f).sweep = s.sweep ∧
    (s.emitRevoke n g why f).arbiter = s.arbiter ∧ (s.emitRevoke n g why f).link = s.link ∧
    (s.emitRevoke n g why f).notice = s.notice ∧ (s.emitRevoke n g why f).counters = s.counters ∧
    (s.emitRevoke n g why f).pending = s.pending := by
  simp [State.emitRevoke]

@[simp] theorem State.emitCandidate_keeps (n : Nat) (g : Grant) (f : Carousel → Carousel) :
    (s.emitCandidate n g f).night = s.night ∧ (s.emitCandidate n g f).straps = s.straps ∧
    (s.emitCandidate n g f).timer = s.timer ∧ (s.emitCandidate n g f).clock = s.clock ∧
    (s.emitCandidate n g f).settings = s.settings ∧ (s.emitCandidate n g f).events = s.events ∧
    (s.emitCandidate n g f).selection = s.selection ∧ (s.emitCandidate n g f).scrambler = s.scrambler ∧
    (s.emitCandidate n g f).port = s.port ∧ (s.emitCandidate n g f).sweep = s.sweep ∧
    (s.emitCandidate n g f).arbiter = s.arbiter ∧ (s.emitCandidate n g f).link = s.link ∧
    (s.emitCandidate n g f).notice = s.notice ∧ (s.emitCandidate n g f).counters = s.counters ∧
    (s.emitCandidate n g f).pending = s.pending := by
  unfold State.emitCandidate
  repeat' split
  all_goals simp

@[simp] theorem State.moveCursor_keeps :
    (s.moveCursor).night = s.night ∧ (s.moveCursor).straps = s.straps ∧
    (s.moveCursor).timer = s.timer ∧ (s.moveCursor).clock = s.clock ∧
    (s.moveCursor).settings = s.settings ∧ (s.moveCursor).events = s.events ∧
    (s.moveCursor).selection = s.selection ∧ (s.moveCursor).scrambler = s.scrambler ∧
    (s.moveCursor).store = s.store ∧ (s.moveCursor).port = s.port ∧ (s.moveCursor).sweep = s.sweep ∧
    (s.moveCursor).bus = s.bus ∧ (s.moveCursor).arbiter = s.arbiter ∧ (s.moveCursor).link = s.link ∧
    (s.moveCursor).notice = s.notice ∧ (s.moveCursor).counters = s.counters ∧
    (s.moveCursor).pending = s.pending := by
  simp [State.moveCursor]

@[simp] theorem State.bookKey_keeps (n : Nat) (c : Option Nat) :
    (s.bookKey n c).night = s.night ∧ (s.bookKey n c).straps = s.straps ∧
    (s.bookKey n c).timer = s.timer ∧ (s.bookKey n c).clock = s.clock ∧
    (s.bookKey n c).settings = s.settings ∧ (s.bookKey n c).selection = s.selection ∧
    (s.bookKey n c).store = s.store ∧ (s.bookKey n c).carousel = s.carousel ∧
    (s.bookKey n c).arbiter = s.arbiter ∧ (s.bookKey n c).link = s.link ∧
    (s.bookKey n c).notice = s.notice ∧ (s.bookKey n c).pending = s.pending := by
  unfold State.bookKey
  repeat' split
  all_goals simp

@[simp] theorem State.bookState_keeps (n : Nat) (c : EventState) :
    (s.bookState n c).night = s.night ∧ (s.bookState n c).straps = s.straps ∧
    (s.bookState n c).timer = s.timer ∧ (s.bookState n c).clock = s.clock ∧
    (s.bookState n c).settings = s.settings ∧ (s.bookState n c).selection = s.selection ∧
    (s.bookState n c).scrambler = s.scrambler ∧ (s.bookState n c).store = s.store ∧
    (s.bookState n c).port = s.port ∧ (s.bookState n c).sweep = s.sweep ∧
    (s.bookState n c).carousel = s.carousel ∧ (s.bookState n c).bus = s.bus ∧
    (s.bookState n c).arbiter = s.arbiter ∧ (s.bookState n c).link = s.link ∧
    (s.bookState n c).notice = s.notice ∧ (s.bookState n c).counters = s.counters ∧
    (s.bookState n c).pending = s.pending := by
  unfold State.bookState
  repeat' split
  all_goals simp

@[simp] theorem State.book_keeps (t : Tag) :
    (s.book t).night = s.night ∧ (s.book t).straps = s.straps ∧ (s.book t).timer = s.timer ∧
    (s.book t).clock = s.clock ∧ (s.book t).settings = s.settings ∧
    (s.book t).selection = s.selection ∧ (s.book t).store = s.store ∧
    (s.book t).carousel = s.carousel ∧ (s.book t).arbiter = s.arbiter ∧ (s.book t).link = s.link ∧
    (s.book t).notice = s.notice ∧ (s.book t).pending = s.pending := by
  unfold State.book
  repeat' split
  all_goals simp

@[simp] theorem State.complete_keeps (t : Option Tag) :
    (s.complete t).night = s.night ∧ (s.complete t).straps = s.straps ∧
    (s.complete t).timer = s.timer ∧ (s.complete t).clock = s.clock ∧
    (s.complete t).settings = s.settings ∧ (s.complete t).selection = s.selection ∧
    (s.complete t).store = s.store ∧ (s.complete t).arbiter = s.arbiter ∧
    (s.complete t).link = s.link ∧ (s.complete t).notice = s.notice ∧ (s.complete t).pending = s.pending := by
  unfold State.complete
  repeat' split
  all_goals simp

@[simp] theorem State.startWipe_keeps :
    (s.startWipe).night = s.night ∧ (s.startWipe).straps = s.straps ∧ (s.startWipe).timer = s.timer ∧
    (s.startWipe).clock = s.clock ∧ (s.startWipe).settings = s.settings ∧
    (s.startWipe).selection = s.selection ∧ (s.startWipe).scrambler = s.scrambler ∧
    (s.startWipe).bus = s.bus ∧ (s.startWipe).arbiter = s.arbiter ∧ (s.startWipe).link = s.link ∧
    (s.startWipe).notice = s.notice ∧ (s.startWipe).counters = s.counters ∧
    (s.startWipe).pending = s.pending := by
  simp [State.startWipe]

@[simp] theorem State.finishLost_keeps (t : Option Tag) :
    (s.finishLost t).night = s.night ∧ (s.finishLost t).straps = s.straps ∧
    (s.finishLost t).timer = s.timer ∧ (s.finishLost t).clock = s.clock ∧
    (s.finishLost t).settings = s.settings ∧ (s.finishLost t).events = s.events ∧
    (s.finishLost t).selection = s.selection ∧ (s.finishLost t).scrambler = s.scrambler ∧
    (s.finishLost t).store = s.store ∧ (s.finishLost t).port = s.port ∧
    (s.finishLost t).sweep = s.sweep ∧ (s.finishLost t).bus = s.bus ∧
    (s.finishLost t).arbiter = s.arbiter ∧ (s.finishLost t).link = s.link ∧
    (s.finishLost t).notice = s.notice ∧ (s.finishLost t).counters = s.counters ∧
    (s.finishLost t).pending = s.pending := by
  unfold State.finishLost
  repeat' split
  all_goals simp

@[simp] theorem State.modeFault_keeps :
    (s.modeFault).night = s.night ∧ (s.modeFault).straps = s.straps ∧ (s.modeFault).timer = s.timer ∧
    (s.modeFault).clock = s.clock ∧ (s.modeFault).settings = s.settings ∧
    (s.modeFault).events = s.events ∧ (s.modeFault).selection = s.selection ∧
    (s.modeFault).scrambler = s.scrambler ∧ (s.modeFault).store = s.store ∧
    (s.modeFault).port = s.port ∧ (s.modeFault).sweep = s.sweep ∧ (s.modeFault).arbiter = s.arbiter ∧
    (s.modeFault).link = s.link ∧ (s.modeFault).pending = s.pending := by
  simp [State.modeFault]

@[simp] theorem State.reinstate_keeps (n : Nat) (f : AddFields) :
    (s.reinstate n f).night = s.night ∧ (s.reinstate n f).straps = s.straps ∧
    (s.reinstate n f).timer = s.timer ∧ (s.reinstate n f).clock = s.clock ∧
    (s.reinstate n f).settings = s.settings ∧ (s.reinstate n f).selection = s.selection ∧
    (s.reinstate n f).scrambler = s.scrambler ∧ (s.reinstate n f).port = s.port ∧
    (s.reinstate n f).sweep = s.sweep ∧ (s.reinstate n f).bus = s.bus ∧
    (s.reinstate n f).arbiter = s.arbiter ∧ (s.reinstate n f).link = s.link ∧
    (s.reinstate n f).pending = s.pending := by
  simp [State.reinstate]

@[simp] theorem State.drawSlot_keeps (x : SlotState) :
    (s.drawSlot x).night = s.night ∧ (s.drawSlot x).straps = s.straps ∧
    (s.drawSlot x).timer = s.timer ∧ (s.drawSlot x).clock = s.clock ∧
    (s.drawSlot x).settings = s.settings ∧ (s.drawSlot x).events = s.events ∧
    (s.drawSlot x).selection = s.selection ∧ (s.drawSlot x).scrambler = s.scrambler ∧
    (s.drawSlot x).port = s.port ∧ (s.drawSlot x).sweep = s.sweep ∧
    (s.drawSlot x).carousel = s.carousel ∧ (s.drawSlot x).bus = s.bus ∧
    (s.drawSlot x).arbiter = s.arbiter ∧ (s.drawSlot x).link = s.link ∧
    (s.drawSlot x).notice = s.notice ∧ (s.drawSlot x).counters = s.counters ∧
    (s.drawSlot x).pending = s.pending := by
  unfold State.drawSlot
  repeat' split
  all_goals simp

@[simp] theorem State.insert_keeps (n : Nat) (f : AddFields) :
    (s.insert n f).night = s.night ∧ (s.insert n f).straps = s.straps ∧
    (s.insert n f).timer = s.timer ∧ (s.insert n f).clock = s.clock ∧
    (s.insert n f).settings = s.settings ∧ (s.insert n f).selection = s.selection ∧
    (s.insert n f).scrambler = s.scrambler ∧ (s.insert n f).port = s.port ∧
    (s.insert n f).sweep = s.sweep ∧ (s.insert n f).bus = s.bus ∧ (s.insert n f).arbiter = s.arbiter ∧
    (s.insert n f).link = s.link ∧ (s.insert n f).pending = s.pending := by
  simp [State.insert]

@[simp] theorem State.revokeUnsent_keeps (n e : Nat) :
    (s.revokeUnsent n e).night = s.night ∧ (s.revokeUnsent n e).straps = s.straps ∧
    (s.revokeUnsent n e).timer = s.timer ∧ (s.revokeUnsent n e).clock = s.clock ∧
    (s.revokeUnsent n e).settings = s.settings ∧ (s.revokeUnsent n e).selection = s.selection ∧
    (s.revokeUnsent n e).scrambler = s.scrambler ∧ (s.revokeUnsent n e).port = s.port ∧
    (s.revokeUnsent n e).sweep = s.sweep ∧ (s.revokeUnsent n e).carousel = s.carousel ∧
    (s.revokeUnsent n e).bus = s.bus ∧ (s.revokeUnsent n e).arbiter = s.arbiter ∧
    (s.revokeUnsent n e).link = s.link ∧ (s.revokeUnsent n e).notice = s.notice ∧
    (s.revokeUnsent n e).counters = s.counters ∧ (s.revokeUnsent n e).pending = s.pending := by
  simp [State.revokeUnsent]

@[simp] theorem State.revokeSent_keeps (n : Nat) (why : RevokeReason) :
    (s.revokeSent n why).night = s.night ∧ (s.revokeSent n why).straps = s.straps ∧
    (s.revokeSent n why).timer = s.timer ∧ (s.revokeSent n why).clock = s.clock ∧
    (s.revokeSent n why).settings = s.settings ∧ (s.revokeSent n why).events = s.events ∧
    (s.revokeSent n why).selection = s.selection ∧ (s.revokeSent n why).scrambler = s.scrambler ∧
    (s.revokeSent n why).port = s.port ∧ (s.revokeSent n why).sweep = s.sweep ∧
    (s.revokeSent n why).bus = s.bus ∧ (s.revokeSent n why).arbiter = s.arbiter ∧
    (s.revokeSent n why).link = s.link ∧ (s.revokeSent n why).pending = s.pending := by
  simp [State.revokeSent]

@[simp] theorem State.clearSlotMark_keeps (n : Nat) :
    (s.clearSlotMark n).night = s.night ∧ (s.clearSlotMark n).straps = s.straps ∧
    (s.clearSlotMark n).timer = s.timer ∧ (s.clearSlotMark n).clock = s.clock ∧
    (s.clearSlotMark n).settings = s.settings ∧ (s.clearSlotMark n).events = s.events ∧
    (s.clearSlotMark n).selection = s.selection ∧ (s.clearSlotMark n).scrambler = s.scrambler ∧
    (s.clearSlotMark n).port = s.port ∧ (s.clearSlotMark n).sweep = s.sweep ∧
    (s.clearSlotMark n).carousel = s.carousel ∧ (s.clearSlotMark n).bus = s.bus ∧
    (s.clearSlotMark n).arbiter = s.arbiter ∧ (s.clearSlotMark n).link = s.link ∧
    (s.clearSlotMark n).notice = s.notice ∧ (s.clearSlotMark n).counters = s.counters ∧
    (s.clearSlotMark n).pending = s.pending := by
  simp [State.clearSlotMark]

@[simp] theorem State.updateGrant_keeps (n d e : Nat) :
    (s.updateGrant n d e).night = s.night ∧ (s.updateGrant n d e).straps = s.straps ∧
    (s.updateGrant n d e).timer = s.timer ∧ (s.updateGrant n d e).clock = s.clock ∧
    (s.updateGrant n d e).settings = s.settings ∧ (s.updateGrant n d e).events = s.events ∧
    (s.updateGrant n d e).selection = s.selection ∧ (s.updateGrant n d e).scrambler = s.scrambler ∧
    (s.updateGrant n d e).port = s.port ∧ (s.updateGrant n d e).sweep = s.sweep ∧
    (s.updateGrant n d e).carousel = s.carousel ∧ (s.updateGrant n d e).bus = s.bus ∧
    (s.updateGrant n d e).arbiter = s.arbiter ∧ (s.updateGrant n d e).link = s.link ∧
    (s.updateGrant n d e).pending = s.pending := by
  repeat' apply And.intro
  all_goals (simp only [State.updateGrant]; split <;> simp)

@[simp] theorem State.updateRevoke_keeps (n d e : Nat) :
    (s.updateRevoke n d e).night = s.night ∧ (s.updateRevoke n d e).straps = s.straps ∧
    (s.updateRevoke n d e).timer = s.timer ∧ (s.updateRevoke n d e).clock = s.clock ∧
    (s.updateRevoke n d e).settings = s.settings ∧ (s.updateRevoke n d e).selection = s.selection ∧
    (s.updateRevoke n d e).scrambler = s.scrambler ∧ (s.updateRevoke n d e).port = s.port ∧
    (s.updateRevoke n d e).sweep = s.sweep ∧ (s.updateRevoke n d e).carousel = s.carousel ∧
    (s.updateRevoke n d e).bus = s.bus ∧ (s.updateRevoke n d e).arbiter = s.arbiter ∧
    (s.updateRevoke n d e).link = s.link ∧ (s.updateRevoke n d e).pending = s.pending := by
  repeat' apply And.intro
  all_goals (simp only [State.updateRevoke]; repeat' split) <;> simp

@[simp] theorem State.endUpdate_keeps (r : List Tag) :
    (s.endUpdate r).night = s.night ∧ (s.endUpdate r).straps = s.straps ∧
    (s.endUpdate r).timer = s.timer ∧ (s.endUpdate r).clock = s.clock ∧
    (s.endUpdate r).settings = s.settings ∧ (s.endUpdate r).events = s.events ∧
    (s.endUpdate r).selection = s.selection ∧ (s.endUpdate r).scrambler = s.scrambler ∧
    (s.endUpdate r).store = s.store ∧ (s.endUpdate r).sweep = s.sweep ∧
    (s.endUpdate r).carousel = s.carousel ∧ (s.endUpdate r).bus = s.bus ∧
    (s.endUpdate r).arbiter = s.arbiter ∧ (s.endUpdate r).link = s.link ∧
    (s.endUpdate r).notice = s.notice ∧ (s.endUpdate r).counters = s.counters ∧
    (s.endUpdate r).pending = s.pending := by
  simp [State.endUpdate]

@[simp] theorem State.revokeVisited_keeps (n : Nat) (g : Grant) (why : RevokeReason) :
    (s.revokeVisited n g why).night = s.night ∧ (s.revokeVisited n g why).straps = s.straps ∧
    (s.revokeVisited n g why).timer = s.timer ∧ (s.revokeVisited n g why).clock = s.clock ∧
    (s.revokeVisited n g why).settings = s.settings ∧
    (s.revokeVisited n g why).selection = s.selection ∧
    (s.revokeVisited n g why).scrambler = s.scrambler ∧ (s.revokeVisited n g why).port = s.port ∧
    (s.revokeVisited n g why).sweep = s.sweep ∧ (s.revokeVisited n g why).bus = s.bus ∧
    (s.revokeVisited n g why).arbiter = s.arbiter ∧ (s.revokeVisited n g why).link = s.link ∧
    (s.revokeVisited n g why).pending = s.pending := by
  unfold State.revokeVisited
  repeat' split
  all_goals simp

@[simp] theorem State.retireVisited_keeps (n e : Nat) :
    (s.retireVisited n e).night = s.night ∧ (s.retireVisited n e).straps = s.straps ∧
    (s.retireVisited n e).timer = s.timer ∧ (s.retireVisited n e).clock = s.clock ∧
    (s.retireVisited n e).settings = s.settings ∧ (s.retireVisited n e).selection = s.selection ∧
    (s.retireVisited n e).scrambler = s.scrambler ∧ (s.retireVisited n e).port = s.port ∧
    (s.retireVisited n e).sweep = s.sweep ∧ (s.retireVisited n e).carousel = s.carousel ∧
    (s.retireVisited n e).bus = s.bus ∧ (s.retireVisited n e).arbiter = s.arbiter ∧
    (s.retireVisited n e).link = s.link ∧ (s.retireVisited n e).notice = s.notice ∧
    (s.retireVisited n e).counters = s.counters ∧ (s.retireVisited n e).pending = s.pending := by
  simp [State.retireVisited]

@[simp] theorem State.visitAct_keeps (n : Nat) (g : Grant) (k : SweepKind) :
    (s.visitAct n g k).night = s.night ∧ (s.visitAct n g k).straps = s.straps ∧
    (s.visitAct n g k).timer = s.timer ∧ (s.visitAct n g k).clock = s.clock ∧
    (s.visitAct n g k).settings = s.settings ∧ (s.visitAct n g k).selection = s.selection ∧
    (s.visitAct n g k).scrambler = s.scrambler ∧ (s.visitAct n g k).port = s.port ∧
    (s.visitAct n g k).sweep = s.sweep ∧ (s.visitAct n g k).bus = s.bus ∧
    (s.visitAct n g k).arbiter = s.arbiter ∧ (s.visitAct n g k).link = s.link ∧
    (s.visitAct n g k).pending = s.pending := by
  unfold State.visitAct
  repeat' split
  all_goals simp

@[simp] theorem State.sweepEffect_keeps (n : Nat) (k : SweepKind) :
    (s.sweepEffect n k).night = s.night ∧ (s.sweepEffect n k).straps = s.straps ∧
    (s.sweepEffect n k).timer = s.timer ∧ (s.sweepEffect n k).clock = s.clock ∧
    (s.sweepEffect n k).settings = s.settings ∧ (s.sweepEffect n k).selection = s.selection ∧
    (s.sweepEffect n k).scrambler = s.scrambler ∧ (s.sweepEffect n k).store = s.store ∧
    (s.sweepEffect n k).port = s.port ∧ (s.sweepEffect n k).sweep = s.sweep ∧
    (s.sweepEffect n k).carousel = s.carousel ∧ (s.sweepEffect n k).bus = s.bus ∧
    (s.sweepEffect n k).arbiter = s.arbiter ∧ (s.sweepEffect n k).link = s.link ∧
    (s.sweepEffect n k).notice = s.notice ∧ (s.sweepEffect n k).counters = s.counters ∧
    (s.sweepEffect n k).pending = s.pending := by
  unfold State.sweepEffect
  repeat' split
  all_goals simp

@[simp] theorem State.completeSweep_keeps (n : Nat) (k : SweepKind) :
    (s.completeSweep n k).night = s.night ∧ (s.completeSweep n k).straps = s.straps ∧
    (s.completeSweep n k).timer = s.timer ∧ (s.completeSweep n k).clock = s.clock ∧
    (s.completeSweep n k).settings = s.settings ∧ (s.completeSweep n k).selection = s.selection ∧
    (s.completeSweep n k).scrambler = s.scrambler ∧ (s.completeSweep n k).store = s.store ∧
    (s.completeSweep n k).carousel = s.carousel ∧ (s.completeSweep n k).bus = s.bus ∧
    (s.completeSweep n k).arbiter = s.arbiter ∧ (s.completeSweep n k).link = s.link ∧
    (s.completeSweep n k).notice = s.notice ∧ (s.completeSweep n k).counters = s.counters ∧
    (s.completeSweep n k).pending = s.pending := by
  simp [State.completeSweep]

@[simp] theorem State.endVisit_keeps (w : Sweep) (o : Bool) :
    (s.endVisit w o).night = s.night ∧ (s.endVisit w o).straps = s.straps ∧
    (s.endVisit w o).timer = s.timer ∧ (s.endVisit w o).clock = s.clock ∧
    (s.endVisit w o).settings = s.settings ∧ (s.endVisit w o).selection = s.selection ∧
    (s.endVisit w o).scrambler = s.scrambler ∧ (s.endVisit w o).store = s.store ∧
    (s.endVisit w o).carousel = s.carousel ∧ (s.endVisit w o).bus = s.bus ∧
    (s.endVisit w o).arbiter = s.arbiter ∧ (s.endVisit w o).link = s.link ∧
    (s.endVisit w o).notice = s.notice ∧ (s.endVisit w o).counters = s.counters ∧
    (s.endVisit w o).pending = s.pending := by
  unfold State.endVisit
  repeat' split
  all_goals simp

@[simp] theorem State.answer_keeps (b : Bool) (t c : Byte) (r : ResultCode) (x : List Byte) :
    (s.answer b t c r x).night = s.night ∧ (s.answer b t c r x).straps = s.straps ∧
    (s.answer b t c r x).timer = s.timer ∧ (s.answer b t c r x).clock = s.clock ∧
    (s.answer b t c r x).settings = s.settings ∧ (s.answer b t c r x).events = s.events ∧
    (s.answer b t c r x).selection = s.selection ∧ (s.answer b t c r x).scrambler = s.scrambler ∧
    (s.answer b t c r x).store = s.store ∧ (s.answer b t c r x).port = s.port ∧
    (s.answer b t c r x).sweep = s.sweep ∧ (s.answer b t c r x).carousel = s.carousel ∧
    (s.answer b t c r x).bus = s.bus ∧ (s.answer b t c r x).arbiter = s.arbiter ∧
    (s.answer b t c r x).notice = s.notice ∧ (s.answer b t c r x).counters = s.counters ∧
    (s.answer b t c r x).pending = s.pending := by
  simp [State.answer]

@[simp] theorem State.finish_keeps (h : HeldRequest) (r : ResultCode) (x : List Byte) :
    (s.finish h r x).night = s.night ∧ (s.finish h r x).straps = s.straps ∧
    (s.finish h r x).timer = s.timer ∧ (s.finish h r x).clock = s.clock ∧
    (s.finish h r x).settings = s.settings ∧ (s.finish h r x).events = s.events ∧
    (s.finish h r x).selection = s.selection ∧ (s.finish h r x).scrambler = s.scrambler ∧
    (s.finish h r x).store = s.store ∧ (s.finish h r x).port = s.port ∧
    (s.finish h r x).sweep = s.sweep ∧ (s.finish h r x).carousel = s.carousel ∧
    (s.finish h r x).bus = s.bus ∧ (s.finish h r x).arbiter = s.arbiter ∧
    (s.finish h r x).notice = s.notice ∧ (s.finish h r x).counters = s.counters ∧
    (s.finish h r x).pending = s.pending := by
  simp [State.finish]

@[simp] theorem State.refuse_keeps (h : HeldRequest) (r : ResultCode) :
    (s.refuse h r).night = s.night ∧ (s.refuse h r).straps = s.straps ∧
    (s.refuse h r).timer = s.timer ∧ (s.refuse h r).clock = s.clock ∧
    (s.refuse h r).settings = s.settings ∧ (s.refuse h r).events = s.events ∧
    (s.refuse h r).selection = s.selection ∧ (s.refuse h r).scrambler = s.scrambler ∧
    (s.refuse h r).store = s.store ∧ (s.refuse h r).port = s.port ∧ (s.refuse h r).sweep = s.sweep ∧
    (s.refuse h r).carousel = s.carousel ∧ (s.refuse h r).bus = s.bus ∧
    (s.refuse h r).arbiter = s.arbiter ∧ (s.refuse h r).notice = s.notice ∧
    (s.refuse h r).counters = s.counters ∧ (s.refuse h r).pending = s.pending := by
  simp [State.refuse]

@[simp] theorem State.badField_keeps (h : HeldRequest) (i : Nat) :
    (s.badField h i).night = s.night ∧ (s.badField h i).straps = s.straps ∧
    (s.badField h i).timer = s.timer ∧ (s.badField h i).clock = s.clock ∧
    (s.badField h i).settings = s.settings ∧ (s.badField h i).events = s.events ∧
    (s.badField h i).selection = s.selection ∧ (s.badField h i).scrambler = s.scrambler ∧
    (s.badField h i).store = s.store ∧ (s.badField h i).port = s.port ∧
    (s.badField h i).sweep = s.sweep ∧ (s.badField h i).carousel = s.carousel ∧
    (s.badField h i).bus = s.bus ∧ (s.badField h i).arbiter = s.arbiter ∧
    (s.badField h i).notice = s.notice ∧ (s.badField h i).counters = s.counters ∧
    (s.badField h i).pending = s.pending := by
  simp [State.badField]

@[simp] theorem State.failFrame_keeps (r : Receiver) (f : Counters → Counters) :
    (s.failFrame r f).night = s.night ∧ (s.failFrame r f).straps = s.straps ∧
    (s.failFrame r f).timer = s.timer ∧ (s.failFrame r f).clock = s.clock ∧
    (s.failFrame r f).settings = s.settings ∧ (s.failFrame r f).events = s.events ∧
    (s.failFrame r f).selection = s.selection ∧ (s.failFrame r f).scrambler = s.scrambler ∧
    (s.failFrame r f).store = s.store ∧ (s.failFrame r f).port = s.port ∧
    (s.failFrame r f).sweep = s.sweep ∧ (s.failFrame r f).carousel = s.carousel ∧
    (s.failFrame r f).bus = s.bus ∧ (s.failFrame r f).arbiter = s.arbiter ∧
    (s.failFrame r f).notice = s.notice ∧ (s.failFrame r f).pending = s.pending := by
  unfold State.failFrame
  repeat' split
  all_goals simp

@[simp] theorem State.acceptFrame_keeps (b : Bool) (f : FrameRead) :
    (s.acceptFrame b f).night = s.night ∧ (s.acceptFrame b f).straps = s.straps ∧
    (s.acceptFrame b f).timer = s.timer ∧ (s.acceptFrame b f).clock = s.clock ∧
    (s.acceptFrame b f).settings = s.settings ∧ (s.acceptFrame b f).events = s.events ∧
    (s.acceptFrame b f).selection = s.selection ∧ (s.acceptFrame b f).scrambler = s.scrambler ∧
    (s.acceptFrame b f).store = s.store ∧ (s.acceptFrame b f).port = s.port ∧
    (s.acceptFrame b f).sweep = s.sweep ∧ (s.acceptFrame b f).carousel = s.carousel ∧
    (s.acceptFrame b f).bus = s.bus ∧ (s.acceptFrame b f).arbiter = s.arbiter ∧
    (s.acceptFrame b f).notice = s.notice ∧ (s.acceptFrame b f).counters = s.counters ∧
    (s.acceptFrame b f).pending = s.pending := by
  unfold State.acceptFrame
  repeat' split
  all_goals simp

@[simp] theorem State.handOver_keeps (b : Bool) (f : FrameRead) :
    (s.handOver b f).night = s.night ∧ (s.handOver b f).straps = s.straps ∧
    (s.handOver b f).timer = s.timer ∧ (s.handOver b f).clock = s.clock ∧
    (s.handOver b f).settings = s.settings ∧ (s.handOver b f).events = s.events ∧
    (s.handOver b f).selection = s.selection ∧ (s.handOver b f).scrambler = s.scrambler ∧
    (s.handOver b f).store = s.store ∧ (s.handOver b f).port = s.port ∧
    (s.handOver b f).sweep = s.sweep ∧ (s.handOver b f).carousel = s.carousel ∧
    (s.handOver b f).bus = s.bus ∧ (s.handOver b f).arbiter = s.arbiter ∧
    (s.handOver b f).pending = s.pending := by
  repeat' apply And.intro
  all_goals (simp only [State.handOver]; split <;> simp)

@[simp] theorem State.clearBusFault_keeps :
    (s.clearBusFault).night = s.night ∧ (s.clearBusFault).straps = s.straps ∧
    (s.clearBusFault).timer = s.timer ∧ (s.clearBusFault).clock = s.clock ∧
    (s.clearBusFault).settings = s.settings ∧ (s.clearBusFault).events = s.events ∧
    (s.clearBusFault).selection = s.selection ∧ (s.clearBusFault).scrambler = s.scrambler ∧
    (s.clearBusFault).store = s.store ∧ (s.clearBusFault).port = s.port ∧
    (s.clearBusFault).sweep = s.sweep ∧ (s.clearBusFault).carousel = s.carousel ∧
    (s.clearBusFault).arbiter = s.arbiter ∧ (s.clearBusFault).link = s.link ∧
    (s.clearBusFault).notice = s.notice ∧ (s.clearBusFault).counters = s.counters ∧
    (s.clearBusFault).pending = s.pending := by
  unfold State.clearBusFault
  repeat' split
  all_goals simp

@[simp] theorem State.clearArbiterFault_keeps :
    (s.clearArbiterFault).night = s.night ∧ (s.clearArbiterFault).straps = s.straps ∧
    (s.clearArbiterFault).timer = s.timer ∧ (s.clearArbiterFault).clock = s.clock ∧
    (s.clearArbiterFault).settings = s.settings ∧ (s.clearArbiterFault).events = s.events ∧
    (s.clearArbiterFault).selection = s.selection ∧ (s.clearArbiterFault).scrambler = s.scrambler ∧
    (s.clearArbiterFault).store = s.store ∧ (s.clearArbiterFault).port = s.port ∧
    (s.clearArbiterFault).sweep = s.sweep ∧ (s.clearArbiterFault).carousel = s.carousel ∧
    (s.clearArbiterFault).bus = s.bus ∧ (s.clearArbiterFault).link = s.link ∧
    (s.clearArbiterFault).notice = s.notice ∧ (s.clearArbiterFault).counters = s.counters ∧
    (s.clearArbiterFault).pending = s.pending := by
  unfold State.clearArbiterFault State.idleArbiter
  split <;> simp

@[simp] theorem State.clearBus_keeps (h : HeldRequest) :
    (s.clearBus h).night = s.night ∧ (s.clearBus h).straps = s.straps ∧
    (s.clearBus h).timer = s.timer ∧ (s.clearBus h).clock = s.clock ∧
    (s.clearBus h).settings = s.settings ∧ (s.clearBus h).events = s.events ∧
    (s.clearBus h).selection = s.selection ∧ (s.clearBus h).scrambler = s.scrambler ∧
    (s.clearBus h).store = s.store ∧ (s.clearBus h).port = s.port ∧ (s.clearBus h).sweep = s.sweep ∧
    (s.clearBus h).carousel = s.carousel ∧ (s.clearBus h).notice = s.notice ∧
    (s.clearBus h).counters = s.counters ∧ (s.clearBus h).pending = s.pending := by
  unfold State.clearBus
  repeat' split
  all_goals simp

@[simp] theorem State.arbiterGrants_keeps :
    (s.arbiterGrants).night = s.night ∧ (s.arbiterGrants).straps = s.straps ∧
    (s.arbiterGrants).timer = s.timer ∧ (s.arbiterGrants).clock = s.clock ∧
    (s.arbiterGrants).settings = s.settings ∧ (s.arbiterGrants).events = s.events ∧
    (s.arbiterGrants).selection = s.selection ∧ (s.arbiterGrants).scrambler = s.scrambler ∧
    (s.arbiterGrants).store = s.store ∧ (s.arbiterGrants).port = s.port ∧
    (s.arbiterGrants).sweep = s.sweep ∧ (s.arbiterGrants).carousel = s.carousel ∧
    (s.arbiterGrants).bus = s.bus ∧ (s.arbiterGrants).link = s.link ∧
    (s.arbiterGrants).notice = s.notice ∧ (s.arbiterGrants).counters = s.counters ∧
    (s.arbiterGrants).pending = s.pending := by
  unfold State.arbiterGrants State.grantBus
  repeat' split
  all_goals simp

@[simp] theorem State.takeGrant_keeps :
    (s.takeGrant).night = s.night ∧ (s.takeGrant).straps = s.straps ∧ (s.takeGrant).timer = s.timer ∧
    (s.takeGrant).clock = s.clock ∧ (s.takeGrant).settings = s.settings ∧
    (s.takeGrant).events = s.events ∧ (s.takeGrant).selection = s.selection ∧
    (s.takeGrant).scrambler = s.scrambler ∧ (s.takeGrant).store = s.store ∧
    (s.takeGrant).port = s.port ∧ (s.takeGrant).sweep = s.sweep ∧ (s.takeGrant).carousel = s.carousel ∧
    (s.takeGrant).bus = s.bus ∧ (s.takeGrant).link = s.link ∧ (s.takeGrant).notice = s.notice ∧
    (s.takeGrant).counters = s.counters ∧ (s.takeGrant).pending = s.pending := by
  unfold State.takeGrant
  repeat' split
  all_goals simp

@[simp] theorem State.endGrant_keeps :
    (s.endGrant).night = s.night ∧ (s.endGrant).straps = s.straps ∧ (s.endGrant).timer = s.timer ∧
    (s.endGrant).clock = s.clock ∧ (s.endGrant).settings = s.settings ∧
    (s.endGrant).events = s.events ∧ (s.endGrant).selection = s.selection ∧
    (s.endGrant).scrambler = s.scrambler ∧ (s.endGrant).store = s.store ∧ (s.endGrant).port = s.port ∧
    (s.endGrant).sweep = s.sweep ∧ (s.endGrant).carousel = s.carousel ∧ (s.endGrant).bus = s.bus ∧
    (s.endGrant).link = s.link ∧ (s.endGrant).notice = s.notice ∧ (s.endGrant).counters = s.counters ∧
    (s.endGrant).pending = s.pending := by
  unfold State.endGrant State.idleArbiter
  repeat' split
  all_goals simp

@[simp] theorem State.timeoutGrant_keeps :
    (s.timeoutGrant).night = s.night ∧ (s.timeoutGrant).straps = s.straps ∧
    (s.timeoutGrant).timer = s.timer ∧ (s.timeoutGrant).clock = s.clock ∧
    (s.timeoutGrant).settings = s.settings ∧ (s.timeoutGrant).events = s.events ∧
    (s.timeoutGrant).selection = s.selection ∧ (s.timeoutGrant).scrambler = s.scrambler ∧
    (s.timeoutGrant).store = s.store ∧ (s.timeoutGrant).port = s.port ∧
    (s.timeoutGrant).sweep = s.sweep ∧ (s.timeoutGrant).carousel = s.carousel ∧
    (s.timeoutGrant).bus = s.bus ∧ (s.timeoutGrant).link = s.link ∧
    (s.timeoutGrant).notice = s.notice ∧ (s.timeoutGrant).pending = s.pending := by
  unfold State.timeoutGrant State.withdrawGrant State.idleArbiter
  repeat' split
  all_goals simp

@[simp] theorem State.testArbiterFault_keeps :
    (s.testArbiterFault).night = s.night ∧ (s.testArbiterFault).straps = s.straps ∧
    (s.testArbiterFault).timer = s.timer ∧ (s.testArbiterFault).clock = s.clock ∧
    (s.testArbiterFault).settings = s.settings ∧ (s.testArbiterFault).events = s.events ∧
    (s.testArbiterFault).selection = s.selection ∧ (s.testArbiterFault).scrambler = s.scrambler ∧
    (s.testArbiterFault).store = s.store ∧ (s.testArbiterFault).port = s.port ∧
    (s.testArbiterFault).sweep = s.sweep ∧ (s.testArbiterFault).carousel = s.carousel ∧
    (s.testArbiterFault).bus = s.bus ∧ (s.testArbiterFault).link = s.link ∧
    (s.testArbiterFault).pending = s.pending := by
  unfold State.testArbiterFault State.faultArbiter
  split <;> simp

@[simp] theorem State.startPacket_keeps :
    (s.startPacket).night = s.night ∧ (s.startPacket).straps = s.straps ∧
    (s.startPacket).timer = s.timer ∧ (s.startPacket).clock = s.clock ∧
    (s.startPacket).settings = s.settings ∧ (s.startPacket).events = s.events ∧
    (s.startPacket).selection = s.selection ∧ (s.startPacket).scrambler = s.scrambler ∧
    (s.startPacket).store = s.store ∧ (s.startPacket).port = s.port ∧ (s.startPacket).sweep = s.sweep ∧
    (s.startPacket).arbiter = s.arbiter ∧ (s.startPacket).link = s.link ∧
    (s.startPacket).pending = s.pending := by
  unfold State.startPacket State.beginPacket
  repeat' split
  all_goals simp

@[simp] theorem State.endSend_keeps :
    (s.endSend).night = s.night ∧ (s.endSend).straps = s.straps ∧ (s.endSend).timer = s.timer ∧
    (s.endSend).clock = s.clock ∧ (s.endSend).settings = s.settings ∧ (s.endSend).events = s.events ∧
    (s.endSend).selection = s.selection ∧ (s.endSend).scrambler = s.scrambler ∧
    (s.endSend).store = s.store ∧ (s.endSend).port = s.port ∧ (s.endSend).sweep = s.sweep ∧
    (s.endSend).carousel = s.carousel ∧ (s.endSend).arbiter = s.arbiter ∧ (s.endSend).link = s.link ∧
    (s.endSend).notice = s.notice ∧ (s.endSend).counters = s.counters ∧ (s.endSend).pending = s.pending := by
  simp [State.endSend]

@[simp] theorem State.lookupFrom_keeps (d e : Nat) (l : List Nat) (c : Option Nat) :
    (State.lookupFrom d e l c s).2.night = s.night ∧ (State.lookupFrom d e l c s).2.straps = s.straps ∧
    (State.lookupFrom d e l c s).2.timer = s.timer ∧ (State.lookupFrom d e l c s).2.clock = s.clock ∧
    (State.lookupFrom d e l c s).2.settings = s.settings ∧
    (State.lookupFrom d e l c s).2.events = s.events ∧
    (State.lookupFrom d e l c s).2.selection = s.selection ∧
    (State.lookupFrom d e l c s).2.scrambler = s.scrambler ∧
    (State.lookupFrom d e l c s).2.port = s.port ∧ (State.lookupFrom d e l c s).2.sweep = s.sweep ∧
    (State.lookupFrom d e l c s).2.carousel = s.carousel ∧ (State.lookupFrom d e l c s).2.bus = s.bus ∧
    (State.lookupFrom d e l c s).2.arbiter = s.arbiter ∧ (State.lookupFrom d e l c s).2.link = s.link ∧
    (State.lookupFrom d e l c s).2.pending = s.pending := by
  induction l generalizing c s with
  | nil => simp [State.lookupFrom]
  | cons n ns ih =>
    simp only [State.lookupFrom]
    repeat' split
    all_goals simp [ih]

@[simp] theorem State.lookup_keeps (d e : Nat) :
    (s.lookup d e).2.night = s.night ∧ (s.lookup d e).2.straps = s.straps ∧
    (s.lookup d e).2.timer = s.timer ∧ (s.lookup d e).2.clock = s.clock ∧
    (s.lookup d e).2.settings = s.settings ∧ (s.lookup d e).2.events = s.events ∧
    (s.lookup d e).2.selection = s.selection ∧ (s.lookup d e).2.scrambler = s.scrambler ∧
    (s.lookup d e).2.port = s.port ∧ (s.lookup d e).2.sweep = s.sweep ∧
    (s.lookup d e).2.carousel = s.carousel ∧ (s.lookup d e).2.bus = s.bus ∧
    (s.lookup d e).2.arbiter = s.arbiter ∧ (s.lookup d e).2.link = s.link ∧
    (s.lookup d e).2.pending = s.pending := by
  simp [State.lookup]

@[simp] theorem State.addAfterLookup_keeps (h : HeldRequest) (f : AddFields) (l : Lookup) :
    (s.addAfterLookup h f l).night = s.night ∧ (s.addAfterLookup h f l).straps = s.straps ∧
    (s.addAfterLookup h f l).timer = s.timer ∧ (s.addAfterLookup h f l).clock = s.clock ∧
    (s.addAfterLookup h f l).settings = s.settings ∧ (s.addAfterLookup h f l).selection = s.selection ∧
    (s.addAfterLookup h f l).scrambler = s.scrambler ∧ (s.addAfterLookup h f l).port = s.port ∧
    (s.addAfterLookup h f l).sweep = s.sweep ∧ (s.addAfterLookup h f l).bus = s.bus ∧
    (s.addAfterLookup h f l).arbiter = s.arbiter ∧ (s.addAfterLookup h f l).pending = s.pending := by
  unfold State.addAfterLookup
  repeat' split
  all_goals simp

@[simp] theorem State.addGrant_keeps (h : HeldRequest) (f : AddFields) :
    (s.addGrant h f).night = s.night ∧ (s.addGrant h f).straps = s.straps ∧
    (s.addGrant h f).timer = s.timer ∧ (s.addGrant h f).clock = s.clock ∧
    (s.addGrant h f).settings = s.settings ∧ (s.addGrant h f).selection = s.selection ∧
    (s.addGrant h f).scrambler = s.scrambler ∧ (s.addGrant h f).port = s.port ∧
    (s.addGrant h f).sweep = s.sweep ∧ (s.addGrant h f).bus = s.bus ∧
    (s.addGrant h f).arbiter = s.arbiter ∧ (s.addGrant h f).pending = s.pending := by
  unfold State.addGrant
  repeat' split
  all_goals simp

@[simp] theorem State.revokeAfterLookup_keeps (h : HeldRequest) (d e : Nat) (l : Lookup) :
    (s.revokeAfterLookup h d e l).night = s.night ∧ (s.revokeAfterLookup h d e l).straps = s.straps ∧
    (s.revokeAfterLookup h d e l).timer = s.timer ∧ (s.revokeAfterLookup h d e l).clock = s.clock ∧
    (s.revokeAfterLookup h d e l).settings = s.settings ∧
    (s.revokeAfterLookup h d e l).selection = s.selection ∧
    (s.revokeAfterLookup h d e l).scrambler = s.scrambler ∧
    (s.revokeAfterLookup h d e l).port = s.port ∧ (s.revokeAfterLookup h d e l).sweep = s.sweep ∧
    (s.revokeAfterLookup h d e l).bus = s.bus ∧ (s.revokeAfterLookup h d e l).arbiter = s.arbiter ∧
    (s.revokeAfterLookup h d e l).pending = s.pending := by
  unfold State.revokeAfterLookup
  repeat' split
  all_goals simp

@[simp] theorem State.revokeGrant_keeps (h : HeldRequest) (d e : Nat) :
    (s.revokeGrant h d e).night = s.night ∧ (s.revokeGrant h d e).straps = s.straps ∧
    (s.revokeGrant h d e).timer = s.timer ∧ (s.revokeGrant h d e).clock = s.clock ∧
    (s.revokeGrant h d e).settings = s.settings ∧ (s.revokeGrant h d e).selection = s.selection ∧
    (s.revokeGrant h d e).scrambler = s.scrambler ∧ (s.revokeGrant h d e).port = s.port ∧
    (s.revokeGrant h d e).sweep = s.sweep ∧ (s.revokeGrant h d e).bus = s.bus ∧
    (s.revokeGrant h d e).arbiter = s.arbiter ∧ (s.revokeGrant h d e).pending = s.pending := by
  unfold State.revokeGrant
  repeat' split
  all_goals simp

@[simp] theorem State.queryAfterLookup_keeps (h : HeldRequest) (l : Lookup) :
    (s.queryAfterLookup h l).night = s.night ∧ (s.queryAfterLookup h l).straps = s.straps ∧
    (s.queryAfterLookup h l).timer = s.timer ∧ (s.queryAfterLookup h l).clock = s.clock ∧
    (s.queryAfterLookup h l).settings = s.settings ∧ (s.queryAfterLookup h l).events = s.events ∧
    (s.queryAfterLookup h l).selection = s.selection ∧
    (s.queryAfterLookup h l).scrambler = s.scrambler ∧ (s.queryAfterLookup h l).store = s.store ∧
    (s.queryAfterLookup h l).port = s.port ∧ (s.queryAfterLookup h l).sweep = s.sweep ∧
    (s.queryAfterLookup h l).carousel = s.carousel ∧ (s.queryAfterLookup h l).bus = s.bus ∧
    (s.queryAfterLookup h l).arbiter = s.arbiter ∧ (s.queryAfterLookup h l).notice = s.notice ∧
    (s.queryAfterLookup h l).counters = s.counters ∧ (s.queryAfterLookup h l).pending = s.pending := by
  unfold State.queryAfterLookup
  repeat' split
  all_goals simp

@[simp] theorem State.queryGrant_keeps (h : HeldRequest) (d e : Nat) :
    (s.queryGrant h d e).night = s.night ∧ (s.queryGrant h d e).straps = s.straps ∧
    (s.queryGrant h d e).timer = s.timer ∧ (s.queryGrant h d e).clock = s.clock ∧
    (s.queryGrant h d e).settings = s.settings ∧ (s.queryGrant h d e).events = s.events ∧
    (s.queryGrant h d e).selection = s.selection ∧ (s.queryGrant h d e).scrambler = s.scrambler ∧
    (s.queryGrant h d e).port = s.port ∧ (s.queryGrant h d e).sweep = s.sweep ∧
    (s.queryGrant h d e).carousel = s.carousel ∧ (s.queryGrant h d e).bus = s.bus ∧
    (s.queryGrant h d e).arbiter = s.arbiter ∧ (s.queryGrant h d e).pending = s.pending := by
  unfold State.queryGrant
  repeat' split
  all_goals simp

@[simp] theorem State.takeGrantRequest_keeps (h : HeldRequest) :
    (s.takeGrantRequest h).night = s.night ∧ (s.takeGrantRequest h).straps = s.straps ∧
    (s.takeGrantRequest h).timer = s.timer ∧ (s.takeGrantRequest h).clock = s.clock ∧
    (s.takeGrantRequest h).settings = s.settings ∧ (s.takeGrantRequest h).events = s.events ∧
    (s.takeGrantRequest h).selection = s.selection ∧ (s.takeGrantRequest h).scrambler = s.scrambler ∧
    (s.takeGrantRequest h).store = s.store ∧ (s.takeGrantRequest h).sweep = s.sweep ∧
    (s.takeGrantRequest h).carousel = s.carousel ∧ (s.takeGrantRequest h).bus = s.bus ∧
    (s.takeGrantRequest h).arbiter = s.arbiter ∧ (s.takeGrantRequest h).notice = s.notice ∧
    (s.takeGrantRequest h).counters = s.counters ∧ (s.takeGrantRequest h).pending = s.pending := by
  unfold State.takeGrantRequest
  repeat' split
  all_goals simp

@[simp] theorem State.cycleTick_keeps (t : Nat) :
    (s.cycleTick t).night = s.night ∧ (s.cycleTick t).straps = s.straps ∧
    (s.cycleTick t).clock = s.clock ∧ (s.cycleTick t).settings = s.settings ∧
    (s.cycleTick t).events = s.events ∧ (s.cycleTick t).selection = s.selection ∧
    (s.cycleTick t).scrambler = s.scrambler ∧ (s.cycleTick t).store = s.store ∧
    (s.cycleTick t).port = s.port ∧ (s.cycleTick t).sweep = s.sweep ∧ (s.cycleTick t).bus = s.bus ∧
    (s.cycleTick t).arbiter = s.arbiter ∧ (s.cycleTick t).link = s.link ∧
    (s.cycleTick t).notice = s.notice ∧ (s.cycleTick t).counters = s.counters ∧
    (s.cycleTick t).pending = s.pending := by
  simp only [State.cycleTick]
  split <;> simp

@[simp] theorem State.takePulse_keeps (t : Nat) :
    (s.takePulse t).night = s.night ∧ (s.takePulse t).straps = s.straps ∧
    (s.takePulse t).timer = s.timer ∧ (s.takePulse t).settings = s.settings ∧
    (s.takePulse t).events = s.events ∧ (s.takePulse t).selection = s.selection ∧
    (s.takePulse t).scrambler = s.scrambler ∧ (s.takePulse t).store = s.store ∧
    (s.takePulse t).port = s.port ∧ (s.takePulse t).sweep = s.sweep ∧
    (s.takePulse t).carousel = s.carousel ∧ (s.takePulse t).bus = s.bus ∧
    (s.takePulse t).arbiter = s.arbiter ∧ (s.takePulse t).link = s.link ∧
    (s.takePulse t).notice = s.notice ∧ (s.takePulse t).counters = s.counters ∧
    (s.takePulse t).pending = s.pending := by
  simp [State.takePulse]

@[simp] theorem State.restorePulse_keeps (t : Nat) (o : List Nat) :
    (s.restorePulse t o).night = s.night ∧ (s.restorePulse t o).straps = s.straps ∧
    (s.restorePulse t o).timer = s.timer ∧ (s.restorePulse t o).settings = s.settings ∧
    (s.restorePulse t o).selection = s.selection ∧ (s.restorePulse t o).store = s.store ∧
    (s.restorePulse t o).carousel = s.carousel ∧ (s.restorePulse t o).arbiter = s.arbiter ∧
    (s.restorePulse t o).link = s.link ∧ (s.restorePulse t o).pending = s.pending := by
  simp only [State.restorePulse]
  split <;> simp

@[simp] theorem State.pulseAt_keeps (t : Nat) (o : List Nat) :
    (s.pulseAt t o).night = s.night ∧ (s.pulseAt t o).straps = s.straps ∧
    (s.pulseAt t o).timer = s.timer ∧ (s.pulseAt t o).settings = s.settings ∧
    (s.pulseAt t o).selection = s.selection ∧ (s.pulseAt t o).store = s.store ∧
    (s.pulseAt t o).carousel = s.carousel ∧ (s.pulseAt t o).arbiter = s.arbiter ∧
    (s.pulseAt t o).link = s.link ∧ (s.pulseAt t o).pending = s.pending := by
  unfold State.pulseAt
  repeat' split
  all_goals simp

@[simp] theorem State.supplySecond_keeps (t : Nat) (o : List Nat) :
    (s.supplySecond t o).night = s.night ∧ (s.supplySecond t o).straps = s.straps ∧
    (s.supplySecond t o).timer = s.timer ∧ (s.supplySecond t o).settings = s.settings ∧
    (s.supplySecond t o).selection = s.selection ∧ (s.supplySecond t o).store = s.store ∧
    (s.supplySecond t o).carousel = s.carousel ∧ (s.supplySecond t o).arbiter = s.arbiter ∧
    (s.supplySecond t o).link = s.link ∧ (s.supplySecond t o).notice = s.notice ∧
    (s.supplySecond t o).pending = s.pending := by
  simp [State.supplySecond]

@[simp] theorem State.enterFlywheel_keeps (t : Nat) (o : List Nat) :
    (s.enterFlywheel t o).night = s.night ∧ (s.enterFlywheel t o).straps = s.straps ∧
    (s.enterFlywheel t o).settings = s.settings ∧ (s.enterFlywheel t o).selection = s.selection ∧
    (s.enterFlywheel t o).store = s.store ∧ (s.enterFlywheel t o).carousel = s.carousel ∧
    (s.enterFlywheel t o).arbiter = s.arbiter ∧ (s.enterFlywheel t o).link = s.link ∧
    (s.enterFlywheel t o).pending = s.pending := by
  simp [State.enterFlywheel]

@[simp] theorem State.goOn_urgentShare_keeps :
    (s.goOn State.tryUrgentShare).night = s.night ∧ (s.goOn State.tryUrgentShare).straps = s.straps ∧
    (s.goOn State.tryUrgentShare).timer = s.timer ∧ (s.goOn State.tryUrgentShare).clock = s.clock ∧
    (s.goOn State.tryUrgentShare).settings = s.settings ∧
    (s.goOn State.tryUrgentShare).events = s.events ∧
    (s.goOn State.tryUrgentShare).selection = s.selection ∧
    (s.goOn State.tryUrgentShare).scrambler = s.scrambler ∧
    (s.goOn State.tryUrgentShare).store = s.store ∧ (s.goOn State.tryUrgentShare).sweep = s.sweep ∧
    (s.goOn State.tryUrgentShare).bus = s.bus ∧ (s.goOn State.tryUrgentShare).arbiter = s.arbiter ∧
    (s.goOn State.tryUrgentShare).link = s.link ∧ (s.goOn State.tryUrgentShare).notice = s.notice ∧
    (s.goOn State.tryUrgentShare).counters = s.counters ∧
    (s.goOn State.tryUrgentShare).pending = s.pending := by
  unfold State.goOn
  split <;> simp

@[simp] theorem State.goOn_urgentRest_keeps :
    (s.goOn State.tryUrgentRest).night = s.night ∧ (s.goOn State.tryUrgentRest).straps = s.straps ∧
    (s.goOn State.tryUrgentRest).timer = s.timer ∧ (s.goOn State.tryUrgentRest).clock = s.clock ∧
    (s.goOn State.tryUrgentRest).settings = s.settings ∧
    (s.goOn State.tryUrgentRest).events = s.events ∧
    (s.goOn State.tryUrgentRest).selection = s.selection ∧
    (s.goOn State.tryUrgentRest).scrambler = s.scrambler ∧
    (s.goOn State.tryUrgentRest).store = s.store ∧ (s.goOn State.tryUrgentRest).sweep = s.sweep ∧
    (s.goOn State.tryUrgentRest).bus = s.bus ∧ (s.goOn State.tryUrgentRest).arbiter = s.arbiter ∧
    (s.goOn State.tryUrgentRest).link = s.link ∧ (s.goOn State.tryUrgentRest).notice = s.notice ∧
    (s.goOn State.tryUrgentRest).counters = s.counters ∧
    (s.goOn State.tryUrgentRest).pending = s.pending := by
  unfold State.goOn
  split <;> simp

@[simp] theorem State.goOn_freshShare_keeps :
    (s.goOn State.tryFreshShare).night = s.night ∧ (s.goOn State.tryFreshShare).straps = s.straps ∧
    (s.goOn State.tryFreshShare).timer = s.timer ∧ (s.goOn State.tryFreshShare).clock = s.clock ∧
    (s.goOn State.tryFreshShare).settings = s.settings ∧
    (s.goOn State.tryFreshShare).events = s.events ∧
    (s.goOn State.tryFreshShare).selection = s.selection ∧
    (s.goOn State.tryFreshShare).scrambler = s.scrambler ∧
    (s.goOn State.tryFreshShare).store = s.store ∧ (s.goOn State.tryFreshShare).sweep = s.sweep ∧
    (s.goOn State.tryFreshShare).bus = s.bus ∧ (s.goOn State.tryFreshShare).arbiter = s.arbiter ∧
    (s.goOn State.tryFreshShare).link = s.link ∧ (s.goOn State.tryFreshShare).notice = s.notice ∧
    (s.goOn State.tryFreshShare).counters = s.counters ∧
    (s.goOn State.tryFreshShare).pending = s.pending := by
  unfold State.goOn
  split <;> simp

@[simp] theorem State.goOn_freshRest_keeps :
    (s.goOn State.tryFreshRest).night = s.night ∧ (s.goOn State.tryFreshRest).straps = s.straps ∧
    (s.goOn State.tryFreshRest).timer = s.timer ∧ (s.goOn State.tryFreshRest).clock = s.clock ∧
    (s.goOn State.tryFreshRest).settings = s.settings ∧ (s.goOn State.tryFreshRest).events = s.events ∧
    (s.goOn State.tryFreshRest).selection = s.selection ∧
    (s.goOn State.tryFreshRest).scrambler = s.scrambler ∧ (s.goOn State.tryFreshRest).store = s.store ∧
    (s.goOn State.tryFreshRest).sweep = s.sweep ∧ (s.goOn State.tryFreshRest).bus = s.bus ∧
    (s.goOn State.tryFreshRest).arbiter = s.arbiter ∧ (s.goOn State.tryFreshRest).link = s.link ∧
    (s.goOn State.tryFreshRest).notice = s.notice ∧ (s.goOn State.tryFreshRest).counters = s.counters ∧
    (s.goOn State.tryFreshRest).pending = s.pending := by
  unfold State.goOn
  split <;> simp

@[simp] theorem State.goOn_refresh_keeps (r : Nat) :
    (s.goOn (fun t => t.tryRefresh r)).night = s.night ∧
    (s.goOn (fun t => t.tryRefresh r)).straps = s.straps ∧
    (s.goOn (fun t => t.tryRefresh r)).timer = s.timer ∧
    (s.goOn (fun t => t.tryRefresh r)).clock = s.clock ∧
    (s.goOn (fun t => t.tryRefresh r)).settings = s.settings ∧
    (s.goOn (fun t => t.tryRefresh r)).events = s.events ∧
    (s.goOn (fun t => t.tryRefresh r)).selection = s.selection ∧
    (s.goOn (fun t => t.tryRefresh r)).scrambler = s.scrambler ∧
    (s.goOn (fun t => t.tryRefresh r)).store = s.store ∧
    (s.goOn (fun t => t.tryRefresh r)).sweep = s.sweep ∧
    (s.goOn (fun t => t.tryRefresh r)).bus = s.bus ∧
    (s.goOn (fun t => t.tryRefresh r)).arbiter = s.arbiter ∧
    (s.goOn (fun t => t.tryRefresh r)).link = s.link ∧
    (s.goOn (fun t => t.tryRefresh r)).notice = s.notice ∧
    (s.goOn (fun t => t.tryRefresh r)).counters = s.counters ∧
    (s.goOn (fun t => t.tryRefresh r)).pending = s.pending := by
  unfold State.goOn
  split <;> simp

@[simp] theorem State.emitRefresh_keeps (n : Nat) (g : Grant) :
    (s.emitRefresh n g).night = s.night ∧ (s.emitRefresh n g).straps = s.straps ∧
    (s.emitRefresh n g).timer = s.timer ∧ (s.emitRefresh n g).clock = s.clock ∧
    (s.emitRefresh n g).settings = s.settings ∧ (s.emitRefresh n g).events = s.events ∧
    (s.emitRefresh n g).selection = s.selection ∧ (s.emitRefresh n g).scrambler = s.scrambler ∧
    (s.emitRefresh n g).port = s.port ∧ (s.emitRefresh n g).sweep = s.sweep ∧
    (s.emitRefresh n g).arbiter = s.arbiter ∧ (s.emitRefresh n g).link = s.link ∧
    (s.emitRefresh n g).notice = s.notice ∧ (s.emitRefresh n g).counters = s.counters ∧
    (s.emitRefresh n g).pending = s.pending := by
  unfold State.emitRefresh
  repeat' split
  all_goals simp

@[simp] theorem State.takeUrgent_share_keeps (n : Nat) (r : List Nat) :
    (s.takeUrgent n r State.tryUrgentShare).night = s.night ∧
    (s.takeUrgent n r State.tryUrgentShare).straps = s.straps ∧
    (s.takeUrgent n r State.tryUrgentShare).timer = s.timer ∧
    (s.takeUrgent n r State.tryUrgentShare).clock = s.clock ∧
    (s.takeUrgent n r State.tryUrgentShare).settings = s.settings ∧
    (s.takeUrgent n r State.tryUrgentShare).events = s.events ∧
    (s.takeUrgent n r State.tryUrgentShare).selection = s.selection ∧
    (s.takeUrgent n r State.tryUrgentShare).scrambler = s.scrambler ∧
    (s.takeUrgent n r State.tryUrgentShare).sweep = s.sweep ∧
    (s.takeUrgent n r State.tryUrgentShare).arbiter = s.arbiter ∧
    (s.takeUrgent n r State.tryUrgentShare).link = s.link ∧
    (s.takeUrgent n r State.tryUrgentShare).pending = s.pending := by
  repeat' apply And.intro
  all_goals (simp only [State.takeUrgent]; split <;> simp)

@[simp] theorem State.takeUrgent_rest_keeps (n : Nat) (r : List Nat) :
    (s.takeUrgent n r State.tryUrgentRest).night = s.night ∧
    (s.takeUrgent n r State.tryUrgentRest).straps = s.straps ∧
    (s.takeUrgent n r State.tryUrgentRest).timer = s.timer ∧
    (s.takeUrgent n r State.tryUrgentRest).clock = s.clock ∧
    (s.takeUrgent n r State.tryUrgentRest).settings = s.settings ∧
    (s.takeUrgent n r State.tryUrgentRest).events = s.events ∧
    (s.takeUrgent n r State.tryUrgentRest).selection = s.selection ∧
    (s.takeUrgent n r State.tryUrgentRest).scrambler = s.scrambler ∧
    (s.takeUrgent n r State.tryUrgentRest).sweep = s.sweep ∧
    (s.takeUrgent n r State.tryUrgentRest).arbiter = s.arbiter ∧
    (s.takeUrgent n r State.tryUrgentRest).link = s.link ∧
    (s.takeUrgent n r State.tryUrgentRest).pending = s.pending := by
  repeat' apply And.intro
  all_goals (simp only [State.takeUrgent]; split <;> simp)

@[simp] theorem State.takeFresh_share_keeps (n : Nat) (r : List Nat) :
    (s.takeFresh n r State.tryFreshShare).night = s.night ∧
    (s.takeFresh n r State.tryFreshShare).straps = s.straps ∧
    (s.takeFresh n r State.tryFreshShare).timer = s.timer ∧
    (s.takeFresh n r State.tryFreshShare).clock = s.clock ∧
    (s.takeFresh n r State.tryFreshShare).settings = s.settings ∧
    (s.takeFresh n r State.tryFreshShare).events = s.events ∧
    (s.takeFresh n r State.tryFreshShare).selection = s.selection ∧
    (s.takeFresh n r State.tryFreshShare).scrambler = s.scrambler ∧
    (s.takeFresh n r State.tryFreshShare).sweep = s.sweep ∧
    (s.takeFresh n r State.tryFreshShare).arbiter = s.arbiter ∧
    (s.takeFresh n r State.tryFreshShare).link = s.link ∧
    (s.takeFresh n r State.tryFreshShare).pending = s.pending := by
  repeat' apply And.intro
  all_goals (simp only [State.takeFresh]; split <;> simp)

@[simp] theorem State.takeFresh_rest_keeps (n : Nat) (r : List Nat) :
    (s.takeFresh n r State.tryFreshRest).night = s.night ∧
    (s.takeFresh n r State.tryFreshRest).straps = s.straps ∧
    (s.takeFresh n r State.tryFreshRest).timer = s.timer ∧
    (s.takeFresh n r State.tryFreshRest).clock = s.clock ∧
    (s.takeFresh n r State.tryFreshRest).settings = s.settings ∧
    (s.takeFresh n r State.tryFreshRest).events = s.events ∧
    (s.takeFresh n r State.tryFreshRest).selection = s.selection ∧
    (s.takeFresh n r State.tryFreshRest).scrambler = s.scrambler ∧
    (s.takeFresh n r State.tryFreshRest).sweep = s.sweep ∧
    (s.takeFresh n r State.tryFreshRest).arbiter = s.arbiter ∧
    (s.takeFresh n r State.tryFreshRest).link = s.link ∧
    (s.takeFresh n r State.tryFreshRest).pending = s.pending := by
  repeat' apply And.intro
  all_goals (simp only [State.takeFresh]; split <;> simp)

@[simp] theorem State.readRefresh_keeps (n r : Nat) :
    (s.readRefresh n r).night = s.night ∧ (s.readRefresh n r).straps = s.straps ∧
    (s.readRefresh n r).timer = s.timer ∧ (s.readRefresh n r).clock = s.clock ∧
    (s.readRefresh n r).settings = s.settings ∧ (s.readRefresh n r).events = s.events ∧
    (s.readRefresh n r).selection = s.selection ∧ (s.readRefresh n r).scrambler = s.scrambler ∧
    (s.readRefresh n r).sweep = s.sweep ∧ (s.readRefresh n r).arbiter = s.arbiter ∧
    (s.readRefresh n r).link = s.link ∧ (s.readRefresh n r).pending = s.pending := by
  repeat' apply And.intro
  all_goals (simp only [State.readRefresh]; split <;> simp)

@[simp] theorem State.visit_keeps (w : Sweep) (k : SweepKind) (r : List Range)
    (o : Bool) :
    (s.visit w k r o).night = s.night ∧ (s.visit w k r o).straps = s.straps ∧
    (s.visit w k r o).timer = s.timer ∧ (s.visit w k r o).clock = s.clock ∧
    (s.visit w k r o).settings = s.settings ∧ (s.visit w k r o).selection = s.selection ∧
    (s.visit w k r o).scrambler = s.scrambler ∧ (s.visit w k r o).bus = s.bus ∧
    (s.visit w k r o).arbiter = s.arbiter ∧ (s.visit w k r o).link = s.link ∧
    (s.visit w k r o).pending = s.pending := by
  repeat' apply And.intro
  all_goals (simp only [State.visit]; split <;> simp)

@[simp] theorem State.wipeDone_keeps :
    (s.wipeDone).straps = s.straps ∧ (s.wipeDone).timer = s.timer ∧ (s.wipeDone).clock = s.clock ∧
    (s.wipeDone).settings = s.settings ∧ (s.wipeDone).events = s.events ∧
    (s.wipeDone).selection = s.selection ∧ (s.wipeDone).scrambler = s.scrambler ∧
    (s.wipeDone).store = s.store ∧ (s.wipeDone).port = s.port ∧ (s.wipeDone).carousel = s.carousel ∧
    (s.wipeDone).bus = s.bus ∧ (s.wipeDone).arbiter = s.arbiter ∧ (s.wipeDone).link = s.link ∧
    (s.wipeDone).counters = s.counters ∧ (s.wipeDone).pending = s.pending := by
  simp [State.wipeDone]

@[simp] theorem State.wipeSlot_keeps (c : Nat) :
    (s.wipeSlot c).straps = s.straps ∧ (s.wipeSlot c).timer = s.timer ∧
    (s.wipeSlot c).clock = s.clock ∧ (s.wipeSlot c).settings = s.settings ∧
    (s.wipeSlot c).events = s.events ∧ (s.wipeSlot c).selection = s.selection ∧
    (s.wipeSlot c).scrambler = s.scrambler ∧ (s.wipeSlot c).carousel = s.carousel ∧
    (s.wipeSlot c).bus = s.bus ∧ (s.wipeSlot c).arbiter = s.arbiter ∧ (s.wipeSlot c).link = s.link ∧
    (s.wipeSlot c).counters = s.counters ∧ (s.wipeSlot c).pending = s.pending := by
  repeat' apply And.intro
  all_goals (simp only [State.wipeSlot]; split <;> simp)

@[simp] theorem State.cancelEvent_keeps (n : Nat) :
    (s.cancelEvent n).night = s.night ∧ (s.cancelEvent n).straps = s.straps ∧
    (s.cancelEvent n).timer = s.timer ∧ (s.cancelEvent n).clock = s.clock ∧
    (s.cancelEvent n).settings = s.settings ∧ (s.cancelEvent n).selection = s.selection ∧
    (s.cancelEvent n).store = s.store ∧ (s.cancelEvent n).carousel = s.carousel ∧
    (s.cancelEvent n).arbiter = s.arbiter ∧ (s.cancelEvent n).link = s.link ∧
    (s.cancelEvent n).notice = s.notice ∧ (s.cancelEvent n).pending = s.pending := by
  simp [State.cancelEvent]

@[simp] theorem State.giveUpCancelled_keeps (n : Nat) :
    (s.giveUpCancelled n).night = s.night ∧ (s.giveUpCancelled n).straps = s.straps ∧
    (s.giveUpCancelled n).timer = s.timer ∧ (s.giveUpCancelled n).clock = s.clock ∧
    (s.giveUpCancelled n).settings = s.settings ∧ (s.giveUpCancelled n).selection = s.selection ∧
    (s.giveUpCancelled n).scrambler = s.scrambler ∧ (s.giveUpCancelled n).store = s.store ∧
    (s.giveUpCancelled n).carousel = s.carousel ∧ (s.giveUpCancelled n).bus = s.bus ∧
    (s.giveUpCancelled n).arbiter = s.arbiter ∧ (s.giveUpCancelled n).link = s.link ∧
    (s.giveUpCancelled n).notice = s.notice ∧ (s.giveUpCancelled n).counters = s.counters ∧
    (s.giveUpCancelled n).pending = s.pending := by
  simp [State.giveUpCancelled]

@[simp] theorem State.addRange_keeps (n : Nat) (x : Range) :
    (s.addRange n x).night = s.night ∧ (s.addRange n x).straps = s.straps ∧
    (s.addRange n x).timer = s.timer ∧ (s.addRange n x).clock = s.clock ∧
    (s.addRange n x).settings = s.settings ∧ (s.addRange n x).selection = s.selection ∧
    (s.addRange n x).scrambler = s.scrambler ∧ (s.addRange n x).store = s.store ∧
    (s.addRange n x).carousel = s.carousel ∧ (s.addRange n x).bus = s.bus ∧
    (s.addRange n x).arbiter = s.arbiter ∧ (s.addRange n x).link = s.link ∧
    (s.addRange n x).notice = s.notice ∧ (s.addRange n x).counters = s.counters ∧
    (s.addRange n x).pending = s.pending := by
  simp only [State.addRange]
  split <;> simp

@[simp] theorem State.applyHold_keeps (n : Nat) (w : Window) (k : Option Hold) :
    (s.applyHold n w k).night = s.night ∧ (s.applyHold n w k).straps = s.straps ∧
    (s.applyHold n w k).timer = s.timer ∧ (s.applyHold n w k).clock = s.clock ∧
    (s.applyHold n w k).settings = s.settings ∧ (s.applyHold n w k).selection = s.selection ∧
    (s.applyHold n w k).store = s.store ∧ (s.applyHold n w k).carousel = s.carousel ∧
    (s.applyHold n w k).arbiter = s.arbiter ∧ (s.applyHold n w k).link = s.link ∧
    (s.applyHold n w k).notice = s.notice ∧ (s.applyHold n w k).pending = s.pending := by
  simp only [State.applyHold]
  split <;> simp

@[simp] theorem State.defineEvent_keeps (h : HeldRequest) (d : DefineFields) :
    (s.defineEvent h d).night = s.night ∧ (s.defineEvent h d).straps = s.straps ∧
    (s.defineEvent h d).timer = s.timer ∧ (s.defineEvent h d).clock = s.clock ∧
    (s.defineEvent h d).settings = s.settings ∧ (s.defineEvent h d).selection = s.selection ∧
    (s.defineEvent h d).scrambler = s.scrambler ∧ (s.defineEvent h d).store = s.store ∧
    (s.defineEvent h d).port = s.port ∧ (s.defineEvent h d).sweep = s.sweep ∧
    (s.defineEvent h d).carousel = s.carousel ∧ (s.defineEvent h d).bus = s.bus ∧
    (s.defineEvent h d).arbiter = s.arbiter ∧ (s.defineEvent h d).notice = s.notice ∧
    (s.defineEvent h d).counters = s.counters ∧ (s.defineEvent h d).pending = s.pending := by
  unfold State.defineEvent
  repeat' split
  all_goals simp

@[simp] theorem State.holdEvent_keeps (h : HeldRequest) (f : HoldFields) :
    (s.holdEvent h f).night = s.night ∧ (s.holdEvent h f).straps = s.straps ∧
    (s.holdEvent h f).timer = s.timer ∧ (s.holdEvent h f).clock = s.clock ∧
    (s.holdEvent h f).settings = s.settings ∧ (s.holdEvent h f).selection = s.selection ∧
    (s.holdEvent h f).store = s.store ∧ (s.holdEvent h f).carousel = s.carousel ∧
    (s.holdEvent h f).arbiter = s.arbiter ∧ (s.holdEvent h f).notice = s.notice ∧
    (s.holdEvent h f).pending = s.pending := by
  simp only [State.holdEvent, State.eventGate]
  repeat' split
  all_goals simp

@[simp] theorem State.cancelRequest_keeps (h : HeldRequest) (n : Nat) :
    (s.cancelRequest h n).night = s.night ∧ (s.cancelRequest h n).straps = s.straps ∧
    (s.cancelRequest h n).timer = s.timer ∧ (s.cancelRequest h n).clock = s.clock ∧
    (s.cancelRequest h n).settings = s.settings ∧ (s.cancelRequest h n).selection = s.selection ∧
    (s.cancelRequest h n).store = s.store ∧ (s.cancelRequest h n).carousel = s.carousel ∧
    (s.cancelRequest h n).arbiter = s.arbiter ∧ (s.cancelRequest h n).notice = s.notice ∧
    (s.cancelRequest h n).pending = s.pending := by
  simp only [State.cancelRequest, State.eventGate]
  repeat' split
  all_goals simp

@[simp] theorem State.clearRequest_keeps (h : HeldRequest) (n : Nat) :
    (s.clearRequest h n).night = s.night ∧ (s.clearRequest h n).straps = s.straps ∧
    (s.clearRequest h n).timer = s.timer ∧ (s.clearRequest h n).clock = s.clock ∧
    (s.clearRequest h n).settings = s.settings ∧ (s.clearRequest h n).selection = s.selection ∧
    (s.clearRequest h n).store = s.store ∧ (s.clearRequest h n).carousel = s.carousel ∧
    (s.clearRequest h n).arbiter = s.arbiter ∧ (s.clearRequest h n).notice = s.notice ∧
    (s.clearRequest h n).pending = s.pending := by
  simp only [State.clearRequest, State.eventGate]
  repeat' split
  all_goals simp

@[simp] theorem State.addRangeRequest_keeps (h : HeldRequest) (n a b : Nat) :
    (s.addRangeRequest h n a b).night = s.night ∧ (s.addRangeRequest h n a b).straps = s.straps ∧
    (s.addRangeRequest h n a b).timer = s.timer ∧ (s.addRangeRequest h n a b).clock = s.clock ∧
    (s.addRangeRequest h n a b).settings = s.settings ∧
    (s.addRangeRequest h n a b).selection = s.selection ∧
    (s.addRangeRequest h n a b).scrambler = s.scrambler ∧ (s.addRangeRequest h n a b).store = s.store ∧
    (s.addRangeRequest h n a b).carousel = s.carousel ∧ (s.addRangeRequest h n a b).bus = s.bus ∧
    (s.addRangeRequest h n a b).arbiter = s.arbiter ∧ (s.addRangeRequest h n a b).notice = s.notice ∧
    (s.addRangeRequest h n a b).counters = s.counters ∧ (s.addRangeRequest h n a b).pending = s.pending := by
  simp only [State.addRangeRequest, State.eventGate]
  repeat' split
  all_goals simp

@[simp] theorem State.removeRangeRequest_keeps (h : HeldRequest) (n a b : Nat) :
    (s.removeRangeRequest h n a b).night = s.night ∧ (s.removeRangeRequest h n a b).straps = s.straps ∧
    (s.removeRangeRequest h n a b).timer = s.timer ∧ (s.removeRangeRequest h n a b).clock = s.clock ∧
    (s.removeRangeRequest h n a b).settings = s.settings ∧
    (s.removeRangeRequest h n a b).selection = s.selection ∧
    (s.removeRangeRequest h n a b).scrambler = s.scrambler ∧
    (s.removeRangeRequest h n a b).store = s.store ∧ (s.removeRangeRequest h n a b).port = s.port ∧
    (s.removeRangeRequest h n a b).sweep = s.sweep ∧
    (s.removeRangeRequest h n a b).carousel = s.carousel ∧ (s.removeRangeRequest h n a b).bus = s.bus ∧
    (s.removeRangeRequest h n a b).arbiter = s.arbiter ∧
    (s.removeRangeRequest h n a b).notice = s.notice ∧
    (s.removeRangeRequest h n a b).counters = s.counters ∧
    (s.removeRangeRequest h n a b).pending = s.pending := by
  simp only [State.removeRangeRequest, State.eventGate]
  repeat' split
  all_goals simp

@[simp] theorem State.loadKey_keeps (h : HeldRequest) (n e : Nat) (k : Key) :
    (s.loadKey h n e k).night = s.night ∧ (s.loadKey h n e k).straps = s.straps ∧
    (s.loadKey h n e k).timer = s.timer ∧ (s.loadKey h n e k).clock = s.clock ∧
    (s.loadKey h n e k).settings = s.settings ∧ (s.loadKey h n e k).selection = s.selection ∧
    (s.loadKey h n e k).store = s.store ∧ (s.loadKey h n e k).carousel = s.carousel ∧
    (s.loadKey h n e k).arbiter = s.arbiter ∧ (s.loadKey h n e k).notice = s.notice ∧
    (s.loadKey h n e k).pending = s.pending := by
  simp only [State.loadKey, State.eventGate]
  repeat' split
  all_goals simp

@[simp] theorem State.postForcedClears_keeps (l : List Nat) :
    (s.postForcedClears l).night = s.night ∧ (s.postForcedClears l).straps = s.straps ∧
    (s.postForcedClears l).timer = s.timer ∧ (s.postForcedClears l).clock = s.clock ∧
    (s.postForcedClears l).settings = s.settings ∧ (s.postForcedClears l).events = s.events ∧
    (s.postForcedClears l).selection = s.selection ∧ (s.postForcedClears l).store = s.store ∧
    (s.postForcedClears l).port = s.port ∧ (s.postForcedClears l).sweep = s.sweep ∧
    (s.postForcedClears l).carousel = s.carousel ∧ (s.postForcedClears l).bus = s.bus ∧
    (s.postForcedClears l).arbiter = s.arbiter ∧ (s.postForcedClears l).link = s.link ∧
    (s.postForcedClears l).notice = s.notice ∧ (s.postForcedClears l).pending = s.pending := by
  induction l generalizing s with
  | nil => simp [State.postForcedClears]
  | cons n ns ih =>
    unfold State.postForcedClears
    split <;> simp [ih]

@[simp] theorem State.ackEvents_keeps (l : List AckEntry) :
    (s.ackEvents l).night = s.night ∧ (s.ackEvents l).straps = s.straps ∧
    (s.ackEvents l).timer = s.timer ∧ (s.ackEvents l).clock = s.clock ∧
    (s.ackEvents l).settings = s.settings ∧ (s.ackEvents l).selection = s.selection ∧
    (s.ackEvents l).scrambler = s.scrambler ∧ (s.ackEvents l).store = s.store ∧
    (s.ackEvents l).port = s.port ∧ (s.ackEvents l).sweep = s.sweep ∧
    (s.ackEvents l).carousel = s.carousel ∧ (s.ackEvents l).bus = s.bus ∧
    (s.ackEvents l).arbiter = s.arbiter ∧ (s.ackEvents l).link = s.link ∧
    (s.ackEvents l).notice = s.notice ∧ (s.ackEvents l).counters = s.counters ∧
    (s.ackEvents l).pending = s.pending := by
  induction l generalizing s with
  | nil => simp [State.ackEvents]
  | cons n ns ih => simp [State.ackEvents, ih]

@[simp] theorem State.acceptRecord_keeps (r : ScramblerRecord) (q : List ScramblerRecord) :
    (s.acceptRecord r q).night = s.night ∧ (s.acceptRecord r q).straps = s.straps ∧
    (s.acceptRecord r q).timer = s.timer ∧ (s.acceptRecord r q).clock = s.clock ∧
    (s.acceptRecord r q).settings = s.settings ∧ (s.acceptRecord r q).selection = s.selection ∧
    (s.acceptRecord r q).store = s.store ∧ (s.acceptRecord r q).carousel = s.carousel ∧
    (s.acceptRecord r q).arbiter = s.arbiter ∧ (s.acceptRecord r q).link = s.link ∧
    (s.acceptRecord r q).notice = s.notice ∧ (s.acceptRecord r q).pending = s.pending := by
  simp [State.acceptRecord]

@[simp] theorem State.openNight_keeps (n : Nat) :
    (s.openNight n).straps = s.straps ∧ (s.openNight n).timer = s.timer ∧
    (s.openNight n).settings = s.settings ∧ (s.openNight n).events = s.events ∧
    (s.openNight n).selection = s.selection ∧ (s.openNight n).scrambler = s.scrambler ∧
    (s.openNight n).store = s.store ∧ (s.openNight n).port = s.port ∧ (s.openNight n).sweep = s.sweep ∧
    (s.openNight n).arbiter = s.arbiter ∧ (s.openNight n).link = s.link ∧
    (s.openNight n).notice = s.notice ∧ (s.openNight n).counters = s.counters ∧
    (s.openNight n).pending = s.pending := by
  simp [State.openNight]

end Sys2Proof.Machine
end

