-- ==== Sys2Proof/Laws/Memory.lean ====
section
/-! SUPPORT. The slot memory: what a write leaves to be read, and that every operation keeps the canonical
form. -/

namespace Sys2Proof.Machine

/-- Every entry of a canonical memory lies above `n`. -/
def Memory.above (n : Nat) (m : Memory) : Prop := ∀ q ∈ m, n < q.1

theorem Memory.wf_cons (p : Nat × Cell) (m : Memory) :
    Memory.wf (p :: m) = true ↔ p.2 ≠ blankCell ∧ Memory.above p.1 m ∧ Memory.wf m = true := by
  simp [Memory.wf, Memory.above, and_assoc]

theorem Memory.read_of_above (m : Memory) (n k : Nat) (h : Memory.above n m) (hk : k ≤ n) :
    Memory.read m k = blankCell := by
  induction m with
  | nil => rfl
  | cons p m ih =>
    have hp : n < p.1 := h p (by simp)
    have hm : Memory.above n m := fun q hq => h q (by simp [hq])
    have hne : ¬ p.1 = k := by omega
    simp [Memory.read, hne, ih hm]

theorem Memory.above_cons (n k : Nat) (c : Cell) (m : Memory) (hk : k < n) (h : Memory.above k m) :
    Memory.above k (Memory.cons n c m) := by
  unfold Memory.cons
  split
  · exact h
  · intro q hq
    rcases List.mem_cons.mp hq with h1 | h1
    · subst h1; exact hk
    · exact h q h1

theorem Memory.wf_of_cons (n : Nat) (c : Cell) (m : Memory) (ha : Memory.above n m)
    (h : Memory.wf m = true) : Memory.wf (Memory.cons n c m) = true := by
  unfold Memory.cons
  split
  · exact h
  · rename_i hc
    exact (Memory.wf_cons _ _).mpr ⟨hc, ha, h⟩

theorem Memory.above_write (m : Memory) (n k : Nat) (c : Cell) (hk : k < n) (h : Memory.above k m) :
    Memory.above k (Memory.write m n c) := by
  induction m with
  | nil => exact Memory.above_cons n k c [] hk h
  | cons p m ih =>
    have hm : Memory.above k m := fun q hq => h q (by simp [hq])
    unfold Memory.write
    split
    · exact Memory.above_cons n k c _ hk h
    · split
      · exact Memory.above_cons n k c m hk hm
      · intro q hq
        rcases List.mem_cons.mp hq with h1 | h1
        · subst h1; exact h _ (by simp)
        · exact ih hm q h1

/-- A write keeps the canonical form. -/
theorem Memory.write_wf (m : Memory) (n : Nat) (c : Cell) (h : Memory.wf m = true) :
    Memory.wf (Memory.write m n c) = true := by
  induction m with
  | nil => exact Memory.wf_of_cons n c [] (by intro q hq; simp at hq) h
  | cons p m ih =>
    obtain ⟨h1, h2, h3⟩ := (Memory.wf_cons p m).mp h
    unfold Memory.write
    split
    · rename_i hn
      refine Memory.wf_of_cons n c _ ?_ h
      intro q hq
      rcases List.mem_cons.mp hq with e | e
      · subst e; exact hn
      · exact Nat.lt_trans hn (h2 q e)
    · split
      · rename_i hn
        refine Memory.wf_of_cons n c m ?_ h3
        rw [hn]; exact h2
      · rename_i ha hb
        refine (Memory.wf_cons _ _).mpr ⟨h1, ?_, ih h3⟩
        exact Memory.above_write m n p.1 c (by omega) h2

theorem Memory.read_cons_same (n : Nat) (c : Cell) (m : Memory) (h : Memory.above n m) :
    Memory.read (Memory.cons n c m) n = c := by
  unfold Memory.cons
  split
  · rename_i hc
    rw [Memory.read_of_above m n n h (Nat.le_refl n), hc]
  · simp [Memory.read]

theorem Memory.read_cons_other (n k : Nat) (c : Cell) (m : Memory) (h : k ≠ n) :
    Memory.read (Memory.cons n c m) k = Memory.read m k := by
  unfold Memory.cons
  split
  · rfl
  · have : ¬ n = k := fun e => h e.symm
    simp [Memory.read, this]

/-- A slot written reads back as written. -/
theorem Memory.read_write_same (m : Memory) (n : Nat) (c : Cell) (h : Memory.wf m = true) :
    Memory.read (Memory.write m n c) n = c := by
  induction m with
  | nil => exact Memory.read_cons_same n c [] (by intro q hq; simp at hq)
  | cons p m ih =>
    obtain ⟨h1, h2, h3⟩ := (Memory.wf_cons p m).mp h
    unfold Memory.write
    split
    · rename_i hn
      refine Memory.read_cons_same n c _ ?_
      intro q hq
      rcases List.mem_cons.mp hq with e | e
      · subst e; exact hn
      · exact Nat.lt_trans hn (h2 q e)
    · split
      · rename_i hn
        refine Memory.read_cons_same n c m ?_
        rw [hn]; exact h2
      · rename_i ha hb
        have : ¬ p.1 = n := fun e => hb e.symm
        simp [Memory.read, this, ih h3]

/-- Every other slot reads as before. -/
theorem Memory.read_write_other (m : Memory) (n k : Nat) (c : Cell) (h : k ≠ n) :
    Memory.read (Memory.write m n c) k = Memory.read m k := by
  induction m with
  | nil => exact Memory.read_cons_other n k c [] h
  | cons p m ih =>
    unfold Memory.write
    split
    · exact Memory.read_cons_other n k c _ h
    · split
      · rename_i hn
        rw [Memory.read_cons_other n k c m h]
        have : ¬ p.1 = k := by rw [← hn]; exact fun e => h e.symm
        simp [Memory.read, this]
      · by_cases hp : p.1 = k
        · simp [Memory.read, hp]
        · simp [Memory.read, hp, ih]

/-! ## Slots -/

variable (s : State)

theorem State.cell_putCell_other (n k : Nat) (c : Cell) (h : k ≠ n) :
    (s.putCell n c).cell k = s.cell k := Memory.read_write_other _ _ _ _ h

theorem State.cell_putSlot_other (n k : Nat) (x : Slot) (h : k ≠ n) :
    (s.putSlot n x).cell k = s.cell k := Memory.read_write_other _ _ _ _ h

theorem State.slot_putSlot_other (n k : Nat) (x : Slot) (h : k ≠ n) :
    (s.putSlot n x).slot k = s.slot k := by
  unfold State.slot; rw [s.cell_putSlot_other n k x h]

theorem State.cell_putSlot_same (n : Nat) (x : Slot) (h : s.storeOk) :
    (s.putSlot n x).cell n = { slot := x, checkGood := true } :=
  Memory.read_write_same _ _ _ h

theorem State.slot_putSlot_same (n : Nat) (x : Slot) (h : s.storeOk) : (s.putSlot n x).slot n = x := by
  unfold State.slot; rw [s.cell_putSlot_same n x h]

/-- Two states with one store read alike. -/
theorem State.cell_congr (t : State) (n : Nat) (h : t.store = s.store) : t.cell n = s.cell n := by
  unfold State.cell; rw [h]

theorem State.slot_congr (t : State) (n : Nat) (h : t.store = s.store) : t.slot n = s.slot n := by
  unfold State.slot; rw [s.cell_congr t n h]

theorem State.storeOk_congr (t : State) (h : t.store.memory = s.store.memory) (hs : s.storeOk) :
    t.storeOk := by
  unfold State.storeOk at *; rw [h]; exact hs

theorem State.putCell_ok (n : Nat) (c : Cell) (h : s.storeOk) : (s.putCell n c).storeOk :=
  Memory.write_wf _ _ _ h

theorem State.putSlot_ok (n : Nat) (x : Slot) (h : s.storeOk) : (s.putSlot n x).storeOk :=
  Memory.write_wf _ _ _ h

theorem State.upsetSlot_ok (n : Nat) (h : s.storeOk) : (s.upsetSlot n).storeOk := by
  unfold State.upsetSlot
  split
  · exact s.putCell_ok _ _ h
  · exact h

theorem State.upset_ok (l : List Nat) (h : s.storeOk) : (s.upset l).storeOk := by
  induction l generalizing s with
  | nil => exact h
  | cons n ns ih => exact ih _ (s.upsetSlot_ok n h)

theorem State.rewriteDamaged_ok (n : Nat) (h : s.storeOk) : (s.rewriteDamaged n).storeOk :=
  s.putSlot_ok _ _ h

theorem State.check_ok (n : Nat) (h : s.storeOk) : (s.check n).storeOk := by
  unfold State.check
  split
  · exact h
  · exact s.rewriteDamaged_ok n h

theorem State.lookupFrom_ok (d e : Nat) (l : List Nat) (c : Option Nat) (h : s.storeOk) :
    (State.lookupFrom d e l c s).2.storeOk := by
  induction l generalizing s c with
  | nil => exact h
  | cons n ns ih =>
    have hc := s.check_ok n h
    simp only [State.lookupFrom]
    split
    · exact hc
    · split <;> first | exact hc | exact ih _ _ hc

theorem State.lookup_ok (d e : Nat) (h : s.storeOk) : (s.lookup d e).2.storeOk :=
  s.lookupFrom_ok d e _ _ h

theorem State.appendFresh_ok (n : Nat) (h : s.storeOk) : (s.appendFresh n).storeOk := by
  unfold State.appendFresh
  split
  · split
    · exact State.putSlot_ok _ _ _ h
    · exact h
  · exact h
  · exact h

theorem State.appendUrgent_ok (n : Nat) (h : s.storeOk) : (s.appendUrgent n).storeOk := by
  unfold State.appendUrgent
  split
  · split
    · exact State.putSlot_ok _ _ _ h
    · exact h
  · exact h
  · exact h

/-! ## The read and check of R32 -/

/-- A slot whose check byte agrees is read as it stands, and nothing changes (R32). -/
theorem State.check_good (n : Nat) (h : (s.cell n).checkGood = true) : s.check n = s := by
  simp [State.check, h]

/-- A slot whose check fails is DAMAGED after the check, with the mark the queues give it (R33). -/
theorem State.slot_check_bad (n : Nat) (hs : s.storeOk) (h : (s.cell n).checkGood = false) :
    (s.check n).slot n = damagedSlot (s.markFromQueues n) := by
  have : (s.check n).slot n = (s.putSlot n (damagedSlot (s.markFromQueues n))).slot n := by
    simp [State.check, h]; rfl
  rw [this, State.slot_putSlot_same _ _ _ hs]

/-- The check of one slot leaves every other. -/
theorem State.cell_check_other (n k : Nat) (h : k ≠ n) : (s.check n).cell k = s.cell k := by
  unfold State.check
  split
  · rfl
  · exact s.cell_putSlot_other n k _ h

/-- The sizes in force are left by the check. -/
@[simp] theorem State.slotCount_check (n : Nat) : (s.check n).slotCount = s.slotCount := by
  unfold State.check
  split <;> rfl

end Sys2Proof.Machine
end

