-- ==== Sys2Proof/Laws/Records.lean ====
section
/-! SUPPORT. What the operations over event records, marks and keys do. -/

namespace Sys2Proof.Machine

/-- The records after one is replaced; a number beyond the table replaces none. -/
theorem State.event_setEvent (s : State) (n m : Nat) (r : EventRecord) :
      (s.setEvent n r).event m = if m = n ∧ n < s.events.length then r else s.event m := by
  simp only [State.event, State.setEvent, List.getD_eq_getElem?_getD, List.getElem?_set]
  by_cases h : n = m
  · subst h
    by_cases h2 : n < s.events.length <;> simp [h2]
  · have : ¬ m = n := fun e => h e.symm
    simp [h, this]

/-- Posting a CLEAR record touches the scrambler queue and the counters alone. -/
theorem State.postClear_only (s : State) (n : Nat) : ∃ q c, s.postClear n =
      { s with scrambler := { s.scrambler with queue := q }, counters := c } := by
  unfold State.postClear
  simp only
  split
  · exact ⟨_, _, rfl⟩
  · exact ⟨_, s.counters, rfl⟩

/-- It leaves the event table. -/
theorem State.postClear_events (s : State) (n : Nat) : (s.postClear n).events = s.events := by
  obtain ⟨q,c,e⟩ := State.postClear_only s n; rw [e]

/-- The queue after a CLEAR record is posted (R117). -/
theorem State.postClear_queue (s : State) (n : Nat) :
      (s.postClear n).scrambler.queue = s.scrambler.queue.filter (fun r => !(r.event == n))
      ++ [{ event := n, payload := .clear (s.event n).service }] := by
  unfold State.postClear
  simp only
  split <;> simp [State.setScramblerQueue, State.count]

/-- The records after the keys of one event are ended (R115). -/
theorem State.endKeys_event (s : State) (n m : Nat) (hn : n < s.events.length) :
      (s.endKeys n).event m = if m = n then { s.event n with keys := (s.event n).keys.ended }
      else s.event m := by
  have h1 : ∀ t : State, t.events = s.events
        → ((t.setEvent n { t.event n with keys := (t.event n).keys.ended }).voidTags
    (TagContent.isKeyOf n)).event m = if m = n then { s.event n with keys := (s.event n).keys.ended }
          else s.event m := by
    intro t ht
    have e : ∀ k, t.event k = s.event k := by intro k; simp [State.event, ht]
    show (t.setEvent n _).event m = _
    rw [State.event_setEvent, ht]
    simp only [e, hn, and_true]
  unfold State.endKeys
  simp only
  split
  · exact h1 _ (State.postClear_events s n)
  · exact h1 _ rfl

/-- Voiding the KEY tags of an event, tag by tag (R109). -/
theorem Tag.voidIf_isKeyOf (n : Nat) : Tag.voidIf (TagContent.isKeyOf n) = Tag.keyVoided n := by
  funext t
  rcases t with ⟨c, content, v⟩
  unfold Tag.voidIf Tag.keyVoided TagContent.isKeyOf
  cases content <;> simp
  rename_i e _
  by_cases h : e = n <;> simp [h]

/-- The packets and the waiting completion updates after the keys of one event are ended (R109, R115). -/
theorem State.endKeys_tags (s : State) (n : Nat) :
    (s.endKeys n).bus = { s.bus with
      staging := s.bus.staging.map (Packet.keyVoided n), sending := s.bus.sending.map (Packet.keyVoided n) }
    ∧ (s.endKeys n).port.completions = s.port.completions.map (Tag.keyVoided n) := by
  have hp : Packet.voidIf (TagContent.isKeyOf n) = Packet.keyVoided n := by
    funext p; unfold Packet.voidIf Packet.keyVoided; rw [Tag.voidIf_isKeyOf]
  rw [← hp, ← Tag.voidIf_isKeyOf]
  unfold State.endKeys
  simp only
  split
  · obtain ⟨q, c, e⟩ := State.postClear_only s n
    rw [e]; exact ⟨rfl, rfl⟩
  · exact ⟨rfl, rfl⟩

/-- The counters after a CLEAR record is posted: a SWITCH record it replaces counts as withdrawn (R117). -/
theorem State.postClear_counters (s : State) (n : Nat) :
    ((∃ service epoch key, ({ event := n, payload := .switch service epoch key } : ScramblerRecord)
        ∈ s.scrambler.queue) →
      (s.postClear n).counters = { s.counters with switchesWithdrawn := bump s.counters.switchesWithdrawn })
    ∧ ((∀ service epoch key, ({ event := n, payload := .switch service epoch key } : ScramblerRecord)
        ∉ s.scrambler.queue) → (s.postClear n).counters = s.counters) := by
  unfold State.postClear
  simp only
  constructor
  · rintro ⟨a, b, c, h⟩
    rw [if_pos (List.any_eq_true.mpr ⟨_, h, by simp [ScramblerPayload.isSwitch]⟩)]; rfl
  · intro h
    rw [if_neg]
    · rfl
    · rw [List.any_eq_true]
      rintro ⟨⟨e, pl⟩, hm, hh⟩
      cases pl <;> simp [ScramblerPayload.isSwitch] at hh
      subst hh; exact h _ _ _ hm

/-- It leaves the size of the event table. -/
theorem State.endKeys_length (s : State) (n : Nat) : (s.endKeys n).events.length = s.events.length := by
  unfold State.endKeys; simp only; split <;> simp [State.voidTags]

/-- The advance conditions as R110 and R114 state them. -/
theorem State.advanceReady_iff (s : State) (n : Nat) : s.advanceReady n = true ↔ s.Ready n := by
  unfold State.advanceReady State.Ready State.hasRecord
  cases (s.event n).keys.next <;> simp

/-- An advance of an event with a next key (R111, R113, R117). -/
theorem State.advance_eq (s : State) (n : Nat) (w : Window) (key : Key) (hw :
      (s.event n).window = some w) (hk : (s.event n).keys.next = some key) :
   s.advance n = { s.setEvent n
            { s.event n with
              causes := (s.event n).causes ||| (if (s.event n).keys.onDeck = none then 4#4 else 0#4)
              keys := s.AdvancedKeys n } with
          scrambler := { s.scrambler with
            queue := s.scrambler.queue
              ++ [{ event := n,
                    payload := .switch w.service ((s.event n).keys.epoch + 1) key }] } } := by
  have el : s.selectedLength = (match s.selection with
      | .short => s.settings.record.shortEpoch
      | .long => s.settings.record.longEpoch) := by unfold State.selectedLength; cases s.selection <;> rfl
  simp only [State.advance, hk]
  have er : (s.event n).advance key s.clock.clock s.selectedLength = { s.event n with
              causes := (s.event n).causes ||| (if (s.event n).keys.onDeck = none then 4#4 else 0#4)
              keys := s.AdvancedKeys n } := by
    unfold EventRecord.advance
    cases ho : (s.event n).keys.onDeck <;> simp [ho, State.AdvancedKeys, KeyFields.advance, el, hk,
          EventRecord.raise, eventCauseBit] <;> cases s.selection <;> rfl
  rw [er]
  simp [State.postSwitch, State.setScramblerQueue, EventRecord.service, hw]

/-- A cancel sweep has completed, as R12 states it. -/
theorem State.cancelSweepDone_iff (s : State) (n : Nat) : s.cancelSweepDone n = true ↔ s.CancelSwept n := by
  unfold State.cancelSweepDone State.CancelSwept State.cancelRunning
  cases s.sweep.engine <;> simp
  rename_i w; intro _; tauto

/-- A revoke to VACANT reported for an event (R12, R13). -/
theorem State.reportRevoked_spec (s : State) (n : Nat) (hn : n < s.events.length) (hne :
      (s.event n).state ≠ .empty) (hl : 1 ≤ (s.event n).counts.live) :
   ∃ r, s.reportRevoked n = s.setEvent n r ∧ r.counts =
         { (s.event n).counts with live := (s.event n).counts.live - 1, revoked := (s.event n).counts.revoked + 1 }
     ∧ ((s.event n).state = .cancelled → s.CancelSwept n → (s.event n).counts.live = 1 →
          r = { s.event n with
            state := .retired, counts := r.counts, causes := (s.event n).causes ||| 1#4
            repeatsOwed := s.settings.record.stateRepeat })
     ∧ (((s.event n).state ≠ .cancelled ∨ ¬ s.CancelSwept n ∨ 1 < (s.event n).counts.live) → r =
           { s.event n with counts := r.counts }) := by
  have hc : Counts.revoke (s.event n).counts =
        { (s.event n).counts with live := (s.event n).counts.live - 1, revoked := (s.event n).counts.revoked + 1 } := by
    unfold Counts.revoke; rw [if_neg (by omega)]
  have hrep : s.report n Counts.revoke = s.setEvent n { s.event n with counts := Counts.revoke (s.event n).counts } := by
    unfold State.report; rw [if_neg hne]
  unfold State.reportRevoked
  rw [hrep]
  generalize ht : s.setEvent n { s.event n with counts := Counts.revoke (s.event n).counts } = t
  have et : t.event n = { s.event n with counts := Counts.revoke (s.event n).counts } := by
      rw [← ht, State.event_setEvent]; simp [hn]
  have esw : t.cancelSweepDone n = true ↔ s.CancelSwept n := by
    rw [State.cancelSweepDone_iff]; unfold State.CancelSwept; rw [et, ← ht]; rfl
  by_cases hx : (s.event n).state = .cancelled ∧ s.CancelSwept n ∧ (s.event n).counts.live = 1
  · refine ⟨{ s.event n with
        state := .retired, counts := Counts.revoke (s.event n).counts
        causes := (s.event n).causes ||| 1#4, repeatsOwed := s.settings.record.stateRepeat }, ?_, hc, ?_, ?_⟩
    · unfold State.retireIfDone; rw [if_pos ⟨by rw [et]; exact hx.1, esw.mpr hx.2.1, by rw [et]; simp [hc,
          hx.2.2]⟩]
      unfold State.changeState; rw [et, ← ht]; simp [State.setEvent, EventRecord.changeState,
            EventRecord.raise, eventCauseBit, State.stateRepeat]
    · intros; rfl
    · rintro (h | h | h)
      · exact absurd hx.1 h
      · exact absurd hx.2.1 h
      · omega
  · refine ⟨{ s.event n with counts := Counts.revoke (s.event n).counts }, ?_, hc, ?_, ?_⟩
    · unfold State.retireIfDone; rw [if_neg, ht]
      rw [et, esw]; rintro ⟨a,b,c⟩; simp [hc] at a c; exact hx ⟨a, b, by omega⟩
    · intro a b c; exact absurd ⟨a,b,c⟩ hx
    · intros; rfl

/-- A count report touches its own event alone. -/
theorem State.report_only (s : State) (n : Nat) (f) : ∃ ev, s.report n f = { s with events := ev }
      ∧ ev.length = s.events.length ∧ ∀ m, m ≠ n → (State.event { s with events := ev } m) = s.event m := by
  unfold State.report
  split
  · exact ⟨s.events, rfl, rfl, fun _ _ => rfl⟩
  · exact ⟨_, rfl, by simp,
        fun m hm => by show (s.setEvent n _).event m = _; rw [State.event_setEvent]; simp [hm]⟩

/-- So does the report of a revoke. -/
theorem State.reportRevoked_only (s : State) (n : Nat) : ∃ ev, s.reportRevoked n =
      { s with events := ev } ∧ ∀ m, m ≠ n → (State.event { s with events := ev } m) = s.event m := by
  unfold State.reportRevoked State.retireIfDone
  obtain ⟨ev,e,_,h⟩ := State.report_only s n Counts.revoke
  rw [e]
  split
  · refine ⟨_, rfl, fun m hm => ?_⟩
    rw [← h m hm]
    show (State.setEvent { s with events := ev } n _).event m = _
    rw [State.event_setEvent]; simp [hm]
  · exact ⟨ev, rfl, h⟩

/-- What stops a plain NIGHT-CLOSE, as R155 states it. -/
theorem State.active_iff (s : State) : s.active = true ↔ s.Active := by
  simp only [State.active, State.Active, Bool.or_eq_true, List.any_eq_true]
  refine or_congr ?_ ?_
  · refine exists_congr fun r => and_congr Iff.rfl ?_
    cases r.state <;> simp [EventState.stopsClose, EventState.selling, EventState.keyed]
  · cases s.sweep.engine <;> simp [EngineState.isSweeping]

/-- The checks every event request makes first, when they pass (R18). -/
theorem State.eventGate_passes (s : State) (h : HeldRequest) (n : Nat) (k)
      (hn : s.night = .setup ∨ s.night = .opened) (h31 : n ≤ 31) (he :
      (s.event n).state ≠ .empty) : s.eventGate h n k = k (s.event n) := by
  have hd' : ¬ 31 < n := by omega
  rcases hn with hn | hn <;> simp [State.eventGate, hn, hd', he]

/-- An event ON-SALE or keyed is not EMPTY. -/
theorem EventState.selling_ne_empty (e : EventState) (h : e.selling = true) : e ≠ .empty := by
    rintro rfl; simp [EventState.selling, EventState.keyed] at h

/-- An event SCHEDULED to OVERTIME is not EMPTY. -/
theorem EventState.admitting_ne_empty (e : EventState) (h : e.admitting = true) : e ≠ .empty := by
    rintro rfl; simp [EventState.admitting, EventState.selling, EventState.keyed] at h

/-- A number with a next key lies in the table. -/
theorem State.lt_of_next (s : State) (n : Nat) (key : Key) (h : (s.event n).keys.next = some key) :
    n < s.events.length := by
  by_contra hn
  have e : s.event n = EventRecord.empty := by
    simp [State.event, List.getD_eq_getElem?_getD, List.getElem?_eq_none (Nat.le_of_not_lt hn)]
  rw [e] at h; simp [EventRecord.empty, KeyFields.empty] at h

/-- An advance to a next key that is present (R111, R113, R117). -/
theorem State.advance_advanced (s : State) (n : Nat) (key : Key) (h : (s.event n).keys.next = some key) :
    s.advance n = s.advanced n key none := by
  have e : (s.event n).advance key s.clock.clock s.selectedLength =
      { s.event n with
        causes := (s.event n).causes ||| (if (s.event n).keys.onDeck = none then 4#4 else 0#4)
        keys := s.AdvancedKeys n } := by
    unfold EventRecord.advance
    cases ho : (s.event n).keys.onDeck <;>
      simp [ho, State.AdvancedKeys, KeyFields.advance, State.selectedLength, h, EventRecord.raise,
        eventCauseBit] <;> cases s.selection <;> rfl
  simp only [State.advance, h]
  rw [e]
  simp [State.advanced, State.postSwitch, State.setScramblerQueue, State.setEvent]

/-- An entry under the first key (R7, R9): the advance, into the state that the window gives at the present clock. -/
theorem State.enter_advanced (s : State) (n : Nat) (key : Key) (w : Window) (h : (s.event n).keys.next = some key)
    (hw : (s.event n).window = some w) :
    s.enter n = s.advanced n key (some (w.entryState s.clock.clock)) := by
  have hn := s.lt_of_next n key h
  simp only [State.enter, hw]
  rw [State.advance_advanced s n key h]
  unfold State.changeState State.setEvent
  have e : (s.advanced n key none).event n =
      { s.event n with
        causes := (s.event n).causes ||| (if (s.event n).keys.onDeck = none then 4#4 else 0#4)
        keys := s.AdvancedKeys n } := by
    show (s.setEvent n _).event n = _
    rw [State.event_setEvent]; simp [hn]
  rw [e]
  simp [State.advanced, EventRecord.changeState, EventRecord.raise, eventCauseBit, State.stateRepeat]
  rw [BitVec.or_assoc, BitVec.or_assoc, BitVec.or_comm 1#4]

/-- The boundary test reads as R110 states it. -/
theorem State.boundaryReached_iff (s : State) (n : Nat) : s.boundaryReached n = true ↔ s.AtBoundary n := by
  unfold State.boundaryReached KeyFields.boundary State.AtBoundary
  cases (s.event n).keys.epochStart <;> cases (s.event n).keys.length <;> simp

/-- The deadline steps of several events are those of each, one after another (R143). -/
theorem State.deadlinesOf_foldl (s : State) (l : List Nat) :
    s.deadlinesOf l = l.foldl State.deadlineSteps s := by
  induction l generalizing s with
  | nil => rfl
  | cons n ns ih => rw [State.deadlinesOf, List.foldl_cons, ih]

end Sys2Proof.Machine
end

