-- ==== Sys2Proof/Laws/Slots.lean ====
section
/-! SUPPORT. What the operations over slots, queues and packets in flight do. -/

namespace Sys2Proof.Machine

/-- Corruption touches the memory alone. -/
theorem State.upset_only (l : List Nat) (s : State) : ∃ m, s.upset l =
      { s with store := { s.store with memory := m } } := by
  induction l generalizing s with
  | nil => exact ⟨s.store.memory, rfl⟩
  | cons n ns ih =>
    rw [State.upset]
    have : ∃ m, s.upsetSlot n = { s with store := { s.store with memory := m } } := by
      unfold State.upsetSlot; split
      · exact ⟨_, rfl⟩
      · exact ⟨s.store.memory, rfl⟩
    obtain ⟨m,e⟩ := this
    rw [e]; obtain ⟨m',e'⟩ := ih { s with store := { s.store with memory := m } }
    exact ⟨m', e'⟩

/-- `v` is `s` with a corrupted memory in canonical form. -/
structure Corrupted (s v : State) : Prop where
  only : ∃ m, v = { s with store := { s.store with memory := m } }
  ok : v.storeOk

/-- The state a store operation works on is one. -/
theorem Corrupted.of_upset (s v : State) (u) (h : v = s.upset u) (hs : s.storeOk) : Corrupted s v := by
  subst h; exact ⟨State.upset_only _ _, State.upset_ok _ _ hs⟩

/-- Its event records are those of `s`. -/
theorem Corrupted.event {s v : State} (h : Corrupted s v) (n : Nat) : v.event n = s.event n := by
  obtain ⟨m,e⟩ := h.only; rw [e]; rfl

/-- No message of a pair is in flight, as R46 states it. -/
theorem State.inFlight_iff (s : State) (d e : Nat) : s.inFlight d e = false ↔ s.NotInFlight d e := by
  unfold State.inFlight State.NotInFlight
  rw [List.any_eq_false]
  refine forall_congr' fun t => forall_congr' fun _ => ?_
  cases t.content <;> simp [TagContent.carries]

/-- Its packets in flight are those of `s`. -/
theorem Corrupted.inFlight {s v : State} (o : Corrupted s v) (d e : Nat) : v.inFlight d e = s.inFlight d e := by
  obtain ⟨m,h⟩ := o.only; rw [h]; rfl

/-- A slot holds a live grant of a pair (R31). -/
theorem Slot.live_iff (x : Slot) (d e : Nat) : (x.state.isLive && x.holds d e) = true ↔ x.LiveFor d e := by
  unfold Slot.holds Slot.LiveFor
  cases x.state <;> cases x.grant <;> simp [SlotState.isLive]

/-- A fresh append attempt (R40, R41). -/
theorem State.appendFresh_spec (s : State) (n : Nat) (hs : s.storeOk) :
   (s.appendFresh n).slot n = { s.slot n with mark := if (s.slot n).mark = .none
         ∧ s.carousel.fresh.length < 1024 then .fresh else (s.slot n).mark }
   ∧ (∀ m, m ≠ n → (s.appendFresh n).cell m = s.cell m)
   ∧ ∃ m nt c, s.appendFresh n =
         { s with
           store := { s.store with memory := m }, notice := nt, counters := c
           carousel := { s.carousel with
             fresh := if (s.slot n).mark = .none ∧ s.carousel.fresh.length < 1024 then
                 s.carousel.fresh ++ [n] else s.carousel.fresh } }
      ∧ (¬ ((s.slot n).mark = .none ∧ 1024 ≤ s.carousel.fresh.length) →
          nt = s.notice ∧ c = s.counters)
      ∧ ((s.slot n).mark = .none ∧ 1024 ≤ s.carousel.fresh.length →
          nt = { s.notice with causes := s.notice.causes ||| 0x004#10 }
          ∧ c = { s.counters with freshOverflow := bump s.counters.freshOverflow }) := by
  unfold State.appendFresh
  cases hm : (s.slot n).mark
  · by_cases hl : s.carousel.fresh.length < 1024
    · have hl' : ¬ 1024 ≤ s.carousel.fresh.length := by omega
      simp only [hl, if_true]
      refine ⟨?_, ?_, ?_⟩
      · refine (State.slot_putSlot_same (s.setFresh _) n _ hs).trans ?_; simp
      · intro m hm; rw [State.cell_putSlot_other _ _ _ _ hm]; rfl
      · exact ⟨_, _, _, by simp [State.putSlot, State.putCell, State.setFresh]; exact ⟨rfl,rfl,rfl⟩,
            by simp, by simp [hl']⟩
    · have hl' : 1024 ≤ s.carousel.fresh.length := by omega
      simp only [hl, if_false]
      refine ⟨?_, fun m hm => rfl, s.store.memory,
            { s.notice with causes := s.notice.causes ||| 0x004#10 },
            { s.counters with freshOverflow := bump s.counters.freshOverflow }, ?_, ?_, ?_⟩
      · simp [← hm]; rfl
      · simp [State.raise, State.count, unitCauseBit]
      · simp [hl']
      · simp
  · refine ⟨(show s.slot n = { s.slot n with mark := if QueueMark.fresh = .none
        ∧ s.carousel.fresh.length < 1024 then .fresh else QueueMark.fresh } by rw [if_neg (by simp),
        ← hm]), fun _ _ => rfl, s.store.memory, s.notice, s.counters, by simp, by simp, by simp⟩
  · refine ⟨(show s.slot n = { s.slot n with mark := if QueueMark.urgent = .none
        ∧ s.carousel.fresh.length < 1024 then .fresh else QueueMark.urgent } by rw [if_neg (by simp),
        ← hm]), fun _ _ => rfl, s.store.memory, s.notice, s.counters, by simp, by simp, by simp⟩

/-- An urgent append attempt (R40, R41). -/
theorem State.appendUrgent_spec (s : State) (n : Nat) (hs : s.storeOk) :
   (s.appendUrgent n).slot n = { s.slot n with mark := if (s.slot n).mark = .none
         ∧ s.carousel.urgent.length < 256 then .urgent else (s.slot n).mark }
   ∧ (∀ m, m ≠ n → (s.appendUrgent n).cell m = s.cell m)
   ∧ ∃ m nt c, s.appendUrgent n =
         { s with
           store := { s.store with memory := m }, notice := nt, counters := c
           carousel := { s.carousel with
             urgent := if (s.slot n).mark = .none ∧ s.carousel.urgent.length < 256 then
                 s.carousel.urgent ++ [n] else s.carousel.urgent } }
      ∧ (¬ ((s.slot n).mark = .none ∧ 256 ≤ s.carousel.urgent.length) →
          nt = s.notice ∧ c = s.counters)
      ∧ ((s.slot n).mark = .none ∧ 256 ≤ s.carousel.urgent.length →
          nt = { s.notice with causes := s.notice.causes ||| 0x008#10 }
          ∧ c = { s.counters with urgentOverflow := bump s.counters.urgentOverflow }) := by
  unfold State.appendUrgent
  cases hm : (s.slot n).mark
  · by_cases hl : s.carousel.urgent.length < 256
    · have hl' : ¬ 256 ≤ s.carousel.urgent.length := by omega
      simp only [hl, if_true]
      refine ⟨?_, ?_, ?_⟩
      · refine (State.slot_putSlot_same (s.setUrgent _) n _ hs).trans ?_; simp
      · intro m hm; rw [State.cell_putSlot_other _ _ _ _ hm]; rfl
      · exact ⟨_, _, _, by simp [State.putSlot, State.putCell, State.setUrgent]; exact ⟨rfl,rfl,rfl⟩,
            by simp, by simp [hl']⟩
    · have hl' : 256 ≤ s.carousel.urgent.length := by omega
      simp only [hl, if_false]
      refine ⟨?_, fun m hm => rfl, s.store.memory,
            { s.notice with causes := s.notice.causes ||| 0x008#10 },
            { s.counters with urgentOverflow := bump s.counters.urgentOverflow }, ?_, ?_, ?_⟩
      · simp [← hm]; rfl
      · simp [State.raise, State.count, unitCauseBit]
      · simp [hl']
      · simp
  · refine ⟨(show s.slot n = { s.slot n with mark := if QueueMark.fresh = .none
        ∧ s.carousel.urgent.length < 256 then .urgent else QueueMark.fresh } by rw [if_neg (by simp),
        ← hm]), fun _ _ => rfl, s.store.memory, s.notice, s.counters, by simp, by simp, by simp⟩
  · refine ⟨(show s.slot n = { s.slot n with mark := if QueueMark.urgent = .none
        ∧ s.carousel.urgent.length < 256 then .urgent else QueueMark.urgent } by rw [if_neg (by simp),
        ← hm]), fun _ _ => rfl, s.store.memory, s.notice, s.counters, by simp, by simp, by simp⟩

/-- The holder after a result (R165). -/
theorem State.finish_holder (s : State) (h : HeldRequest) (r b) :
      (s.finish h r b).link.holder = h.After r b := by
  simp [State.finish, State.answer, HeldRequest.After, State.setHolder]; cases h.broadcast <;> simp

/-- A result touches the holder alone. -/
theorem State.finish_only (s : State) (h : HeldRequest) (r b) : s.finish h r b =
      { s with link := { s.link with holder := h.After r b } } := by
  rw [← State.finish_holder s h r b]; rfl

/-- A slot holds a pair. -/
theorem Slot.holds_iff (x : Slot) (d e : Nat) : x.holds d e = true ↔ ∃ g, x.grant = some g
      ∧ g.decoder = d ∧ g.event = e := by
  unfold Slot.holds; cases x.grant <;> simp

/-- PENDING, ANNOUNCED or HELD. -/
theorem SlotState.granted_iff (x : SlotState) : x.granted = true
      ↔ x = .pending ∨ x = .announced ∨ x = .held := by
  cases x <;> simp [SlotState.granted]

/-- The conversion of a candidate, as R91 states it. -/
theorem State.conversion_iff (s : State) (g : Grant) (why : RevokeReason) : s.conversion g = some why
      ↔ s.Converts g why := by
  unfold State.conversion State.Converts
  by_cases h : (s.event g.event).state = .cancelled
  · simp [h, eq_comm]
  · simp only [h, if_false]
    have hb : (blackedOut (s.event g.event).blackout g.region = true) ↔ ∃ x ∈ (s.event g.event).blackout,
          x.low ≤ g.region ∧ g.region ≤ x.high := by
      simp [blackedOut, Range.covers]
    by_cases h2 : g.kind = .purchased ∧ blackedOut (s.event g.event).blackout g.region = true
    · rw [if_pos h2]; have := hb.mp h2.2
      constructor
      · intro hw; simp at hw; exact Or.inr ⟨h, h2.1, hw.symm, this⟩
      · rintro (⟨h4,_⟩ | ⟨_,_,h5,_⟩)
        · exact h4.elim
        · rw [h5]
    · rw [if_neg h2]
      simp only [reduceCtorEq, false_iff]
      rintro (⟨h4,_⟩ | ⟨_,h5,_,h6⟩)
      · exact h4
      · exact h2 ⟨h5,hb.mpr h6⟩

/-- The read and check touches the store, the notice unit and the counters alone (R33). -/
theorem State.check_only (s : State) (n : Nat) : ∃ m dm nt c, s.check n =
    { s with store := { s.store with memory := m, damaged := dm }, notice := nt, counters := c } := by
  unfold State.check; split
  · exact ⟨s.store.memory, s.store.damaged, s.notice, s.counters, rfl⟩
  · exact ⟨_, _, _, _, rfl⟩

/-- After the read and check of a slot its check byte agrees (R33). -/
theorem State.checkGood_check (s : State) (n : Nat) (hs : s.storeOk) :
    ((s.check n).cell n).checkGood = true := by
  by_cases h : (s.cell n).checkGood = true
  · rw [State.check_good _ _ h]; exact h
  · have h : (s.cell n).checkGood = false := by simpa using h
    have : (s.check n).cell n = (s.putSlot n (damagedSlot (s.markFromQueues n))).cell n := by
      simp [State.check, h]; rfl
    rw [this, State.cell_putSlot_same _ _ _ hs]

/-- The read and check of any slot leaves a slot whose check byte agrees (R32). -/
theorem State.cell_check_of_good (s : State) (n k : Nat) (h : (s.cell k).checkGood = true) :
    (s.check n).cell k = s.cell k := by
  by_cases e : k = n
  · subst e; rw [State.check_good _ _ h]
  · exact s.cell_check_other _ _ e

/-- A lookup leaves a slot whose check byte agrees (R38). -/
theorem State.cell_lookupFrom_of_good (d e : Nat) (l : List Nat) : ∀ (c : Option Nat) (s : State) (k : Nat),
    (s.cell k).checkGood = true → (State.lookupFrom d e l c s).2.cell k = s.cell k := by
  induction l with
  | nil => intros; rfl
  | cons n ns ih =>
    intro c s k h
    have e1 := State.cell_check_of_good s n k h
    have hg : ((s.check n).cell k).checkGood = true := by rw [e1]; exact h
    simp only [State.lookupFrom]
    split
    · exact e1
    · split
      all_goals first
        | exact e1
        | (rw [ih _ _ k hg]; exact e1)

end Sys2Proof.Machine
end

