-- ==== Sys2Proof/Laws/Port.lean ====
section
/-! SUPPORT. What the store port's arbitration and an attempt's course do. -/

namespace Sys2Proof.Machine

/-- Arbitration touches the port alone, and keeps the completion updates. -/
theorem State.arbitrate_only (s : State) : ∃ p, s.arbitrate = { s with port := p }
      ∧ p.completions = s.port.completions := by
  unfold State.arbitrate State.setPort
  repeat' split
  all_goals first | exact ⟨s.port, rfl, rfl⟩ | exact ⟨_, rfl, rfl⟩

/-- The port after arbitration, claim by claim (R43). -/
theorem State.arbitrate_spec (s : State) : ∃ p, s.arbitrate = { s with port := p }
   ∧ (s.port.state ≠ .idle → p = s.port)
   ∧ (s.port.state = .idle → s.port.completions ≠ [] → p = { s.port with state := .completion })
   ∧ (s.port.state = .idle → s.port.completions = [] → s.port.composition = true → p =
         { s.port with state := .composition, composition := false })
   ∧ (s.port.state = .idle → s.port.completions = [] → s.port.composition = false
         → s.port.request = true → p = { s.port with state := .request, request := false })
   ∧ (s.port.state = .idle → s.port.completions = [] → s.port.composition = false
         → s.port.request = false → s.port.sweep = true → p =
         { s.port with state := s.sweepGrant, sweep := false })
   ∧ (s.port.state = .idle → s.port.completions = [] → s.port.composition = false
         → s.port.request = false → s.port.sweep = false → p = s.port) := by
  refine ⟨s.arbitrate.port, ?_, ?_⟩
  · obtain ⟨p,e,_⟩ := State.arbitrate_only s; rw [e]
  · unfold State.arbitrate State.setPort
    cases h1 : s.port.state <;> simp
    refine ⟨?_,?_,?_,?_,?_⟩
    · intro h; simp [h]
    · intro h h2; simp [h, h2]
    · intro h h2 h3; simp [h, h2, h3]
    · intro h h2 h3 h4; simp [h, h2, h3, h4]
    · intro h h2 h3 h4; simp [h, h2, h3, h4]

/-- A release hands the port to the waiting claimant of highest rank and touches nothing else (R43). -/
theorem State.releasePort_eq (s : State) : s.releasePort = { s with port := s.portReleased } := by
  unfold State.releasePort State.arbitrate State.setPort State.portReleased
  rcases s with ⟨_, _, _, _, _, _, _, _, _, ⟨_, comp, upd, req, swp⟩, ⟨eng, _, _⟩, _, _, _, _, _, _, _⟩
  cases upd <;> cases comp <;> cases req <;> cases swp <;> cases eng <;> simp [State.sweepGrant, State.event]

/-- Arbitration is a release of a port that is IDLE, and nothing while the port is granted. -/
theorem State.arbitrate_eq (s : State) :
    s.arbitrate = { s with port := if s.port.state = .idle then s.portReleased else s.port } := by
  by_cases h : s.port.state = .idle
  · have : s.arbitrate = s.releasePort := by
      unfold State.releasePort State.setPort
      rw [show ({ s.port with state := .idle } : StorePort) = s.port by rw [← h]]
    rw [this, if_pos h, State.releasePort_eq]
  · rw [if_neg h]; unfold State.arbitrate
    cases hp : s.port.state <;> simp_all

/-- The claim of a further read when one has ended: behind the claims that waited. -/
theorem State.claimComposition_releasePort (s : State) (a : Attempt) :
    s.releasePort.claimComposition a =
      { s with carousel := { s.carousel with attempt := a }, port := s.portReclaimed } := by
  rw [State.releasePort_eq]
  unfold State.portReclaimed State.claimComposition State.arbitrate State.setPort
  by_cases h : s.portReleased.state = .idle
  · have hc : s.portReleased.completions = [] := by
      unfold State.portReleased at h ⊢
      split at h <;> simp_all
      repeat' split
      all_goals simp_all
    simp [h, hc]
  · simp only [if_neg h]
    cases hp : s.portReleased.state <;> simp_all

/-- Step 7 of an attempt in a running cycle: nothing more is eligible, and the cycle may end at once (R79, R81). -/
theorem State.nothingEligible_eq (s : State) (h : s.carousel.run = .running) :
    s.nothingEligible = { s with
      carousel :=
        if s.settings.record.cycleLength ≤ s.carousel.finished ∨ s.carousel.finished = s.carousel.composed then
          s.carousel.cycleEnded
        else { s.carousel with attempt := .none, exhausted := true } } := by
  unfold State.nothingEligible State.endCycle State.cycleOver State.setCarousel
  simp [h, Carousel.atRest, Carousel.cycleEnded]
  split <;> rfl

/-- A release keeps the completion updates. -/
theorem State.releasePort_completions (s : State) : ∃ p, s.releasePort = { s with port := p }
      ∧ p.completions = s.port.completions := by
  obtain ⟨p,e,h⟩ := State.arbitrate_only (s.setPort { s.port with state := .idle })
  exact ⟨p, by unfold State.releasePort; rw [e]; rfl, h⟩

/-- A release touches the port alone. -/
theorem State.releasePort_only (s : State) : ∃ p, s.releasePort = { s with port := p } := by
  obtain ⟨p,e,_⟩ := State.arbitrate_only (s.setPort { s.port with state := .idle })
  exact ⟨p, by unfold State.releasePort; rw [e]; rfl⟩

/-- The end of a completion update touches the port alone, and drops the head. -/
theorem State.endUpdate_only (s : State) (rest : List Tag) : ∃ p, s.endUpdate rest =
      { s with port := p } ∧ p.completions = rest := by
  obtain ⟨p,e,h⟩ := State.releasePort_completions (s.setPort { s.port with completions := rest })
  exact ⟨p, by unfold State.endUpdate; rw [e]; rfl, h⟩

/-- A release depends on the port, the sweep engine and the blackout lists alone. -/
theorem State.portReleased_congr {s t : State} (hp : t.port = s.port) (he : t.sweep = s.sweep)
    (hb : ∀ m, (t.event m).blackout = (s.event m).blackout) : t.portReleased = s.portReleased := by
  unfold State.portReleased; rw [hp, he]; simp only [hb]

/-- The end of a completion update: its tag is dropped and the port handed on (R43, R96). -/
theorem State.endUpdate_eq (s : State) (rest : List Tag) : s.endUpdate rest =
      { s with port := State.portReleased { s with port := { s.port with completions := rest } } } := by
  unfold State.endUpdate State.setPort; rw [State.releasePort_eq]

/-- The claim of a composition read. -/
theorem State.claimComposition_spec (s : State) (a : Attempt) : ∃ p, s.claimComposition a =
      { s with carousel := { s.carousel with attempt := a }, port := p }
        ∧ (s.port.state = .idle → s.port.completions = [] → p.state = .composition)
        ∧ (s.port.state ≠ .idle → p.state = s.port.state ∧ p.composition = true)
        ∧ p.completions = s.port.completions ∧ p.request = s.port.request ∧ p.sweep = s.port.sweep := by
  unfold State.claimComposition
  generalize hw : (({ s with carousel := { s.carousel with attempt := a } } : State).setPort
    { s.port with composition := true }) = w
  obtain ⟨p,e,a1,a2,a3,a4,a5,a6⟩ := State.arbitrate_spec w
  have hp : w.port = { s.port with composition := true } := by rw [← hw]; rfl
  refine ⟨p, by rw [e, ← hw]; rfl, ?_, ?_, ?_⟩
  · intro h1 h2; rw [a3 (by rw [hp]; exact h1) (by rw [hp]; exact h2) (by rw [hp])]
  · intro h1; rw [a1 (by rw [hp]; exact h1), hp]; simp
  · by_cases h1 : s.port.state = .idle
    · by_cases h2 : s.port.completions = []
      · rw [a3 (by rw [hp]; exact h1) (by rw [hp]; exact h2) (by rw [hp]), hp]; simp
      · rw [a2 (by rw [hp]; exact h1) (by rw [hp]; exact h2), hp]; simp
    · rw [a1 (by rw [hp]; exact h1), hp]; simp

/-- The end of a cycle touches the carousel alone and keeps its queues. -/
theorem State.endCycle_only (s : State) : ∃ c, s.endCycle = { s with carousel := c }
      ∧ c.fresh = s.carousel.fresh ∧ c.urgent = s.carousel.urgent ∧ c.cursor = s.carousel.cursor
      ∧ c.pass = s.carousel.pass ∧ c.cycle = s.carousel.cycle := by
  unfold State.endCycle
  split
  · exact ⟨s.carousel.atRest .waiting, rfl, rfl, rfl, rfl, rfl, rfl⟩
  · exact ⟨s.carousel, rfl, rfl, rfl, rfl, rfl, rfl⟩

/-- So does a packet that finishes. -/
theorem State.finishPacket_only (s : State) (n : Nat) : ∃ c, s.finishPacket n = { s with carousel := c }
      ∧ c.fresh = s.carousel.fresh ∧ c.urgent = s.carousel.urgent ∧ c.cursor = s.carousel.cursor
      ∧ c.pass = s.carousel.pass ∧ c.cycle = s.carousel.cycle := by
  unfold State.finishPacket
  split
  · obtain ⟨c,e,h⟩ := State.endCycle_only (s.setCarousel { s.carousel with finished := s.carousel.finished + 1 })
    exact ⟨c, e, h⟩
  · exact ⟨s.carousel, rfl, rfl, rfl, rfl, rfl, rfl⟩

/-- An attempt that goes on: the carousel and the port change, the queues,
      the cursor and the counts of a running cycle do not. -/
structure Tries (s t : State) : Prop where
  only : ∃ c p, t = { s with carousel := c, port := p }
  lists : t.carousel.fresh = s.carousel.fresh ∧ t.carousel.urgent = s.carousel.urgent
        ∧ t.carousel.cursor = s.carousel.cursor ∧ t.carousel.pass = s.carousel.pass
        ∧ t.carousel.cycle = s.carousel.cycle
  counts : t.carousel.run = .running → t.carousel.composed = s.carousel.composed
        ∧ t.carousel.urgentComposed = s.carousel.urgentComposed
        ∧ t.carousel.freshComposed = s.carousel.freshComposed

/-- A claim is such a step. -/
theorem State.claimComposition_tries (s : State) (a : Attempt) : Tries s (s.claimComposition a) := by
  obtain ⟨p,e,_⟩ := State.claimComposition_spec s a
  rw [e]; exact ⟨⟨_,_,rfl⟩, by simp, by simp⟩

/-- So is the end of an attempt with nothing eligible. -/
theorem State.nothingEligible_tries (s : State) : Tries s s.nothingEligible := by
  unfold State.nothingEligible State.endCycle
  split
  · exact ⟨⟨_,_,rfl⟩, by simp [State.setCarousel, Carousel.atRest], by simp [State.setCarousel,
        Carousel.atRest]⟩
  · exact ⟨⟨_,_,rfl⟩, by simp [State.setCarousel], by simp [State.setCarousel]⟩

/-- So is step 6 of R81. -/
theorem State.tryFreshRest_tries (s : State) : Tries s s.tryFreshRest := by
  unfold State.tryFreshRest; split
  · exact State.nothingEligible_tries s
  · exact State.claimComposition_tries _ _

/-- So is step 5. -/
theorem State.tryUrgentRest_tries (s : State) : Tries s s.tryUrgentRest := by
  unfold State.tryUrgentRest; split
  · exact State.tryFreshRest_tries s
  · exact State.claimComposition_tries _ _

/-- So is step 4. -/
theorem State.tryRefresh_tries (s : State) (r) : Tries s (s.tryRefresh r) := by
  unfold State.tryRefresh; split
  · exact State.claimComposition_tries _ _
  · exact State.tryUrgentRest_tries s

/-- So is step 3. -/
theorem State.tryFreshShare_tries (s : State) : Tries s s.tryFreshShare := by
  unfold State.tryFreshShare; split
  · exact State.claimComposition_tries _ _
  · exact State.tryRefresh_tries s _

/-- So is step 2. -/
theorem State.tryUrgentShare_tries (s : State) : Tries s s.tryUrgentShare := by
  unfold State.tryUrgentShare; split
  · exact State.claimComposition_tries _ _
  · exact State.tryFreshShare_tries s

/-- So is an attempt that goes on after a read, abandoned or not. -/
theorem State.goOn_tries (s : State) (f) (h : Tries s (f s)) : Tries s (s.goOn f) := by
  unfold State.goOn; split
  · exact h
  · exact ⟨⟨_,_,rfl⟩, by simp [State.endAttempt, State.setCarousel], by simp [State.endAttempt,
        State.setCarousel]⟩

end Sys2Proof.Machine
end

