-- ==== Sys2Proof/Laws/Marks.lean ====
section
/-! SUPPORT. What a choice of the sweep engine and a mark set do to the marks. -/

namespace Sys2Proof.Machine

/-- A step of the marks: the event table changes in its marks alone, no mark appears,
      a mark that goes is taken up by the engine, and the store port is left, overtaken or claimed. -/
structure MarkStep (s t : State) : Prop where
  only : ∃ ev sw p, t = { s with events := ev, sweep := sw, port := p }
  len : t.events.length = s.events.length
  ev : ∀ m, ∃ k, t.event m = { s.event m with marks := k }
  mono : ∀ m k, (t.event m).marked k → (s.event m).marked k
  asked : ∀ m k, (s.event m).marked k → t.sweepAsked m k
  port : t.PortMarked s.port

/-- Nothing is such a step. -/
theorem MarkStep.refl (s : State) : MarkStep s s :=
  ⟨⟨_,_,_,rfl⟩, rfl, fun _ => ⟨_, rfl⟩, fun _ _ h => h, fun _ _ h => .inl h, .inl rfl⟩

/-- A release keeps the completion updates. -/
theorem State.portReleased_completions (s : State) : s.portReleased.completions = s.port.completions := by
  unfold State.portReleased; repeat' split
  all_goals rfl

/-- A marked port keeps the completion updates. -/
theorem State.PortMarked.updates {t : State} {p : StorePort} (h : t.PortMarked p) :
    t.port.completions = p.completions := by
  rcases h with h | h | ⟨_, h⟩ | ⟨_, h⟩ <;> rw [h]
  exact State.portReleased_completions _

/-- The marks after one is cleared. -/
theorem State.marked_clearMark (s : State) (n m : Nat) (q k : SweepKind) :
    ((s.clearMark n q).event m).marked k ↔ (s.event m).marked k ∧ ¬ (m = n ∧ k = q) := by
  unfold State.clearMark
  rw [State.event_setEvent]
  by_cases hm : m = n
  · subst hm
    by_cases hl : m < s.events.length
    · simp only [hl, and_self, if_true, true_and]
      cases q <;> cases k <;> simp [Marks.clear, EventRecord.marked]
    · have e : s.event m = EventRecord.empty := by
        simp [State.event, List.getD_eq_getElem?_getD, List.getElem?_eq_none (Nat.le_of_not_lt hl)]
      rw [e]
      cases k <;> simp [hl, EventRecord.marked, EventRecord.empty, Marks.none]
  · simp [hm]

/-- Clearing a mark changes marks alone. -/
theorem State.clearMark_event (s : State) (n m : Nat) (q : SweepKind) : ∃ k, (s.clearMark n q).event m =
      { s.event m with marks := k } := by
  unfold State.clearMark
  rw [State.event_setEvent]
  split
  · rename_i h; rw [h.1]; exact ⟨_, rfl⟩
  · exact ⟨_, rfl⟩

/-- Starting a sweep is a step of the marks. -/
theorem State.startSweep_marks (s : State) (n : Nat) (q : SweepKind) : MarkStep s (s.startSweep n q) := by
  unfold State.startSweep State.claimSweep
  rw [State.arbitrate_eq]
  refine ⟨⟨_,_,_,rfl⟩, by simp [State.clearMark, State.setPort], ?_, ?_, ?_, ?_⟩
  · intro m; exact State.clearMark_event s n m q
  · intro m k h; exact ((State.marked_clearMark s n m q k).mp h).1
  · intro m k h
    by_cases hh : m = n ∧ k = q
    · right; exact ⟨_, rfl, hh.2.symm, hh.1.symm⟩
    · left; exact (State.marked_clearMark s n m q k).mpr ⟨h, hh⟩
  · by_cases hi : s.port.state = .idle
    · exact .inr (.inr (.inr ⟨hi, if_pos hi⟩))
    · exact .inr (.inr (.inl ⟨hi, if_neg hi⟩))

/-- So is a choice. -/
theorem State.chooseSweep_marks (s : State) : MarkStep s s.chooseSweep := by
  unfold State.chooseSweep
  repeat' split
  · exact .refl _
  · exact .refl _
  · exact State.startSweep_marks _ _ _

/-- So is a sweep's taking over of a mark. -/
theorem State.takeOver_marks (s : State) (w : Sweep) (q : SweepKind) : MarkStep s (s.takeOver w q) := by
  unfold State.takeOver
  let s1 := (s.setEngine (.sweeping { w with kind := q, start := w.cursor, visited := 0 })).setPort
    { s.port with state := s.port.state.overtake }
  refine ⟨⟨_,_,_,rfl⟩, by simp [State.clearMark], ?_, ?_, ?_, ?_⟩
  · intro m; exact State.clearMark_event s1 _ m q
  · intro m k h; exact ((State.marked_clearMark s1 _ m q k).mp h).1
  · intro m k h
    by_cases hh : m = w.event ∧ k = q
    · right; exact ⟨_, rfl, hh.2.symm, hh.1.symm⟩
    · left; exact (State.marked_clearMark s1 _ m q k).mpr ⟨h, hh⟩
  · refine .inr (.inl ?_)
    show ({ s.port with state := s.port.state.overtake } : StorePort) = _
    cases s.port.state <;> rfl

/-- So is the engine's reaction to a mark. -/
theorem State.markSet_marks (s : State) (n : Nat) : MarkStep s (s.markSet n) := by
  unfold State.markSet
  repeat' split
  all_goals first | exact .refl _ | exact State.chooseSweep_marks _ | exact State.takeOver_marks _ _ _

/-- The end of a visit after which the lap goes on (R60; log 13). -/
theorem State.endVisit_lap (s : State) (w : Sweep) (o : Bool) (h1 : s.sweep.wipePending = false)
      (h2 : w.cursor ≠ w.start ∨ o = true) :
   ∃ p, s.endVisit w o = { s with sweep := { s.sweep with engine := .sweeping w }, port := p } := by
  have h3 : ¬ (w.cursor = w.start ∧ o = false) := by
    rintro ⟨a, b⟩
    rcases h2 with h | h
    · exact h a
    · simp [b] at h
  unfold State.endVisit
  simp only [h1, if_neg h3, Bool.false_eq_true, if_false]
  obtain ⟨p,ep⟩ := State.releasePort_only (s.setEngine (.sweeping w))
  rw [ep]
  unfold State.claimSweep
  generalize ht : (State.setPort ({ (s.setEngine (.sweeping w)) with port := p } : State) _) = t
  obtain ⟨p',e,_⟩ := State.arbitrate_only t
  rw [e, ← ht]
  refine ⟨p', ?_⟩
  simp [State.setPort, State.setEngine, h1]

/-- A takeover begins a new lap at the cursor, overtakes the visit that holds the port and takes the event's mark; it
changes nothing else (R67, R68). -/
theorem State.takeOver_eq (s : State) (w : Sweep) (k : SweepKind) :
    s.takeOver w k = { s with
      events := s.events.set w.event { s.event w.event with marks := (s.event w.event).marks.clear k }
      port := { s.port with state := s.port.state.overtake }
      sweep := { s.sweep with engine := .sweeping { w with kind := k, start := w.cursor, visited := 0 } } } := rfl

/-- What an overtaken port keeps: to whom it is granted, and a visit its kind and list. -/
theorem PortState.overtake_cases (p : PortState) :
    (∃ k r o, p = .visit k r o ∧ p.overtake = .visit k r true)
      ∨ ((∀ k r o, p ≠ .visit k r o) ∧ p.overtake = p) := by
  cases p with
  | visit k r o => exact .inl ⟨k, r, o, rfl, rfl⟩
  | idle | composition | completion | request | wipeWrite => exact .inr ⟨fun _ _ _ => nofun, rfl⟩

/-- A visit's action touches its slot and its event's record, the urgent queue, notices and counters. -/
theorem State.visitAct_only (v : State) (n : Nat) (g : Grant) (k : SweepKind) (ok : v.storeOk) :
   ∃ m ev u nt c, v.visitAct n g k =
         { v with
           store := { v.store with memory := m }, events := ev
           carousel := { v.carousel with urgent := u }, notice := nt, counters := c }
     ∧ (∀ j, j ≠ n → (v.visitAct n g k).cell j = v.cell j) ∧ (∀ j, j ≠ g.event
           → (v.visitAct n g k).event j = v.event j) := by
  have rv : ∀ why, ∃ m ev u nt c, v.revokeVisited n g why =
        { v with
           store := { v.store with memory := m }, events := ev
           carousel := { v.carousel with urgent := u }, notice := nt, counters := c }
     ∧ (∀ j, j ≠ n → (v.revokeVisited n g why).cell j = v.cell j) ∧ (∀ j, j ≠ g.event
           → (v.revokeVisited n g why).event j = v.event j) := by
    intro why
    unfold State.revokeVisited
    split
    · unfold State.revokeUnsent
      obtain ⟨ev,e,h⟩ := State.reportRevoked_only (v.putSlot n (v.slot n).vacate) g.event
      rw [e]
      exact ⟨_,_,_,_,_,rfl, fun j hj => State.cell_putSlot_other v n j _ hj, fun j hj => h j hj⟩
    · unfold State.revokeSent
      obtain ⟨a1,a2,m,nt,c,a3,_⟩ :=
        State.appendUrgent_spec (v.putSlot n ((v.slot n).revoke why)) n (State.putSlot_ok v n _ ok)
      refine ⟨m,v.events,_,nt,c, a3, fun j hj => ?_, fun j hj => ?_⟩
      · rw [a2 j hj]; exact State.cell_putSlot_other v n j _ hj
      · rw [a3]; rfl
  cases k
  · exact rv _
  · unfold State.visitAct State.retireVisited
    obtain ⟨ev,e,_,h⟩ := State.report_only (v.putSlot n (v.slot n).vacate) g.event Counts.retire
    simp only [e]
    exact ⟨_,_,_,_,_,rfl, fun j hj => State.cell_putSlot_other v n j _ hj, fun j hj => h j hj⟩
  · exact rv _

/-- The slots a visit reaches, as R63, R64 and R65 state them. -/
theorem State.visitUse_iff (s : State) (n e : Nat) (k : SweepKind) (r : List Range) (g : Grant) :
   s.visitUse n e k r = some g ↔ (s.slot n).Reached e g k r := by
  unfold State.visitUse Slot.Reached Slot.LiveFor
  cases hg : (s.slot n).grant with
  | none => simp
  | some g' =>
    simp only
    by_cases hge : g' = g
    · subst hge
      by_cases he : g'.event = e
      · cases k <;> cases hst : (s.slot n).state <;> simp [Slot.visited, hst, he, SlotState.granted,
            SlotState.isLive, blackedOut, Range.covers]
      · simp [he]
    · have : ¬ some g' = some g := by simpa using hge
      simp only [this, false_and, and_false]
      constructor
      · intro h; split at h
        · exact this h
        · simp at h
      · exact fun h => h.elim

end Sys2Proof.Machine
end

