-- ==== Sys2Proof/Tests/Slice0.lean ====
section
/-! SUPPORT. The model's own tests: an ill-formed operand refused for each check; the manual's figures and its
worked probe of section 2.11, one step each; and for each statement that has hypotheses a state that meets
them, clause by clause. -/

namespace Sys2Proof.Tests

open Sys2Proof Sys2Proof.Machine

/-! ## Ill-formed operands -/

theorem test_wf_slot_beyond_largest_store : (Instr.sweepVisit [262144]).wf = false := by decide
theorem test_wf_largest_slot : (Instr.sweepVisit [262143]).wf = true := by decide
theorem test_wf_event_32_in_order : (Instr.secondPulse 1000 [32]).wf = false := by decide
theorem test_wf_frame_too_short : (Instr.requestFrame (List.replicate 4 0#8)).wf = false := by decide
theorem test_wf_frame_too_long : (Instr.requestFrame (List.replicate 256 0#8)).wf = false := by
  decide +kernel
theorem test_wf_frame_lengths :
    (Instr.requestFrame (List.replicate 5 0#8)).wf = true
      ∧ (Instr.requestFrame (List.replicate 255 0#8)).wf = true := by decide +kernel
theorem test_wf_acknowledged_24_bytes :
    (Instr.saveDone 24).wf = false ∧ (Instr.saveDone 23).wf = true := by decide

/-! ## States to test in -/

/-- A unit in SETUP, nothing defined. -/
def inSetup : State :=
  { State.reset with
    night := .setup
    port := { State.reset.port with state := .idle }
    sweep := { State.reset.sweep with engine := .idle } }

/-- A unit in OPEN, 100 seconds into the night. -/
def inOpen : State :=
  { inSetup with
    night := .opened
    timer := { now := 5200, cycleTickAt := 5000 }
    clock := { clock := 100, source := .reference, lastTick := some 5000, lastPulse := some 5000 }
    bus := { inSetup.bus with state := .idle }
    carousel := { inSetup.carousel with run := .waiting } }

/-- A unit in CLOSING. -/
def inClosing : State := { inSetup with night := .closing }

/-- An addressed request. -/
def held (q : Request) : HeldRequest := { broadcast := false, tag := 7#8, request := q }

/-- A broadcast request. -/
def heldBroadcast (q : Request) : HeldRequest := { broadcast := true, tag := 7#8, request := q }

/-- The unit with that request held. -/
def ask (s : State) (q : Request) : State :=
  { s with link := { s.link with holder := .held (held q) } }

theorem ask_holds (s : State) (q : Request) : (ask s q).holding (held q) q := ⟨rfl, rfl⟩

/-- The unit with that broadcast request held. -/
def askAll (s : State) (q : Request) : State :=
  { s with link := { s.link with holder := .held (heldBroadcast q) } }

theorem askAll_holds (s : State) (q : Request) : (askAll s q).holding (heldBroadcast q) q := ⟨rfl, rfl⟩

/-- The unit replying. -/
def replying (s : State) (code : Byte) (r : ResultCode) : State :=
  { s with link := { s.link with
      holder := .replying { tag := 7#8, code := code, result := r, body := [] } } }

/-- What a command leaves. -/
def after (c : Instr) (s : State) : State :=
  match exec c s with
  | .next t => t
  | .fault _ => s
  | .refused _ => s

/-- Service 7, on sale from 50, live from 200 to 300. -/
def someWindow : Window :=
  { service := 7, saleOpen := 50, previewStart := none, liveStart := 200, scheduledClose := 300 }

/-- An event in a state. -/
def eventIn (e : EventState) : EventRecord :=
  { EventRecord.empty with state := e, window := some someWindow }

/-- A key. -/
def someKey : Key := 0x0123456789ABCDEF#128

/-- An event in a state with keys at epoch 2. -/
def keyed (e : EventState) (next onDeck : Option Key) (announced : Nat) (late : Bool) : EventRecord :=
  { eventIn e with
    keys :=
      { epoch := 2, current := some someKey, next := next, onDeck := onDeck, announceCount := announced,
        epochStart := some 90, length := some 10, keyLate := late } }

/-- The unit with an event. -/
def withEvent (s : State) (n : Nat) (r : EventRecord) : State := { s with events := s.events.set n r }

/-- The unit with some slots written. -/
def withSlots (s : State) (m : Memory) : State := { s with store := { s.store with memory := m } }

/-- A purchased grant in region 5. -/
def someGrant (decoder event : Nat) : Grant :=
  { decoder := decoder, event := event, kind := .purchased, region := 5, admittedAt := 60 }

/-- A slot that holds it. -/
def slotIn (x : SlotState) (g : Grant) (mark : QueueMark) : Cell :=
  { slot := { state := x, grant := some g, emissions := 0, reason := none, mark := mark }
    checkGood := true }

/-- Levels with READY asserted and DRIVE released. -/
def ready : BusLines := { noLines with ready := true }

/-- Levels with DRIVE asserted. -/
def driven : BusLines := { noLines with drive := true }

/-! ## Figures of the manual -/

theorem test_crc_of_nine_digits :
    crc [0x31#8, 0x32#8, 0x33#8, 0x34#8, 0x35#8, 0x36#8, 0x37#8, 0x38#8, 0x39#8] = 0x29B1#16 := by
  decide +kernel

/-- The unit of section 2.11 before its first request: sizes 32,768 and 16,384, event 3 ON-SALE, the window from
32,760 as its table gives it. The queues hold the two entries the table's marks stand for. -/
def probeUnit : State :=
  let other := someGrant 99
  { withEvent inOpen 3
      { eventIn .onSale with
        counts := { admitted := 500, live := 480, revoked := 20, retired := 0, lost := 0, reinstated := 0 } }
    with
    store :=
      { sizeA := 32768, sizeB := 16384, drawn := 9, damaged := 1
        memory :=
          [(32760, slotIn .held (other 3) .none), (32761, slotIn .announced (other 7) .none),
            (32762, { slot := damagedSlot .none, checkGood := true }),
            (32763, slotIn .held (other 12) .none), (32764, slotIn .revoking (other 3) .urgent),
            (32765, { slotIn .pending (other 7) .fresh with checkGood := false }),
            (32766, slotIn .held (other 0) .none), (32767, slotIn .held (other 3) .none),
            (32768, slotIn .vacant (other 9) .urgent)] }
    carousel := { inOpen.carousel with fresh := [32765], urgent := [32764, 32768] } }

/-- The store operation of a request, under the port. -/
def operating (s : State) (q : Request) : State :=
  { ask s q with port := { s.port with state := .request } }

/-- Step 1's request. -/
def probeAdd : Request := .grantAdd { decoder := 196617003, event := 3, kind := 1, region := 41 }

theorem test_probe_home : probeUnit.home 196617003 3 = 32760 := by decide

theorem test_probe_window : probeUnit.window 196617003 3 = (List.range 16).map (· + 32760) := by decide

/-- Home slot 49,150 wraps into bank A. -/
theorem test_window_wraps :
    probeUnit.window 49150 0 = [49150, 49151] ++ List.range 14 := by decide

/-- Step 1: the VACANT slot is taken, its mark kept, the failing slot rewritten DAMAGED. -/
theorem test_probe_insert :
    let t := after (.requestStoreOperation []) (operating probeUnit probeAdd)
    t.slot 32768 =
        { state := .pending
          grant := some
            { decoder := 196617003, event := 3, kind := .purchased, region := 41, admittedAt := 100 }
          emissions := 0, reason := none, mark := .urgent }
      ∧ t.slot 32765 = damagedSlot .fresh
      ∧ (t.event 3).counts =
          { admitted := 501, live := 481, revoked := 20, retired := 0, lost := 0, reinstated := 0 }
      ∧ t.carousel = probeUnit.carousel ∧ t.store.damaged = 2 ∧ t.store.drawn = 9
      ∧ t.link.holder =
          .replying { tag := 7#8, code := 0x30#8, result := .ok, body := [0x00#8, 0x80#8, 0x00#8] } := by
  decide

/-- Step 3: asked again, the pair is ALREADY-HELD and no slot changes. -/
theorem test_probe_already_held :
    let u := after (.requestStoreOperation []) (operating probeUnit probeAdd)
    let t := after (.requestStoreOperation []) (operating u probeAdd)
    t.store = u.store ∧ t.events = u.events
      ∧ t.link.holder =
          .replying { tag := 7#8, code := 0x30#8, result := .alreadyHeld
                      body := [0x00#8, 0x80#8, 0x00#8] } := by
  decide

/-! ## Witnesses: steps and start-up -/

/-- A request, an idle queue, a secondary unit. -/
theorem test_witness_UndueStepsChangeNothing :
    State.reset.pending = [] ∧ State.reset.link.holder = .free
      ∧ (∃ r, (replying inSetup 0x01#8 .ok).link.holder = .replying r)
      ∧ Instr.unitId ∈ [Instr.unitId, .grantQuery] ∧ State.reset.straps.primary = false :=
  ⟨rfl, rfl, ⟨_, rfl⟩, by decide, rfl⟩

/-- No save, a save in progress, LOAD at either level. -/
theorem test_witness_HardwareResetStartsUp :
    State.reset.settings.save = none
      ∧ ({ inSetup with settings := { inSetup.settings with save := some ConfigRecord.default } } :
          State).settings.save = some ConfigRecord.default
      ∧ ({ zeroStraps with load := true } : Straps).load = true ∧ zeroStraps.load = false :=
  ⟨rfl, rfl, rfl, rfl⟩

theorem test_witness_UnitResetIsPerformedOnce :
    ((ask inOpen .unitReset).holding (held .unitReset) .unitReset
        ∧ (held .unitReset).broadcast = false)
      ∧ ((askAll inOpen .unitReset).holding (heldBroadcast .unitReset) .unitReset
        ∧ (heldBroadcast .unitReset).broadcast = true)
      ∧ (replying inOpen 0x06#8 .ok).link.holder =
          .replying { tag := 7#8, code := 0x06#8, result := .ok, body := [] }
      ∧ ((∃ r : Reply, (replying inOpen 0x07#8 .ok).link.holder = .replying r ∧ r.code ≠ 0x06#8)
        ∧ ∃ r : Reply, (replying inOpen 0x06#8 .badLength).link.holder = .replying r ∧ r.result ≠ .ok) :=
  ⟨⟨ask_holds _ _, rfl⟩, ⟨askAll_holds _ _, rfl⟩, rfl, ⟨⟨_, rfl, by decide⟩, ⟨_, rfl, by decide⟩⟩⟩

/-- A unit whose start-up load is being read, from an EEPROM that holds `copy`. -/
def loading (copy : EepromCopy) : State :=
  { inSetup with
    night := .starting
    settings := { inSetup.settings with lastLoad := .loading, eeprom := copy } }

/-- A record the load refuses: the default with bank A size 0. -/
def badRecord : ConfigRecord := { ConfigRecord.default with bankA := 0 }

/-- The load's four findings: no acknowledgement, a cut save, a blank EEPROM, a bad field, a good record. -/
theorem test_witness_LoadEndSetsRecordAndWipes :
    (∀ copy, (loading copy).settings.lastLoad = .loading ∧ (loading copy).port.state = .idle
        ∧ (loading copy).port.completions = [] ∧ (loading copy).port.composition = false
        ∧ (loading copy).port.request = false)
      ∧ crcBytes ((List.replicate 23 0xFF#8).take 21) ≠ (List.replicate 23 0xFF#8).drop 21
      ∧ (crcBytes (badRecord.storedBytes.take 21) = badRecord.storedBytes.drop 21
          ∧ (RawConfig.ofBytes badRecord.storedBytes).firstBad = some 1)
      ∧ crcBytes (ConfigRecord.default.storedBytes.take 21) = ConfigRecord.default.storedBytes.drop 21
      ∧ (RawConfig.ofBytes ConfigRecord.default.storedBytes).firstBad = none := by
  refine ⟨fun _ => ⟨rfl, rfl, rfl, rfl, rfl⟩, ?_, ?_, ?_, ?_⟩ <;> decide +kernel

theorem test_witness_bad_record_is_not_in_range :
    ¬ (RawConfig.ofBytes badRecord.storedBytes).InRange := by
  rw [← RawConfig.firstBad_none]; decide +kernel

theorem test_witness_default_record_is_in_range : ConfigRecord.default.InRange := by
  constructor <;> decide

theorem test_load_of_good_record :
    (after (.settingsLoadEnd true) (loading (.stored ConfigRecord.default.storedBytes))).settings.lastLoad
        = .ok
      ∧ (after (.settingsLoadEnd true) (loading (.stored badRecord.storedBytes))).settings.lastLoad
        = .badField
      ∧ (after (.settingsLoadEnd false) (loading .cutShort)).settings.lastLoad = .noAck := by
  decide +kernel

/-- A unit that saves. -/
def saving : State :=
  { inSetup with settings := { inSetup.settings with save := some ConfigRecord.default } }

/-- No save, a save; 23, 22 and 0 bytes acknowledged. -/
theorem test_witness_SavesCaptureAndStoreRecord :
    ((ask inSetup .settingsSave).holding (held .settingsSave) .settingsSave
        ∧ (ask inSetup .settingsSave).settings.save = none)
      ∧ ((ask saving .settingsSave).holding (held .settingsSave) .settingsSave
        ∧ (ask saving .settingsSave).settings.save = some ConfigRecord.default)
      ∧ (saving.settings.save = some ConfigRecord.default ∧ 23 ≤ 23 ∧ 22 < 23 ∧ 0 < 23
        ∧ saving.settings.eeprom = .stored (List.replicate 23 0xFF#8)) :=
  ⟨⟨ask_holds _ _, rfl⟩, ⟨ask_holds _ _, rfl⟩, rfl, by decide, by decide, by decide, rfl⟩

/-- A valid record: the largest store. -/
theorem test_witness_StoredRecordLoadsBack :
    ({ ConfigRecord.default with bankA := 131072, bankB := 131072 } : ConfigRecord).InRange := by
  constructor <;> decide

/-! ## Witnesses: the control link -/

/-- The unit with its receiver in a state. -/
def receiving (s : State) (r : Receiver) : State := { s with link := { s.link with receiver := r } }

/-- The addresses where the clauses meet: 31, the own address at 1 and 30, and 0. -/
theorem test_witness_ReceiverFollowsCharacters :
    let own (a : Fin 32) : State := { inSetup with straps := { zeroStraps with unitAddress := a } }
    ((receiving inSetup .hunt).link.receiver = .hunt
        ∧ (receiving inSetup .passing).link.receiver = .passing)
      ∧ ((1#8 ≠ 31#8 ∧ (1#8).toNat = (own 1).straps.unitAddress.val)
        ∧ (30#8 ≠ 31#8 ∧ (30#8).toNat = (own 30).straps.unitAddress.val)
        ∧ (0#8 ≠ 31#8 ∧ (0#8).toNat = (own 0).straps.unitAddress.val)
        ∧ (2#8).toNat ≠ (own 1).straps.unitAddress.val)
      ∧ ((receiving inSetup (.addressed true)).link.receiver = .addressed true
        ∧ (1#8).toNat < 2 ∧ 252 < (253#8).toNat)
      ∧ (([] : List Byte).length ≤ 250 ∧ crcBytes [2#8, 7#8, 1#8] ≠ [0#8, 0#8]) := by
  decide +kernel

theorem test_witness_LockedUntilLineBreak :
    (receiving inSetup .locked).link.receiver = .locked := rfl

/-- A good frame of each kind: held; BAD-CODE, BAD-LENGTH, NOT-READY; an overrun. -/
theorem test_witness_GoodFramesReachHolder :
    let s := receiving inSetup (.addressed false)
    let u : State := { s with night := .starting }
    (s.link.receiver = .addressed false ∧ s.link.holder = .free ∧ (Request.nightOpen 200).fits = true
        ∧ s.night ≠ .starting)
      ∧ (u.night = .starting ∧ Request.unitId.fits = true)
      ∧ (Request.read 0xFF#8 [] = .error .badCode ∧ Request.read 0x01#8 [0#8] = .error .badLength
        ∧ Request.read 0x10#8 [] = .ok .configRead ∧ Request.configRead ≠ .unitId
        ∧ Request.configRead ≠ .unitStatus)
      ∧ (receiving (ask inOpen .unitId) (.addressed true)).link.holder ≠ .free := by
  refine ⟨?_, ?_, ⟨rfl, rfl, rfl, ?_, ?_⟩, ?_⟩ <;> decide

/-- The largest fields fit. -/
theorem test_witness_RequestFramesReadBack :
    (Request.grantAdd { decoder := 4294967295, event := 255, kind := 255, region := 255 }).fits = true
      ∧ (Request.nightOpen 16777216).fits = false
      ∧ (Request.noticeAck
          { causes := 0xFFFF#16, flags := 0xFF#8, unitMasks := 0xFFFF#16, eventMasks := 0xFF#8, rearm := 255,
            entryCount := 1, entries := [{ event := 255, causes := 0xFF#8 }] }).fits = true := by
  decide

/-- The address character of unit 5, its data bits least significant first; no start bit; a stop bit at space. -/
theorem test_levels_of_address_character :
    let l := [false, true, false, true, false, false, false, false, false, true, true]
    Character.levels { mark := true, data := 5#8 } = l
      ∧ Character.ofLevels l = some { mark := true, data := 5#8 }
      ∧ Character.ofLevels (l.set 0 true) = none ∧ Character.ofLevels (l.set 10 false) = none := by decide

/-- Each reading request. A bad record; a changed one in OPEN and CLOSING; a valid one in SETUP; only the pairs changed
in OPEN. -/
theorem test_witness_UnitAndConfigRequestsReport :
    let changed := { ConfigRecord.default with confirmCount := 15 }
    let pairs := { ConfigRecord.default with pairs := { pair1 := true, pair2 := false, pair3 := true } }
    ((ask inOpen .unitId).holding (held .unitId) .unitId
        ∧ (ask inOpen .unitStatus).holding (held .unitStatus) .unitStatus
        ∧ (∀ c, (ask inOpen (.countersRead c)).holding (held (.countersRead c)) (.countersRead c)) ∧ 1 < 2
        ∧ (ask inOpen .configRead).holding (held .configRead) .configRead
        ∧ ∀ s r, (ask s (.configWrite r)).holding (held (.configWrite r)) (.configWrite r))
      ∧ (badRecord.raw.firstBad = some 1 ∧ badRecord.raw.FieldOut 1)
      ∧ (changed.raw.firstBad = none ∧ inOpen.night = .opened ∧ inClosing.night = .closing
        ∧ { changed.raw.record with pairs := inOpen.settings.record.pairs } ≠ inOpen.settings.record)
      ∧ (inSetup.night ≠ .opened ∧ inSetup.night ≠ .closing)
      ∧ (pairs.raw.firstBad = none
        ∧ { pairs.raw.record with pairs := inOpen.settings.record.pairs } = inOpen.settings.record) := by
  refine ⟨⟨⟨rfl, rfl⟩, ⟨rfl, rfl⟩, fun _ => ⟨rfl, rfl⟩, by decide, ⟨rfl, rfl⟩, fun _ _ => ⟨rfl, rfl⟩⟩,
    ⟨by decide, .inl ⟨rfl, by decide⟩⟩, ?_, ?_, ?_⟩ <;> decide

/-- The body of the reply being sent. -/
def replyBody (s : State) : List Byte :=
  match s.link.holder with
  | .replying r => r.body
  | .held _ => []
  | .free => []

theorem test_unit_status_has_67_bytes :
    let b := replyBody (after (.unitStatus ready) (ask probeUnit .unitStatus))
    b.length = 67 ∧ b.take 5 = [2#8, 100#8, 0#8, 0#8, 1#8] := by decide +kernel

/-- An acknowledgement at its bounds, and one past each. -/
theorem test_witness_NoticesAreFetchedAndAcknowledged :
    let a : AckFields :=
      { causes := 0x07FF#16, flags := 0x03#8, unitMasks := 0x07FF#16, eventMasks := 0x0F#8, rearm := 1,
        entryCount := 1, entries := [{ event := 31, causes := 0x0F#8 }] }
    ((ask inOpen .noticeFetch).holding (held .noticeFetch) .noticeFetch
        ∧ (ask inOpen (.noticeAck a)).holding (held (.noticeAck a)) (.noticeAck a))
      ∧ (a.causes &&& 0xF800#16 = 0#16 ∧ a.flags &&& 0xFC#8 = 0#8 ∧ a.unitMasks &&& 0xF800#16 = 0#16
        ∧ a.eventMasks &&& 0xF0#8 = 0#8 ∧ a.rearm ≤ 1 ∧ a.entryCount ≤ 32
        ∧ ∀ e ∈ a.entries, e.event ≤ 31 ∧ e.causes &&& 0xF0#8 = 0#8)
      ∧ (0x0800#16 &&& 0xF800#16 ≠ 0#16 ∧ 0x04#8 &&& 0xFC#8 ≠ 0#8 ∧ 0x10#8 &&& 0xF0#8 ≠ 0#8 ∧ 1 < 2
        ∧ 32 < 33 ∧ 31 < 32)
      ∧ ({ a with entries := [{ event := 31, causes := 0x0F#8 }, { event := 31, causes := 0x10#8 }] }
          : AckFields).FieldOut 10 := by
  refine ⟨⟨⟨rfl, rfl⟩, ⟨rfl, rfl⟩⟩, ?_, ?_,
    .inr (.inr (.inr (.inr (.inr (.inr ⟨1, _, rfl, .inr ⟨rfl, by decide⟩⟩)))))⟩ <;> decide

/-! ## Witnesses: nights, selection and bus -/

theorem test_witness_NightOpenStartsNight :
    (∀ start, (ask inSetup (.nightOpen start)).holding (held (.nightOpen start)) (.nightOpen start))
      ∧ (ask inSetup (.nightOpen 16777215)).night = .setup ∧ 16777215 ≤ 16777215 ∧ 16777215 < 16777216
      ∧ (ask inOpen (.nightOpen 0)).night = .opened ∧ (ask inClosing (.nightOpen 0)).night = .closing :=
  ⟨fun _ => ask_holds _ _, rfl, by decide, by decide, rfl, rfl⟩

theorem active_of_on_sale : (withEvent inOpen 31 (eventIn .onSale)).Active :=
  .inl ⟨eventIn .onSale, by decide, .inl rfl⟩

theorem inOpen_is_not_active : ¬ inOpen.Active := by
  rintro (⟨r, hr, h⟩ | ⟨w, h⟩)
  · have e : r = EventRecord.empty := List.eq_of_mem_replicate hr
    subst e; revert h; decide
  · exact nomatch h

/-- A GRANT packet's tag. -/
def grantTag (voided : Bool) : Tag := { cycle := 0, content := .grant 3 3 0, voided := voided }

/-- A forced close with a keyed event; a plain one with nothing active, and with an event ON-SALE; the port granted to an
update and to a composition read. -/
theorem test_witness_NightCloseStopsNight :
    (∀ s forced, (ask s (.nightClose forced)).holding (held (.nightClose forced)) (.nightClose forced))
      ∧ (inOpen.night = .opened ∧ ¬ inOpen.Active)
      ∧ (withEvent inOpen 31 (eventIn .onSale)).Active
      ∧ ((withEvent inOpen 31 (eventIn .live)).event 31).state.keyed = true
      ∧ (inOpen.event 31).state.keyed = false
      ∧ (({ inOpen.port with state := .completion, completions := [grantTag false] } : StorePort).state
          = .completion
        ∧ ({ inOpen.port with state := .composition } : StorePort).state ≠ .completion)
      ∧ (inSetup.night = .setup ∧ inClosing.night = .closing ∧ 1 < 2) :=
  ⟨fun _ _ => ⟨rfl, rfl⟩, ⟨rfl, inOpen_is_not_active⟩, active_of_on_sale, by decide, by decide,
    by decide, rfl, rfl, by decide⟩

/-- A forced close: the queued SWITCH record is withdrawn and counted, and a CLEAR record takes its place. -/
theorem test_forced_close_posts_clear :
    let s := withEvent inOpen 31 (eventIn .live)
    let r : ScramblerRecord := { event := 31, payload := .switch 7 2 someKey }
    let t := after .nightClose (ask { s with scrambler := { queue := [r], ready := false } } (.nightClose 1))
    t.scrambler.queue = [{ event := 31, payload := .clear 7 }] ∧ t.counters.switchesWithdrawn = 1 := by
  decide +kernel

theorem test_witness_EpochSelectStoresSelection :
    (∀ v, (ask inOpen (.epochSelect v)).holding (held (.epochSelect v)) (.epochSelect v)) ∧ 1 < 2 :=
  ⟨fun _ => ⟨rfl, rfl⟩, by decide⟩

/-- A STATE packet for event 0. -/
def statePacket : Packet :=
  { message := (eventIn .onSale).stateMessage 0
    tag := some { cycle := 1, content := .state 0 .onSale, voided := false } }

/-- A unit with that packet in staging, requesting. -/
def requesting (s : State) : State :=
  { s with bus := { s.bus with state := .requesting, staging := some statePacket } }

/-- A unit sending a packet. -/
def sendingPacket (s : State) (p : Packet) : State :=
  { s with bus := { s.bus with state := .sending, sending := some p } }

/-- The unit at fault, and a primary's arbiter at fault. -/
def busFault : State := { inOpen with bus := { inOpen.bus with state := .fault } }

/-- A primary unit whose arbiter stands in a state. -/
def primaryUnit (a : ArbiterState) : State :=
  { inOpen with
    straps := { zeroStraps with primary := true }
    arbiter := { state := a, lastGranted := .own }
    settings := { inOpen.settings with
      record := { ConfigRecord.default with pairs := { pair1 := false, pair2 := true, pair3 := true } } } }

theorem test_witness_BusClearReturnsFromFault :
    (∀ s, (ask s .busClear).holding (held .busClear) .busClear)
      ∧ (inOpen.bus.state ≠ .fault ∧ inOpen.straps.primary = false)
      ∧ ((primaryUnit .idle).bus.state ≠ .fault ∧ (primaryUnit .idle).arbiter.state ≠ .fault)
      ∧ (busFault.bus.state = .fault ∧ ready.drive = false ∧ busFault.bus.sending = none)
      ∧ ((primaryUnit .fault).straps.primary = true ∧ (primaryUnit .fault).arbiter.state = .fault)
      ∧ driven.drive = true := by
  refine ⟨fun _ => ⟨rfl, rfl⟩, ?_, ?_, ?_, ?_, ?_⟩ <;> decide

/-- After own grant, pair 1 out of service and pairs 2 and 3 requesting; nobody requesting; each watch, the own packet
counting as DRIVE among them. -/
theorem test_witness_ArbiterGrantsAndWatches :
    let l := { ready with req1 := true, req2 := true, req3 := true }
    let s := primaryUnit .idle
    (s.straps.primary = true ∧ s.arbiter.state = .idle ∧ l.ready = true ∧ l.drive = false
        ∧ s.bus.sending = none)
      ∧ ([Requester.pair1, .pair2, .pair3, .own] = [.pair1] ++ .pair2 :: [.pair3, .own]
        ∧ l.req2 = true ∧ s.settings.record.pairs.pair2 = true ∧ s.settings.record.pairs.pair1 ≠ true)
      ∧ (s.bus.staging = none ∧ ready.req1 ≠ true ∧ ready.req2 ≠ true ∧ ready.req3 ≠ true)
      ∧ ((primaryUnit (.granted .pair3 false)).arbiter.state = .granted .pair3 false
        ∧ (primaryUnit (.granted .own true)).arbiter.state = .granted .own true
        ∧ driven.drive = true ∧ noLines.drive = false)
      ∧ ((sendingPacket (primaryUnit (.granted .own false)) statePacket).arbiter.state = .granted .own false
        ∧ (sendingPacket (primaryUnit (.granted .own false)) statePacket).bus.sending ≠ none)
      ∧ (noLines.ready = false ∧ (primaryUnit .fault).arbiter.state ≠ .idle) := by
  decide

/-- READY deasserted: requests wait. -/
theorem test_no_grant_without_ready :
    (after (.arbiterGrant { noLines with req2 := true }) (primaryUnit .idle)).arbiter
      = (primaryUnit .idle).arbiter := by decide

/-- The grant goes past pair 1, out of service, to pair 2. -/
theorem test_arbiter_grants_pair2 :
    (after (.arbiterGrant { ready with req1 := true, req2 := true }) (primaryUnit .idle)).arbiter
      = { state := .granted .pair2 false, lastGranted := .pair2 } := by decide

/-- A secondary granted, a primary granted; DRIVE released and asserted; a staged packet with its tag and one whose tag
was discarded. -/
theorem test_witness_PacketStartsOrFaults :
    ((requesting inOpen).bus.state = .requesting ∧ (requesting inOpen).night = .opened
        ∧ (requesting inOpen).straps.primary = false
        ∧ ({ ready with gnt := true } : BusLines).gnt = true)
      ∧ ((requesting (primaryUnit (.granted .own false))).straps.primary = true
        ∧ (requesting (primaryUnit (.granted .own false))).arbiter.state = .granted .own false)
      ∧ (ready.drive = false ∧ (requesting inOpen).bus.sending = none ∧ driven.drive = true)
      ∧ ((requesting inOpen).bus.staging = some statePacket
        ∧ statePacket.tag = some { cycle := 1, content := .state 0 .onSale, voided := false }
        ∧ { statePacket with tag := none }.tag = none) := by
  decide

/-- A lost packet that was the last of its cycle ends the cycle. -/
theorem test_lost_packet_ends_cycle :
    let s := requesting { inOpen with
      carousel := { inOpen.carousel with run := .running, exhausted := true, composed := 1, cycle := 1 } }
    let t := after (.packetStart { driven with gnt := true }) s
    t.bus.state = .fault ∧ t.counters.lostPackets = 1 ∧ t.carousel.run = .waiting := by decide

/-- A tag of a packet that is not voided. -/
def tagOf (c : TagContent) : Tag := { cycle := 0, content := c, voided := false }

/-- A packet whose tag was discarded; a voided tag; KEY tags that carried the next key and none; STATE tags of the state
held and of another; a GRANT tag. -/
theorem test_witness_SendEndReportsCompletion :
    let s := withEvent inOpen 31 { keyed .live (some someKey) none 7 true with repeatsOwed := 1 }
    (sendingPacket inClosing { statePacket with tag := none }).bus.sending
        = some { statePacket with tag := none }
      ∧ ((sendingPacket inOpen statePacket).bus.sending = some statePacket
        ∧ (sendingPacket inOpen statePacket).night = .opened ∧ inClosing.night ≠ .opened)
      ∧ ((grantTag true).voided = true ∧ (tagOf (.key 31 (some 3))).voided = false)
      ∧ ((∃ key, (s.event 31).keys.next = some key) ∧ some 3 = some ((s.event 31).keys.epoch + 1)
        ∧ none ≠ some ((s.event 31).keys.epoch + 1) ∧ (inOpen.event 31).keys.next = none)
      ∧ ((s.event 31).state ≠ .empty ∧ (s.event 31).state = .live ∧ 0 < (s.event 31).repeatsOwed
        ∧ (s.event 31).state ≠ .preview ∧ (inOpen.event 31).state = .empty
        ∧ (inOpen.event 31).repeatsOwed = 0)
      ∧ ((grantTag false).content = .grant 3 3 0 ∧ (grantTag false).voided = false) :=
  ⟨by decide, by decide, by decide, ⟨⟨someKey, rfl⟩, by decide⟩, by decide, by decide⟩

/-- The send that completes the announcements of a held epoch takes its advance, and the cycle's last packet ends the
cycle. -/
theorem test_send_end_books_key :
    let s := withEvent inOpen 31 (keyed .live (some someKey) none 7 true)
    let s := { s with carousel := { s.carousel with run := .running, exhausted := true, composed := 1 } }
    let p : Packet :=
      { message := (keyed .live (some someKey) none 7 true).keyMessage 31, tag := some (tagOf (.key 31 (some 3))) }
    let t := after .sendEnd (sendingPacket s p)
    (t.event 31).keys.epoch = 3 ∧ t.scrambler.queue = [{ event := 31, payload := .switch 7 3 someKey }]
      ∧ t.carousel.run = .waiting ∧ t.counters.keyPackets = 1 := by decide

theorem test_send_end_claims_update :
    let p : Packet := { message := .grant 3 0 7 .purchased, tag := some (grantTag false) }
    let t := after .sendEnd (sendingPacket inOpen p)
    t.bus.sending = none ∧ t.bus.state = .idle ∧ t.counters.grantPackets = 1
      ∧ t.port.state = .completion ∧ t.port.completions = [grantTag false] := by decide

/-! ## Witnesses: the event table -/

/-- A definition at its bounds: service 65,535, region 255, a close a day after live-start. -/
def someDefinition : DefineFields :=
  { event := 31, service := 65535, flags := 1#8, saleOpen := 0, previewStart := 199, liveStart := 200,
    scheduledClose := 86600, rangeCount := 1, ranges := [{ low := 0, high := 255 }] }

theorem some_definition_in_range : someDefinition.InRange := by constructor <;> decide

theorem test_witness_EventDefineFillsRecord :
    (∀ s d, (ask s (.eventDefine d)).holding (held (.eventDefine d)) (.eventDefine d))
      ∧ (inSetup.night = .setup ∧ inOpen.night = .opened ∧ inClosing.night = .closing)
      ∧ (someDefinition.event ≤ 31 ∧ (inSetup.event someDefinition.event).state = .empty
        ∧ someDefinition.InRange)
      ∧ 31 < 32
      ∧ ((withEvent inSetup 31 (eventIn .retired)).event someDefinition.event).state ≠ .empty
      ∧ (¬ ({ someDefinition with scheduledClose := 86601 } : DefineFields).InRange
        ∧ ({ someDefinition with scheduledClose := 86601 } : DefineFields).FieldOut 7
        ∧ ({ someDefinition with ranges := [{ low := 255, high := 254 }] } : DefineFields).FieldOut 10) :=
  ⟨fun _ _ => ⟨rfl, rfl⟩, ⟨rfl, rfl, rfl⟩, ⟨by decide, by decide, some_definition_in_range⟩, by decide,
    by decide, fun h => absurd h.close.2 (by decide),
    .inr (.inr (.inr (.inr (.inr (.inl ⟨rfl, by decide⟩))))),
    .inr (.inr (.inr (.inr (.inr (.inr (.inr ⟨0, _, rfl, .inr ⟨rfl, by decide⟩⟩))))))⟩

theorem test_define_fills_event_31 :
    ((after .eventDefine (ask inSetup (.eventDefine someDefinition))).event 31).state = .scheduled
      ∧ ((after .eventDefine (ask inSetup (.eventDefine someDefinition))).event 31).repeatsOwed = 16 := by
  decide

theorem test_witness_EventRequestsAreGated :
    (∀ s f, (ask s (.eventHold f)).holding (held (.eventHold f)) (.eventHold f))
      ∧ (∀ s n, (ask s (.eventCancel n)).holding (held (.eventCancel n)) (.eventCancel n))
      ∧ (∀ s n, (ask s (.eventClear n)).holding (held (.eventClear n)) (.eventClear n))
      ∧ (∀ s n a b, (ask s (.blackoutAdd n a b)).holding (held (.blackoutAdd n a b)) (.blackoutAdd n a b))
      ∧ (∀ s n a b,
          (ask s (.blackoutRemove n a b)).holding (held (.blackoutRemove n a b)) (.blackoutRemove n a b))
      ∧ (∀ s n e k, (ask s (.keyLoad n e k)).holding (held (.keyLoad n e k)) (.keyLoad n e k))
      ∧ ((ask inClosing (.eventCancel 31)).night = .closing ∧ (ask inOpen (.eventCancel 31)).night = .opened
        ∧ (inOpen.event 31).state = .empty ∧ 31 < 32) :=
  ⟨fun _ _ => ⟨rfl, rfl⟩, fun _ _ => ⟨rfl, rfl⟩, fun _ _ => ⟨rfl, rfl⟩, fun _ _ _ _ => ⟨rfl, rfl⟩,
    fun _ _ _ _ => ⟨rfl, rfl⟩, fun _ _ _ _ => ⟨rfl, rfl⟩, rfl, rfl, by decide, by decide⟩

theorem test_witness_EventReadReturnsRecord :
    (∀ s n, (ask s (.eventRead n)).holding (held (.eventRead n)) (.eventRead n)) ∧ 31 < 32 ∧ 31 ≤ 31 :=
  ⟨fun _ _ => ⟨rfl, rfl⟩, by decide, by decide⟩

theorem test_event_read_has_83_bytes :
    let b := replyBody (after .eventRead (ask probeUnit (.eventRead 3)))
    b.length = 83 ∧ b.take 5 = [3#8, 2#8, 1#8, 7#8, 0#8] := by decide +kernel

theorem test_witness_EffectiveCloseFollowsHold :
    (eventIn .live).window = some someWindow ∧ effectiveCloseOf 300 (some { time := 300, kind := .tentative }) = 300
      ∧ effectiveCloseOf 300 (some { time := 299, kind := .firm }) = 299 := by decide

/-- A later hold, a hold at the clock, no time; a bad presence flag, kind 0 and kind 3, a time a second beyond a day
after live-start; a SCHEDULED and a CLOSED event. -/
theorem test_witness_EventHoldMovesClose :
    let s := withEvent inOpen 31 (eventIn .live)
    let f (flags : Byte) (kind time : Nat) : HoldFields :=
      { event := 31, flags := flags, kind := kind, time := time }
    (∀ g, (ask s (.eventHold g)).holding (held (.eventHold g)) (.eventHold g))
      ∧ (s.events.length = 32 ∧ s.night = .opened ∧ (f 0#8 0 0).event ≤ 31
        ∧ (s.event 31).window = some someWindow ∧ (s.event 31).state.selling = true)
      ∧ ((f 1#8 2 86600).time ≤ 16777215 ∧ (f 1#8 2 86600).time ≤ someWindow.liveStart + 86400)
      ∧ s.clock.clock < effectiveCloseOf 300 (some { time := 101, kind := .firm })
      ∧ effectiveCloseOf 300 (some { time := 100, kind := .firm }) ≤ s.clock.clock
      ∧ s.clock.clock < effectiveCloseOf 300 none
      ∧ ((f 2#8 1 0).flags ≠ 0#8 ∧ (f 2#8 1 0).flags ≠ 1#8)
      ∧ ((f 1#8 0 0).kind ≠ 1 ∧ (f 1#8 0 0).kind ≠ 2 ∧ (f 1#8 3 0).kind ≠ 1 ∧ (f 1#8 3 0).kind ≠ 2)
      ∧ someWindow.liveStart + 86400 < (f 1#8 1 86601).time
      ∧ ((eventIn .scheduled).state ≠ .empty ∧ (eventIn .scheduled).state.selling = false
        ∧ (eventIn .closed).state.selling = false) := by
  refine ⟨fun _ => ⟨rfl, rfl⟩, ?_, ?_, ?_, ?_, ?_, ?_, ?_, ?_, ?_⟩ <;> decide

/-- A CANCELLED event whose sweep is over, and one whose CANCEL mark is present. -/
theorem test_witness_EventsAreCancelledAndCleared :
    let s (e : EventState) := withEvent inOpen 31 (eventIn e)
    let marked := { eventIn .cancelled with marks := { cancel := true, retire := false, blackout := false } }
    (∀ u n, (ask u (.eventCancel n)).holding (held (.eventCancel n)) (.eventCancel n)
        ∧ (ask u (.eventClear n)).holding (held (.eventClear n)) (.eventClear n))
      ∧ ((s .live).events.length = 32 ∧ (s .live).night = .opened
        ∧ ((s .live).event 31).state.admitting = true ∧ ((s .scheduled).event 31).state.admitting = true
        ∧ ((s .closed).event 31).state = .closed)
      ∧ (((s .retired).event 31).state = .retired ∧ ((s .scheduled).event 31).state = .scheduled
        ∧ ((s .scheduled).event 31).counts.admitted = 0)
      ∧ (((s .cancelled).event 31).state = .cancelled ∧ (s .cancelled).CancelSwept 31)
      ∧ ((withEvent inOpen 31 marked).event 31).state = .cancelled
      ∧ ¬ (withEvent inOpen 31 marked).CancelSwept 31 := by
  refine ⟨fun _ _ => ⟨⟨rfl, rfl⟩, ⟨rfl, rfl⟩⟩, by decide, by decide, ⟨by decide, by decide, ?_⟩, by decide, ?_⟩
  · exact fun w h => nomatch h
  · exact fun h => absurd h.1 (by decide)

/-- A unit whose engine runs a sweep of event 3. -/
def sweeping (s : State) (k : SweepKind) (start cursor : Nat) : State :=
  { s with
    sweep := { s.sweep with
      engine := .sweeping
        { kind := k, event := 3, start := start, cursor := cursor, visited := 4, changed := 1 } } }

/-- An empty list, a full one; region 255 alone; a running BLACKOUT sweep of the event; a low above 255, a high above 255,
a high below its low; an event that has ended. -/
theorem test_witness_BlackoutRequestsEditList :
    let full := { eventIn .live with blackout := List.replicate 8 { low := 255, high := 255 } }
    let one := { eventIn .live with blackout := [{ low := 1, high := 2 }, { low := 255, high := 255 }] }
    let s := withEvent (sweeping inOpen .blackout 0 4) 3 (eventIn .live)
    let visited := { s with port := { s.port with state := .visit .blackout [] false } }
    (∀ u n a b, (ask u (.blackoutAdd n a b)).holding (held (.blackoutAdd n a b)) (.blackoutAdd n a b)
        ∧ (ask u (.blackoutRemove n a b)).holding (held (.blackoutRemove n a b)) (.blackoutRemove n a b))
      ∧ ((withEvent inOpen 31 full).events.length = 32
        ∧ ((withEvent inOpen 31 full).event 31).state.admitting = true
        ∧ 8 ≤ ((withEvent inOpen 31 full).event 31).blackout.length)
      ∧ (((withEvent inOpen 31 (eventIn .scheduled)).event 31).state = .scheduled
        ∧ ((withEvent inOpen 31 (eventIn .scheduled)).event 31).blackout.length < 8)
      ∧ (((withEvent inOpen 31 one).event 31).state.selling = true
        ∧ ((withEvent inOpen 31 one).event 31).blackout
            = [{ low := 1, high := 2 }] ++ { low := 255, high := 255 } :: []
        ∧ ({ low := 255, high := 255 } : Range) ∉ ([{ low := 1, high := 2 }] : List Range)
        ∧ ({ low := 0, high := 255 } : Range) ∉ ((withEvent inOpen 31 one).event 31).blackout)
      ∧ ((s.event 3).state.selling = true
        ∧ (s.event 3).marks = { cancel := false, retire := false, blackout := false }
        ∧ s.sweep.engine = .sweeping
            { kind := .blackout, event := 3, start := 0, cursor := 4, visited := 4, changed := 1 })
      ∧ (visited.port.state = .visit .blackout [] false
        ∧ visited.port.state.overtake = .visit .blackout [] true ∧ s.port.state.overtake = s.port.state)
      ∧ (255 < 256 ∧ 254 < 255)
      ∧ ((withEvent inOpen 31 (eventIn .closed)).event 31).state = .closed := by
  refine ⟨fun _ _ _ _ => ⟨⟨rfl, rfl⟩, ⟨rfl, rfl⟩⟩, ?_, ?_, ?_, ?_, ?_, ?_, ?_⟩ <;> decide

/-! ## Witnesses: keys and deadlines -/

/-- Epochs 0 to 4 of an event at epoch 2, with no key loaded, the next, or both; an event that has ended. -/
theorem test_witness_KeyLoadStoresKey :
    let s (r : EventRecord) := withEvent inOpen 31 r
    let bare := keyed .live none none 0 false
    let one := keyed .live (some someKey) none 0 false
    let two := keyed .live (some someKey) (some someKey) 0 false
    (∀ u n e k, (ask u (.keyLoad n e k)).holding (held (.keyLoad n e k)) (.keyLoad n e k))
      ∧ ((s bare).night = .opened ∧ ((s bare).event 31).state.admitting = true
        ∧ 1 ≤ (s bare).settings.record.announceMinimum ∧ (s bare).events.length = 32)
      ∧ (3 = ((s bare).event 31).keys.epoch + 1 ∧ ((s bare).event 31).keys.next = none)
      ∧ (4 = ((s one).event 31).keys.epoch + 2 ∧ ((s one).event 31).keys.next ≠ none
        ∧ ((s one).event 31).keys.onDeck = none)
      ∧ (2 = ((s one).event 31).keys.epoch ∧ ((s one).event 31).keys.current ≠ none
        ∧ 3 = ((s one).event 31).keys.epoch + 1
        ∧ 4 = ((s two).event 31).keys.epoch + 2 ∧ ((s two).event 31).keys.onDeck ≠ none)
      ∧ ((1 ≠ ((s one).event 31).keys.epoch ∧ 5 ≠ ((s one).event 31).keys.epoch + 2)
        ∧ (4 = ((s bare).event 31).keys.epoch + 2 ∧ ((s bare).event 31).keys.onDeck = none
          ∧ ((s bare).event 31).keys.next = none))
      ∧ ((s (eventIn .retired)).night = .opened ∧ ((s (eventIn .retired)).event 31).state = .retired) := by
  refine ⟨fun _ _ _ _ => ⟨rfl, rfl⟩, ?_, ?_, ?_, ?_, ?_, ?_⟩ <;> decide

/-- The clock at `c`. -/
def atSecond (s : State) (c : Nat) : State := { s with clock := { s.clock with clock := c } }

theorem ready_of_announced :
    (withEvent inOpen 31 (keyed .live (some someKey) none 8 false)).Ready 31 :=
  ⟨by decide, by decide, by decide⟩

theorem not_ready_of_unannounced :
    ¬ (withEvent inOpen 31 (keyed .live (some someKey) none 7 false)).Ready 31 :=
  fun h => absurd h.2.1 (by decide)

theorem not_ready_without_key (s : State) (n : Nat) (h : (s.event n).keys.next = none) : ¬ s.Ready n :=
  fun r => r.1 h

theorem at_boundary {s : State} {n : Nat} (h : s.boundaryReached n = true) : s.AtBoundary n :=
  (State.boundaryReached_iff s n).mp h

theorem not_at_boundary {s : State} {n : Nat} (h : s.boundaryReached n = false) : ¬ s.AtBoundary n :=
  fun hb => absurd ((State.boundaryReached_iff s n).mpr hb) (by rw [h]; decide)

/-- Each step at the second it falls due, the ones before it not due. -/
theorem test_witness_DeadlineStepsMoveEvent :
    let s (c : Nat) (r : EventRecord) := atSecond (withEvent inOpen 31 r) c
    let extended := { eventIn .live with hold := some { time := 301, kind := .tentative } }
    (31 < (s 50 (eventIn .scheduled)).events.length
        ∧ ((s 50 (eventIn .scheduled)).event 31).window = some someWindow
        ∧ 50 < effectiveCloseOf someWindow.scheduledClose none)
      ∧ (((s 50 (eventIn .scheduled)).event 31).state = .scheduled ∧ someWindow.saleOpen ≤ 50
        ∧ 50 < someWindow.entryDeadline ∧ 49 < someWindow.saleOpen)
      ∧ (someWindow.entryDeadline ≤ (s 200 (eventIn .onSale)).clock.clock
        ∧ ((s 200 (eventIn .onSale)).event 31).keys.next = none
        ∧ ((s 200 (eventIn .onSale)).event 31).keys.keyLate = false)
      ∧ ((s 201 (keyed .onSale none none 0 true)).event 31).keys.keyLate = true
      ∧ (¬ (s 200 (eventIn .preview)).AtBoundary 31
        ∧ someWindow.liveStart ≤ 200 ∧ 200 < someWindow.scheduledClose)
      ∧ (¬ (s 300 extended).AtBoundary 31 ∧ someWindow.scheduledClose ≤ (s 300 extended).clock.clock
        ∧ (s 300 extended).clock.clock < effectiveCloseOf someWindow.scheduledClose extended.hold) :=
  ⟨by decide, by decide, by decide, by decide, ⟨not_at_boundary (by decide), by decide⟩,
    ⟨not_at_boundary (by decide), by decide⟩⟩

/-- A second before each step, the epoch boundary of 100 among them; no window; an event that has ended. -/
theorem test_witness_no_step_due :
    let s (c : Nat) (r : EventRecord) := atSecond (withEvent inOpen 31 r) c
    let extended := { eventIn .overtime with hold := some { time := 301, kind := .tentative } }
    ((inOpen.event 31).window = none ∧ ((s 300 (eventIn .closed)).event 31).state = .closed)
      ∧ (((s 199 (eventIn .onSale)).event 31).window = some someWindow
        ∧ (s 199 (eventIn .onSale)).clock.clock < someWindow.entryDeadline
        ∧ (s 199 (eventIn .onSale)).clock.clock < effectiveCloseOf someWindow.scheduledClose none)
      ∧ ((s 199 (eventIn .preview)).clock.clock < someWindow.liveStart
        ∧ ¬ (s 199 (eventIn .preview)).AtBoundary 31)
      ∧ ((s 99 (keyed .live none none 0 false)).clock.clock < someWindow.scheduledClose
        ∧ ¬ (s 99 (keyed .live none none 0 false)).AtBoundary 31)
      ∧ ((s 300 extended).clock.clock < effectiveCloseOf someWindow.scheduledClose ((s 300 extended).event 31).hold
        ∧ ¬ (s 300 extended).AtBoundary 31) :=
  ⟨by decide, by decide, ⟨by decide, not_at_boundary (by decide)⟩, ⟨by decide, not_at_boundary (by decide)⟩,
    ⟨by decide, not_at_boundary (by decide)⟩⟩

/-- Sale-open and the entry deadline at one second; entry and the scheduled close; key wait and the close; live-start and
the scheduled close; overtime at the scheduled close. -/
theorem test_witness_several_steps_due :
    let s (c : Nat) (r : EventRecord) := atSecond (withEvent inOpen 31 r) c
    let hold : Option Hold := some { time := 301, kind := .tentative }
    (31 < (s 200 (eventIn .scheduled)).events.length
        ∧ ((s 200 (eventIn .scheduled)).event 31).window = some someWindow
        ∧ ((s 200 (eventIn .scheduled)).event 31).state = .scheduled ∧ someWindow.saleOpen ≤ 200
        ∧ someWindow.entryDeadline ≤ 200)
      ∧ (someWindow.entryDeadline ≤ 300
        ∧ (s 300 (keyed .onSale (some someKey) none 8 false)).Ready 31
        ∧ ((s 300 (keyed .onSale (some someKey) none 8 false)).event 31).keys.next = some someKey)
      ∧ (¬ (s 300 (eventIn .onSale)).Ready 31 ∧ ((s 300 (eventIn .onSale)).event 31).keys.keyLate = false)
      ∧ (((s 300 { eventIn .preview with hold := hold }).event 31).state = .preview
        ∧ someWindow.liveStart ≤ 300 ∧ someWindow.scheduledClose ≤ 300
        ∧ 300 < effectiveCloseOf someWindow.scheduledClose hold) :=
  ⟨by decide, ⟨by decide, ⟨by decide, by decide, by decide⟩, by decide⟩,
    ⟨not_ready_without_key _ _ rfl, by decide⟩, by decide⟩

/-- At the effective close an event that was SCHEDULED goes on sale, waits for a key and closes, in one second. -/
theorem test_three_steps_at_one_second :
    let t := (atSecond (withEvent inOpen 31 (eventIn .scheduled)) 300).deadlineSteps 31
    (t.event 31).state = .closed ∧ (t.event 31).causes = 3#4 ∧ (t.event 31).keys.keyLate = false := by decide

theorem test_witness_pending_deadline :
    (withEvent inOpen 31 (eventIn .scheduled)).Pending { event := 31, kind := .saleOpen, time := 50 } :=
  ⟨by decide, _, _, rfl, rfl, .inl ⟨rfl, rfl, rfl⟩⟩

/-- Entry at 200, a boundary at 100; a boundary held for want of announcements and of a next key; a later second of the
hold. -/
theorem test_witness_EntryAndAdvanceSwitchKeys :
    let s (e : EventState) (a : Nat) := withEvent inOpen 31 (keyed e (some someKey) none a false)
    let bare (late : Bool) := withEvent inOpen 31 (keyed .live none none 0 late)
    (31 < (s .live 8).events.length ∧ ((s .live 8).event 31).window = some someWindow
        ∧ ((s .live 8).event 31).keys.next = some someKey
        ∧ (s .live 8).clock.clock
            < effectiveCloseOf someWindow.scheduledClose ((s .live 8).event 31).hold
        ∧ 1 ≤ (s .live 8).settings.record.shortEpoch ∧ 1 ≤ (s .live 8).settings.record.longEpoch)
      ∧ ((s .live 8).Ready 31 ∧ ((s .live 8).event 31).state = .live
        ∧ (s .live 8).clock.clock < someWindow.scheduledClose ∧ (s .live 8).AtBoundary 31)
      ∧ (((s .onSale 8).event 31).state = .onSale
        ∧ someWindow.entryDeadline ≤ (atSecond (s .onSale 8) 200).clock.clock
        ∧ (atSecond (s .onSale 8) 200).clock.clock < someWindow.scheduledClose
        ∧ (atSecond (s .onSale 8) 200).Ready 31)
      ∧ (¬ (s .live 7).Ready 31 ∧ (s .live 7).AtBoundary 31
        ∧ ((s .live 7).event 31).keys.keyLate = false)
      ∧ (¬ (bare false).Ready 31 ∧ (bare false).AtBoundary 31
        ∧ ((bare false).event 31).keys.keyLate = false)
      ∧ (¬ (bare true).Ready 31 ∧ (bare true).AtBoundary 31
        ∧ ((bare true).event 31).keys.keyLate = true ∧ ((bare true).event 31).state = .live
        ∧ (bare true).clock.clock < someWindow.scheduledClose) :=
  ⟨by decide, ⟨ready_of_announced, by decide, by decide, at_boundary (by decide)⟩,
    ⟨by decide, by decide, by decide, by decide, by decide, by decide⟩,
    ⟨not_ready_of_unannounced, at_boundary (by decide), by decide⟩,
    ⟨not_ready_without_key _ _ rfl, at_boundary (by decide), by decide⟩,
    ⟨not_ready_without_key _ _ rfl, at_boundary (by decide), by decide, by decide, by decide⟩⟩

/-- The advance at 100: epoch 3 current, its SWITCH record posted. -/
theorem test_advance_at_boundary :
    let t := (withEvent inOpen 31 (keyed .live (some someKey) none 8 false)).deadlineSteps 31
    (t.event 31).keys.epoch = 3 ∧ (t.event 31).keys.next = none ∧ (t.event 31).causes = 4#4
      ∧ t.scrambler.queue = [{ event := 31, payload := .switch 7 3 someKey }] := by decide

theorem test_witness_CloseStepEndsEvent :
    let s (c : Nat) (e : EventState) (h : Option Hold) :=
      atSecond (withEvent inOpen 31 { eventIn e with hold := h }) c
    let wait := atSecond (withEvent inOpen 31 (keyed .onSale none none 0 true)) 300
    (31 < (s 300 .live none).events.length ∧ ((s 300 .live none).event 31).window = some someWindow
        ∧ effectiveCloseOf someWindow.scheduledClose ((s 300 .live none).event 31).hold
            ≤ (s 300 .live none).clock.clock ∧ ((s 300 .live none).event 31).state = .live)
      ∧ (effectiveCloseOf someWindow.scheduledClose (some { time := 199, kind := .firm }) ≤ 199
        ∧ 199 < someWindow.liveStart ∧ 199 < someWindow.entryDeadline)
      ∧ ((wait.event 31).state = .onSale ∧ ¬ wait.Ready 31 ∧ (wait.event 31).keys.keyLate = true
        ∧ effectiveCloseOf someWindow.scheduledClose (wait.event 31).hold ≤ wait.clock.clock) :=
  ⟨by decide, by decide, by decide, not_ready_without_key _ _ rfl, by decide, by decide⟩

/-- A close withdraws the queued SWITCH record and voids the event's KEY tags, not those of other events. -/
theorem test_close_voids_key_tags :
    let s := atSecond (withEvent inOpen 31 (keyed .live none none 0 false)) 300
    let p (n : Nat) (voided : Bool) : Packet :=
      { statePacket with tag := some { cycle := 0, content := .key n (some 3), voided := voided } }
    let t := State.deadlineSteps { s with
      scrambler := { s.scrambler with queue := [{ event := 31, payload := .switch 7 2 someKey }] }
      bus := { s.bus with staging := some (p 31 false), sending := some (p 30 false) } } 31
    t.bus.staging = some (p 31 true) ∧ t.bus.sending = some (p 30 false)
      ∧ t.scrambler.queue = [{ event := 31, payload := .clear 7 }] ∧ t.counters.switchesWithdrawn = 1 := by
  decide

/-! ## Witnesses: the grant store -/

theorem operates (s : State) (q : Request) (hs : 0 < s.slotCount) (hc : s.storeOk) :
    (operating s q).Operates (operating s q) (held q) q [] :=
  { holding := ⟨rfl, rfl⟩, port := rfl, corrupted := rfl, store := hs, canonical := hc }

/-- Event 0 ON-SALE in OPEN. -/
def selling : State := withEvent inOpen 0 (eventIn .onSale)

/-- Slot 3, the home slot of decoder 3 for event 0, in a state. -/
def slot3 (x : SlotState) (mark : QueueMark) : State :=
  withSlots selling [(3, slotIn x (someGrant 3 0) mark)]

theorem selling_operates (q : Request) : (operating selling q).Operates (operating selling q) (held q) q [] :=
  operates _ _ (by decide) rfl

theorem slot3_operates (q : Request) (x : SlotState) (mark : QueueMark) :
    (operating (slot3 x mark) q).Operates (operating (slot3 x mark) q) (held q) q [] :=
  operates _ _ (by show 0 < 16384; decide) (by cases x <;> cases mark <;> rfl)

/-- A GRANT-ADD for decoder 3 and event 0. -/
def add3 (kind region : Nat) : AddFields := { decoder := 3, event := 0, kind := kind, region := region }

theorem admits_add3 (q : Request) : (operating selling q).Admits (add3 1 5) :=
  ⟨by decide, rfl, by decide, by decide, .inl rfl, by decide, fun _ x h => nomatch h⟩

theorem slot3_admits (q : Request) (x : SlotState) (mark : QueueMark) :
    (operating (slot3 x mark) q).Admits (add3 2 255) :=
  ⟨by decide, rfl, by decide, by decide, .inr rfl, by decide, fun _ x h => nomatch h⟩

theorem slot3_found (q : Request) :
    (operating (slot3 .pending .none) q).lookup 3 0 = (.found 3, operating (slot3 .pending .none) q)
      ∧ (operating (slot3 .announced .none) q).lookup 3 0
          = (.found 3, operating (slot3 .announced .none) q)
      ∧ (operating (slot3 .held .none) q).lookup 3 0 = (.found 3, operating (slot3 .held .none) q)
      ∧ (operating (slot3 .revoking .urgent) q).lookup 3 0
          = (.found 3, operating (slot3 .revoking .urgent) q) := ⟨rfl, rfl, rfl, rfl⟩

/-- The smallest store; a window whose checks pass. -/
theorem test_witness_LookupFollowsWindow :
    (16384 ≤ inOpen.store.sizeA + inOpen.store.sizeB ∧ 16383 < inOpen.store.sizeA + inOpen.store.sizeB)
      ∧ probeUnit.storeOk
      ∧ ∀ n ∈ (slot3 .held .none).window 3 0, ((slot3 .held .none).cell n).checkGood = true := by
  unfold State.storeOk; decide

theorem test_witness_CheckRewritesDamagedSlot :
    probeUnit.storeOk ∧ (probeUnit.cell 32765).checkGood = false
      ∧ (probeUnit.cell 32764).checkGood = true := by
  unfold State.storeOk; decide

/-- The probe of section 2.11, whose lookup reads a failing slot. -/
theorem test_witness_StoreOperationsRewriteFirst :
    let s := operating probeUnit probeAdd
    (s.holding (held probeAdd) probeAdd ∧ s.port.state = .request ∧ 0 < s.slotCount ∧ s.storeOk
        ∧ s.Admits { decoder := 196617003, event := 3, kind := 1, region := 41 }
        ∧ (s.lookup 196617003 3).1 = .missing (some 32768))
      ∧ (((slot3 .held .none).upset [3]).cell 3).checkGood = false
      ∧ ((withEvent inOpen 31 (eventIn .cancelled)).event 31).state = .cancelled := by
  refine ⟨⟨⟨rfl, rfl⟩, rfl, by decide, rfl, ?_, by decide⟩, by decide, by decide⟩
  exact ⟨by decide, rfl, by decide, by decide, .inl rfl, by decide, fun _ x h => nomatch h⟩

/-- The port free, and granted to a visit; bad fields at each bound; a slot found, and none. -/
theorem test_witness_GrantRequestsClaimAndQuery :
    let q (d e : Nat) : Request := .grantQuery d e
    ((∀ s f, (ask s (.grantAdd f)).holding (held (.grantAdd f)) (.grantAdd f))
        ∧ (∀ s d e, (ask s (.grantRevoke d e)).holding (held (.grantRevoke d e)) (.grantRevoke d e))
        ∧ (∀ s d e, (ask s (q d e)).holding (held (q d e)) (q d e)))
      ∧ (inClosing.night = .closing ∧ inOpen.night = .opened ∧ inOpen.port.request = false
        ∧ inOpen.port.state ≠ .request ∧ inOpen.port.state = .idle ∧ inOpen.port.composition = false
        ∧ inOpen.port.completions = []
        ∧ ({ inOpen.port with state := .visit .retire [] false } : StorePort).state ≠ .idle)
      ∧ (∀ d e, (operating selling (q d e)).Operates (operating selling (q d e)) (held (q d e)) (q d e) [])
      ∧ (31 < 32 ∧ (selling.event 31).state = .empty ∧ (selling.event 0).state = .onSale
        ∧ 4294967294 < 4294967295)
      ∧ ((operating (slot3 .held .none) (q 3 0)).lookup 3 0
            = (.found 3, operating (slot3 .held .none) (q 3 0))
        ∧ (operating selling (q 4294967294 0)).lookup 4294967294 0
            = (.missing (some 16382), operating selling (q 4294967294 0))) := by
  refine ⟨⟨fun _ _ => ⟨rfl, rfl⟩, fun _ _ _ => ⟨rfl, rfl⟩, fun _ _ _ => ⟨rfl, rfl⟩⟩, ?_,
    fun _ _ => selling_operates _, ?_, ⟨rfl, rfl⟩⟩ <;> decide

/-- A unit whose window of decoder 3 and event 0 is full of other pairs. -/
def windowFull : State :=
  withSlots selling ((List.range 16).map (fun i => (i + 3, slotIn .held (someGrant 99 0) .none)))

/-- Each refusal at its bound, and a full window. -/
theorem test_witness_GrantAddIsRefused :
    let ranges := { eventIn .onSale with blackout := [{ low := 5, high := 255 }] }
    (∀ q, (operating selling q).Operates (operating selling q) (held q) q [])
      ∧ (31 < 32 ∧ (selling.event 31).state = .empty ∧ (selling.event 0).state.admitting = true
        ∧ (eventIn .retired).state.finished = true ∧ 4294967294 < 4294967295 ∧ 0 ≠ 1 ∧ 3 ≠ 2 ∧ 255 < 256)
      ∧ (∃ x ∈ ranges.blackout, x.low ≤ 5 ∧ 5 ≤ x.high)
      ∧ ((operating windowFull (.grantAdd (add3 1 5))).Operates
            (operating windowFull (.grantAdd (add3 1 5))) (held (.grantAdd (add3 1 5)))
            (.grantAdd (add3 1 5)) []
        ∧ (operating windowFull (.grantAdd (add3 1 5))).Admits (add3 1 5)
        ∧ (operating windowFull (.grantAdd (add3 1 5))).lookup 3 0
            = (.missing none, operating windowFull (.grantAdd (add3 1 5)))) := by
  refine ⟨selling_operates, by decide, by decide, operates _ _ (by decide) rfl, ?_, rfl⟩
  exact ⟨by decide, rfl, by decide, by decide, .inl rfl, by decide, fun _ x h => nomatch h⟩

/-- The home slot EMPTY; it VACANT with its mark still FRESH. -/
theorem test_witness_GrantAddInserts :
    let q : Request := .grantAdd (add3 1 5)
    (operating selling q).Operates (operating selling q) (held q) q []
      ∧ (operating selling q).Admits (add3 1 5) ∧ (operating selling q).events.length = 32
      ∧ (operating selling q).lookup 3 0 = (.missing (some 3), operating selling q)
      ∧ (operating (slot3 .vacant .fresh) q).lookup 3 0
          = (.missing (some 3), operating (slot3 .vacant .fresh) q) :=
  ⟨selling_operates _, admits_add3 _, by decide, rfl, rfl⟩

/-- A REVOKING slot with no mark, and a fresh queue. -/
def queued (l : List Nat) : State :=
  { slot3 .revoking .none with carousel := { inOpen.carousel with fresh := l } }

/-- The mark still URGENT; no mark, with the fresh queue full. -/
theorem test_witness_GrantAddReinstates :
    let q : Request := .grantAdd (add3 2 255)
    (operating (slot3 .revoking .urgent) q).Operates (operating (slot3 .revoking .urgent) q) (held q) q []
      ∧ (operating (slot3 .revoking .urgent) q).Admits (add3 2 255)
      ∧ (operating (slot3 .revoking .urgent) q).events.length = 32
      ∧ (operating (slot3 .revoking .urgent) q).lookup 3 0
          = (.found 3, operating (slot3 .revoking .urgent) q)
      ∧ ((operating (slot3 .revoking .urgent) q).slot 3).state = .revoking
      ∧ (∀ l, (operating (queued l) q).Operates (operating (queued l) q) (held q) q []
        ∧ (operating (queued l) q).Admits (add3 2 255)
        ∧ (operating (queued l) q).lookup 3 0 = (.found 3, operating (queued l) q)
        ∧ ((operating (queued l) q).slot 3).state = .revoking
        ∧ ((operating (queued l) q).slot 3).mark = .none ∧ (operating (queued l) q).carousel.fresh = l)
      ∧ 1024 ≤ (List.range 1024).length :=
  ⟨slot3_operates _ _ _, slot3_admits _ _ _, by decide, rfl, rfl,
    fun _ => ⟨operates _ _ (by show 0 < 16384; decide) rfl,
      ⟨by decide, rfl, by decide, by decide, .inr rfl, by decide, fun _ x h => nomatch h⟩, rfl, rfl, rfl, rfl⟩,
    Nat.le_of_eq List.length_range.symm⟩

theorem test_witness_GrantAddAlreadyHeld :
    let q : Request := .grantAdd (add3 2 255)
    (∀ x, (operating (slot3 x .none) q).Operates (operating (slot3 x .none) q) (held q) q []
        ∧ (operating (slot3 x .none) q).Admits (add3 2 255)
        ∧ ((operating (slot3 x .none) q).slot 3).state = x)
      ∧ (operating (slot3 .held .none) q).lookup 3 0 = (.found 3, operating (slot3 .held .none) q) :=
  ⟨fun x => ⟨slot3_operates _ _ _, slot3_admits _ _ _, by cases x <;> rfl⟩, rfl⟩

/-- A packet whose GRANT message for decoder 3 and event 0 is in flight. -/
def grantPacket : Packet :=
  { message := .grant 3 0 7 .purchased, tag := some (grantTag false) }

/-- Nothing in flight; a GRANT in flight; REVOKING; none; a CANCELLED event whose sweep is over, with its last live
grant. -/
theorem test_witness_GrantRevokeWithdraws :
    let q : Request := .grantRevoke 3 0
    let live := { eventIn .onSale with
      counts := { admitted := 1, live := 1, revoked := 0, retired := 0, lost := 0, reinstated := 0 } }
    let s := operating (withEvent (slot3 .pending .none) 0 live) q
    (s.Operates s (held q) q [] ∧ s.events.length = 32 ∧ (s.event 0).state.admitting = true
        ∧ s.lookup 3 0 = (.found 3, s) ∧ (s.slot 3).state = .pending ∧ s.NotInFlight 3 0
        ∧ 1 ≤ (s.event 0).counts.live)
      ∧ (sendingPacket s grantPacket).Operates (sendingPacket s grantPacket) (held q) q []
      ∧ ¬ (sendingPacket s grantPacket).NotInFlight 3 0
      ∧ ((operating (slot3 .revoking .urgent) q).slot 3).state = .revoking
      ∧ (operating selling q).lookup 3 0 = (.missing (some 3), operating selling q)
      ∧ (((withEvent inOpen 0 { live with state := .cancelled }).event 0).state = .cancelled
        ∧ (withEvent inOpen 0 { live with state := .cancelled }).CancelSwept 0
        ∧ ((withEvent inOpen 0 { live with state := .cancelled }).event 0).counts.live = 1) := by
  refine ⟨⟨operates _ _ (by decide) rfl, by decide, by decide, rfl, rfl, ?_, by decide⟩, ?_, ?_, rfl, rfl,
    by decide, ⟨by decide, fun w h => nomatch h⟩, by decide⟩
  · exact fun t h => nomatch h
  · exact { holding := ⟨rfl, rfl⟩, port := rfl, corrupted := rfl, store := by decide, canonical := rfl }
  · exact fun h => (h (grantTag false) (by decide) 3).1 rfl

/-! ## Witnesses: time -/

/-- The last live grant of a CANCELLED event revoked retires the event. -/
theorem test_revoke_retires_cancelled_event :
    let q : Request := .grantRevoke 3 0
    let t := after (.requestStoreOperation []) (operating (withEvent (slot3 .pending .none) 0
      { eventIn .cancelled with
        counts := { admitted := 1, live := 1, revoked := 0, retired := 0, lost := 0, reinstated := 0 } }) q)
    (t.event 0).state = .retired ∧ (t.event 0).counts.live = 0 ∧ (t.slot 3).state = .vacant := by decide

/-- The unit with its clock's source. -/
def sourced (c : ClockSource) (at' : Nat) : State :=
  { inOpen with clock := { clock := at', source := c, lastTick := some 5000, lastPulse := some 4000 } }

/-- The last night second and the one before; a pulse at 499 and at 500 ms; the flywheel's second on the grid; an order
of two events. -/
theorem test_witness_SecondsAdvanceClock :
    ((sourced .stopped 0).clock.source = .stopped
        ∧ ((sourced .reference 16777214).clock.source = .reference
          ∧ (sourced .reference 16777214).clock.clock < 16777215)
        ∧ 16777215 ≤ (sourced .reference 16777215).clock.clock)
      ∧ ((sourced .flywheel 7).clock.source = .flywheel
        ∧ (sourced .flywheel 7).clock.lastTick = some 5000
        ∧ (sourced .flywheel 7).timer.now + 299 < 5000 + 500
        ∧ 5000 + 500 ≤ (sourced .flywheel 7).timer.now + 300)
      ∧ ((sourced .reference 7).clock.lastPulse = some 4000
        ∧ (sourced .reference 7).timer.now ≤ 5000 + 1500)
      ∧ (4000 + 1000 * 1 ≤ 5000 ∧ 5000 < 4000 + 1000 * (1 + 1)
        ∧ (sourced .flywheel 7).timer.now ≤ 4000 + 1000 * (1 + 1))
      ∧ ((sourced .flywheel 16777215).clock.source = .flywheel
        ∧ 16777215 ≤ (sourced .flywheel 16777215).clock.clock)
      ∧ (([31, 3] : List Nat).Nodup ∧ ∀ n ∈ ([31, 3] : List Nat), n < 32) := by decide

/-- At the last night second a second supplied is counted and taken, and the clock stays. -/
theorem test_saturated_flywheel_second :
    let t := after (.flywheelSecond []) (sourced .flywheel 16777215)
    t.clock.clock = 16777215 ∧ t.clock.lastTick = some 6000 ∧ t.counters.flywheelSeconds = 1 := by decide

theorem test_second_opens_sale :
    let t := after (.secondPulse 800 []) (atSecond (withEvent inOpen 31 (eventIn .scheduled)) 49)
    t.clock.clock = 50 ∧ (t.event 31).state = .onSale ∧ (t.event 31).causes = 1#4
      ∧ t.clock.lastTick = some 6000 := by decide +kernel

theorem test_witness_CycleTickStartsCycle :
    5250 = inOpen.timer.cycleTickAt + 250 ∧ inOpen.timer.now ≤ 5250
      ∧ inOpen.carousel.run = .waiting ∧ inOpen.night = .opened ∧ inSetup.carousel.run ≠ .waiting := by
  decide

/-! ## Witnesses: the carousel -/

/-- A unit in a running cycle. -/
def running (s : State) (owed : List OwedEntry) : State :=
  { s with carousel := { s.carousel with run := .running, owed := owed, cycle := 1 } }

/-- Each head entry: composable or not, KEY and STATE; none, with each queue empty or not. -/
theorem test_witness_CompositionAttemptTakesOwed :
    let s := running (withEvent inOpen 31 { keyed .live none none 0 false with repeatsOwed := 1 })
      [.key 31, .state 31, .key 0, .state 0]
    (s.carousel.run = .running ∧ s.night = .opened ∧ s.bus.staging = none ∧ s.bus.state ≠ .fault
        ∧ s.carousel.composed < s.settings.record.cycleLength ∧ s.carousel.exhausted = false
        ∧ s.carousel.attempt = .none)
      ∧ ((s.event 31).state.keyed = true ∧ (s.event 31).state ≠ .empty ∧ 0 < (s.event 31).repeatsOwed)
      ∧ ((s.event 0).state.keyed = false ∧ (s.event 0).state ≠ .onSale ∧ (s.event 0).state = .empty)
      ∧ ((running inOpen []).carousel.owed = [] ∧ (running inOpen []).carousel.urgent = []
        ∧ (running probeUnit []).carousel.urgent ≠ [] ∧ (running probeUnit []).carousel.fresh ≠ []
        ∧ (running inOpen []).port.state = .idle ∧ (running inOpen []).port.completions = [])
      ∧ ({ inOpen.port with state := .request } : StorePort).state ≠ .idle := by decide

theorem test_key_message_composed :
    let s := running (withEvent inOpen 31 (keyed .live none none 0 false)) [.key 31]
    let t := after .compositionAttempt s
    t.bus.staging =
        some { message := .key 7 31 2 (some someKey) none false
               tag := some { cycle := 1, content := .key 31 none, voided := false } }
      ∧ t.bus.state = .requesting ∧ t.carousel.composed = 1 := by decide

/-- A unit that presents records. -/
def presenting (s : State) (q : List ScramblerRecord) : State :=
  { s with scrambler := { queue := q, ready := true } }

/-- A SWITCH record of event 31. -/
def switch31 : ScramblerRecord := { event := 31, payload := .switch 7 2 someKey }

/-- The unit with address 1, 30, 0 or 31; a reply; a record presented, and held back; a packet being sent, and none. -/
theorem test_witness_MessagesAndPackets :
    let own (a : Fin 32) := { replying inOpen 0x01#8 .ok with straps := { zeroStraps with unitAddress := a } }
    ((keyed .onSale (some someKey) none 0 false).window = some someWindow
        ∧ (keyed .onSale (some someKey) none 0 false).keys.next = some someKey
        ∧ (keyed .preview none none 0 false).state.keyed = true
        ∧ (eventIn .live).effectiveClose = some 300)
      ∧ (([{ low := 0, high := 255 }] : List Range).length ≤ 8
        ∧ ([{ low := 0, high := 255 }] : List Range)[0]? = some { low := 0, high := 255 })
      ∧ ((∀ a, ∃ r, (own a).link.holder = .replying r) ∧ 1 ≤ (own 1).straps.unitAddress.val
        ∧ (own 30).straps.unitAddress.val ≤ 30 ∧ (own 0).straps.unitAddress.val = 0
        ∧ (own 31).straps.unitAddress.val = 31 ∧ ∀ r, inOpen.link.holder ≠ .replying r)
      ∧ ((presenting inOpen [switch31]).scrambler.queue = switch31 :: [] ∧ inOpen.scrambler.queue = [])
      ∧ ((sendingPacket inOpen statePacket).bus.sending = some statePacket ∧ inOpen.bus.sending = none) :=
  ⟨by decide, by decide, ⟨fun _ => ⟨_, rfl⟩, by decide, by decide, rfl, rfl, fun _ => nofun⟩, by decide,
    by decide⟩

/-- The reply line of a unit with address 5: the address character alone carries the mark. -/
theorem test_reply_line_marks_address :
    let u := { replying inOpen 0x01#8 .ok with straps := { zeroStraps with unitAddress := 5 } }
    u.replyLine.take 5 =
        [{ mark := true, data := 5#8 }, { mark := false, data := 3#8 }, { mark := false, data := 7#8 },
          { mark := false, data := 1#8 }, { mark := false, data := 0#8 }]
      ∧ u.replyLine.length = 7 := by decide +kernel

/-- The levels of that reply: the first start bit, the address character's mark bit, the last stop bit and the idle line
after it; no reply leaves the line idle. -/
theorem test_reply_levels :
    let u := { replying inOpen 0x01#8 .ok with straps := { zeroStraps with unitAddress := 5 } }
    u.replyLevel 0 = false ∧ u.replyLevel 9 = true ∧ u.replyLevel 20 = false ∧ u.replyLevel 76 = true
      ∧ 11 * u.replyLine.length = 77 ∧ u.replyLevel 77 = true ∧ inOpen.replyLevel 0 = true := by decide +kernel

/-- A unit whose carousel reads the store at a step of an attempt. -/
def reading (s : State) (a : Attempt) (fresh urgent : List Nat) (cursor pass : Nat) : State :=
  { running s [] with
    carousel := { (running s []).carousel with
      attempt := a, fresh := fresh, urgent := urgent, cursor := cursor, pass := pass }
    port := { s.port with state := .composition } }

theorem reads (x : SlotState) (mark : QueueMark) (a : Attempt) (fresh urgent : List Nat)
    (cursor pass n : Nat) (hn : n < 16384) :
    (reading (slot3 x mark) a fresh urgent cursor pass).Reads
      (reading (slot3 x mark) a fresh urgent cursor pass) a n [] :=
  { port := rfl, attempt := rfl, running := rfl, corrupted := rfl, inside := hn
    canonical := by cases x <;> cases mark <;> rfl }

theorem no_conversion (s : State) (h : (s.event 0).state = .onSale) (hb : (s.event 0).blackout = []) :
    ∀ why, ¬ s.Converts (someGrant 3 0) why := by
  rintro why (⟨hc, _⟩ | ⟨_, _, _, x, hx, _⟩)
  · exact absurd (h.symm.trans hc) (by decide)
  · exact nomatch hb ▸ hx

/-- The unit with event 0 ON-SALE and region 5 blacked out. -/
def blackened : EventRecord := { eventIn .onSale with blackout := [{ low := 5, high := 5 }] }

theorem test_witness_FreshDequeueSendsGrant :
    let s (x : SlotState) := reading (slot3 x .fresh) .freshShare [3, 9] [] 0 0
    (∀ x, (s x).Reads (s x) .freshShare 3 [])
      ∧ ((s .pending).carousel.fresh = 3 :: [9] ∧ ((s .pending).cell 3).checkGood = true
        ∧ ((s .pending).slot 3).state = .pending
        ∧ ((s .pending).slot 3).grant = some (someGrant 3 0)
        ∧ ((s .pending).event 0).state.selling = true)
      ∧ (∀ why, ¬ (s .pending).Converts (someGrant 3 0) why)
      ∧ (withEvent (s .pending) 0 blackened).Converts (someGrant 3 0) .blackout
      ∧ ((s .announced).slot 3).state ≠ .pending :=
  ⟨fun x => reads x .fresh _ _ _ _ _ _ (by decide), by decide, no_conversion _ rfl rfl,
    .inr ⟨by decide, rfl, rfl, by decide⟩, by decide⟩

theorem not_offered (x : SlotState) (mark : QueueMark) (s : State) (pass : Nat) (h : s.event 0 = eventIn .scheduled)
    (hx : (s.slot 3) = (slotIn x (someGrant 3 0) mark).slot) (hr : x ≠ .revoking) :
    ∀ g, ¬ s.Offered (s.slot 3) g pass := by
  rw [hx]
  rintro g ⟨hg, h1 | h2⟩
  · have : g = someGrant 3 0 := by cases x <;> exact (Option.some.inj hg).symm
    subst this
    rw [show (someGrant 3 0).event = 0 from rfl, h] at h1
    exact absurd h1.2 (by decide)
  · exact hr (by cases x <;> first | rfl | exact h2.1)

/-- An urgent read of a REVOKING slot, of one whose event is CLOSED, and of one that is not REVOKING, with a further entry
and without. A refresh read of slot 3, and of the last slot; passes 8 and 7 with the HELD interval 8; a slot of a
SCHEDULED event; the 31st and the 32nd read of the step. -/
theorem test_witness_UrgentAndRefreshReadsSend :
    let u (x : SlotState) (q : List Nat) := reading (slot3 x .urgent) .urgentShare [] (3 :: q) 0 0
    let s (x : SlotState) (pass : Nat) := reading (slot3 x .none) (.refresh 31) [] [] 3 pass
    (∀ x q, (u x q).Reads (u x q) .urgentShare 3 [])
      ∧ (((u .revoking [9]).carousel.urgent = 3 :: [9] ∧ ((u .revoking [9]).cell 3).checkGood = true
          ∧ ((u .revoking []).slot 3).state = .revoking
          ∧ ((u .revoking []).slot 3).grant = some (someGrant 3 0))
        ∧ (((u .revoking []).event 0).state ≠ .closed ∧ ((u .revoking []).event 0).state ≠ .retired)
        ∧ ((withEvent (u .revoking []) 0 (eventIn .closed)).event 0).state = .closed
        ∧ ((u .pending []).slot 3).state ≠ .revoking)
      ∧ (∀ x, (s x 8).Reads (s x 8) (.refresh 31) 3 [])
      ∧ (reading (slot3 .held .none) (.refresh 0) [] [] 16383 8).Reads
          (reading (slot3 .held .none) (.refresh 0) [] [] 16383 8) (.refresh 0) 16383 []
      ∧ ((s .held 8).carousel.cursor = 3 ∧ ((s .held 8).cell 3).checkGood = true
        ∧ (s .held 8).Offered ((s .held 8).slot 3) (someGrant 3 0) 8
        ∧ (s .revoking 8).Offered ((s .revoking 8).slot 3) (someGrant 3 0) 8
        ∧ (s .held 7).carousel.pass % (s .held 7).settings.record.heldInterval ≠ 0)
      ∧ (∀ g, ¬ (withEvent (s .pending 8) 0 (eventIn .scheduled)).Offered
          ((withEvent (s .pending 8) 0 (eventIn .scheduled)).slot 3) g 8)
      ∧ (∀ why, ¬ (s .held 8).Converts (someGrant 3 0) why)
      ∧ (withEvent (s .held 8) 0 (eventIn .cancelled)).Converts (someGrant 3 0) .cancelled
      ∧ ((s .held 8).settings.record.stepAfter (s .held 8).carousel (.refresh 31) = .none
        ∧ (s .held 8).settings.record.stepAfter (s .held 8).carousel (.refresh 30) = .refresh 31
        ∧ 16383 + 1 = (s .held 8).slotCount) :=
  ⟨fun x _ => reads x .urgent _ _ _ _ _ _ (by decide), by decide,
    fun x => reads x .none _ _ _ _ _ _ (by decide), reads .held .none _ _ _ _ _ _ (by decide),
    ⟨rfl, by decide, ⟨rfl, .inl ⟨.inr (.inr ⟨rfl, by decide⟩), .inl (by decide)⟩⟩,
      ⟨rfl, .inr ⟨rfl, by decide, by decide⟩⟩, by decide⟩,
    not_offered .pending .none _ _ rfl rfl (by decide), no_conversion _ rfl rfl, .inl ⟨by decide, rfl⟩,
    by decide⟩

/-- The 32nd read of step 4 yields nothing and the queues are empty: the attempt ends with nothing eligible, and the cycle,
in which nothing was composed, ends at once. -/
theorem test_barren_refresh_ends_cycle :
    let t := after (.refreshRead []) (reading (slot3 .held .none) (.refresh 31) [] [] 4 7)
    t.carousel.run = .waiting ∧ t.carousel.cursor = 5 ∧ t.port.state = .idle := by decide

/-- A unit that books a completion. -/
def updating (s : State) (t : Tag) (rest : List Tag) : State :=
  { s with port := { s.port with state := .completion, completions := t :: rest } }

theorem updates (x : SlotState) (mark : QueueMark) (c : TagContent) (rest : List Tag) :
    (updating (slot3 x mark) (tagOf c) rest).Updates (updating (slot3 x mark) (tagOf c) rest) (tagOf c) rest 3 [] :=
  { port := rfl, head := rfl, notVoided := rfl, corrupted := rfl, inside := by show 3 < 16384; decide
    canonical := by cases x <;> cases mark <;> rfl, good := by cases x <;> cases mark <;> rfl }

theorem test_witness_GrantCompletionBooksEmission :
    let s (x : SlotState) := updating (slot3 x .none) (tagOf (.grant 3 3 0)) []
    (∀ x, (s x).Updates (s x) (tagOf (.grant 3 3 0)) [] 3 [] ∧ ((s x).slot 3).state = x
        ∧ ((s x).slot 3).grant = some (someGrant 3 0))
      ∧ ((someGrant 3 0).decoder = 3 ∧ (someGrant 3 0).event = 0)
      ∧ ((someGrant 4 0).decoder ≠ 3) :=
  ⟨fun x => ⟨updates x .none _ _, by cases x <;> rfl, by cases x <;> rfl⟩, by decide, by decide⟩

theorem test_third_emission_holds :
    let s := withSlots selling
      [(3, { slotIn .announced (someGrant 3 0) .none with
              slot := { (slotIn .announced (someGrant 3 0) .none).slot with emissions := 2 } })]
    ((after (.grantCompletionUpdate []) (updating s (tagOf (.grant 3 3 0)) [])).slot 3).state = .held := by
  decide

/-- One live grant of a CANCELLED event whose sweep is over; an emission below and at the revoke count. -/
theorem test_witness_RevokeCompletionVacatesAtCount :
    let live := { eventIn .cancelled with
      counts := { admitted := 1, live := 1, revoked := 0, retired := 0, lost := 0, reinstated := 0 } }
    let s := updating (withEvent (slot3 .revoking .none) 0 live) (tagOf (.revoke 3 3 0)) []
    (s.Updates s (tagOf (.revoke 3 3 0)) [] 3 [] ∧ 0 < s.events.length
        ∧ 1 ≤ (s.event 0).counts.live ∧ (s.event 0).state ≠ .empty)
      ∧ ((s.slot 3).state = .revoking ∧ (s.slot 3).grant = some (someGrant 3 0))
      ∧ ((s.event 0).state = .cancelled ∧ s.CancelSwept 0 ∧ (s.event 0).counts.live = 1)
      ∧ (0 + 1 < s.settings.record.revokeCount ∧ s.settings.record.revokeCount ≤ 3 + 1) :=
  ⟨⟨{ port := rfl, head := rfl, notVoided := rfl, corrupted := rfl, inside := by decide, canonical := rfl,
      good := rfl }, by decide, by decide, by decide⟩, by decide,
    ⟨by decide, ⟨by decide, fun w h => nomatch h⟩, by decide⟩, by decide⟩

/-! ## Witnesses: sweeps -/

/-- A unit that visits slot 3 in a sweep of event 3. -/
def visiting (e : EventState) (x : SlotState) (k : SweepKind) (start : Nat) (overtaken : Bool) : State :=
  let live := { eventIn e with
    counts := { admitted := 1, live := 1, revoked := 0, retired := 0, lost := 0, reinstated := 0 } }
  let s := withSlots (withEvent (sweeping inOpen k start 3) 3 live) [(3, slotIn x (someGrant 3 3) .none)]
  { s with port := { s.port with state := .visit k [{ low := 5, high := 5 }] overtaken } }

/-- Its sweep. -/
def sweepAt (k : SweepKind) (start : Nat) : Sweep :=
  { kind := k, event := 3, start := start, cursor := 3, visited := 4, changed := 1 }

theorem visits (e : EventState) (x : SlotState) (k : SweepKind) (start : Nat) (o : Bool) :
    (visiting e x k start o).Visits (visiting e x k start o) (sweepAt k start) k [{ low := 5, high := 5 }] o [] :=
  { port := rfl, engine := rfl, corrupted := rfl, inside := by show 3 < 16384; decide
    canonical := by cases x <;> rfl, good := by cases x <;> rfl }

/-- Each kind reaching a HELD slot; a RETIRE visit alone reaching a REVOKING one; a slot not reached; an overtaken visit. -/
theorem test_witness_SweepVisitActsByKind :
    (∀ e x k start o, (visiting e x k start o).Visits (visiting e x k start o) (sweepAt k start) k
        [{ low := 5, high := 5 }] o [])
      ∧ ((visiting .cancelled .held .cancel 0 false).sweep.wipePending = false
        ∧ (visiting .cancelled .held .cancel 0 false).successor 3 ≠ 0)
      ∧ (∀ k o, ((visiting .cancelled .held k 0 o).slot 3).Reached 3 (someGrant 3 3) k [{ low := 5, high := 5 }])
      ∧ ((visiting .closed .revoking .retire 0 false).slot 3).Reached 3 (someGrant 3 3) .retire []
      ∧ (∀ g, ¬ ((visiting .closed .vacant .retire 0 false).slot 3).Reached 3 g .retire [])
      ∧ ((visiting .cancelled .pending .cancel 0 false).NotInFlight 3 3
        ∧ 1 ≤ ((visiting .cancelled .pending .cancel 0 false).event 3).counts.live) := by
  refine ⟨visits, by decide, fun k o => ?_, ?_, ?_, ⟨fun t h => (nomatch h), by decide⟩⟩
  · cases k <;>
      exact ⟨⟨.inr (.inr (.inl rfl)), _, rfl, rfl, rfl⟩, rfl, fun _ => nofun, fun _ => ⟨rfl, by decide⟩⟩
  · exact ⟨⟨.inr (.inr (.inr rfl)), _, rfl, rfl, rfl⟩, rfl, fun h => absurd rfl h, nofun⟩
  · rintro g ⟨⟨h, _⟩, _⟩
    revert h; decide

/-- A BLACKOUT visit that a CANCEL conversion has overtaken acts under its old list and leaves the lap at its start, so
that the CANCEL lap visits the slot it stood at. -/
theorem test_overtaken_visit_is_outside_lap :
    let s := visiting .live .held .blackout 0 false
    let u := after .eventCancel (ask s (.eventCancel 3))
    let t := after (.sweepVisit []) u
    u.port.state = .visit .blackout [{ low := 5, high := 5 }] true
      ∧ (t.slot 3).state = .revoking
      ∧ t.sweep.engine = .sweeping
          { kind := .cancel, event := 3, start := 3, cursor := 3, visited := 0, changed := 2 }
      ∧ t.port.state = .visit .cancel [] false := by decide

theorem other_event_empty (n m : Nat) (r : EventRecord) (h : m ≠ n) :
    (withEvent inOpen n r).event m = EventRecord.empty := by
  show (inOpen.setEvent n r).event m = _
  rw [State.event_setEvent, if_neg (fun x => h x.1)]
  show (List.replicate 32 EventRecord.empty).getD m _ = _
  rw [List.getD_eq_getElem?_getD, List.getElem?_replicate]; split <;> rfl

/-- A lap's last visit, of an EMPTY slot and of each slot a kind reaches; no event marked, and event 31 marked after last
served 30. The mark of event 3 set with the engine IDLE, with its BLACKOUT sweep running and with another sweep running,
the port free and granted. -/
theorem test_witness_SweepsCompleteAndAreChosen :
    let s (k : SweepKind) := withSlots (visiting .closed .held k 4 false) []
    let retire := { eventIn .closed with marks := { cancel := false, retire := true, blackout := false } }
    let c := withEvent { inOpen with sweep := { inOpen.sweep with lastServed := 30 } } 31 retire
    let live := withEvent inOpen 3 { eventIn .live with hold := some { time := 100, kind := .firm } }
    ((∀ k, (s k).Visits (s k) (sweepAt k 4) k [{ low := 5, high := 5 }] false [])
        ∧ ∀ k x, (visiting .closed x k 4 false).Visits (visiting .closed x k 4 false) (sweepAt k 4) k
            [{ low := 5, high := 5 }] false [])
      ∧ ((s .retire).sweep.wipePending = false ∧ (s .retire).successor 3 = 4
        ∧ (∀ g, ¬ ((s .retire).slot 3).Reached 3 g .retire []) ∧ 3 < 32 ∧ (s .retire).events.length = 32
        ∧ ∀ r ∈ (s .retire).events, r.marks = { cancel := false, retire := false, blackout := false })
      ∧ (c.events.length = 32 ∧ 0 < 32 ∧ 31 = (c.sweep.lastServed + 1 + 0) % 32
        ∧ (∀ q, (c.event 31).marked q ↔ q = .retire))
      ∧ ((live.event 3).state.selling = true ∧ (live.event 3).state.admitting = true
        ∧ (live.event 3).blackout.length < 8 ∧ (live.event 3).window = some someWindow
        ∧ (live.event 3).marks = { cancel := false, retire := false, blackout := false }
        ∧ effectiveCloseOf someWindow.scheduledClose (live.event 3).hold ≤ live.clock.clock
        ∧ 100 ≤ live.clock.clock ∧ 100 ≤ someWindow.liveStart + 86400)
      ∧ ((withEvent inOpen 3 (eventIn .cancelled)).event 3).state = .cancelled
        ∧ (withEvent inOpen 3 (eventIn .cancelled)).CancelSwept 3
      ∧ (live.sweep.engine = .idle ∧ (∀ m, m ≠ 3 → ∀ q, ¬ (live.event m).marked q)
        ∧ live.port =
          { state := .idle, composition := false, completions := [], request := false, sweep := false })
      ∧ ((sweeping live .blackout 0 4).sweep.engine
            = .sweeping { kind := .blackout, event := 3, start := 0, cursor := 4, visited := 4, changed := 1 }
        ∧ (sweepAt .retire 4).kind ≠ .blackout)
      ∧ ((visiting .live .held .blackout 4 false).port.state
            = .visit .blackout [{ low := 5, high := 5 }] false
        ∧ (∀ q r o, live.port.state ≠ .visit q r o)) := by
  refine ⟨⟨fun k => ?_, fun k x => visits _ x k 4 false⟩,
    ⟨by decide, by decide, fun g h => ?_, by decide, by decide, by decide⟩,
    ⟨by decide, by decide, by decide, fun q => ?_⟩, by decide, by decide, ⟨by decide, fun w h => nomatch h⟩,
    ⟨rfl, fun m hm q => ?_, rfl⟩, by decide, by decide, fun q r o => nofun⟩
  · exact { port := rfl, engine := rfl, corrupted := rfl, inside := by show 3 < 16384; decide
            canonical := rfl, good := rfl }
  · exact nomatch h.2.1
  · cases q <;> simp only [EventRecord.marked] <;> decide
  · rw [other_event_empty 3 m _ hm]; cases q <;> nofun

theorem test_retire_sweep_chosen :
    let retire := { eventIn .closed with marks := { cancel := false, retire := true, blackout := false } }
    let t := (withEvent inOpen 0 retire).chooseSweep
    t.sweep.lastServed = 0 ∧ (t.event 0).marks = Marks.none
      ∧ t.sweep.engine = .sweeping
          { kind := .retire, event := 0, start := 0, cursor := 0, visited := 0, changed := 0 } := by
  decide

/-- A unit whose WIPE stands at a slot. -/
def wiping (c : Nat) : State :=
  { State.reset with sweep := { State.reset.sweep with engine := .wiping c } }

/-- A WIPE asked for with the port free; the first, the last but one and the last write. -/
theorem test_witness_WipeEmptiesStore :
    let s : State := { inClosing with sweep := { inClosing.sweep with wipePending := true } }
    (s.sweep.wipePending = true ∧ s.port.state = .idle ∧ s.port.completions = []
        ∧ s.port.composition = false ∧ s.port.request = false)
      ∧ (∀ c, (wiping c).port.state = .wipeWrite ∧ (wiping c).sweep.engine = .wiping c
        ∧ (wiping c).storeOk ∧ (wiping c).port.sweep = false)
      ∧ (16382 + 1 < (wiping 16382).slotCount ∧ 16383 + 1 = (wiping 16383).slotCount) :=
  ⟨by decide, fun _ => ⟨rfl, rfl, rfl, rfl⟩, by decide⟩

theorem test_last_wipe_write :
    let t := after .wipeWrite (wiping 16383)
    t.night = .setup ∧ t.sweep.engine = .idle ∧ t.port.state = .idle ∧ t.notice.causes = 0x200#10 := by
  decide

/-! ## Witnesses: the scrambler port and the laws -/

/-- Nothing presented; a record of an event that waits for no key; one that holds an epoch back. -/
theorem test_witness_ScramblerTakesHeadRecord :
    let s := presenting (withEvent inOpen 31 (keyed .live (some someKey) none 8 true)) [switch31]
    let w := presenting (atSecond (withEvent inOpen 31 (keyed .onSale (some someKey) none 8 true)) 250) [switch31]
    (inOpen.scrambler.ready = false ∧ (presenting inOpen []).scrambler.queue = [])
      ∧ ((presenting inOpen [switch31]).scrambler.ready = true
        ∧ (presenting inOpen [switch31]).scrambler.queue = switch31 :: []
        ∧ ((presenting inOpen [switch31]).event 31).keys.keyLate = false)
      ∧ (s.scrambler.queue = switch31 :: [] ∧ 31 < s.events.length
        ∧ (s.event 31).state = .live ∧ (s.event 31).window = some someWindow
        ∧ (s.event 31).keys.keyLate = true ∧ (s.event 31).keys.next = some someKey
        ∧ s.settings.record.announceMinimum ≤ (s.event 31).keys.announceCount)
      ∧ (w.scrambler.queue = switch31 :: [] ∧ (w.event 31).state = .onSale ∧ (w.event 31).keys.keyLate = true
        ∧ (w.event 31).keys.next = some someKey ∧ (w.event 31).window = some someWindow) := by decide

/-- An acceptance that frees an event in key wait, before its close and after it. -/
theorem test_accept_enters_event :
    let s (c : Nat) :=
      presenting (atSecond (withEvent inOpen 31 (keyed .onSale (some someKey) none 8 true)) c) [switch31]
    ((after .scramblerAccept (s 250)).event 31).state = .live
      ∧ ((after .scramblerAccept (s 250)).event 31).causes = 5#4
      ∧ ((after .scramblerAccept (s 300)).event 31).state = .closed := by decide

theorem test_accept_takes_held_advance :
    let t := after .scramblerAccept
      (presenting (withEvent inOpen 31 (keyed .live (some someKey) none 8 true)) [switch31])
    t.scrambler.queue = [{ event := 31, payload := .switch 7 3 someKey }]
      ∧ (t.event 31).keys.epoch = 3 ∧ t.counters.switchesAccepted = 1 := by decide

/-- The unit after reset, a WIPE write waiting. -/
def wipeWaiting : State := { State.reset with pending := [.wipeWrite] }

theorem empty_keys_relate : EventRecord.empty.KeysRelate := by constructor <;> decide

/-- For StepsKeepStoreCanonical, StepsKeepCountsBalanced, StepsKeepNightAndClock, StepsKeepOneRecordPerEvent,
StepsKeepBounds, StepsKeepKeyRelations and StepsKeepQueueMarks: the laws' premises hold together of the unit after
reset, which takes a step. -/
theorem test_witness_laws :
    wipeWaiting.storeOk ∧ wipeWaiting.countsOk ∧ wipeWaiting.nightOk ∧ wipeWaiting.clockOk
      ∧ wipeWaiting.scramblerOk ∧ wipeWaiting.queuesOk ∧ wipeWaiting.linkOk ∧ wipeWaiting.configOk
      ∧ wipeWaiting.eventsOk ∧ wipeWaiting.slotsOk
      ∧ ∃ t, step wipeWaiting = .next t ∧ t.sweep.engine = .wiping 1 := by
  refine ⟨rfl, ?_, ?_, ?_, ?_, ?_, ?_, ?_, ?_, ?_, _, rfl, rfl⟩
  · intro r h
    rw [List.eq_of_mem_replicate h]; rfl
  · constructor <;> try decide
    intro c _; exact ⟨.inl rfl, rfl, by decide⟩
  · show 0 ≤ 16777215; decide
  · constructor <;> decide
  · unfold State.queuesOk; decide
  · unfold State.linkOk; decide
  · constructor <;> decide
  · exact {
      keys := fun r h => List.eq_of_mem_replicate h ▸ empty_keys_relate
      marks := fun r h k hk => by rw [List.eq_of_mem_replicate h] at hk; cases k <;> exact nomatch hk
      running := fun w h => nomatch h }
  · exact {
      settled := fun h => absurd rfl h
      wiping := fun c h => by cases h; exact ⟨rfl, rfl, fun n hn => absurd hn (Nat.not_lt_zero n), rfl⟩
      starting := fun _ h => absurd rfl (h 0)
      noEvents := fun _ r h => List.eq_of_mem_replicate h
      closing := fun h => nomatch h
      asked := fun h => nomatch h }

/-- A live slot whose number stands in the fresh queue. -/
def settled : State := { slot3 .pending .fresh with carousel := { inOpen.carousel with fresh := [3] } }

theorem settled_slot (n : Nat) (h : n ≠ 3) : settled.slot n = blankSlot := by
  show (if 3 = n then slotIn .pending (someGrant 3 0) .fresh else blankCell).slot = blankSlot
  rw [if_neg (Ne.symm h)]; rfl

theorem live_in_settled (n d e : Nat) (h : (settled.slot n).LiveFor d e) : n = 3 ∧ d = 3 ∧ e = 0 := by
  by_cases hn : n = 3
  · subst hn
    obtain ⟨_, g, hg, rfl, rfl⟩ := h
    cases hg
    exact ⟨rfl, rfl, rfl⟩
  · rw [settled_slot n hn] at h
    exact absurd h.1 (by decide)

/-- The laws of the store and the queues hold between WIPEs with a live slot that stands in a queue. -/
theorem test_witness_StepsKeepQueueMarks : settled.storeOk ∧ settled.nightOk ∧ settled.slotsOk := by
  refine ⟨rfl, ?_, ?_⟩
  · constructor <;> try decide
    exact fun c h => nomatch h
  · exact {
      settled := fun _ _ => ⟨{
        once := by decide
        inside := by decide
        fresh := fun n _ => by
          by_cases h : n = 3
          · subst h; decide
          · rw [settled_slot n h]; exact iff_of_false (by decide) (fun m => h (List.mem_singleton.1 m))
        urgent := fun n _ => by
          by_cases h : n = 3
          · subst h; decide
          · rw [settled_slot n h]; exact iff_of_false (by decide) (fun m => nomatch m) },
        { once := fun m n d e _ _ hm hn => (live_in_settled m d e hm).1.trans (live_in_settled n d e hn).1.symm
          reached := fun n d e _ h => by
            obtain ⟨rfl, rfl, rfl⟩ := live_in_settled n d e h
            exact ⟨0, by decide, by decide, fun j hj => absurd hj (Nat.not_lt_zero j)⟩ }⟩
      wiping := fun c h => nomatch h
      starting := fun h => nomatch h
      noEvents := fun h => by rcases h with h | h <;> exact nomatch h
      closing := fun h => nomatch h
      asked := fun h => nomatch h }

end Sys2Proof.Tests
end

