-- ==== Sys2Proof/Proofs/EventEnds.lean ====
section
/-! SUPPORT. What the requests of an event do to it (section 1.8): a result handed back, a record replaced and its
mark offered to the engine, the end of an event, and the blackout list. -/

namespace Sys2Proof.Machine

/-! ## Results and gates -/

/-- What a request's owner hands back is the reply, or the FREE holder, of R165. -/
theorem State.finish_eq_replied (s : State) (h : HeldRequest) (r : ResultCode) (b : List Byte) :
    s.finish h r b = s.replied h r b := by
  rw [State.finish_eq]
  unfold State.replied State.setHolder
  cases h.broadcast <;> rfl

/-- A refusal is a reply without a body. -/
theorem State.refuse_eq_replied (s : State) (h : HeldRequest) (r : ResultCode) :
    s.refuse h r = s.replied h r [] :=
  s.finish_eq_replied h r []

/-- An event that has ended admits no grants, and its record is not EMPTY. -/
theorem EventState.not_admitting_of_ended (e : EventState) (h : e = .closed ∨ e = .cancelled ∨ e = .retired) :
    e ≠ .empty ∧ e.admitting = false := by
  rcases h with rfl | rfl | rfl <;> exact ⟨nofun, rfl⟩

/-- An event ON-SALE or keyed admits grants. -/
theorem EventState.admitting_of_selling (e : EventState) (h : e.selling = true) : e.admitting = true := by
  simp [EventState.admitting, h]

/-! ## Commands of a held request

While its request is held, a command is that request at its owner (R165, R166). -/

variable {s : State} {h : HeldRequest}

theorem exec_eventCancel {n : Nat} (hq : s.holding h (.eventCancel n)) :
    exec .eventCancel s = .next (s.cancelRequest h n) := by
  show execEventCancel s = _
  simp only [execEventCancel, hq.1, hq.2]

theorem exec_eventClear {n : Nat} (hq : s.holding h (.eventClear n)) :
    exec .eventClear s = .next (s.clearRequest h n) := by
  show execEventClear s = _
  simp only [execEventClear, hq.1, hq.2]

theorem exec_blackoutAdd {n lo hi : Nat} (hq : s.holding h (.blackoutAdd n lo hi)) :
    exec .blackoutAdd s = .next (s.addRangeRequest h n lo hi) := by
  show execBlackoutAdd s = _
  simp only [execBlackoutAdd, hq.1, hq.2]

theorem exec_blackoutRemove {n lo hi : Nat} (hq : s.holding h (.blackoutRemove n lo hi)) :
    exec .blackoutRemove s = .next (s.removeRangeRequest h n lo hi) := by
  show execBlackoutRemove s = _
  simp only [execBlackoutRemove, hq.1, hq.2]

/-! ## A record replaced and its mark offered to the engine (R58) -/

theorem State.event_setEvent_self {n : Nat} (hn : n < s.events.length) (r : EventRecord) :
    (s.setEvent n r).event n = r := by
  rw [State.event_setEvent, if_pos ⟨rfl, hn⟩]

theorem State.event_setEvent_other {n m : Nat} (hm : m ≠ n) (r : EventRecord) :
    (s.setEvent n r).event m = s.event m := by
  rw [State.event_setEvent, if_neg (fun e => hm e.1)]

theorem State.setEvent_setEvent (s : State) (n : Nat) (r q : EventRecord) :
    (s.setEvent n r).setEvent n q = s.setEvent n q := by
  simp [State.setEvent]

/-- The record after a change of state (R9). -/
theorem EventRecord.changeState_eq (r : EventRecord) (stateRepeat : Nat) (target : EventState) :
    r.changeState stateRepeat target =
      { r with state := target, causes := r.causes ||| 1#4, repeatsOwed := stateRepeat } := rfl

/-- A step of the marks leaves every block but the event table, the engine and the store port, which is left, overtaken
or claimed. -/
theorem MarkStep.left {s t : State} (st : MarkStep s t) :
    t.scrambler = s.scrambler ∧ t.store = s.store ∧ t.carousel = s.carousel ∧ t.bus = s.bus
      ∧ t.clock = s.clock ∧ t.settings = s.settings ∧ t.notice = s.notice
      ∧ t.counters = s.counters ∧ t.night = s.night ∧ t.straps = s.straps ∧ t.timer = s.timer
      ∧ t.selection = s.selection ∧ t.arbiter = s.arbiter ∧ t.link = s.link ∧ t.pending = s.pending
      ∧ t.PortMarked s.port := by
  have port := st.port
  obtain ⟨ev, sw, p, rfl⟩ := st.only
  exact ⟨rfl, rfl, rfl, rfl, rfl, rfl, rfl, rfl, rfl, rfl, rfl, rfl, rfl, rfl, rfl, port⟩

/-- A record is replaced by a marked one and a step of the marks follows: the record stands but for its marks, the sweep
is asked for, and of the other events at most marks change (R58, R67). -/
theorem MarkStep.after_setEvent {s t : State} {n : Nat} {r : EventRecord} {kind : SweepKind}
    (st : MarkStep (s.setEvent n r) t) (hn : n < s.events.length) (hr : r.marked kind) :
    (∃ k : Marks, t.event n = { r with marks := k }) ∧ t.sweepAsked n kind
      ∧ ∀ m, m ≠ n → ∃ k : Marks, t.event m = { s.event m with marks := k } := by
  have self := State.event_setEvent_self hn r
  refine ⟨self ▸ st.ev n, st.asked n kind (self.symm ▸ hr), fun m hm => ?_⟩
  exact State.event_setEvent_other (s := s) hm r ▸ st.ev m

/-! ## The end of an event (R10, R22, R115) -/

/-- The record of an event that ends in the state `target` with the marks `k` (R9, R10, R22, R115). -/
def EventRecord.ended (r : EventRecord) (stateRepeat : Nat) (target : EventState) (k : Marks) : EventRecord :=
  { r with
    state := target, causes := r.causes ||| 1#4, repeatsOwed := stateRepeat, keys := r.keys.ended, marks := k }

/-- A cancel replaces the record once, after the keys are ended, and offers the mark to the engine (R22). -/
theorem State.cancelEvent_eq {n : Nat} (hn : n < s.events.length) :
    s.cancelEvent n =
      ((s.endKeys n).setEvent n
        ((s.event n).ended s.stateRepeat .cancelled
          { (s.event n).marks with cancel := true, blackout := false })).markSet n := by
  have hk : (s.endKeys n).event n = { s.event n with keys := (s.event n).keys.ended } := by
    rw [State.endKeys_event s n n hn, if_pos rfl]
  have hn' : n < (s.endKeys n).events.length := by rwa [State.endKeys_length]
  have hr : (s.endKeys n).stateRepeat = s.stateRepeat := by simp [State.stateRepeat]
  simp only [State.cancelEvent, State.changeState, State.setEvent_setEvent, State.event_setEvent_self hn', hk, hr]
  rfl

/-- The store port after the keys of one event are ended (R109, R115). -/
theorem State.endKeys_port (s : State) (n : Nat) :
    (s.endKeys n).port = { s.port with completions := s.port.completions.map (Tag.keyVoided n) } := by
  have hp : (if (s.event n).state.keyed = true then s.postClear n else s).port = s.port := by
    split <;> simp
  rw [← Tag.voidIf_isKeyOf]
  show ({ State.port _ with completions := _ } : StorePort) = _
  rw [State.setEvent_port, hp]

/-- A keyed event's end posts the CLEAR record (R115). -/
theorem State.endKeys_of_keyed {n : Nat} (hk : (s.event n).state.keyed = true) :
    (s.endKeys n).scrambler = (s.postClear n).scrambler ∧ (s.endKeys n).counters = (s.postClear n).counters := by
  simp only [State.endKeys, if_pos hk]
  exact ⟨rfl, rfl⟩

/-- The end of an event that is not keyed leaves the scrambler queue and the counters. -/
theorem State.endKeys_of_not_keyed {n : Nat} (hk : (s.event n).state.keyed = false) :
    (s.endKeys n).scrambler = s.scrambler ∧ (s.endKeys n).counters = s.counters := by
  simp only [State.endKeys, hk, Bool.false_eq_true, if_false]
  exact ⟨rfl, rfl⟩

/-- The keys of an event are ended, its record becomes that of an ended event with the mark of `kind` and no BLACKOUT
mark, and a step of the marks follows: the event has ended (R10, R22, R115). -/
theorem State.Ended.of_markStep {t : State} {n : Nat} {target : EventState} {kind : SweepKind} {k : Marks}
    (hn : n < s.events.length)
    (st : MarkStep ((s.endKeys n).setEvent n ((s.event n).ended s.stateRepeat target k)) t)
    (hkind : ((s.event n).ended s.stateRepeat target k).marked kind) (hb : k.blackout = false) :
    s.Ended t n target kind := by
  have hn' : n < (s.endKeys n).events.length := by rwa [State.endKeys_length]
  obtain ⟨⟨j, self⟩, asked, others⟩ := st.after_setEvent hn' hkind
  obtain ⟨scrambler, store, carousel, bus, clock, settings, notice, counters, night, straps, timer, selection,
    arbiter, link, pending, port⟩ := st.left
  have noBlackout : (t.event n).marks.blackout = false := by
    by_contra hne
    have before := st.mono n .blackout (Bool.eq_true_of_not_eq_false hne)
    rw [State.event_setEvent_self hn'] at before
    exact Bool.false_ne_true (hb.symm.trans before)
  have unqueued (hk : (s.event n).state.keyed = false) : t.scrambler = s.scrambler ∧ t.counters = s.counters :=
    ⟨scrambler.trans (State.endKeys_of_not_keyed hk).1, counters.trans (State.endKeys_of_not_keyed hk).2⟩
  have posted (hk : (s.event n).state.keyed = true) :
      t.scrambler = (s.postClear n).scrambler ∧ t.counters = (s.postClear n).counters :=
    ⟨scrambler.trans (State.endKeys_of_keyed hk).1, counters.trans (State.endKeys_of_keyed hk).2⟩
  exact {
    state := by rw [self]; rfl
    window := by rw [self]; rfl
    hold := by rw [self]; rfl
    ranges := by rw [self]; rfl
    counts := by rw [self]; rfl
    causes := by rw [self]; rfl
    repeats := by rw [self]; rfl
    keys := by rw [self]; rfl
    marks := ⟨noBlackout, asked⟩
    others := fun m hm => by
      have := others m hm
      rwa [State.endKeys_event s n m hn, if_neg hm] at this
    cleared := fun hk => by rw [(posted hk).1, State.postClear_queue]
    withdrawn := fun hk queued => by rw [(posted hk).2, (State.postClear_counters s n).1 queued]
    notWithdrawn := fun unq => by
      cases hk : (s.event n).state.keyed with
      | true => rw [(posted hk).2, (State.postClear_counters s n).2 unq]
      | false => exact (unqueued hk).2
    notCleared := unqueued
    bus := bus.trans (State.endKeys_tags s n).1
    updates := st.port.updates.trans (State.endKeys_tags s n).2
    port := State.endKeys_port s n ▸ port
    left := by
      simp [night, straps, timer, clock, settings, selection, store, carousel, arbiter, link, notice, pending] }

/-- A cancelled event has ended in CANCELLED with a cancel sweep asked for (R22). -/
theorem State.cancelEvent_ended {n : Nat} (hn : n < s.events.length) :
    s.Ended (s.cancelEvent n) n .cancelled .cancel := by
  rw [State.cancelEvent_eq hn]
  exact .of_markStep hn (State.markSet_marks _ n) rfl rfl

end Sys2Proof.Machine
end

