-- ==== Sys2Proof/Proofs/EventCancelClear.lean ====
section
/-! EVENT-CANCEL and EVENT-CLEAR (R22, R23). -/

namespace Sys2Proof.Machine

variable {s : State} {h : HeldRequest} {n : Nat}

/-! ## EVENT-CANCEL at its owner -/

theorem State.cancelRequest_of_admitting (hn : s.night = .setup ∨ s.night = .opened) (h31 : n ≤ 31)
    (ha : (s.event n).state.admitting = true) :
    s.cancelRequest h n = (s.cancelEvent n).replied h .ok [] := by
  rw [State.cancelRequest, State.eventGate_passes s h n _ hn h31 (EventState.admitting_ne_empty _ ha), if_pos ha,
    State.finish_eq_replied]

theorem State.cancelRequest_of_ended (hn : s.night = .setup ∨ s.night = .opened) (h31 : n ≤ 31)
    (he : (s.event n).state = .closed ∨ (s.event n).state = .cancelled ∨ (s.event n).state = .retired) :
    s.cancelRequest h n = s.replied h .wrongEventState [] := by
  obtain ⟨hne, hadm⟩ := EventState.not_admitting_of_ended _ he
  rw [State.cancelRequest, State.eventGate_passes s h n _ hn h31 hne, hadm, State.refuse_eq_replied]
  rfl

/-! ## EVENT-CLEAR at its owner -/

theorem State.clearRequest_of_clearable (hn : s.night = .setup ∨ s.night = .opened) (h31 : n ≤ 31)
    (hc : (s.event n).state = .retired
      ∨ ((s.event n).state = .scheduled ∧ (s.event n).counts.admitted = 0)) :
    s.clearRequest h n = (s.emptyEvent n).replied h .ok [] := by
  have hne : (s.event n).state ≠ .empty := by
    rcases hc with hr | ⟨hs, _⟩
    · simp [hr]
    · simp [hs]
  rw [State.clearRequest, State.eventGate_passes s h n _ hn h31 hne]
  rcases hc with hr | ⟨hs, h0⟩
  · simp only [hr, State.finish_eq_replied]
  · simp only [hs, h0, if_true, State.finish_eq_replied]

theorem State.clearRequest_of_swept (hn : s.night = .setup ∨ s.night = .opened) (h31 : n ≤ 31)
    (hc : (s.event n).state = .cancelled) (hsw : s.CancelSwept n) :
    s.clearRequest h n = (s.giveUpCancelled n).replied h .ok [] := by
  have hne : (s.event n).state ≠ .empty := by simp [hc]
  rw [State.clearRequest, State.eventGate_passes s h n _ hn h31 hne]
  simp only [hc, (State.cancelSweepDone_iff s n).2 hsw, if_true, State.finish_eq_replied]

/-- What EVENT-CLEAR refuses by the event's state (R23): an event ON-SALE, keyed or CLOSED, a SCHEDULED one that has
admitted a grant, and a CANCELLED one whose cancel sweep has not completed. -/
theorem State.clearRequest_of_unclearable (hn : s.night = .setup ∨ s.night = .opened) (h31 : n ≤ 31)
    (hw : (s.event n).state.selling = true ∨ (s.event n).state = .closed
      ∨ ((s.event n).state = .scheduled ∧ (s.event n).counts.admitted ≠ 0)
      ∨ ((s.event n).state = .cancelled ∧ ¬ s.CancelSwept n)) :
    s.clearRequest h n = s.replied h .wrongEventState [] := by
  have hne : (s.event n).state ≠ .empty := by
    rcases hw with hsell | hc | ⟨hs, _⟩ | ⟨hc, _⟩
    · exact EventState.selling_ne_empty _ hsell
    · simp [hc]
    · simp [hs]
    · simp [hc]
  rw [State.clearRequest, State.eventGate_passes s h n _ hn h31 hne]
  rcases hw with hsell | hc | ⟨hs, hadm⟩ | ⟨hc, hsw⟩
  · cases he : (s.event n).state <;> rw [he] at hsell
    case onSale | preview | live | overtime => exact State.refuse_eq_replied s h _
    case empty | scheduled | closed | cancelled | retired => exact absurd hsell (by decide)
  · simp only [hc, State.refuse_eq_replied]
  · simp only [hs, if_neg hadm, State.refuse_eq_replied]
  · simp only [hc, if_neg (mt (State.cancelSweepDone_iff s n).1 hsw), State.refuse_eq_replied]

/-- A CANCELLED event given up: its record is replaced once, and the engine's reaction to the RETIRE mark is a step of
the marks (R23, R24). -/
theorem State.giveUpCancelled_markStep (hn : n < s.events.length) :
    MarkStep
      (s.setEvent n
        { s.event n with
          state := .closed, causes := (s.event n).causes ||| 1#4
          repeatsOwed := s.settings.record.stateRepeat
          marks := { (s.event n).marks with retire := true } })
      (s.giveUpCancelled n) := by
  simp only [State.giveUpCancelled, State.changeState, State.setEvent_setEvent, State.event_setEvent_self hn,
    EventRecord.changeState_eq, State.stateRepeat]
  exact State.markSet_marks _ n

end Sys2Proof.Machine

open Sys2Proof Sys2Proof.Machine

/-- Settles O27. A cancel ends the event, of which `State.Ended.of_markStep` says what is left; a clear empties the
record or offers a RETIRE mark to the engine, whose reaction is a `MarkStep`. -/
theorem eventsAreCancelledAndCleared : Obligations.EventsAreCancelledAndCleared := by
  unfold Obligations.EventsAreCancelledAndCleared
  constructor
  · intro s h n hq hlen hnight h31
    rw [exec_eventCancel hq]
    refine ⟨fun hadm => ⟨s.cancelEvent n, ?_, State.cancelEvent_ended (by omega)⟩, fun hend => ?_⟩
    · rw [State.cancelRequest_of_admitting hnight h31 hadm]
    · rw [State.cancelRequest_of_ended hnight h31 hend]
  · intro s h n hq hlen hnight h31
    rw [exec_eventClear hq]
    refine ⟨fun hclear void hvoid => ?emptied, fun hcan hsw => ?givenUp, fun hwrong => ?refused⟩
    case emptied =>
      -- the tags voided when a record becomes EMPTY are those of its event (R92)
      obtain rfl : void = Tag.voidIf (TagContent.isOf n) := by
        funext ⟨_, content, _⟩
        rw [hvoid]
        cases content <;> simp [Tag.voidIf, TagContent.isOf]
      rw [State.clearRequest_of_clearable hnight h31 hclear]
      rfl
    case givenUp =>
      have hn : n < s.events.length := by omega
      have st := State.giveUpCancelled_markStep hn
      obtain ⟨⟨k, self⟩, asked, others⟩ := st.after_setEvent (kind := .retire) hn rfl
      exact ⟨s.giveUpCancelled n, k, by rw [State.clearRequest_of_swept hnight h31 hcan hsw], self, asked, others,
        st.left⟩
    case refused => rw [State.clearRequest_of_unclearable hnight h31 hwrong]

end

