-- ==== Sys2Proof/Proofs/BlackoutList.lean ====
section
/-! BLACKOUT-ADD and BLACKOUT-REMOVE (R25, R26, R68). -/

namespace Sys2Proof.Machine

variable {s : State} {h : HeldRequest} {n lo hi : Nat}

/-! ## The checks that both requests make (R18, R25, R26, R184) -/

theorem badRange_of_low (hlo : 255 < lo) (i : Nat) : badRange [{ low := lo, high := hi }] i = some i := by
  simp [badRange, hlo]

theorem badRange_of_high (hlo : lo ≤ 255) (hhi : 255 < hi ∨ hi < lo) (i : Nat) :
    badRange [{ low := lo, high := hi }] i = some (i + 1) := by
  have hlo' : ¬ 255 < lo := by omega
  simp only [badRange, hlo', hhi, if_true, if_false]

theorem badRange_of_good (hle : lo ≤ hi) (hhi : hi ≤ 255) (i : Nat) :
    badRange [{ low := lo, high := hi }] i = none :=
  (badRange_none _ i).2 (by simp [hle, hhi])

/-- The checks of BLACKOUT-ADD and BLACKOUT-REMOVE up to the list itself; what follows is given the record. -/
def State.rangeGate (s : State) (h : HeldRequest) (n lo hi : Nat) (k : EventRecord → State) : State :=
  s.eventGate h n (fun r =>
    if r.state.admitting = false then s.refuse h .wrongEventState
    else
      match badRange [{ low := lo, high := hi }] 2 with
      | some i => s.badField h i
      | none => k r)

/-- BLACKOUT-ADD is its checks and then the append (R25). -/
theorem State.addRangeRequest_eq :
    s.addRangeRequest h n lo hi = s.rangeGate h n lo hi (fun r =>
      if 8 ≤ r.blackout.length then s.refuse h .listFull
      else (s.addRange n { low := lo, high := hi }).finish h .ok []) := rfl

/-- BLACKOUT-REMOVE is its checks and then the removal (R26). -/
theorem State.removeRangeRequest_eq :
    s.removeRangeRequest h n lo hi = s.rangeGate h n lo hi (fun r =>
      if ({ low := lo, high := hi } : Range) ∈ r.blackout then
        (s.setEvent n
          { r with
            blackout := r.blackout.erase { low := lo, high := hi }
            repeatsOwed := s.stateRepeat }).finish h .ok []
      else s.refuse h .notFound) := rfl

theorem State.rangeGate_of_ended (hn : s.night = .setup ∨ s.night = .opened) (h31 : n ≤ 31)
    (he : (s.event n).state = .closed ∨ (s.event n).state = .cancelled ∨ (s.event n).state = .retired)
    (k : EventRecord → State) :
    s.rangeGate h n lo hi k = s.replied h .wrongEventState [] := by
  obtain ⟨hne, hadm⟩ := EventState.not_admitting_of_ended _ he
  rw [State.rangeGate, State.eventGate_passes s h n _ hn h31 hne, if_pos hadm, State.refuse_eq_replied]

theorem State.rangeGate_of_badField {i : Nat} (hn : s.night = .setup ∨ s.night = .opened) (h31 : n ≤ 31)
    (ha : (s.event n).state.admitting = true) (hb : badRange [{ low := lo, high := hi }] 2 = some i)
    (k : EventRecord → State) :
    s.rangeGate h n lo hi k = s.replied h .badField [byte1 i] := by
  rw [State.rangeGate, State.eventGate_passes s h n _ hn h31 (EventState.admitting_ne_empty _ ha)]
  simp only [ha, hb, Bool.true_eq_false, if_false, State.badField_eq, State.finish_eq_replied]

theorem State.rangeGate_passes (hn : s.night = .setup ∨ s.night = .opened) (h31 : n ≤ 31)
    (ha : (s.event n).state.admitting = true) (hle : lo ≤ hi) (hhi : hi ≤ 255) (k : EventRecord → State) :
    s.rangeGate h n lo hi k = k (s.event n) := by
  rw [State.rangeGate, State.eventGate_passes s h n _ hn h31 (EventState.admitting_ne_empty _ ha)]
  simp only [ha, badRange_of_good hle hhi, Bool.true_eq_false, if_false]

/-! ## The append and its mark (R25, R68) -/

theorem State.addRangeRequest_of_full (hn : s.night = .setup ∨ s.night = .opened) (h31 : n ≤ 31)
    (ha : (s.event n).state.admitting = true) (hle : lo ≤ hi) (hhi : hi ≤ 255)
    (hfull : 8 ≤ (s.event n).blackout.length) :
    s.addRangeRequest h n lo hi = s.replied h .listFull [] := by
  rw [State.addRangeRequest_eq, State.rangeGate_passes hn h31 ha hle hhi, if_pos hfull, State.refuse_eq_replied]

theorem State.addRangeRequest_of_room (hn : s.night = .setup ∨ s.night = .opened) (h31 : n ≤ 31)
    (ha : (s.event n).state.admitting = true) (hle : lo ≤ hi) (hhi : hi ≤ 255)
    (hroom : (s.event n).blackout.length < 8) :
    s.addRangeRequest h n lo hi = (s.addRange n { low := lo, high := hi }).replied h .ok [] := by
  rw [State.addRangeRequest_eq, State.rangeGate_passes hn h31 ha hle hhi, if_neg (by omega), State.finish_eq_replied]

/-- A SCHEDULED event gets the range and no mark (R25). -/
theorem State.addRange_of_scheduled (hs : (s.event n).state = .scheduled) (x : Range) :
    s.addRange n x =
      s.setEvent n
        { s.event n with
          blackout := (s.event n).blackout ++ [x], repeatsOwed := s.settings.record.stateRepeat } := by
  have hsell : (s.event n).state.selling = false := by rw [hs]; rfl
  simp only [State.addRange, hsell, Bool.false_eq_true, if_false, State.stateRepeat]

/-- An event ON-SALE or keyed gets the range and the BLACKOUT mark, and the mark is offered to the engine (R25). -/
theorem State.addRange_of_selling (hs : (s.event n).state.selling = true) (x : Range) :
    s.addRange n x =
      (s.setEvent n
        { s.event n with
          blackout := (s.event n).blackout ++ [x], repeatsOwed := s.settings.record.stateRepeat
          marks := { (s.event n).marks with blackout := true } }).markSet n := by
  simp only [State.addRange, hs, if_true, State.stateRepeat]

/-- The engine's reaction to the mark of an event ON-SALE or keyed is a step of the marks (R25, R58). -/
theorem State.addRange_markStep (hs : (s.event n).state.selling = true) (x : Range) :
    MarkStep
      (s.setEvent n
        { s.event n with
          blackout := (s.event n).blackout ++ [x], repeatsOwed := s.settings.record.stateRepeat
          marks := { (s.event n).marks with blackout := true } })
      (s.addRange n x) := by
  rw [State.addRange_of_selling hs]
  exact State.markSet_marks _ n

/-- The engine that runs a BLACKOUT sweep of an event takes the mark of its new record at once: it begins a new lap
under the mark's kind, and overtakes a visit that holds the port (R67, R68; log 13). -/
theorem State.markSet_of_running {w : Sweep} {k : SweepKind} {r : EventRecord} (hn : n < s.events.length)
    (he : s.sweep.engine = .sweeping w) (hk : w.kind = .blackout) (hw : w.event = n)
    (hm : r.marks.first = some k) :
    (s.setEvent n r).markSet n =
      { s with
        events := s.events.set n { r with marks := r.marks.clear k }
        port := { s.port with state := s.port.state.overtake }
        sweep := { s.sweep with engine := .sweeping { w with kind := k, start := w.cursor, visited := 0 } } } := by
  have self := State.event_setEvent_self hn r
  have takes : (s.setEvent n r).markSet n = (s.setEvent n r).takeOver w k := by
    simp only [State.markSet, State.setEvent_sweep, he, hk, hw, self, hm, and_self, if_true]
  rw [takes, State.takeOver_eq, hw, self, State.setEvent_events, List.set_set]
  rfl

/-- A range added while a BLACKOUT sweep of the event runs and no mark waits: the lap restarts at the present cursor, a
visit that holds the port is overtaken, and no mark is left (R68; log 13). -/
theorem State.addRange_of_running {w : Sweep} (hn : n < s.events.length) (hs : (s.event n).state.selling = true)
    (hm : (s.event n).marks = { cancel := false, retire := false, blackout := false })
    (he : s.sweep.engine = .sweeping w) (hk : w.kind = .blackout) (hw : w.event = n) (x : Range) :
    s.addRange n x =
      { s with
        events := s.events.set n
          { s.event n with
            blackout := (s.event n).blackout ++ [x], repeatsOwed := s.settings.record.stateRepeat }
        port := { s.port with state := s.port.state.overtake }
        sweep := { s.sweep with engine := .sweeping { w with start := w.cursor, visited := 0 } } } := by
  rw [State.addRange_of_selling hs,
    State.markSet_of_running hn he hk hw (k := .blackout) (by simp only [hm]; rfl)]
  simp only [hm, hk, Marks.clear]

end Sys2Proof.Machine

open Sys2Proof Sys2Proof.Machine

/-- Settles O28. Both requests make the checks of `State.rangeGate`; an append is then followed by a `MarkStep`, by
the restart of `State.addRange_of_running`, or by nothing. -/
theorem blackoutRequestsEditList : Obligations.BlackoutRequestsEditList := by
  unfold Obligations.BlackoutRequestsEditList
  refine ⟨?added, ?restarted, ?removed, ?checked⟩
  case added =>
    intro s h n lo hi hq hlen hnight h31 hle hhi
    have hn : n < s.events.length := by omega
    rw [exec_blackoutAdd hq]
    refine ⟨fun hadm hfull => ?full, fun hsch hroom => ?scheduled, fun hsell hroom => ?selling, fun hend => ?ended⟩
    case full => rw [State.addRangeRequest_of_full hnight h31 hadm hle hhi hfull]
    case scheduled =>
      have hadm : (s.event n).state.admitting = true := by rw [hsch]; rfl
      rw [State.addRangeRequest_of_room hnight h31 hadm hle hhi hroom, State.addRange_of_scheduled hsch]
      rfl
    case selling =>
      rw [State.addRangeRequest_of_room hnight h31 (EventState.admitting_of_selling _ hsell) hle hhi hroom]
      have st := State.addRange_markStep hsell { low := lo, high := hi }
      obtain ⟨⟨k, self⟩, asked, others⟩ := st.after_setEvent (kind := .blackout) hn rfl
      exact ⟨_, k, rfl, self, asked, others, st.left⟩
    case ended => rw [State.addRangeRequest_eq, State.rangeGate_of_ended hnight h31 hend]
  case restarted =>
    intro s h n lo hi w hq hlen hnight h31 hle hhi hsell hroom hmarks hengine hkind hevent
    rw [exec_blackoutAdd hq,
      State.addRangeRequest_of_room hnight h31 (EventState.admitting_of_selling _ hsell) hle hhi hroom,
      State.addRange_of_running (by omega) hsell hmarks hengine hkind hevent]
    cases s.port.state <;> rfl
  case removed =>
    intro s h n lo hi hq hnight h31 hadm hle hhi
    rw [exec_blackoutRemove hq, State.removeRangeRequest_eq, State.rangeGate_passes hnight h31 hadm hle hhi]
    refine ⟨fun before after hsplit hfirst => ?found, fun habsent => ?absent⟩
    case found =>
      have herase : (s.event n).blackout.erase { low := lo, high := hi } = before ++ after := by
        rw [hsplit, List.erase_append_right _ hfirst, List.erase_cons_head]
      rw [if_pos (by simp [hsplit]), herase, State.finish_eq_replied]
      rfl
    case absent => rw [if_neg habsent, State.refuse_eq_replied]
  case checked =>
    intro s h n lo hi c hc hnight h31
    obtain ⟨k, hgate⟩ : ∃ k, exec c s = .next (s.rangeGate h n lo hi k) := by
      rcases hc with ⟨rfl, hq⟩ | ⟨rfl, hq⟩
      · exact ⟨_, by rw [exec_blackoutAdd hq, State.addRangeRequest_eq]⟩
      · exact ⟨_, by rw [exec_blackoutRemove hq, State.removeRangeRequest_eq]⟩
    rw [hgate]
    refine ⟨fun hend => ?_, fun hadm => ⟨fun hlow => ?_, fun hlow hhigh => ?_⟩⟩
    · rw [State.rangeGate_of_ended hnight h31 hend]
    · rw [State.rangeGate_of_badField hnight h31 hadm (badRange_of_low hlow 2)]
      rfl
    · rw [State.rangeGate_of_badField hnight h31 hadm (badRange_of_high hlow hhigh 2)]
      rfl

end

