-- ==== Sys2Proof/Proofs/StoreOperation.lean ====
section
/-! SUPPORT. Store operations of the request engine (R44, R47): what no part of one touches, what a lookup can touch,
what a result hands back, and the port handed on (R43). -/

namespace Sys2Proof.Machine

/-- What no part of a request's store operation touches before the port is released: the sizes in force, the blackout
lists, and every block but the event table, the store, the carousel, the link, the notice unit and the counters. -/
structure State.SameForRequest (s t : State) : Prop where
  night : t.night = s.night
  straps : t.straps = s.straps
  timer : t.timer = s.timer
  clock : t.clock = s.clock
  settings : t.settings = s.settings
  selection : t.selection = s.selection
  scrambler : t.scrambler = s.scrambler
  sweep : t.sweep = s.sweep
  bus : t.bus = s.bus
  arbiter : t.arbiter = s.arbiter
  pending : t.pending = s.pending
  sizeA : t.store.sizeA = s.store.sizeA
  sizeB : t.store.sizeB = s.store.sizeB
  port : t.port = s.port
  ranges : ∀ k, (t.event k).blackout = (s.event k).blackout

variable {s t v : State} {q : Request} {h : HeldRequest} {u : List Nat}

/-- Parts of an operation follow one another. -/
theorem State.SameForRequest.trans (st : s.SameForRequest t) (tv : t.SameForRequest v) : s.SameForRequest v where
  night := tv.night.trans st.night
  straps := tv.straps.trans st.straps
  timer := tv.timer.trans st.timer
  clock := tv.clock.trans st.clock
  settings := tv.settings.trans st.settings
  selection := tv.selection.trans st.selection
  scrambler := tv.scrambler.trans st.scrambler
  sweep := tv.sweep.trans st.sweep
  bus := tv.bus.trans st.bus
  arbiter := tv.arbiter.trans st.arbiter
  pending := tv.pending.trans st.pending
  sizeA := tv.sizeA.trans st.sizeA
  sizeB := tv.sizeB.trans st.sizeB
  port := tv.port.trans st.port
  ranges k := (tv.ranges k).trans (st.ranges k)

/-- An operation whose parts touch no more than that leaves, its port released, what every request operation leaves
(R43). -/
theorem State.SameForRequest.kept (st : s.SameForRequest t) : s.KeptByRequest t.releasePort := by
  rw [State.releasePort_eq, State.portReleased_congr st.port st.sweep st.ranges]
  exact ⟨st.night, st.straps, st.timer, st.clock, st.settings, st.selection, st.scrambler, st.sweep, st.bus,
    st.arbiter, st.pending, st.sizeA, st.sizeB, rfl⟩

theorem State.Operates.corruption (op : s.Operates v h q u) : Corrupted s v :=
  .of_upset s v u op.corrupted op.canonical

theorem Corrupted.sameForRequest (c : Corrupted s v) : s.SameForRequest v := by
  obtain ⟨_, hv⟩ := c.only
  rw [hv]
  constructor <;> intros <;> rfl

/-- A lookup touches the store's memory and damaged figure, the notice unit and the counters alone (R33, R38). -/
theorem State.lookupFrom_only (d e : Nat) (l : List Nat) (c : Option Nat) (s : State) :
    ∃ m dm nt ct, (State.lookupFrom d e l c s).2 =
      { s with store := { s.store with memory := m, damaged := dm }, notice := nt, counters := ct } := by
  induction l generalizing c s with
  | nil => exact ⟨s.store.memory, s.store.damaged, s.notice, s.counters, rfl⟩
  | cons n ns ih =>
    have checked := State.check_only s n
    have onward (c : Option Nat) :
        ∃ m dm nt ct, (State.lookupFrom d e ns c (s.check n)).2 =
          { s with store := { s.store with memory := m, damaged := dm }, notice := nt, counters := ct } := by
      obtain ⟨m, dm, nt, ct, hgo⟩ := ih c (s.check n)
      obtain ⟨_, _, _, _, hcheck⟩ := checked
      exact ⟨m, dm, nt, ct, by rw [hgo, hcheck]⟩
    simp only [State.lookupFrom]
    split
    · exact checked
    · split
      case h_1 => exact checked
      all_goals exact onward _

theorem State.lookup_sameForRequest (s : State) (d e : Nat) : s.SameForRequest (s.lookup d e).2 := by
  obtain ⟨_, _, _, _, hw⟩ := State.lookupFrom_only d e (s.window d e) none s
  rw [State.lookup, hw]
  constructor <;> intros <;> rfl

theorem State.finish_sameForRequest (s : State) (h : HeldRequest) (r : ResultCode) (body : List Byte) :
    s.SameForRequest (s.finish h r body) := by
  rw [State.finish_only]
  constructor <;> intros <;> rfl

/-- A result handed back and the port released change the holder and the port alone (R43, R165). -/
theorem State.releasePort_finish_eq (t : State) (h : HeldRequest) (r : ResultCode) (body : List Byte) :
    (t.finish h r body).releasePort =
      { t with link := { t.link with holder := h.After r body }, port := t.portReleased } := by
  rw [State.releasePort_eq, State.finish_only]
  rfl

end Sys2Proof.Machine
end

