-- ==== Sys2Proof/Proofs/HomeSlot.lean ====
section
/-! The home slot of a pair (R36). -/

open Sys2Proof Sys2Proof.Machine

/-- Settles O33. A step of the decoder or of the event number adds its stride before the reduction, and what is already
reduced may be reduced again. -/
theorem homeSlotOfPair : Obligations.HomeSlotOfPair := by
  unfold Obligations.HomeSlotOfPair
  intro s d e
  refine ⟨rfl, ?neighbour, ?nextEvent⟩
  case neighbour =>
    have stride : d + 1 + 7919 * e = d + 7919 * e + 1 := by omega
    simp only [State.home, State.slotCount, stride, Nat.mod_add_mod]
  case nextEvent =>
    have stride : d + 7919 * (e + 1) = d + 7919 * e + 7919 := by omega
    simp only [State.home, State.slotCount, stride, Nat.mod_add_mod]

end

