-- ==== Sys2Proof/Proofs/GrantAdd.lean ====
section
/-! GRANT-ADD under the store port (R48, R49, R51). -/

namespace Sys2Proof.Machine

variable {s v : State} {h : HeldRequest} {f : AddFields} {u : List Nat}

/-! ## The operation and its checks (R48) -/

/-- While the request engine holds the port for a GRANT-ADD, the store operation is that request, and the port is
granted again (R44, R47). -/
theorem exec_requestStoreOperation_grantAdd (op : s.Operates v h (.grantAdd f) u) :
    exec (.requestStoreOperation u) s = .next (v.addGrant h f).releasePort := by
  have inside : s.home f.decoder f.event < s.slotCount := Nat.mod_lt _ op.store
  obtain ⟨held, request⟩ := op.holding
  show execRequestStoreOperation u s = _
  simp only [execRequestStoreOperation, op.port, held, request, State.withinStore, if_pos inside, op.corrupted]

/-- The checks of GRANT-ADD look at the event's record alone, which corruption does not touch. -/
theorem Corrupted.admits (c : Corrupted s v) (adm : s.Admits f) : v.Admits f := by
  unfold State.Admits
  rwa [c.event]

/-- The grant written is stamped with the night clock, which corruption does not touch. -/
theorem Corrupted.grantOf (c : Corrupted s v) (f : AddFields) : v.GrantOf f = s.GrantOf f := by
  simp only [State.GrantOf, c.sameForRequest.night, c.sameForRequest.clock]

theorem AddFields.grantKind_eq (hk : f.kind = 1 ∨ f.kind = 2) :
    f.grantKind = if f.kind = 1 then .purchased else .complimentary := by
  rcases hk with hk | hk <;> simp [AddFields.grantKind, GrantKind.ofNumber, hk]

theorem AddFields.firstBad_of_good (hlow : 1 ≤ f.decoder) (hhigh : f.decoder ≤ 4294967294)
    (hk : f.kind = 1 ∨ f.kind = 2) (hr : f.region ≤ 255) : f.firstBad = none := by
  have decoder : decoderOk f.decoder = true := by simp [decoderOk, within, hlow, hhigh]
  have kind : (GrantKind.ofNumber f.kind).isNone = false := by
    rcases hk with hk | hk <;> simp [GrantKind.ofNumber, hk]
  have region : ¬ 255 < f.region := by omega
  simp [AddFields.firstBad, decoder, kind, region]

theorem State.grant_stamp_eq (adm : s.Admits f) : f.grant s.stamp = s.GrantOf f := by
  obtain ⟨_, _, _, _, hkind, _, _⟩ := adm
  simp only [AddFields.grant, State.GrantOf, State.stamp, AddFields.grantKind_eq hkind]

/-- A region is blacked out when some range of the list holds it (R4). -/
theorem blackedOut_iff (l : List Range) (region : Nat) :
    blackedOut l region = true ↔ ∃ x ∈ l, x.low ≤ region ∧ region ≤ x.high := by
  simp [blackedOut, Range.covers]

/-- A GRANT-ADD whose checks pass comes to its lookup (R48). -/
theorem State.addGrant_of_admits (adm : s.Admits f) :
    s.addGrant h f = (s.lookup f.decoder f.event).2.addAfterLookup h f (s.lookup f.decoder f.event).1 := by
  obtain ⟨h31, hadm, hlow, hhigh, hkind, hregion, hblack⟩ := adm
  have inTable : ¬ 31 < f.event := by omega
  have ne := EventState.admitting_ne_empty _ hadm
  have sold : ¬ (f.grantKind = .purchased ∧ blackedOut (s.event f.event).blackout f.region = true) := by
    rintro ⟨purchased, out⟩
    have kind1 : f.kind = 1 := by
      by_contra hne
      simp [AddFields.grantKind_eq hkind, hne] at purchased
    obtain ⟨x, hx, covered⟩ := (blackedOut_iff _ _).1 out
    exact hblack kind1 x hx covered
  simp only [State.addGrant, inTable, ne, hadm, AddFields.firstBad_of_good hlow hhigh hkind hregion, sold,
    Bool.true_eq_false, if_false]

/-- The store operation of a GRANT-ADD whose checks pass goes on from what its lookup finds (R48). -/
theorem State.Operates.runs_addAfterLookup {r : Lookup} {w : State} (op : s.Operates v h (.grantAdd f) u)
    (adm : s.Admits f) (look : v.lookup f.decoder f.event = (r, w)) :
    exec (.requestStoreOperation u) s = .next (w.addAfterLookup h f r).releasePort := by
  rw [exec_requestStoreOperation_grantAdd op, State.addGrant_of_admits (op.corruption.admits adm), look]

/-! ## A grant written to its slot (R50, R51) -/

/-- A grant written to slot `n`, before its fresh append attempt: the slots drawn become `drawn`, and the event's
counts change by `k` (R50, R51). -/
def State.writeGrant (s : State) (n : Nat) (g : Grant) (drawn : Nat) (k : Counts → Counts) : State :=
  { s with
    store := { s.store with
      memory := s.store.memory.write n { slot := (s.slot n).withGrant g, checkGood := true }, drawn := drawn }
    events := s.events.set g.event { s.event g.event with counts := k (s.event g.event).counts } }

/-- Slots drawn, counted or not (R35). -/
theorem State.drawSlot_eq (s : State) (x : SlotState) :
    s.drawSlot x =
      { s with store := { s.store with drawn := if x = .empty then s.store.drawn + 1 else s.store.drawn } } := by
  unfold State.drawSlot
  split <;> rfl

theorem State.report_of_ne_empty {n : Nat} (ne : (s.event n).state ≠ .empty) (k : Counts → Counts) :
    s.report n k = s.setEvent n { s.event n with counts := k (s.event n).counts } := by
  rw [State.report, if_neg ne]

/-- An insert is a grant written, counted admitted and live, and a fresh append attempt (R51). -/
theorem State.insert_eq (n : Nat) (adm : s.Admits f) :
    s.insert n f =
      (s.writeGrant n (s.GrantOf f) (if (s.slot n).state = .empty then s.store.drawn + 1 else s.store.drawn)
        Counts.insert).appendFresh n := by
  have written := State.grant_stamp_eq adm
  obtain ⟨_, hadm, _⟩ := adm
  have ne : (((s.putSlot n ((s.slot n).withGrant (s.GrantOf f))).drawSlot (s.slot n).state).event f.event).state
      ≠ .empty := by
    simpa [State.event] using EventState.admitting_ne_empty _ hadm
  rw [State.insert, written, State.report_of_ne_empty ne, State.drawSlot_eq]
  rfl

section

variable (s : State) (n : Nat) (g : Grant) (drawn : Nat) (k : Counts → Counts)

theorem State.writeGrant_ok (hs : s.storeOk) : (s.writeGrant n g drawn k).storeOk := s.putSlot_ok n _ hs

theorem State.slot_writeGrant_same (hs : s.storeOk) :
    (s.writeGrant n g drawn k).slot n = (s.slot n).withGrant g :=
  s.slot_putSlot_same n _ hs

theorem State.cell_writeGrant_other (m : Nat) (hm : m ≠ n) : (s.writeGrant n g drawn k).cell m = s.cell m :=
  s.cell_putSlot_other n m _ hm

/-- A count change leaves every blackout list. -/
theorem State.blackout_writeGrant (m : Nat) :
    ((s.writeGrant n g drawn k).event m).blackout = (s.event m).blackout := by
  show ((s.setEvent g.event { s.event g.event with counts := k (s.event g.event).counts }).event m).blackout = _
  rw [State.event_setEvent]
  split
  case isTrue hm => rw [hm.1]
  case isFalse => rfl

theorem State.writeGrant_sameForRequest : s.SameForRequest (s.writeGrant n g drawn k) := by
  constructor
  case ranges => exact s.blackout_writeGrant n g drawn k
  all_goals rfl

end

theorem State.appendFresh_sameForRequest (n : Nat) (hs : s.storeOk) : s.SameForRequest (s.appendFresh n) := by
  obtain ⟨_, _, _, _, _, only, _⟩ := State.appendFresh_spec s n hs
  rw [only]
  constructor <;> intros <;> rfl

/-- `t` is `s` after the grant `g` was written to slot `n` and a fresh append attempt made, with `drawn` slots drawn and
the event's counts changed by `k` (R41, R50, R51). -/
structure State.GrantWritten (s t : State) (n : Nat) (g : Grant) (drawn : Nat) (k : Counts → Counts) : Prop where
  slot : t.slot n =
    { state := .pending, grant := some g, emissions := 0, reason := none
      mark := if (s.slot n).mark = .none ∧ s.carousel.fresh.length < 1024 then .fresh else (s.slot n).mark }
  cells : ∀ m, m ≠ n → t.cell m = s.cell m
  events : t.events = s.events.set g.event { s.event g.event with counts := k (s.event g.event).counts }
  drawn : t.store.drawn = drawn
  damaged : t.store.damaged = s.store.damaged
  carousel : t.carousel = { s.carousel with
    fresh := if (s.slot n).mark = .none ∧ s.carousel.fresh.length < 1024 then s.carousel.fresh ++ [n]
      else s.carousel.fresh }
  roomy : ¬ ((s.slot n).mark = .none ∧ 1024 ≤ s.carousel.fresh.length) →
    t.notice = s.notice ∧ t.counters = s.counters
  full : (s.slot n).mark = .none ∧ 1024 ≤ s.carousel.fresh.length →
    t.notice = { s.notice with causes := s.notice.causes ||| 0x004#10 }
    ∧ t.counters = { s.counters with freshOverflow := bump s.counters.freshOverflow }
  link : t.link = s.link
  same : s.SameForRequest t

/-- The append attempt finds the mark that the write kept, and the queue as it was. -/
theorem State.writeGrant_appendFresh (s : State) (n : Nat) (g : Grant) (drawn : Nat) (k : Counts → Counts)
    (hs : s.storeOk) : s.GrantWritten ((s.writeGrant n g drawn k).appendFresh n) n g drawn k := by
  have ok := s.writeGrant_ok n g drawn k hs
  have same := (s.writeGrant_sameForRequest n g drawn k).trans (State.appendFresh_sameForRequest n ok)
  have cell := s.cell_writeGrant_other n g drawn k
  obtain ⟨slot, cells, m, nt, ct, only, roomy, full⟩ := State.appendFresh_spec _ n ok
  rw [s.slot_writeGrant_same n g drawn k hs] at slot only roomy full
  exact {
    slot := slot
    cells := fun m hm => (cells m hm).trans (cell m hm)
    events := by rw [only]; rfl
    drawn := by rw [only]; rfl
    damaged := by rw [only]; rfl
    carousel := by rw [only]; rfl
    roomy := fun hr => by rw [only]; exact roomy hr
    full := fun hf => by rw [only]; exact full hf
    link := by rw [only]; rfl
    same := same }

end Sys2Proof.Machine

open Sys2Proof Sys2Proof.Machine

/-- Settles O40. A live match that is not REVOKING leads from the lookup straight to the answer, and a lookup touches
only what the damage it met calls for. -/
theorem grantAddAlreadyHeld : Obligations.GrantAddAlreadyHeld := by
  unfold Obligations.GrantAddAlreadyHeld
  intro s v w h f u n op adm look live
  have notRevoking : (w.slot n).state ≠ .revoking := by rcases live with e | e | e <;> simp [e]
  have run : exec (.requestStoreOperation u) s = .next (w.finish h .alreadyHeld (leBytes 3 n)).releasePort := by
    rw [op.runs_addAfterLookup adm look, State.addAfterLookup, if_neg notRevoking]
  obtain rfl : (v.lookup f.decoder f.event).2 = w := by rw [look]
  have same := op.corruption.sameForRequest.trans (v.lookup_sameForRequest f.decoder f.event)
  have kept := (same.trans (State.finish_sameForRequest _ h .alreadyHeld (leBytes 3 n))).kept
  rw [State.releasePort_finish_eq] at run kept
  obtain rfl := op.corrupted
  exact ⟨_, run, by simp, rfl, by simp, by simp, rfl, rfl, kept⟩

/-- Settles O38. An insert is a grant written to the candidate slot and a fresh append attempt, of which
`State.appendFresh_spec` says what it does to the slot just written. -/
theorem grantAddInserts : Obligations.GrantAddInserts := by
  unfold Obligations.GrantAddInserts
  intro s v h f u n op adm _ look
  have corruption := op.corruption
  have run : exec (.requestStoreOperation u) s = .next ((v.insert n f).finish h .ok (leBytes 3 n)).releasePort := by
    rw [op.runs_addAfterLookup adm look, State.addAfterLookup]
  rw [State.insert_eq n (corruption.admits adm), corruption.grantOf] at run
  have written := v.writeGrant_appendFresh n (s.GrantOf f)
    (if (v.slot n).state = .empty then v.store.drawn + 1 else v.store.drawn) Counts.insert corruption.ok
  generalize State.appendFresh _ n = t at run written
  have kept := ((corruption.sameForRequest.trans written.same).trans
    (State.finish_sameForRequest t h .ok (leBytes 3 n))).kept
  rw [State.releasePort_finish_eq] at run kept
  obtain ⟨_, hv⟩ := corruption.only
  have events : v.events = s.events := by rw [hv]
  have drawn : v.store.drawn = s.store.drawn := by rw [hv]
  have damaged : v.store.damaged = s.store.damaged := by rw [hv]
  have carousel : v.carousel = s.carousel := by rw [hv]
  have notice : v.notice = s.notice := by rw [hv]
  have counters : v.counters = s.counters := by rw [hv]
  have link : v.link = s.link := by rw [hv]
  refine ⟨_, run, ?slot, written.cells, ?events, ?drawn, ?damaged, ?carousel, ?roomy, ?full, ?link, kept⟩
  case slot => exact carousel ▸ written.slot
  case events => exact events ▸ corruption.event f.event ▸ written.events
  case drawn => exact drawn ▸ written.drawn
  case damaged => exact written.damaged.trans damaged
  case carousel => exact carousel ▸ written.carousel
  case roomy => exact notice ▸ counters ▸ carousel ▸ written.roomy
  case full => exact notice ▸ counters ▸ carousel ▸ written.full
  case link =>
    show ({ t.link with holder := _ } : Link) = _
    rw [written.link, link]

end

