-- ==== Sys2Proof/Proofs/SweepPort.lean ====
section
/-! SUPPORT. The sweep engine's claim of the store port (R43). -/

namespace Sys2Proof.Machine

variable {s : State}

/-- A claim waits, or finds an IDLE port, which is granted among the claims (R43). -/
theorem State.claimSweep_eq (s : State) :
    s.claimSweep = { s with
      port :=
        if s.port.state = .idle then State.portReleased { s with port := { s.port with sweep := true } }
        else { s.port with sweep := true } } := by
  rw [State.claimSweep, State.arbitrate_eq]
  rfl

/-- With no other claim waiting an IDLE port is granted to the sweep engine at once (R43). -/
theorem State.claimSweep_of_free (idle : s.port.state = .idle) (updates : s.port.completions = [])
    (read : s.port.composition = false) (request : s.port.request = false) :
    s.claimSweep = { s with port := { s.port with state := s.sweepGrant, sweep := false } } := by
  obtain ⟨p, run, -, -, -, -, granted, -⟩ := (s.setPort { s.port with sweep := true }).arbitrate_spec
  rw [State.claimSweep, run, granted idle updates read request rfl]
  rfl

/-- The sweep engine's next claim, made as its operation ends, stands behind the claims that wait: the port is released
as if it had waited with them (R43, R60, R73). -/
theorem State.claimSweep_releasePort (s : State) :
    ∃ p, s.releasePort.claimSweep = { s with port := p }
      ∧ (s.port.sweep = false →
        p = State.portReleased { s with port := { s.port with sweep := true } }) := by
  rw [State.claimSweep_eq, State.releasePort_eq]
  refine ⟨_, rfl, fun noClaim => ?_⟩
  by_cases updates : s.port.completions = []
  case neg => simp [State.portReleased, updates]
  case pos =>
    cases read : s.port.composition
    case true => simp [State.portReleased, updates, read]
    case false =>
      cases request : s.port.request
      case true => simp [State.portReleased, updates, read, request]
      case false => simp [State.portReleased, updates, read, request, noClaim, State.event]

end Sys2Proof.Machine
end

