-- ==== Sys2Proof/Proofs/WipeStore.lean ====
section
/-! The WIPE (R72 to R74). -/

namespace Sys2Proof.Machine

variable {s : State} {c : Nat}

/-- A WIPE that starts on a free port has its first write granted (R72). -/
theorem State.startWipe_of_free (idle : s.port.state = .idle) (updates : s.port.completions = [])
    (read : s.port.composition = false) (request : s.port.request = false) :
    s.startWipe = { s with
      events := clearMarks s.events
      carousel := { s.carousel with fresh := [], urgent := [], cursor := 0, pass := 0 }
      store := { s.store with
        sizeA := s.settings.record.bankA, sizeB := s.settings.record.bankB, drawn := 0, damaged := 0 }
      sweep := { engine := .wiping 0, lastServed := 31, wipePending := false }
      port := { s.port with state := .wipeWrite, sweep := false } } := by
  rw [State.startWipe]
  exact State.claimSweep_of_free idle updates read request

theorem clearMarks_none (rs : List EventRecord) : ∀ r ∈ clearMarks rs, r.marks = Marks.none := by
  intro r hr
  obtain ⟨_, _, rfl⟩ := List.mem_map.1 hr
  rfl

/-- While the WIPE holds the port, WIPE_WRITE is the write of the slot at its cursor (R73). -/
theorem exec_wipeWrite (port : s.port.state = .wipeWrite) (engine : s.sweep.engine = .wiping c)
    (inside : c < s.slotCount) : exec .wipeWrite s = .next (s.wipeSlot c) := by
  show execWipeWrite s = _
  simp only [execWipeWrite, port, engine, State.withinStore, if_pos inside]

/-- A slot write before the last moves the WIPE on, and its next write claims the port (R73). -/
theorem State.wipeSlot_goesOn (more : c + 1 < s.slotCount) :
    ∃ p, s.wipeSlot c =
        { s.putSlot c blankSlot with sweep := { s.sweep with engine := .wiping (c + 1) }, port := p }
      ∧ (s.port.sweep = false →
        p = State.portReleased { s.putSlot c blankSlot with
          sweep := { s.sweep with engine := .wiping (c + 1) }, port := { s.port with sweep := true } }) := by
  rw [State.wipeSlot, if_neg (by omega)]
  exact State.claimSweep_releasePort _

/-- The last slot write ends the WIPE (R74). -/
theorem State.wipeSlot_ends (last : c + 1 = s.slotCount) :
    s.wipeSlot c = { (s.putSlot c blankSlot).wipeDone with port := (s.putSlot c blankSlot).wipeDone.portReleased } := by
  rw [State.wipeSlot, if_pos last, State.releasePort_eq]

end Sys2Proof.Machine

open Sys2Proof Sys2Proof.Machine

/-- Settles O53. Every write puts a blank slot at the cursor; what follows is `State.wipeSlot_goesOn` for all but the
last and `State.wipeSlot_ends` for the last. -/
theorem wipeEmptiesStore : Obligations.WipeEmptiesStore := by
  unfold Obligations.WipeEmptiesStore
  constructor
  case left =>
    intro s pending idle updates read request
    have run : exec .wipeStart s = .next s.startWipe := if_pos ⟨pending, idle⟩
    rw [State.startWipe_of_free idle updates read request] at run
    refine ⟨_, run, ?wiping, rfl, rfl, rfl, rfl, rfl, rfl, rfl, rfl, rfl, rfl, rfl⟩
    exact {
      engine := rfl
      port := ⟨rfl, rfl⟩
      sizes := ⟨rfl, rfl⟩
      drawn := ⟨rfl, rfl⟩
      queues := ⟨rfl, rfl⟩
      cursor := ⟨rfl, rfl⟩
      marks := clearMarks_none s.events }
  case right =>
    intro s c port engine inside ok
    have blank := s.cell_putSlot_same c blankSlot ok
    have others (m : Nat) := s.cell_putSlot_other c m blankSlot
    rw [exec_wipeWrite port engine inside]
    obtain more | last : c + 1 < s.slotCount ∨ c + 1 = s.slotCount := by omega
    case inl =>
      obtain ⟨p, write, claim⟩ := State.wipeSlot_goesOn more
      rw [write]
      exact ⟨_, rfl, blank, others, rfl, rfl, rfl, rfl, rfl, rfl, rfl, rfl, rfl, rfl, rfl,
        fun _ => ⟨rfl, rfl, rfl, claim⟩, fun last => absurd last (by omega)⟩
    case inr =>
      rw [State.wipeSlot_ends last]
      exact ⟨_, rfl, blank, others, rfl, rfl, rfl, rfl, rfl, rfl, rfl, rfl, rfl, rfl, rfl,
        fun more => absurd more (by omega), fun _ => ⟨rfl, rfl, rfl, rfl⟩⟩

end

