-- ==== Sys2Proof/Proofs/SweepVisit.lean ====
section
/-! A sweep's visits (R60 to R65): what a visit does to its slot, what it leaves, and how it ends. -/

namespace Sys2Proof.Machine

variable {s v a : State} {w : Sweep} {k : SweepKind} {ranges : List Range} {o : Bool} {u : List Nat} {n : Nat}
  {g : Grant} {why : RevokeReason}

/-! ## The act of a visit on its slot (R62 to R65) -/

/-- A slot revoked unsent is VACANT and its event reports a revoke (R53, R62). -/
theorem State.revokeUnsent_spec (ok : v.storeOk) (n : Nat) {e : Nat} (live : 1 ≤ (v.event e).counts.live)
    (he : e < v.events.length) (ne : (v.event e).state ≠ .empty) :
    (v.revokeUnsent n e).slot n = (v.slot n).vacate
      ∧ ((v.revokeUnsent n e).event e).counts =
          { (v.event e).counts with
            live := (v.event e).counts.live - 1, revoked := (v.event e).counts.revoked + 1 }
      ∧ ((v.event e).state ≠ .cancelled ∨ ¬ v.CancelSwept e →
          (v.revokeUnsent n e).event e = { v.event e with counts := ((v.revokeUnsent n e).event e).counts })
      ∧ (v.revokeUnsent n e).carousel = v.carousel ∧ (v.revokeUnsent n e).notice = v.notice
      ∧ (v.revokeUnsent n e).counters = v.counters := by
  have slot := v.slot_putSlot_same n (v.slot n).vacate ok
  obtain ⟨r, run, counts, -, kept⟩ := (v.putSlot n (v.slot n).vacate).reportRevoked_spec e he ne live
  have self : ((v.putSlot n (v.slot n).vacate).setEvent e r).event e = r := State.event_setEvent_self he r
  rw [State.revokeUnsent, run, self]
  exact ⟨slot, counts, fun h => kept (h.imp_right .inl), rfl, rfl, rfl⟩

/-- A slot revoked after its emission is REVOKING, with an urgent append attempt (R54, R63, R65). -/
theorem State.revokeSent_spec (ok : v.storeOk) (n : Nat) (why : RevokeReason) :
    (v.revokeSent n why).slot n =
        { v.slot n with
          state := .revoking, emissions := 0, reason := some why
          mark := if (v.slot n).mark = .none ∧ v.carousel.urgent.length < 256 then .urgent else (v.slot n).mark }
      ∧ (v.revokeSent n why).carousel =
        { v.carousel with
          urgent := if (v.slot n).mark = .none ∧ v.carousel.urgent.length < 256 then
              v.carousel.urgent ++ [n] else v.carousel.urgent }
      ∧ (v.revokeSent n why).events = v.events
      ∧ (¬ ((v.slot n).mark = .none ∧ 256 ≤ v.carousel.urgent.length) →
          (v.revokeSent n why).notice = v.notice ∧ (v.revokeSent n why).counters = v.counters)
      ∧ ((v.slot n).mark = .none ∧ 256 ≤ v.carousel.urgent.length →
          (v.revokeSent n why).notice = { v.notice with causes := v.notice.causes ||| 0x008#10 }
          ∧ (v.revokeSent n why).counters = { v.counters with urgentOverflow := bump v.counters.urgentOverflow }) := by
  have written := v.slot_putSlot_same n ((v.slot n).revoke why) ok
  obtain ⟨slot, -, _, _, _, run, roomy, full⟩ :=
    (v.putSlot n ((v.slot n).revoke why)).appendUrgent_spec n (v.putSlot_ok n _ ok)
  rw [written] at slot run roomy full
  refine ⟨slot, ?_⟩
  rw [State.revokeSent, run]
  exact ⟨rfl, rfl, roomy, full⟩

/-- A CANCEL or BLACKOUT visit revokes the slot it reaches (R62, R63, R65). -/
theorem State.revokeVisited_revokes (ok : v.storeOk) (n : Nat) (g : Grant) (why : RevokeReason) :
    v.VisitRevokes v (v.revokeVisited n g why) n g why := by
  have flight := State.inFlight_iff v g.decoder g.event
  constructor
  case left =>
    intro pending unsent live he ne
    rw [State.revokeVisited, if_pos ⟨pending, flight.2 unsent⟩]
    exact State.revokeUnsent_spec ok n live he ne
  case right =>
    intro sent
    have isSent : ¬ ((v.slot n).state = .pending ∧ v.inFlight g.decoder g.event = false) := by
      rintro ⟨pending, unsent⟩
      rcases sent with announced | held | ⟨-, inFlight⟩
      · exact nomatch pending.symm.trans announced
      · exact nomatch pending.symm.trans held
      · exact inFlight (flight.1 unsent)
    rw [State.revokeVisited, if_neg isSent]
    exact State.revokeSent_spec ok n why

/-- Corruption touches nothing that the act of a visit looks at besides the slots. -/
theorem Corrupted.visitRevokes (c : Corrupted s v) (h : v.VisitRevokes v a n g why) :
    s.VisitRevokes v a n g why := by
  obtain ⟨_, rfl⟩ := c.only
  exact h

/-- A RETIRE visit vacates its slot and its event counts it retired (R64). -/
theorem State.retireVisited_spec (ok : v.storeOk) (n : Nat) {e : Nat} (live : 1 ≤ (v.event e).counts.live)
    (he : e < v.events.length) (ne : (v.event e).state ≠ .empty) :
    (v.retireVisited n e).slot n = (v.slot n).vacate
      ∧ (v.retireVisited n e).carousel = v.carousel ∧ (v.retireVisited n e).notice = v.notice
      ∧ (v.retireVisited n e).counters = v.counters
      ∧ (v.retireVisited n e).event e =
        { v.event e with
          counts := { (v.event e).counts with
            live := (v.event e).counts.live - 1, retired := (v.event e).counts.retired + 1 } } := by
  have slot := v.slot_putSlot_same n (v.slot n).vacate ok
  have retire : Counts.retire (v.event e).counts =
      { (v.event e).counts with
        live := (v.event e).counts.live - 1, retired := (v.event e).counts.retired + 1 } :=
    if_neg (by omega)
  rw [State.retireVisited, State.report_of_ne_empty (s := v.putSlot n (v.slot n).vacate) ne, ← retire]
  exact ⟨slot, rfl, rfl, rfl, State.event_setEvent_self (s := v.putSlot n (v.slot n).vacate) he _⟩

/-! ## What a visit leaves besides -/

theorem State.report_length (s : State) (n : Nat) (f : Counts → Counts) :
    (s.report n f).events.length = s.events.length := by
  obtain ⟨_, only, length, -⟩ := s.report_only n f
  rw [only]
  exact length

theorem State.reportRevoked_length (s : State) (n : Nat) : (s.reportRevoked n).events.length = s.events.length := by
  rw [State.reportRevoked, State.retireIfDone]
  split
  case isTrue => simpa [State.changeState] using s.report_length n Counts.revoke
  case isFalse => exact s.report_length n Counts.revoke

/-- The act of a visit leaves the size of the event table. -/
theorem State.visitAct_length (v : State) (n : Nat) (g : Grant) (k : SweepKind) :
    (v.visitAct n g k).events.length = v.events.length := by
  have revoked (why : RevokeReason) : (v.revokeVisited n g why).events.length = v.events.length := by
    rw [State.revokeVisited]
    split
    case isTrue => exact (v.putSlot n (v.slot n).vacate).reportRevoked_length g.event
    case isFalse => simp
  cases k with
  | cancel => exact revoked .cancelled
  | retire => exact (v.putSlot n (v.slot n).vacate).report_length g.event Counts.retire
  | blackout => exact revoked .blackout

/-- `a` is the unit after the visit's act, from the unit `v` with its corrupted slots: the act of the kind on the slot
when the visit reached it, and none otherwise (R61). -/
structure State.VisitActed (s v a : State) (w : Sweep) (k : SweepKind) (ranges : List Range) (acted : Bool) : Prop where
  reached : ∀ g, (v.slot w.cursor).Reached w.event g k ranges → a = v.visitAct w.cursor g k ∧ acted = true
  unreached : (∀ g, ¬ (v.slot w.cursor).Reached w.event g k ranges) → a = v ∧ acted = false
  only : ∃ m ev ur nt ct, a =
    { s with
      store := { s.store with memory := m }, events := ev, carousel := { s.carousel with urgent := ur }
      notice := nt, counters := ct }
  cells : ∀ m, m ≠ w.cursor → a.cell m = v.cell m
  events : ∀ m, m ≠ w.event → a.event m = s.event m
  table : a.events.length = s.events.length

/-- The sweep's event is that of the grant reached. -/
theorem Slot.Reached.event_eq {x : Slot} (h : x.Reached n g k ranges) : g.event = n := by
  obtain ⟨⟨-, g', held', -, event⟩, held, -⟩ := h
  rw [held] at held'
  cases held'
  exact event

theorem State.Visits.corruption (vis : s.Visits v w k ranges o u) : Corrupted s v :=
  .of_upset s v u vis.corrupted vis.canonical

/-- SWEEP_VISIT is the visit's act on its slot and the end of the visit (R60, R61). -/
theorem State.Visits.acts (vis : s.Visits v w k ranges o u) :
    ∃ a acted, s.VisitActed v a w k ranges acted
      ∧ exec (.sweepVisit u) s = .next (a.endVisit (w.moved (s.successor w.cursor) acted o) o) := by
  have c := vis.corruption
  have run : exec (.sweepVisit u) s = .next (v.visit w k ranges o) := by
    show execSweepVisit u s = _
    simp only [execSweepVisit, vis.port, vis.engine, State.withinStore, if_pos vis.inside, vis.corrupted]
  have successor : v.successor w.cursor = s.successor w.cursor := by
    obtain ⟨_, hv⟩ := c.only
    rw [hv]
    rfl
  rw [run, State.visit, State.check_good v w.cursor vis.good, successor]
  have use g := State.visitUse_iff v w.cursor w.event k ranges g
  cases found : v.visitUse w.cursor w.event k ranges with
  | none =>
    have noneReached (g : Grant) : ¬ (v.slot w.cursor).Reached w.event g k ranges := fun hg =>
      nomatch found.symm.trans ((use g).2 hg)
    obtain ⟨m, hv⟩ := c.only
    exact ⟨v, false, {
      reached := fun g hg => absurd hg (noneReached g)
      unreached := fun _ => ⟨rfl, rfl⟩
      only := ⟨m, s.events, s.carousel.urgent, s.notice, s.counters, hv⟩
      cells := fun _ _ => rfl
      events := fun m _ => c.event m
      table := by rw [hv] }, rfl⟩
  | some g =>
    have hg := (use g).1 found
    obtain ⟨m, ev, ur, nt, ct, only, cells, events⟩ := State.visitAct_only v w.cursor g k c.ok
    refine ⟨v.visitAct w.cursor g k, true, {
      reached := fun g' hg' => ?_
      unreached := fun noneReached => absurd hg (noneReached g)
      only := ⟨m, ev, ur, nt, ct, ?_⟩
      cells := cells
      events := fun m hm => (events m (hg.event_eq ▸ hm)).trans (c.event m)
      table := (v.visitAct_length w.cursor g k).trans ?_ }, rfl⟩
    · have same := found.symm.trans ((use g').2 hg')
      cases same
      exact ⟨rfl, rfl⟩
    · obtain ⟨_, hv⟩ := c.only
      rw [only, hv]
    · obtain ⟨_, hv⟩ := c.only
      rw [hv]

/-- The act leaves the engine to the end of the visit. -/
theorem State.VisitActed.sweep {acted : Bool} (act : s.VisitActed v a w k ranges acted) : a.sweep = s.sweep := by
  obtain ⟨_, _, _, _, _, only⟩ := act.only
  rw [only]

/-- A visit that does not reach its slot leaves it, its event, the carousel, the notice unit and the counters (R61). -/
theorem State.VisitActed.leaves {acted : Bool} (act : s.VisitActed v a w k ranges acted) (c : Corrupted s v)
    (noneReached : ∀ g, ¬ (v.slot w.cursor).Reached w.event g k ranges) :
    a.store = v.store ∧ a.events = s.events ∧ a.carousel = s.carousel ∧ a.notice = s.notice
      ∧ a.counters = s.counters := by
  obtain ⟨_, hv⟩ := c.only
  rw [(act.unreached noneReached).1, hv]
  exact ⟨rfl, rfl, rfl, rfl, rfl⟩

section

variable {acted : Bool} (act : s.VisitActed v a w k ranges acted) (c : Corrupted s v)
  (hg : (v.slot w.cursor).Reached w.event g k ranges)

include act c hg

/-- A CANCEL visit revokes the slot it reaches (R63). -/
theorem State.VisitActed.cancels (kind : k = .cancel) : s.VisitRevokes v a w.cursor g .cancelled := by
  rw [(act.reached g hg).1, kind]
  exact c.visitRevokes (State.revokeVisited_revokes c.ok w.cursor g .cancelled)

/-- A BLACKOUT visit revokes the slot it reaches (R65). -/
theorem State.VisitActed.blacksOut (kind : k = .blackout) : s.VisitRevokes v a w.cursor g .blackout := by
  rw [(act.reached g hg).1, kind]
  exact c.visitRevokes (State.revokeVisited_revokes c.ok w.cursor g .blackout)

/-- A RETIRE visit vacates the slot it reaches and counts it retired (R64). -/
theorem State.VisitActed.retires (kind : k = .retire) (live : 1 ≤ (s.event w.event).counts.live)
    (he : w.event < s.events.length) (ne : (s.event w.event).state ≠ .empty) :
    a.slot w.cursor = { v.slot w.cursor with state := .vacant, emissions := 0, reason := none }
      ∧ a.carousel = s.carousel ∧ a.notice = s.notice ∧ a.counters = s.counters
      ∧ a.event w.event =
        { s.event w.event with
          counts := { (s.event w.event).counts with
            live := (s.event w.event).counts.live - 1
            retired := (s.event w.event).counts.retired + 1 } } := by
  rw [(act.reached g hg).1, kind, State.visitAct, hg.event_eq]
  have retired := State.retireVisited_spec (e := w.event) c.ok w.cursor
  obtain ⟨_, rfl⟩ := c.only
  exact retired live he ne

end

/-! ## The end of a visit within a lap (R60) -/

/-- A visit that does not complete the lap ends with the next visit's claim of the port (R60). -/
theorem State.endVisit_goesOn (goes : s.sweep.wipePending = false) (lap : o = true ∨ w.cursor ≠ w.start) :
    ∃ p, s.endVisit w o = { s with sweep := { s.sweep with engine := .sweeping w }, port := p }
      ∧ (s.port.sweep = false →
        p = State.portReleased
          { s with sweep := { s.sweep with engine := .sweeping w }, port := { s.port with sweep := true } }) := by
  have notComplete : ¬ (w.cursor = w.start ∧ o = false) := by
    rintro ⟨back, current⟩
    rcases lap with overtaken | ahead
    · exact nomatch current.symm.trans overtaken
    · exact ahead back
  have run : s.endVisit w o = (s.setEngine (.sweeping w)).releasePort.claimSweep := by
    simp only [State.endVisit, goes, if_neg notComplete, Bool.false_eq_true, if_false]
  rw [run]
  exact State.claimSweep_releasePort (s.setEngine (.sweeping w))

/-- The sweep after a visit stands at its start point only when a current visit's successor does (R60; log 13). -/
theorem Sweep.moved_cursor_ne {next : Nat} {acted : Bool} (lap : o = true ∨ next ≠ w.start) :
    o = true ∨ (w.moved next acted o).cursor ≠ (w.moved next acted o).start := by
  cases o with
  | true => exact .inl rfl
  | false => exact lap

end Sys2Proof.Machine

open Sys2Proof Sys2Proof.Machine

/-- Settles O51. The visit is an act on its slot, of which `State.VisitActed` says what it does and leaves, and the end
of a visit that goes on. -/
theorem sweepVisitActsByKind : Obligations.SweepVisitActsByKind := by
  unfold Obligations.SweepVisitActsByKind
  intro s v w k ranges o u vis goes lap
  have c := vis.corruption
  obtain ⟨a, acted, act, run⟩ := vis.acts
  have cancels {g} hg := act.cancels c (g := g) hg
  have blacksOut {g} hg := act.blacksOut c (g := g) hg
  have retires {g} hg := act.retires c (g := g) hg
  have going : a.sweep.wipePending = false := act.sweep ▸ goes
  obtain ⟨p, ended, claim⟩ := State.endVisit_goesOn going (Sweep.moved_cursor_ne (acted := acted) lap)
  have leaves := act.leaves c
  obtain ⟨reached, unreached, ⟨_, _, _, _, _, rfl⟩, cells, events, -⟩ := act
  rw [ended] at run
  refine ⟨_, run, ⟨rfl, rfl, rfl, rfl, rfl, rfl, rfl, rfl, rfl, rfl, rfl, rfl⟩, cells, events, rfl, rfl, claim,
    fun g hg => ?acted, fun noneReached => ?left⟩
  case acted =>
    obtain ⟨-, rfl⟩ := reached g hg
    exact ⟨rfl, cancels hg, blacksOut hg, retires hg⟩
  case left =>
    obtain ⟨-, rfl⟩ := unreached noneReached
    exact ⟨rfl, leaves noneReached⟩

end

