-- ==== Sys2Proof/Proofs/SweepChoice.lean ====
section
/-! The engine's choice of a sweep and the completion of one (R58, R59, R70). -/

namespace Sys2Proof.Machine

variable {s a : State} {w : Sweep} {n : Nat} {r : EventRecord} {k : SweepKind}

/-! ## An event's one mark (R59) -/

/-- The marks of an event that carries the mark of one kind alone. -/
def Marks.only (k : SweepKind) : Marks :=
  { cancel := k == .cancel, retire := k == .retire, blackout := k == .blackout }

theorem EventRecord.marks_eq_only_iff : r.marks = Marks.only k ↔ ∀ q, r.marked q ↔ q = k := by
  constructor
  case mp =>
    intro only q
    cases q <;> cases k <;> simp [EventRecord.marked, only, Marks.only]
  case mpr =>
    intro only
    have cancel : r.marks.cancel = true ↔ SweepKind.cancel = k := only .cancel
    have retire : r.marks.retire = true ↔ SweepKind.retire = k := only .retire
    have blackout : r.marks.blackout = true ↔ SweepKind.blackout = k := only .blackout
    cases hm : r.marks
    cases k <;> simp_all [Marks.only]

@[simp] theorem Marks.first_only (k : SweepKind) : (Marks.only k).first = some k := by cases k <;> rfl

@[simp] theorem Marks.clear_only (k : SweepKind) : (Marks.only k).clear k = Marks.none := by cases k <;> rfl

theorem EventRecord.first_eq_none (unmarked : ∀ q, ¬ r.marked q) : r.marks.first = none := by
  have cancel : ¬ r.marks.cancel = true := unmarked .cancel
  have retire : ¬ r.marks.retire = true := unmarked .retire
  have blackout : ¬ r.marks.blackout = true := unmarked .blackout
  rw [Marks.first, if_neg cancel, if_neg retire, if_neg blackout]

/-- A number of no record reads as an EMPTY one. -/
theorem State.event_mem_or_empty (s : State) (n : Nat) : s.event n ∈ s.events ∨ s.event n = EventRecord.empty := by
  rw [State.event, List.getD_eq_getElem?_getD]
  cases h : s.events[n]? with
  | none => exact .inr rfl
  | some r => exact .inl (List.mem_of_getElem? h)

/-! ## The choice (R58, R59) -/

/-- The sweep of kind `k` has begun for the event `n` and claims the port, which is not granted yet (R58, R59). -/
def State.sweepBegun (s : State) (n : Nat) (k : SweepKind) : State :=
  { s with
    events := s.events.set n { s.event n with marks := (s.event n).marks.clear k }
    sweep := { s.sweep with
      engine := .sweeping
        { kind := k, event := n, start := s.carousel.cursor, cursor := s.carousel.cursor, visited := 0, changed := 0 }
      lastServed := n }
    port := { s.port with sweep := true } }

/-- A sweep that starts is granted the port if that is IDLE and no other claim comes first (R43, R58). -/
theorem State.startSweep_eq (s : State) (n : Nat) (k : SweepKind) :
    s.startSweep n k = { s.sweepBegun n k with
      port := if s.port.state = .idle then (s.sweepBegun n k).portReleased else (s.sweepBegun n k).port } := by
  rw [State.startSweep, State.claimSweep_eq]
  rfl

/-- The next event is the first marked one of the round robin (R59). -/
theorem State.nextMarked_of_first {i : Nat} (hi : i < 32)
    (before : ∀ j, j < i → ∀ q, ¬ (s.event ((s.sweep.lastServed + 1 + j) % 32)).marked q)
    (marked : (s.event ((s.sweep.lastServed + 1 + i) % 32)).marks = Marks.only k) :
    s.nextMarked = some ((s.sweep.lastServed + 1 + i) % 32) := by
  rw [State.nextMarked, roundRobin, List.find?_map, List.find?_range_eq_some.2 ⟨?marked, List.mem_range.2 hi, ?before⟩]
  case marked => simp [marked]
  case before =>
    intro j hj
    simp [EventRecord.first_eq_none (before j hj)]
  rfl

theorem State.chooseSweep_of_next (next : s.nextMarked = some n) (marked : (s.event n).marks = Marks.only k) :
    s.chooseSweep = s.startSweep n k := by
  simp only [State.chooseSweep, next, marked, Marks.first_only]

theorem State.chooseSweep_of_unmarked (unmarked : ∀ r ∈ s.events, r.marks = Marks.none) : s.chooseSweep = s := by
  have next : s.nextMarked = none := by
    refine List.find?_eq_none.2 fun n _ => ?_
    have marks : (s.event n).marks = Marks.none := by
      rcases s.event_mem_or_empty n with mem | empty
      · exact unmarked _ mem
      · rw [empty]
        rfl
    rw [marks]
    decide
  rw [State.chooseSweep, next]

/-- What the engine's choice does (R58, R59). -/
theorem State.chooseSweep_chose (s : State) : s.Chose s.chooseSweep := by
  refine ⟨State.chooseSweep_of_unmarked, ?_⟩
  rintro i n k u hi rfl before only rfl
  have marked := EventRecord.marks_eq_only_iff.2 only
  have next := State.nextMarked_of_first hi before marked
  rw [State.chooseSweep_of_next next marked, State.startSweep_eq, State.sweepBegun, marked, Marks.clear_only]
  rfl

/-! ## The completion (R70) -/

theorem EventRecord.raise_counts (r : EventRecord) (c : EventCause) : (r.raise c).counts = r.counts := rfl

/-- SWEEP-DONE is raised and the event changes state: both causes stand (R9, R70). -/
theorem EventRecord.changeState_raise (r : EventRecord) (stateRepeat : Nat) (target : EventState) :
    (r.raise .sweepDone).changeState stateRepeat target =
      { r with state := target, causes := r.causes ||| 9#4, repeatsOwed := stateRepeat } := by
  have causes : r.causes ||| 8#4 ||| 1#4 = r.causes ||| 9#4 := BitVec.or_assoc _ _ _
  rw [EventRecord.changeState_eq, ← causes]
  rfl

/-- A sweep that completes leaves its event the record of R70, and the engine, IDLE, chooses anew. -/
theorem State.completeSweep_eq (hn : w.event < s.events.length) :
    s.completeSweep w.event w.kind =
      State.chooseSweep { s with
        events := s.events.set w.event (s.sweepEnded w), sweep := { s.sweep with engine := .idle } } := by
  have effect : (s.setEvent w.event ((s.event w.event).raise .sweepDone)).sweepEffect w.event w.kind =
      s.setEvent w.event (s.sweepEnded w) := by
    have self := State.event_setEvent_self hn ((s.event w.event).raise .sweepDone)
    cases kind : w.kind with
    | blackout =>
      simp only [State.sweepEffect, State.sweepEnded, kind]
      rfl
    | retire =>
      have self' := State.event_setEvent_self hn
      simp only [State.sweepEffect, State.sweepEnded, kind, State.changeState, State.setEvent_setEvent, self, self']
      exact congrArg (s.setEvent w.event)
        (EventRecord.changeState_raise { s.event w.event with counts := (s.event w.event).counts.lose } _ _)
    | cancel =>
      simp only [State.sweepEffect, State.sweepEnded, kind, State.changeState, State.setEvent_setEvent, self,
        EventRecord.changeState_raise, EventRecord.raise_counts]
      by_cases live : (s.event w.event).counts.live = 0
      · rw [if_pos live, if_pos live]
        rfl
      · rw [if_neg live, if_neg live]
        rfl
  rw [State.completeSweep, effect]
  rfl

/-- A visit that brings the cursor back to the start point completes the sweep, and the port is released after the
engine's choice (R60, R70). -/
theorem State.endVisit_completes (goes : a.sweep.wipePending = false) (back : w.cursor = w.start)
    (hn : w.event < a.events.length) :
    a.endVisit w false =
      (State.chooseSweep { a with
        events := a.events.set w.event (a.sweepEnded w), sweep := { a.sweep with engine := .idle } }).releasePort := by
  have run : a.endVisit w false = ((a.setEngine (.sweeping w)).completeSweep w.event w.kind).releasePort := by
    simp only [State.endVisit, goes, back, and_self, Bool.false_eq_true, if_true, if_false]
  rw [run, State.completeSweep_eq (s := a.setEngine (.sweeping w)) hn]
  rfl

end Sys2Proof.Machine
end

