-- ==== Sys2Proof/Proofs/SweepMarks.lean ====
section
/-! The engine's answer to a mark (R58, R67, R68, R69), and the steps that set one (R10, R22, R23, R25). -/

namespace Sys2Proof.Machine

variable {s b t : State} {w : Sweep} {n : Nat} {r : EventRecord} {k : SweepKind} {h : HeldRequest}

/-! ## The answer by what the engine does -/

theorem EventRecord.marked_congr {p : EventRecord} (marks : r.marks = p.marks) (q : SweepKind) :
    r.marked q ↔ p.marked q := by
  cases q <;> simp [EventRecord.marked, marks]

/-- The round robin comes to every event (R59). -/
theorem roundRobin_reaches (hn : n < 32) (last : Nat) :
    ∃ i, i < 32 ∧ n = (last + 1 + i) % 32 ∧ ∀ j, j < i → (last + 1 + j) % 32 ≠ n :=
  ⟨(n + 32 - (last + 1) % 32) % 32, by omega, by omega, fun j hj => by omega⟩

/-- An IDLE engine takes the one event marked (R58). -/
theorem State.markSet_of_idle (hn : n < 32) (idle : s.sweep.engine = .idle) (marked : (s.event n).marks = Marks.only k)
    (others : ∀ m, m ≠ n → ∀ q, ¬ (s.event m).marked q) : s.markSet n = s.startSweep n k := by
  obtain ⟨i, hi, rfl, before⟩ := roundRobin_reaches hn s.sweep.lastServed
  have next := State.nextMarked_of_first hi (fun j hj => others _ (before j hj)) marked
  simp only [State.markSet, idle, State.chooseSweep_of_next next marked]

/-- While another sweep runs, or one of the event that is no BLACKOUT sweep, the mark waits (R69). -/
theorem State.markSet_of_other (engine : s.sweep.engine = .sweeping w) (other : w.event ≠ n ∨ w.kind ≠ .blackout) :
    s.markSet n = s := by
  have waits : ¬ (w.event = n ∧ w.kind = .blackout) := fun ⟨event, kind⟩ => other.elim (· event) (· kind)
  simp only [State.markSet, engine, if_neg waits]

theorem State.sweepBegun_event (hn : n < s.events.length) :
    (s.sweepBegun n k).event n = { s.event n with marks := (s.event n).marks.clear k } :=
  State.event_setEvent_self hn _

/-- A port that only the running sweep claims is released to its visit (R43, R61, R65). -/
theorem State.portReleased_of_sweeping {p : PortState}
    (port : s.port = { state := p, composition := false, completions := [], request := false, sweep := true })
    (engine : s.sweep.engine = .sweeping w) :
    s.portReleased = { s.port with state := .visit w.kind (s.event w.event).blackout false, sweep := false } := by
  simp [State.portReleased, port, engine]

/-- The port after a sweep starts: granted to its first visit if nothing else uses or claims it, and claimed if it is
granted (R43, R58). -/
theorem State.startSweep_port (s : State) (n : Nat) (k : SweepKind) :
    (s.port = { state := .idle, composition := false, completions := [], request := false, sweep := false } →
      (s.startSweep n k).port = { s.port with state := .visit k ((s.startSweep n k).event n).blackout false })
    ∧ (s.port.state ≠ .idle →
      (s.startSweep n k).port.state = s.port.state ∧ (s.startSweep n k).port.sweep = true) := by
  rw [State.startSweep_eq]
  refine ⟨fun free => ?free, fun busy => ?busy⟩
  case free =>
    have idle : s.port.state = .idle := by rw [free]
    have claimed : (s.sweepBegun n k).port =
        { state := .idle, composition := false, completions := [], request := false, sweep := true } := by
      rw [State.sweepBegun, free]
    rw [if_pos idle, State.portReleased_of_sweeping claimed rfl, claimed, free]
    rfl
  case busy =>
    rw [if_neg busy]
    exact ⟨rfl, rfl⟩

/-- A record that carries the mark of one kind alone is offered to the engine (R58, R67, R68, R69). -/
theorem State.SweepAsked.of_markSet (hn : n < 32) (table : s.events.length = 32) (marked : r.marks = Marks.only k) :
    s.SweepAsked ((s.setEvent n r).markSet n) n k := by
  have hn' : n < s.events.length := by omega
  have self := State.event_setEvent_self hn'
  have markedHere : ((s.setEvent n r).event n).marks = Marks.only k := by rw [self, marked]
  refine ⟨fun idle others => ?idle, fun w engine event kind => ?running, fun w engine other => ?waiting⟩
  case idle =>
    have unmarked (m : Nat) (hm : m ≠ n) (q : SweepKind) : ¬ ((s.setEvent n r).event m).marked q :=
      State.event_setEvent_other (s := s) hm r ▸ others m hm q
    rw [State.markSet_of_idle (s := s.setEvent n r) hn idle markedHere unmarked]
    refine ⟨?marks, by rw [State.startSweep_eq]; rfl, (s.setEvent n r).startSweep_port n k⟩
    case marks =>
      have begun := State.sweepBegun_event (s := s.setEvent n r) (n := n) (k := k) (by simpa using hn')
      rw [markedHere, Marks.clear_only] at begun
      rw [State.startSweep_eq]
      exact congrArg EventRecord.marks begun
  case running =>
    rw [State.markSet_of_running hn' engine kind event (k := k) (by rw [marked, Marks.first_only])]
    refine ⟨?marks, rfl, rfl, fun q ranges o visit => ?overtaken, fun notVisit => ?kept⟩
    case marks =>
      have marks := congrArg EventRecord.marks (self { r with marks := r.marks.clear k })
      exact marks.trans (by rw [marked, Marks.clear_only]; rfl)
    case overtaken => 
      show s.port.state.overtake = _
      rw [visit]
      rfl
    case kept =>
      obtain ⟨q, ranges, o, visit, -⟩ | ⟨-, kept⟩ := s.port.state.overtake_cases
      · exact absurd visit (notVisit q ranges o)
      · exact kept
  case waiting =>
    rw [State.markSet_of_other (s := s.setEvent n r) engine other, self]
    exact ⟨EventRecord.marks_eq_only_iff.1 marked, rfl, rfl, rfl⟩

/-! ## What the answer rests on -/

/-- The engine answers a mark of the event `n` alike in `s` and `b`: its state, the refresh cursor, the marks of the
other events and the claims at the port are the same (R43, R58). -/
structure State.AnswersAlike (s b : State) (n : Nat) : Prop where
  sweep : b.sweep = s.sweep
  cursor : b.carousel.cursor = s.carousel.cursor
  others : ∀ m, m ≠ n → (b.event m).marks = (s.event m).marks
  port : b.port = { s.port with completions := b.port.completions }
  updates : s.port.completions = [] → b.port.completions = []

theorem State.SweepAsked.of_answersAlike (alike : s.AnswersAlike b n) (asked : b.SweepAsked t n k) :
    s.SweepAsked t n k := by
  have state : b.port.state = s.port.state := by rw [alike.port]
  have claim : b.port.sweep = s.port.sweep := by rw [alike.port]
  obtain ⟨idle, running, waiting⟩ := asked
  rw [alike.sweep, state, alike.cursor] at idle
  rw [alike.sweep, state, claim] at running waiting
  refine ⟨fun engine unmarked => ?idle, running, waiting⟩
  obtain ⟨marks, sweep, free, busy⟩ := idle engine fun m hm q marked =>
    unmarked m hm q ((EventRecord.marked_congr (alike.others m hm) q).1 marked)
  refine ⟨marks, sweep, fun freeHere => ?_, busy⟩
  have noUpdates : b.port.completions = [] := alike.updates (by rw [freeHere])
  have same : b.port = s.port := by rw [alike.port, noUpdates, freeHere]
  rw [← same]
  exact free (same.trans freeHere)

/-- The record of the event itself is not looked at until its mark is set. -/
theorem State.answersAlike_setEvent (s : State) (n : Nat) (r : EventRecord) : s.AnswersAlike (s.setEvent n r) n where
  sweep := rfl
  cursor := rfl
  others m hm := by rw [State.event_setEvent_other hm]
  port := rfl
  updates := id

/-- Nor are its keys (R115). -/
theorem State.answersAlike_endKeys (hn : n < s.events.length) : s.AnswersAlike (s.endKeys n) n where
  sweep := by simp
  cursor := by simp
  others m hm := by rw [State.endKeys_event s n m hn, if_neg hm]
  port := by rw [State.endKeys_port]
  updates none := by rw [State.endKeys_port, none]; rfl

/-! ## The end of an event offers its mark (R10, R22) -/

/-- A close replaces the record once, after the keys are ended, and offers the mark to the engine (R10). -/
theorem State.closeEvent_eq (hn : n < s.events.length) :
    s.closeEvent n =
      ((s.endKeys n).setEvent n
        ((s.event n).ended s.stateRepeat .closed
          { (s.event n).marks with retire := true, blackout := false })).markSet n := by
  have keys : (s.endKeys n).event n = { s.event n with keys := (s.event n).keys.ended } := by
    rw [State.endKeys_event s n n hn, if_pos rfl]
  have hn' : n < (s.endKeys n).events.length := by rwa [State.endKeys_length]
  have repeats : (s.endKeys n).stateRepeat = s.stateRepeat := by simp [State.stateRepeat]
  simp only [State.closeEvent, State.changeState, State.setEvent_setEvent, State.event_setEvent_self hn', keys, repeats]
  rfl

/-- A closed event has ended in CLOSED with a RETIRE sweep asked for (R10). -/
theorem State.closeEvent_ended (hn : n < s.events.length) : s.Ended (s.closeEvent n) n .closed .retire := by
  rw [State.closeEvent_eq hn]
  exact .of_markStep hn (State.markSet_marks _ n) rfl rfl

/-- The end of an event offers the one mark its record is left (R10, R22). -/
theorem State.SweepAsked.of_ended {marks : Marks} (hn : n < 32) (table : s.events.length = 32)
    (marked : marks = Marks.only k) (r : EventRecord) (stateRepeat : Nat) (target : EventState) :
    s.SweepAsked (((s.endKeys n).setEvent n (r.ended stateRepeat target marks)).markSet n) n k :=
  .of_answersAlike (State.answersAlike_endKeys (by omega)) (.of_markSet hn ((s.endKeys_length n).trans table) marked)

/-- A cancel asks for a CANCEL sweep (R22). -/
theorem State.cancelEvent_asks (hn : n < 32) (table : s.events.length = 32)
    (retire : (s.event n).marks.retire = false) : s.SweepAsked (s.cancelEvent n) n .cancel := by
  rw [State.cancelEvent_eq (by omega)]
  exact .of_ended hn table (by simp [Marks.only, retire]) _ _ _

/-- A close asks for a RETIRE sweep (R10). -/
theorem State.closeEvent_asks (hn : n < 32) (table : s.events.length = 32)
    (cancel : (s.event n).marks.cancel = false) : s.SweepAsked (s.closeEvent n) n .retire := by
  rw [State.closeEvent_eq (by omega)]
  exact .of_ended hn table (by simp [Marks.only, cancel]) _ _ _

/-! ## The other marks (R23, R25) -/

/-- A CANCELLED event given up asks for a RETIRE sweep (R23). -/
theorem State.giveUpCancelled_asks (hn : n < 32) (table : s.events.length = 32)
    (cancel : (s.event n).marks.cancel = false) (blackout : (s.event n).marks.blackout = false) :
    s.SweepAsked (s.giveUpCancelled n) n .retire := by
  simp only [State.giveUpCancelled, State.changeState, State.setEvent_setEvent]
  refine .of_markSet hn table ?_
  rw [State.event_setEvent_self (by omega), EventRecord.changeState_eq, cancel, blackout]
  rfl

/-- A range added to an event ON-SALE or keyed asks for a BLACKOUT sweep (R25). -/
theorem State.addRange_asks (hn : n < 32) (table : s.events.length = 32) (selling : (s.event n).state.selling = true)
    (cancel : (s.event n).marks.cancel = false) (retire : (s.event n).marks.retire = false) (x : Range) :
    s.SweepAsked (s.addRange n x) n .blackout := by
  rw [State.addRange_of_selling selling]
  exact .of_markSet hn table (by simp [Marks.only, cancel, retire])

/-! ## The close step (R5, R10) -/

/-- An event whose effective close the clock has reached is closed by its deadline steps if none of the three steps
before the close moves it (R5, R10). -/
theorem State.deadlineSteps_of_closing {x : Window} (hn : n < s.events.length) (window : (s.event n).window = some x)
    (due : effectiveCloseOf x.scheduledClose (s.event n).hold ≤ s.clock.clock)
    (selling : (s.event n).state.selling = true) (entry : s.stepEntry n x = s) (live : s.stepLive n x = s) :
    s.deadlineSteps n = s.closeEvent n := by
  have saleOpen : s.stepSaleOpen n x = s := by
    refine if_neg fun ⟨scheduled, _⟩ => ?_
    rw [scheduled] at selling
    exact nomatch selling
  have close : s.stepClose n x = s.closeEvent n := if_pos ⟨selling, due⟩
  have epoch : (s.closeEvent n).stepEpoch n = s.closeEvent n := by
    refine if_neg fun ⟨keyed, _⟩ => ?_
    rw [(State.closeEvent_ended hn).state] at keyed
    exact nomatch keyed
  simp only [State.deadlineSteps, window, saleOpen, entry, live, close, epoch]

/-- The entry step leaves an event that is not ON-SALE (R5). -/
theorem State.stepEntry_of_ne (ne : (s.event n).state ≠ .onSale) (x : Window) : s.stepEntry n x = s :=
  if_neg fun ⟨onSale, _⟩ => ne onSale

/-- The entry step leaves an event ON-SALE whose entry deadline is not reached, or that is in key wait and not ready
(R7, R8). -/
theorem State.stepEntry_of_waiting {x : Window}
    (waits : s.clock.clock < x.entryDeadline ∨ (¬ s.Ready n ∧ (s.event n).keys.keyLate = true)) :
    s.stepEntry n x = s := by
  rcases waits with early | ⟨notReady, keyWait⟩
  · exact if_neg fun ⟨_, reached⟩ => by omega
  · have notNow : ¬ s.advanceReady n = true := fun ready => notReady ((s.advanceReady_iff n).1 ready)
    rw [State.stepEntry, if_neg notNow, State.setKeyLate, if_pos keyWait, ite_self]

/-- The live step leaves an event that is not in PREVIEW with its live-start reached (R5). -/
theorem State.stepLive_of_not_due {x : Window} (notDue : (s.event n).state = .preview → s.clock.clock < x.liveStart) :
    s.stepLive n x = s :=
  if_neg fun ⟨preview, reached⟩ => by
    have early := notDue preview
    omega

/-- The close step asks for a RETIRE sweep (R5, R10). -/
theorem State.deadlineSteps_asks {x : Window} (hn : n < 32) (table : s.events.length = 32)
    (cancel : (s.event n).marks.cancel = false) (window : (s.event n).window = some x)
    (due : effectiveCloseOf x.scheduledClose (s.event n).hold ≤ s.clock.clock)
    (state : (s.event n).state = .live ∨ (s.event n).state = .overtime
      ∨ ((s.event n).state = .preview ∧ s.clock.clock < x.liveStart)
      ∨ ((s.event n).state = .onSale
          ∧ (s.clock.clock < x.entryDeadline ∨ (¬ s.Ready n ∧ (s.event n).keys.keyLate = true)))) :
    s.SweepAsked (s.deadlineSteps n) n .retire := by
  have hn' : n < s.events.length := by omega
  have selling : (s.event n).state.selling = true := by
    rcases state with e | e | ⟨e, -⟩ | ⟨e, -⟩ <;> rw [e] <;> rfl
  have entry : s.stepEntry n x = s := by
    rcases state with e | e | ⟨e, -⟩ | ⟨-, waits⟩
    · exact State.stepEntry_of_ne (by simp [e]) x
    · exact State.stepEntry_of_ne (by simp [e]) x
    · exact State.stepEntry_of_ne (by simp [e]) x
    · exact State.stepEntry_of_waiting waits
  have live : s.stepLive n x = s := by
    refine State.stepLive_of_not_due fun preview => ?_
    rcases state with e | e | ⟨-, early⟩ | ⟨e, -⟩
    · exact nomatch preview.symm.trans e
    · exact nomatch preview.symm.trans e
    · exact early
    · exact nomatch preview.symm.trans e
  rw [State.deadlineSteps_of_closing hn' window due selling entry live]
  exact State.closeEvent_asks hn table cancel

/-! ## EVENT-HOLD that closes the event (R21) -/

theorem exec_eventHold {f : HoldFields} (hq : s.holding h (.eventHold f)) :
    exec .eventHold s = .next (s.holdEvent h f) := by
  show execEventHold s = _
  simp only [execEventHold, hq.1, hq.2]

theorem HoldFields.firstBad_of_good {f : HoldFields} {liveStart : Nat} (flags : f.flags = 1#8) (kind : f.kind = 1)
    (inRange : f.time ≤ 16777215) (early : f.time ≤ liveStart + 86400) : f.firstBad liveStart = none := by
  have time : ¬ (16777215 < f.time ∨ liveStart + 86400 < f.time) := by omega
  simp [HoldFields.firstBad, flags, kind, HoldKind.ofNumber, time]

theorem HoldFields.hold_of_firm {f : HoldFields} (flags : f.flags = 1#8) (kind : f.kind = 1) :
    f.hold = some { time := f.time, kind := .firm } := by
  simp [HoldFields.hold, flags, kind, HoldKind.ofNumber]

/-- An EVENT-HOLD that passes its checks sets the hold (R18, R21). -/
theorem State.holdEvent_of_good {f : HoldFields} {x : Window} (night : s.night = .setup ∨ s.night = .opened)
    (h31 : f.event ≤ 31) (selling : (s.event f.event).state.selling = true)
    (window : (s.event f.event).window = some x) (good : f.firstBad x.liveStart = none) :
    s.holdEvent h f = (s.applyHold f.event x f.hold).replied h .ok [] := by
  rw [State.holdEvent, State.eventGate_passes s h f.event _ night h31 (EventState.selling_ne_empty _ selling)]
  simp only [selling, Bool.true_eq_false, if_false, window, good, State.finish_eq_replied]

/-- A hold whose effective close the clock has reached closes the event at once, its marks not touched before (R21). -/
theorem State.applyHold_of_reached {x : Window} {hold : Option Hold}
    (reached : effectiveCloseOf x.scheduledClose hold ≤ s.clock.clock) :
    ∃ r, r.marks = (s.event n).marks ∧ s.applyHold n x hold = (s.setEvent n r).closeEvent n :=
  ⟨{ s.event n with
      hold := hold
      repeatsOwed :=
        if effectiveCloseOf x.scheduledClose hold = effectiveCloseOf x.scheduledClose (s.event n).hold then
          (s.event n).repeatsOwed
        else s.stateRepeat }, rfl, if_pos reached⟩

/-- An EVENT-HOLD that closes its event asks for a RETIRE sweep (R10, R21). -/
theorem State.applyHold_asks {x : Window} {hold : Option Hold} (hn : n < 32) (table : s.events.length = 32)
    (cancel : (s.event n).marks.cancel = false)
    (reached : effectiveCloseOf x.scheduledClose hold ≤ s.clock.clock) :
    s.SweepAsked (s.applyHold n x hold) n .retire := by
  obtain ⟨r, marks, close⟩ := State.applyHold_of_reached (n := n) reached
  have cancel' : ((s.setEvent n r).event n).marks.cancel = false := by
    rw [State.event_setEvent_self (by omega), marks, cancel]
  rw [close]
  exact .of_answersAlike (s.answersAlike_setEvent n r) (State.closeEvent_asks hn (by simpa using table) cancel')

end Sys2Proof.Machine
end

