-- ==== Sys2Proof/Proofs/SweepCompletion.lean ====
section
/-! The completion of a sweep, the choice of the next, and the marks (R58, R59, R67 to R70). -/

open Sys2Proof Sys2Proof.Machine

/-- Settles O52. The last visit of a lap is its act, as within a lap, and `State.completeSweep_eq`; the choice is
`State.chooseSweep_chose`; each mark is offered to the engine as `State.SweepAsked.of_markSet` says. -/
theorem sweepsCompleteAndAreChosen : Obligations.SweepsCompleteAndAreChosen := by
  unfold Obligations.SweepsCompleteAndAreChosen
  refine ⟨?completed, fun s _ => s.chooseSweep_chose, ?asked⟩
  case completed =>
    intro s v w u k ranges vis goes back hn table
    have c := vis.corruption
    obtain ⟨a, acted, act, run⟩ := vis.acts
    have going : a.sweep.wipePending = false := act.sweep ▸ goes
    have hn' : (w.moved (s.successor w.cursor) acted false).event < a.events.length := by
      rw [act.table, table]
      exact hn
    rw [State.endVisit_completes going back hn', State.releasePort_eq] at run
    refine ⟨a, _, _, run,
      fun g hg => ⟨(act.reached g hg).1, act.cancels c hg, act.blacksOut c hg, fun kind live ne => ?retired⟩,
      fun noneReached => (act.unreached noneReached).1, act.cells, act.events, ?left, State.chooseSweep_chose _⟩
    case retired =>
      obtain ⟨slot, -, -, -, event⟩ := act.retires c hg kind live (by omega) ne
      exact ⟨slot, congrArg EventRecord.counts event⟩
    case left => rw [act.sweep]; rfl
  case asked =>
    intro s n table h31 night cancel retire
    have hn : n < 32 := by omega
    refine ⟨fun h hq admitting => ?cancelled, fun h lo hi hq hle hhi selling room => ?blackedOut,
      fun w window due state => State.deadlineSteps_asks hn table cancel window due state,
      fun h f w hq event flags kind selling window due inRange early => ?held,
      fun h hq cancelled swept blackout => ?cleared⟩
    case cancelled =>
      refine ⟨s.cancelEvent n, ?_, State.cancelEvent_asks hn table retire⟩
      rw [exec_eventCancel hq, State.cancelRequest_of_admitting night h31 admitting]
    case blackedOut =>
      refine ⟨s.addRange n { low := lo, high := hi }, ?_, State.addRange_asks hn table selling cancel retire _⟩
      rw [exec_blackoutAdd hq,
        State.addRangeRequest_of_room night h31 (EventState.admitting_of_selling _ selling) hle hhi room]
    case held =>
      subst event
      have good := HoldFields.firstBad_of_good flags kind inRange early
      have reached : effectiveCloseOf w.scheduledClose f.hold ≤ s.clock.clock := by
        rw [HoldFields.hold_of_firm flags kind]
        exact due
      refine ⟨s.applyHold f.event w f.hold, ?_, State.applyHold_asks hn table cancel reached⟩
      rw [exec_eventHold hq, State.holdEvent_of_good night h31 selling window good]
    case cleared =>
      refine ⟨s.giveUpCancelled n, ?_, State.giveUpCancelled_asks hn table cancel blackout⟩
      rw [exec_eventClear hq, State.clearRequest_of_swept night h31 cancelled swept]

end

