-- ==== Sys2Proof/Proofs/CarouselCycle.lean ====
section
/-! CYCLE_TICK (R77, R78). -/

namespace Sys2Proof.Machine

variable {s : State}

/-- An event whose KEY message a cycle owes is ON-SALE or keyed (R78). -/
theorem EventState.selling_iff (e : EventState) :
    e.selling = true ↔ e = .onSale ∨ e = .preview ∨ e = .live ∨ e = .overtime := by
  cases e <;> simp [EventState.selling, EventState.keyed]

/-- The owed entries of one event, KEY before STATE (R78). -/
theorem EventRecord.owed_eq (r : EventRecord) (n : Nat) :
    r.owed n =
      (if r.state = .onSale ∨ r.state = .preview ∨ r.state = .live ∨ r.state = .overtime then [.key n] else [])
        ++ (if r.repeatsOwed = 0 then [] else [.state n]) := by
  have repeats : (if 0 < r.repeatsOwed then [OwedEntry.state n] else [])
      = if r.repeatsOwed = 0 then [] else [OwedEntry.state n] := by
    by_cases none : r.repeatsOwed = 0
    · rw [if_pos none, if_neg (by omega)]
    · rw [if_neg none, if_pos (by omega)]
  simp only [EventRecord.owed, EventState.selling_iff, repeats]

/-- A tick that is not late moves the timer to its moment (R77). -/
theorem exec_cycleTick {m : Nat} (moment : m = s.timer.cycleTickAt + 250) (inTime : s.timer.now ≤ m) :
    exec .cycleTick s = .next
      (if s.carousel.run = .waiting ∧ s.night = .opened then
        State.startCycle { s with timer := { now := m, cycleTickAt := m } }
      else { s with timer := { now := m, cycleTickAt := m } }) := by
  show execCycleTick s = _
  simp only [execCycleTick, State.cycleTick, ← moment, max_eq_right inTime]

end Sys2Proof.Machine

open Sys2Proof Sys2Proof.Machine

/-- Settles O43. The tick starts a cycle only of a WAITING carousel in an OPEN unit, and the list that the cycle owes is
that of `EventRecord.owed_eq`, event by event. -/
theorem cycleTickStartsCycle : Obligations.CycleTickStartsCycle := by
  unfold Obligations.CycleTickStartsCycle
  intro s m moment inTime
  rw [exec_cycleTick moment inTime]
  constructor
  case left =>
    intro otherwise
    rw [if_neg (not_and_or.2 otherwise)]
  case right =>
    intro waiting opened
    rw [if_pos ⟨waiting, opened⟩]
    refine ⟨s.owedList, rfl, ?_⟩
    simp only [State.owedList, EventRecord.owed_eq]

end

