-- ==== Sys2Proof/Proofs/AttemptCourse.lean ====
section
/-! SUPPORT. The course of a composition attempt after its owed list: the step of R81 at which it stands next, and what
it does there (R79 to R81, R85, R86, R90). -/

namespace Sys2Proof.Machine

variable (s : State)

/-- The attempt stands at a read, which it claims, or at none, which is step 7 (R81). -/
def State.standAt (s : State) : Attempt → State
  | .none => s.nothingEligible
  | a => s.claimComposition a

theorem State.standAt_of_ne_none {a : Attempt} (h : a ≠ .none) : s.standAt a = s.claimComposition a := by
  cases a with
  | none => exact absurd rfl h
  | _ => rfl

/-- The step of R81 that an attempt takes up again after a read at `a` that yielded nothing. -/
def Attempt.again : Attempt → State → State
  | .none => State.nothingEligible
  | .urgentShare => State.tryUrgentShare
  | .freshShare => State.tryFreshShare
  | .refresh reads => fun t => t.tryRefresh (reads + 1)
  | .urgentRest => State.tryUrgentRest
  | .freshRest => State.tryFreshRest

theorem State.tryFreshRest_eq :
    s.tryFreshRest = s.standAt (if s.carousel.fresh ≠ [] then .freshRest else .none) := by
  by_cases fresh : s.carousel.fresh = [] <;> simp [State.tryFreshRest, State.standAt, fresh]

theorem State.tryUrgentRest_eq :
    s.tryUrgentRest =
      s.standAt (if s.carousel.urgent ≠ [] then .urgentRest
        else if s.carousel.fresh ≠ [] then .freshRest else .none) := by
  by_cases urgent : s.carousel.urgent = []
  · simp [State.tryUrgentRest, State.tryFreshRest_eq, urgent]
  · simp [State.tryUrgentRest, State.standAt, urgent]

theorem State.tryRefresh_eq (reads : Nat) :
    s.tryRefresh reads =
      s.standAt (if reads < 32 then .refresh reads
        else if s.carousel.urgent ≠ [] then .urgentRest
        else if s.carousel.fresh ≠ [] then .freshRest else .none) := by
  by_cases more : reads < 32
  · simp [State.tryRefresh, State.standAt, more]
  · simp [State.tryRefresh, State.tryUrgentRest_eq, more]

theorem State.tryFreshShare_eq :
    s.tryFreshShare =
      s.standAt (if s.carousel.freshComposed < s.settings.record.freshShare ∧ s.carousel.fresh ≠ [] then .freshShare
        else .refresh 0) := by
  rw [State.tryFreshShare]
  split
  case isTrue => rfl
  case isFalse => rw [State.tryRefresh_eq]; rfl

theorem State.tryUrgentShare_eq :
    s.tryUrgentShare =
      s.standAt (if s.carousel.urgentComposed < s.settings.record.urgentShare ∧ s.carousel.urgent ≠ [] then
          .urgentShare
        else if s.carousel.freshComposed < s.settings.record.freshShare ∧ s.carousel.fresh ≠ [] then .freshShare
        else .refresh 0) := by
  rw [State.tryUrgentShare]
  split
  case isTrue => rfl
  case isFalse => exact s.tryFreshShare_eq

/-- A step taken up again leads where `ConfigRecord.stepAfter` says (R81). -/
theorem State.again_eq (a : Attempt) :
    a.again s = s.standAt (s.settings.record.stepAfter s.carousel a) := by
  cases a with
  | none => rfl
  | urgentShare => exact s.tryUrgentShare_eq
  | freshShare => exact s.tryFreshShare_eq
  | refresh reads => exact s.tryRefresh_eq (reads + 1)
  | urgentRest => exact s.tryUrgentRest_eq
  | freshRest => exact s.tryFreshRest_eq

/-- At step 7 after a read the port is handed on and the attempt is over; the cycle ends at once when every packet
composed has finished (R43, R79, R81). -/
theorem State.standAt_none_releasePort (running : s.carousel.run = .running) :
    s.releasePort.standAt .none = { s with
      port := s.portReleased
      carousel :=
        if s.settings.record.cycleLength ≤ s.carousel.finished ∨ s.carousel.finished = s.carousel.composed then
          s.carousel.cycleEnded
        else { s.carousel with attempt := .none, exhausted := true } } := by
  rw [State.releasePort_eq]
  exact State.nothingEligible_eq { s with port := s.portReleased } running

end Sys2Proof.Machine

end

