-- ==== Sys2Proof/Proofs/CompositionAttempt.lean ====
section
/-! COMPOSITION_ATTEMPT (R80 to R82). -/

namespace Sys2Proof.Machine

variable {s : State} {e : OwedEntry} {es : List OwedEntry}

/-- An attempt that may begin takes the owed list first (R80, R81). -/
theorem exec_compositionAttempt (may : s.mayCompose = true) (free : s.carousel.attempt = .none) :
    exec .compositionAttempt s = .next (State.tryOwed s.carousel.owed s) := by
  show execCompositionAttempt s = _
  rw [execCompositionAttempt, if_pos ⟨may, free⟩]

/-- The conditions of R80. -/
theorem State.mayCompose_iff (s : State) :
    s.mayCompose = true ↔
      s.carousel.run = .running ∧ s.night = .opened ∧ s.bus.staging = none ∧ s.bus.state ≠ .fault
        ∧ s.carousel.composed < s.settings.record.cycleLength ∧ s.carousel.exhausted = false := by
  simp [State.mayCompose, and_assoc]

theorem OwedEntry.composable_key (n : Nat) (s : State) :
    (OwedEntry.key n).composable s = true ↔
      (s.event n).state.keyed = true ∨ ((s.event n).state = .onSale ∧ (s.event n).keys.next ≠ none) := by
  simp [OwedEntry.composable, Option.isSome_iff_ne_none]

theorem OwedEntry.composable_state (n : Nat) (s : State) :
    (OwedEntry.state n).composable s = true ↔ (s.event n).state ≠ .empty ∧ 0 < (s.event n).repeatsOwed := by
  simp [OwedEntry.composable]

/-- A KEY entry's tag carries the next epoch when the next key is present (R92). -/
theorem OwedEntry.tagContent_key (n : Nat) (s : State) :
    (OwedEntry.key n).tagContent s = .key n ((s.event n).keys.next.map (fun _ => (s.event n).keys.epoch + 1)) := by
  rw [OwedEntry.tagContent, KeyFields.announced, Option.map_map]
  rfl

/-- A head entry that can have its message is composed (R82). -/
theorem State.tryOwed_of_composable (can : e.composable s = true) :
    State.tryOwed (e :: es) s = (s.setOwed es).place (e.message s) (e.tagContent s) := by
  rw [State.tryOwed, if_pos can]

/-- A head entry that cannot is dropped (R82). -/
theorem State.tryOwed_of_not_composable (cannot : ¬ e.composable s = true) :
    State.tryOwed (e :: es) s = State.tryOwed es s := by
  rw [State.tryOwed, if_neg cannot]

/-- What an attempt makes of a list of owed entries does not depend on the list that the carousel holds, which it
replaces. -/
theorem State.tryOwed_setOwed (q es : List OwedEntry) (s : State) :
    State.tryOwed es (s.setOwed q) = State.tryOwed es s := by
  induction es with
  | nil => rfl
  | cons e es ih =>
    by_cases can : e.composable s = true
    · have can' : e.composable (s.setOwed q) = true := by cases e <;> exact can
      rw [State.tryOwed_of_composable can, State.tryOwed_of_composable can']
      cases e <;> rfl
    · have cannot' : ¬ e.composable (s.setOwed q) = true := by cases e <;> exact can
      rw [State.tryOwed_of_not_composable can, State.tryOwed_of_not_composable cannot', ih]

/-- A message placed into staging from a unit with the bus, the cycle and the count of `s` (R80, R92, R123). -/
theorem State.place_composed (s a : State) (bus : a.bus = s.bus) (cycle : a.carousel.cycle = s.carousel.cycle)
    (count : a.carousel.composed = s.carousel.composed) (m : Message) (c : TagContent) :
    s.Composed (a.place m c) m c where
  staging := by rw [← cycle]; rfl
  sending := by rw [← bus]; exact ⟨rfl, rfl⟩
  request := by rw [← bus]; rfl
  composed := by rw [← count]; rfl
  attempt := rfl

/-- A composable head entry's message stands in staging, its entry is off the list, and nothing else has changed
(R80, R82, R92). -/
theorem exec_compositionAttempt_of_composable (may : s.mayCompose = true) (free : s.carousel.attempt = .none)
    (owed : s.carousel.owed = e :: es) (can : e.composable s = true) :
    ∃ t : State, exec .compositionAttempt s = .next t
      ∧ s.Composed t (e.message s) (e.tagContent s)
      ∧ t = { s with carousel := t.carousel, bus := t.bus }
      ∧ t.carousel =
        { s.carousel with owed := es, composed := s.carousel.composed + 1, attempt := .none } := by
  refine ⟨(s.setOwed es).place (e.message s) (e.tagContent s), ?_,
    s.place_composed (s.setOwed es) rfl rfl rfl _ _, rfl, rfl⟩
  rw [exec_compositionAttempt may free, owed, State.tryOwed_of_composable can]

/-- An entry dropped is as one that had not been owed (R82). -/
theorem exec_compositionAttempt_of_not_composable (may : s.mayCompose = true) (free : s.carousel.attempt = .none)
    (owed : s.carousel.owed = e :: es) (cannot : ¬ e.composable s = true) :
    exec .compositionAttempt s = exec .compositionAttempt (s.setOwed es) := by
  have may' : (s.setOwed es).mayCompose = true := may
  rw [exec_compositionAttempt may free, exec_compositionAttempt may' free, owed,
    State.tryOwed_of_not_composable cannot]
  exact congrArg _ (State.tryOwed_setOwed es es s).symm

end Sys2Proof.Machine

open Sys2Proof Sys2Proof.Machine

/-- Settles O44. The owed list is taken entry by entry: what its head does is `exec_compositionAttempt_of_composable` or
`exec_compositionAttempt_of_not_composable`, and after it `State.tryUrgentShare_eq` says which read is claimed. -/
theorem compositionAttemptTakesOwed : Obligations.CompositionAttemptTakesOwed := by
  unfold Obligations.CompositionAttemptTakesOwed
  intro s running opened staging fault budget unexhausted free
  have may := s.mayCompose_iff.2 ⟨running, opened, staging, fault, budget, unexhausted⟩
  refine ⟨fun n rest owed can => ?key, fun n rest owed ne due => ?state, fun n rest dropped => ?dropped,
    fun a owed first => ?claim⟩
  case key =>
    have composed := exec_compositionAttempt_of_composable may free owed ((OwedEntry.composable_key n s).2 can)
    rwa [OwedEntry.tagContent_key] at composed
  case state =>
    exact exec_compositionAttempt_of_composable may free owed ((OwedEntry.composable_state n s).2 ⟨ne, due⟩)
  case dropped =>
    rcases dropped with ⟨owed, unkeyed, unsold⟩ | ⟨owed, gone⟩
    · refine exec_compositionAttempt_of_not_composable may free owed (mt (OwedEntry.composable_key n s).1 ?_)
      rintro (keyed | ⟨onSale, next⟩)
      · exact Bool.false_ne_true (unkeyed.symm.trans keyed)
      · exact unsold.elim (absurd onSale) (absurd · next)
    · refine exec_compositionAttempt_of_not_composable may free owed (mt (OwedEntry.composable_state n s).1 ?_)
      rintro ⟨ne, due⟩
      exact gone.elim ne (by omega)
  case claim =>
    have reads : a ≠ .none := by rw [first]; split_ifs <;> exact nofun
    obtain ⟨p, claimed, port⟩ := s.claimComposition_spec a
    have none : s.setOwed [] = s := by rw [State.setOwed, ← owed]
    refine ⟨p, ?_, port⟩
    rw [exec_compositionAttempt may free, owed, State.tryOwed, none, State.tryUrgentShare_eq, ← first,
      State.standAt_of_ne_none s reads, claimed]

end

