-- ==== Sys2Proof/Proofs/CompositionRead.lean ====
section
/-! SUPPORT. A composition read's end (R43, R80 to R92): its message is placed, or its attempt goes on. -/

namespace Sys2Proof.Machine

variable {s v b t : State} {a : Attempt} {c : Carousel} {n : Nat} {u : List Nat} {g : Grant}

theorem State.Reads.corruption (r : s.Reads v a n u) : Corrupted s v :=
  .of_upset s v u r.corrupted r.canonical

/-- `b` is the unit `s` in a running cycle after the read of a slot that passes its check, before its message or the
next claim: the slot memory may have been written, and the carousel is `c`. -/
structure State.ReadTo (s b : State) (c : Carousel) : Prop where
  only : ∃ m, b = { s with store := { s.store with memory := m }, carousel := c }
  running : c.run = .running

/-- A further write of the slot memory keeps it so. -/
theorem State.ReadTo.putSlot (r : s.ReadTo b c) (n : Nat) (x : Slot) : s.ReadTo (b.putSlot n x) c := by
  obtain ⟨⟨_, rfl⟩, running⟩ := r
  exact ⟨⟨_, rfl⟩, running⟩

theorem State.ReadTo.carousel (r : s.ReadTo b c) : b.carousel = c := by
  obtain ⟨⟨_, rfl⟩, -⟩ := r
  rfl

theorem State.ReadTo.settings (r : s.ReadTo b c) : b.settings = s.settings := by
  obtain ⟨⟨_, rfl⟩, -⟩ := r
  rfl

theorem State.ReadTo.bus (r : s.ReadTo b c) : b.bus = s.bus := by
  obtain ⟨⟨_, rfl⟩, -⟩ := r
  rfl

theorem State.ReadTo.event (r : s.ReadTo b c) (e : Nat) : b.event e = s.event e := by
  obtain ⟨⟨_, rfl⟩, -⟩ := r
  rfl

/-- The port that the read releases is that of `s`. -/
theorem State.ReadTo.portReleased (r : s.ReadTo b c) : b.portReleased = s.portReleased := by
  obtain ⟨⟨_, rfl⟩, -⟩ := r
  exact State.portReleased_congr rfl rfl (fun _ => rfl)

/-- A read whose end changes the carousel, the bus interface and the port alone leaves what every read leaves. -/
theorem State.ReadTo.kept (r : s.ReadTo b c)
    (only : ∃ c' bus p, t = { b with carousel := c', bus := bus, port := p }) :
    t.store = b.store ∧ s.KeptByRead t ∧ t.notice = s.notice ∧ t.counters = s.counters := by
  obtain ⟨_, _, _, rfl⟩ := only
  obtain ⟨⟨_, rfl⟩, -⟩ := r
  exact ⟨rfl, ⟨rfl, rfl, rfl, rfl, rfl, rfl, rfl, rfl, rfl, rfl, rfl, rfl, rfl, rfl, rfl⟩, rfl, rfl⟩

/-- What `t`, at the end of the read of `b`, has in either case: the queues and the cursor of the carousel `c`, the
store of `b`, and what every composition read leaves. -/
structure State.ReadEnded (s b t : State) (c : Carousel) : Prop where
  lists : t.carousel.fresh = c.fresh ∧ t.carousel.urgent = c.urgent ∧ t.carousel.cursor = c.cursor
    ∧ t.carousel.pass = c.pass
  store : t.store = b.store
  kept : s.KeptByRead t ∧ t.notice = s.notice ∧ t.counters = s.counters

/-! ## A message is placed (R80, R92, R123) -/

/-- `t` is the unit after the read of `b` ended with the message `m` in staging, the carousel `c` having counted it in
its share. -/
structure State.Sent (s b t : State) (c : Carousel) (m : Message) (k : TagContent) : Prop
    extends s.ReadEnded b t c where
  composed : s.Composed t m k
  shares : t.carousel.urgentComposed = c.urgentComposed ∧ t.carousel.freshComposed = c.freshComposed
  port : t.port = s.portReleased

/-- In a running cycle a message emitted is placed, and the port handed on. -/
theorem State.ReadTo.sent (r : s.ReadTo b c) (m : Message) (k : TagContent) (share : Carousel → Carousel)
    (cycle : (share c).cycle = s.carousel.cycle) (count : (share c).composed = s.carousel.composed) :
    s.Sent b (b.emit m k share).releasePort (share c) m k := by
  have placed : (b.emit m k share).releasePort =
      { (b.setCarousel (share c)).place m k with port := s.portReleased } := by
    rw [State.emit, r.carousel, if_pos r.running, State.releasePort_eq, ← r.portReleased]
    rfl
  obtain ⟨staging, sending, request, composed, attempt⟩ :=
    s.place_composed (b.setCarousel (share c)) r.bus cycle count m k
  obtain ⟨store, kept⟩ := r.kept ⟨_, _, _, placed⟩
  rw [placed] at store kept ⊢
  exact ⟨⟨⟨rfl, rfl, rfl, rfl⟩, store, kept⟩, ⟨staging, sending, request, composed, attempt⟩, ⟨rfl, rfl⟩, rfl⟩

/-! ## The attempt goes on (R81, R85, R86, R90) -/

/-- `t` is the unit after the read of `b`, which left the carousel `c`, yielded nothing at the step `a`. -/
structure State.Barren (s b t : State) (c : Carousel) (a : Attempt) : Prop extends s.ReadEnded b t c where
  goesOn : s.GoesOn t c a

/-- The port that a further claim leaves after the read is that of `s`. -/
theorem State.ReadTo.portReclaimed (r : s.ReadTo b c) : b.portReclaimed = s.portReclaimed := by
  rw [State.portReclaimed, r.portReleased, State.portReclaimed]

/-- In a running cycle an attempt whose read yielded nothing goes on with the port handed on. -/
theorem State.ReadTo.barren (r : s.ReadTo b c) (a : Attempt) : s.Barren b (b.releasePort.goOn a.again) c a := by
  have again : b.releasePort.goOn a.again = b.releasePort.standAt (s.settings.record.stepAfter c a) := by
    rw [State.goOn, State.again_eq, State.releasePort_eq]
    simp only [r.carousel, r.settings, r.running, if_true]
  by_cases ended : s.settings.record.stepAfter c a = .none
  case pos =>
    have run : b.releasePort.goOn a.again = { b with
        port := s.portReleased
        carousel :=
          if s.settings.record.cycleLength ≤ c.finished ∨ c.finished = c.composed then c.cycleEnded
          else { c with attempt := .none, exhausted := true } } := by
      rw [again, ended, State.standAt_none_releasePort b (r.carousel.symm ▸ r.running), r.carousel, r.portReleased,
        ← r.settings]
    obtain ⟨store, kept⟩ := r.kept ⟨_, b.bus, _, run⟩
    rw [run] at store kept ⊢
    refine ⟨⟨?_, store, kept⟩, ⟨r.bus, fun reads => absurd ended reads, fun _ => ⟨rfl, rfl⟩⟩⟩
    dsimp only
    split_ifs <;> exact ⟨rfl, rfl, rfl, rfl⟩
  case neg =>
    have run : b.releasePort.goOn a.again = { b with
        port := s.portReclaimed, carousel := { c with attempt := s.settings.record.stepAfter c a } } := by
      rw [again, State.standAt_of_ne_none _ ended, State.claimComposition_releasePort, r.carousel, r.portReclaimed]
    obtain ⟨store, kept⟩ := r.kept ⟨_, b.bus, _, run⟩
    rw [run] at store kept ⊢
    exact ⟨⟨⟨rfl, rfl, rfl, rfl⟩, store, kept⟩, ⟨r.bus, fun _ => ⟨rfl, rfl⟩, fun none => absurd none ended⟩⟩

/-! ## A GRANT candidate is composed or converted (R91) -/

/-- A candidate of slot `n` is emitted from a unit that differs from `b` in that slot at most: as a GRANT message with
the slot left, or as a REVOKE message with the slot REVOKING (R91, R92, R95). -/
theorem State.emitCandidate_spec (ok : b.storeOk) (r : s.ReadTo b c) (n : Nat) (g : Grant)
    (share : Carousel → Carousel) :
    ∃ b' m k, b.emitCandidate n g share = b'.emit m k share ∧ s.ReadTo b' c
      ∧ (∀ j, j ≠ n → b'.cell j = b.cell j)
      ∧ ((∀ why, ¬ s.Converts g why) →
          b'.slot n = b.slot n ∧ m = .grant g.decoder g.event (s.event g.event).service g.kind
          ∧ k = .grant n g.decoder g.event)
      ∧ ∀ why, s.Converts g why →
          b'.slot n = (b.slot n).revoke why
          ∧ m = .revoke g.decoder g.event (s.event g.event).service (some why)
          ∧ k = .revoke n g.decoder g.event := by
  have converts (why : RevokeReason) : b.conversion g = some why ↔ s.Converts g why := by
    rw [State.conversion_iff, State.Converts, r.event, State.Converts]
  cases conversion : b.conversion g with
  | none =>
    refine ⟨b, .grant g.decoder g.event (s.event g.event).service g.kind, .grant n g.decoder g.event, ?_, r,
      fun _ _ => rfl, fun _ => ⟨rfl, rfl, rfl⟩, fun why hw => nomatch conversion.symm.trans ((converts why).2 hw)⟩
    rw [State.emitCandidate, conversion, ← r.event]
  | some why =>
    have hw := (converts why).1 conversion
    refine ⟨b.putSlot n ((b.slot n).revoke why),
      .revoke g.decoder g.event (s.event g.event).service (some why), .revoke n g.decoder g.event, ?_,
      r.putSlot n _, fun j hj => b.cell_putSlot_other n j _ hj, fun unconverted => absurd hw (unconverted why),
      fun why' hw' => ?_⟩
    · rw [State.emitCandidate, conversion, ← r.event]
      rfl
    · have same := conversion.symm.trans ((converts why').2 hw')
      cases same
      exact ⟨b.slot_putSlot_same n _ ok, rfl, rfl⟩

end Sys2Proof.Machine

end

