-- ==== Sys2Proof/Proofs/UrgentRefresh.lean ====
section
/-! URGENT_DEQUEUE and REFRESH_READ (R85, R87 to R91). -/

namespace Sys2Proof.Machine

variable {s v b : State} {a : Attempt} {c : Carousel} {n reads : Nat} {rest u : List Nat} {g : Grant}

/-! ## The urgent queue (R85) -/

/-- The slot at the head of the urgent queue is read: its entry leaves the queue and its mark becomes NONE (R85). -/
def State.urgentRead (v : State) (n : Nat) (rest : List Nat) : State := (v.setUrgent rest).clearSlotMark n

theorem State.slot_urgentRead (ok : v.storeOk) (n : Nat) (rest : List Nat) :
    (v.urgentRead n rest).slot n = { v.slot n with mark := .none } :=
  (v.setUrgent rest).slot_putSlot_same n _ ok

theorem State.cell_urgentRead (v : State) {n m : Nat} (hm : m ≠ n) (rest : List Nat) :
    (v.urgentRead n rest).cell m = v.cell m :=
  (v.setUrgent rest).cell_putSlot_other n m _ hm

theorem State.Reads.urgentRead (r : s.Reads v a n u) (rest : List Nat) :
    s.ReadTo (v.urgentRead n rest) { s.carousel with urgent := rest } := by
  have running := r.running
  obtain ⟨_, rfl⟩ := r.corruption.only
  exact ⟨⟨_, rfl⟩, running⟩

/-- An event that is neither CLOSED nor RETIRED (R85, R89). -/
theorem EventState.finished_eq_false (e : EventState) : e.finished = false ↔ e ≠ .closed ∧ e ≠ .retired := by
  cases e <;> simp [EventState.finished]

/-- The urgent entries that are used: REVOKING slots of an event neither CLOSED nor RETIRED (R85). -/
theorem State.urgentUse_iff (s : State) (n : Nat) (g : Grant) :
    s.urgentUse n = some g ↔
      (s.slot n).grant = some g ∧ (s.slot n).state = .revoking
        ∧ (s.event g.event).state ≠ .closed ∧ (s.event g.event).state ≠ .retired := by
  rw [State.urgentUse]
  cases (s.slot n).grant with
  | none => simp
  | some g' =>
    simp only [Option.ite_none_right_eq_some, Option.some.injEq, EventState.finished_eq_false]
    exact and_comm.trans (and_congr_right fun same => same ▸ Iff.rfl)

/-- URGENT_DEQUEUE, while the carousel holds the port for a read of the urgent queue, takes the entry at its head; the
step to take up again is the one the attempt stands at (R81, R85). -/
theorem exec_urgentDequeue (r : s.Reads v a n u) (step : a = .urgentShare ∨ a = .urgentRest)
    (head : s.carousel.urgent = n :: rest) :
    exec (.urgentDequeue u) s = .next (v.takeUrgent n rest a.again) := by
  show execUrgentDequeue u s = _
  have attempt := r.attempt
  rcases step with rfl | rfl <;>
    simp only [execUrgentDequeue, r.port, attempt, State.dequeueUrgent, head, State.withinStore, if_pos r.inside,
      r.corrupted, Attempt.again]

theorem State.takeUrgent_of_use (good : (v.cell n).checkGood = true)
    (use : (v.urgentRead n rest).urgentUse n = some g) (again : State → State) :
    v.takeUrgent n rest again =
      ((v.urgentRead n rest).emitRevoke n g ((v.urgentRead n rest).slot n).reason
        Carousel.countUrgent).releasePort := by
  rw [State.takeUrgent, State.check_good v n good]
  simp only [State.urgentRead] at use ⊢
  simp only [use]

theorem State.takeUrgent_of_drop (good : (v.cell n).checkGood = true)
    (drop : (v.urgentRead n rest).urgentUse n = none) (again : State → State) :
    v.takeUrgent n rest again = (v.urgentRead n rest).releasePort.goOn again := by
  rw [State.takeUrgent, State.check_good v n good]
  simp only [State.urgentRead] at drop ⊢
  simp only [drop]

/-- The head of the urgent queue is used by what its slot held when it was read. -/
theorem State.Reads.urgentUse_iff (r : s.Reads v a n u) (rest : List Nat) (g : Grant) :
    (v.urgentRead n rest).urgentUse n = some g ↔
      (v.slot n).grant = some g ∧ (v.slot n).state = .revoking
        ∧ (s.event g.event).state ≠ .closed ∧ (s.event g.event).state ≠ .retired := by
  rw [State.urgentUse_iff, State.slot_urgentRead r.corruption.ok, (r.urgentRead rest).event]

/-- An entry that is used has its REVOKE message placed, counted in the urgent share (R81, R85, R95). -/
theorem State.Reads.takeUrgent_sent (r : s.Reads v a n u) (good : (v.cell n).checkGood = true)
    (use : (v.urgentRead n rest).urgentUse n = some g) (again : State → State) :
    s.Sent (v.urgentRead n rest) (v.takeUrgent n rest again)
      (Carousel.countUrgent { s.carousel with urgent := rest })
      (.revoke g.decoder g.event (s.event g.event).service (v.slot n).reason) (.revoke n g.decoder g.event) := by
  rw [State.takeUrgent_of_use good use, State.slot_urgentRead r.corruption.ok, State.emitRevoke,
    (r.urgentRead rest).event]
  exact (r.urgentRead rest).sent _ _ Carousel.countUrgent rfl rfl

/-- An entry that is dropped lets the attempt go on (R81, R85). -/
theorem State.Reads.takeUrgent_barren (r : s.Reads v a n u) (good : (v.cell n).checkGood = true)
    (drop : (v.urgentRead n rest).urgentUse n = none) :
    s.Barren (v.urgentRead n rest) (v.takeUrgent n rest a.again) { s.carousel with urgent := rest } a := by
  rw [State.takeUrgent_of_drop good drop]
  exact (r.urgentRead rest).barren a

/-- Used or dropped, the entry has left the queue. -/
theorem State.Reads.takeUrgent_ended (r : s.Reads v a n u) (good : (v.cell n).checkGood = true) (rest : List Nat) :
    s.ReadEnded (v.urgentRead n rest) (v.takeUrgent n rest a.again) { s.carousel with urgent := rest } := by
  cases found : (v.urgentRead n rest).urgentUse n with
  | some g =>
    obtain ⟨⟨lists, store, kept⟩, -⟩ := r.takeUrgent_sent good found a.again
    exact ⟨lists, store, kept⟩
  | none => exact (r.takeUrgent_barren good found).toReadEnded

/-! ## The refresh cursor (R87 to R90) -/

/-- The cursor moves to its successor, and a wrap counts a pass (R87). -/
def State.afterMove (s : State) : Carousel :=
  { s.carousel with
    cursor := if s.carousel.cursor + 1 = s.slotCount then 0 else s.carousel.cursor + 1
    pass :=
      if s.carousel.cursor + 1 = s.slotCount then
        (if s.carousel.pass = 4294967295 then 0 else (s.carousel.pass + 1) % 4294967296)
      else s.carousel.pass }

theorem State.moveCursor_eq (inside : s.carousel.cursor < s.slotCount) :
    s.moveCursor = { s with carousel := s.afterMove } := by
  have successor : s.successor s.carousel.cursor =
      if s.carousel.cursor + 1 = s.slotCount then 0 else s.carousel.cursor + 1 := by
    rw [State.successor]
    split
    case isTrue wrap => rw [wrap, Nat.mod_self]
    case isFalse => exact Nat.mod_eq_of_lt (by omega)
  have pass : (s.carousel.pass + 1) % 4294967296 =
      if s.carousel.pass = 4294967295 then 0 else (s.carousel.pass + 1) % 4294967296 := by
    split
    case isTrue last => rw [last]
    case isFalse => rfl
  rw [State.moveCursor, successor, State.afterMove, ← pass]

/-- A refresh read moves the cursor and writes nothing (R87, R88). -/
theorem State.Reads.moveCursor (r : s.Reads v a n u) (cursor : s.carousel.cursor = n) :
    v.moveCursor.store = v.store ∧ s.ReadTo v.moveCursor s.afterMove := by
  obtain ⟨m, hv⟩ := r.corruption.only
  have inside : v.carousel.cursor < v.slotCount := by
    rw [hv]
    exact cursor.symm ▸ r.inside
  have moved : v.afterMove = s.afterMove := by
    rw [hv]
    rfl
  rw [State.moveCursor_eq inside, moved]
  exact ⟨rfl, ⟨m, by rw [hv]⟩, r.running⟩

/-- Eligibility, as R89 states it. -/
theorem State.offered_iff (s : State) (x : Slot) (g : Grant) (pass : Nat) :
    s.Offered x g pass ↔ x.grant = some g ∧ s.eligible x g pass = true := by
  have offers : s.offers g = true ↔
      (s.event g.event).state.selling = true ∨ (s.event g.event).state = .cancelled := by
    simp [State.offers]
  refine and_congr_right fun _ => ?_
  cases state : x.state <;> simp [State.eligible, state, offers, EventState.finished_eq_false, and_comm]

theorem State.refreshUse_iff (s : State) (n pass : Nat) (g : Grant) :
    s.refreshUse n pass = some g ↔ s.Offered (s.slot n) g pass := by
  rw [State.offered_iff, State.refreshUse]
  cases (s.slot n).grant with
  | none => simp
  | some g' =>
    simp only [Option.ite_none_right_eq_some, Option.some.injEq]
    exact and_comm.trans (and_congr_right fun same => same ▸ Iff.rfl)

/-- REFRESH_READ, while the carousel holds the port for it, reads the slot at the cursor (R88). -/
theorem exec_refreshRead (r : s.Reads v (.refresh reads) n u) (cursor : s.carousel.cursor = n) :
    exec (.refreshRead u) s = .next (v.readRefresh n reads) := by
  show execRefreshRead u s = _
  simp only [execRefreshRead, r.port, r.attempt, cursor, State.withinStore, if_pos r.inside, r.corrupted]

theorem State.readRefresh_of_use (good : (v.cell n).checkGood = true)
    (use : v.moveCursor.refreshUse n v.carousel.pass = some g) (reads : Nat) :
    v.readRefresh n reads = (v.moveCursor.emitRefresh n g).releasePort := by
  rw [State.readRefresh, State.check_good v n good]
  simp only [use]

theorem State.readRefresh_of_none (good : (v.cell n).checkGood = true)
    (none : v.moveCursor.refreshUse n v.carousel.pass = none) (reads : Nat) :
    v.readRefresh n reads = v.moveCursor.releasePort.goOn (Attempt.refresh reads).again := by
  rw [State.readRefresh, State.check_good v n good]
  simp only [none, Attempt.again]

/-- The slot at the cursor is offered by what it holds, at the pass before the move (R88, R89). -/
theorem State.Reads.refreshUse_iff (r : s.Reads v a n u) (cursor : s.carousel.cursor = n) (g : Grant) :
    v.moveCursor.refreshUse n v.carousel.pass = some g ↔ s.Offered (v.slot n) g s.carousel.pass := by
  obtain ⟨store, read⟩ := r.moveCursor cursor
  have pass : v.carousel.pass = s.carousel.pass := by
    obtain ⟨_, hv⟩ := r.corruption.only
    rw [hv]
  rw [State.refreshUse_iff, v.slot_congr v.moveCursor n store, pass, State.Offered, read.event,
    read.settings, State.Offered]

/-- `b` emits a message for slot `n` through `b'`, which differs from it in that slot at most: a REVOKE message from a
REVOKING slot, which is left, and a GRANT candidate's message otherwise (R88, R91, R95). -/
theorem State.ReadTo.emitRefresh_spec (r : s.ReadTo b c) (ok : b.storeOk) (n : Nat) (g : Grant) :
    ∃ b' m k, b.emitRefresh n g = b'.emit m k id ∧ s.ReadTo b' c ∧ (∀ j, j ≠ n → b'.cell j = b.cell j)
      ∧ ((b.slot n).state ≠ .revoking → (∀ why, ¬ s.Converts g why) →
          b'.slot n = b.slot n ∧ m = .grant g.decoder g.event (s.event g.event).service g.kind
          ∧ k = .grant n g.decoder g.event)
      ∧ (∀ why, (b.slot n).state ≠ .revoking → s.Converts g why →
          b'.slot n = (b.slot n).revoke why
          ∧ m = .revoke g.decoder g.event (s.event g.event).service (some why)
          ∧ k = .revoke n g.decoder g.event)
      ∧ ((b.slot n).state = .revoking →
          b'.slot n = b.slot n
          ∧ m = .revoke g.decoder g.event (s.event g.event).service (b.slot n).reason
          ∧ k = .revoke n g.decoder g.event) := by
  by_cases revoking : (b.slot n).state = .revoking
  case pos =>
    refine ⟨b, .revoke g.decoder g.event (s.event g.event).service (b.slot n).reason, .revoke n g.decoder g.event,
      ?_, r, fun _ _ => rfl, fun ne => absurd revoking ne, fun _ ne => absurd revoking ne, fun _ => ⟨rfl, rfl, rfl⟩⟩
    rw [State.emitRefresh, if_pos revoking, State.emitRevoke, r.event]
  case neg =>
    obtain ⟨b', m, k, emits, read, cells, unconverted, converted⟩ := State.emitCandidate_spec ok r n g id
    refine ⟨b', m, k, ?_, read, cells, fun _ => unconverted, fun why _ => converted why,
      fun same => absurd same revoking⟩
    rw [State.emitRefresh, if_neg revoking, emits]

/-- A slot that is offered has its message placed, counted in no share (R81, R88, R91). -/
theorem State.Reads.readRefresh_sent (r : s.Reads v (.refresh reads) n u) (cursor : s.carousel.cursor = n)
    (good : (v.cell n).checkGood = true) (offered : s.Offered (v.slot n) g s.carousel.pass) :
    ∃ b m k, s.Sent b (v.readRefresh n reads) s.afterMove m k ∧ (∀ j, j ≠ n → b.cell j = v.cell j)
      ∧ ((v.slot n).state ≠ .revoking → (∀ why, ¬ s.Converts g why) →
          b.slot n = v.slot n ∧ m = .grant g.decoder g.event (s.event g.event).service g.kind
          ∧ k = .grant n g.decoder g.event)
      ∧ (∀ why, (v.slot n).state ≠ .revoking → s.Converts g why →
          b.slot n = (v.slot n).revoke why
          ∧ m = .revoke g.decoder g.event (s.event g.event).service (some why)
          ∧ k = .revoke n g.decoder g.event)
      ∧ ((v.slot n).state = .revoking →
          b.slot n = v.slot n
          ∧ m = .revoke g.decoder g.event (s.event g.event).service (v.slot n).reason
          ∧ k = .revoke n g.decoder g.event) := by
  obtain ⟨moved, read⟩ := r.moveCursor cursor
  have ok : v.moveCursor.storeOk := v.storeOk_congr _ (congrArg GrantStore.memory moved) r.corruption.ok
  obtain ⟨b, m, k, emits, emitted, cells, messages⟩ := read.emitRefresh_spec ok n g
  rw [v.slot_congr v.moveCursor n moved] at messages
  rw [State.readRefresh_of_use good ((r.refreshUse_iff cursor g).2 offered), emits]
  exact ⟨b, m, k, emitted.sent m k id rfl rfl, fun j hj => (cells j hj).trans (v.cell_congr _ j moved), messages⟩

/-- Any other slot is left, and the attempt goes on (R81, R90). -/
theorem State.Reads.readRefresh_barren (r : s.Reads v (.refresh reads) n u) (cursor : s.carousel.cursor = n)
    (good : (v.cell n).checkGood = true) (notOffered : ∀ g, ¬ s.Offered (v.slot n) g s.carousel.pass) :
    s.Barren v (v.readRefresh n reads) s.afterMove (.refresh reads) := by
  obtain ⟨moved, read⟩ := r.moveCursor cursor
  have none : v.moveCursor.refreshUse n v.carousel.pass = none :=
    Option.eq_none_iff_forall_ne_some.2 fun g found => notOffered g ((r.refreshUse_iff cursor g).1 found)
  rw [State.readRefresh_of_none good none]
  obtain ⟨⟨lists, store, kept⟩, goesOn⟩ := read.barren (.refresh reads)
  exact ⟨⟨lists, store.trans moved, kept⟩, goesOn⟩

/-- Offered or not, the cursor has moved, and no slot but the one read has changed. -/
theorem State.Reads.readRefresh_ended (r : s.Reads v (.refresh reads) n u) (cursor : s.carousel.cursor = n)
    (good : (v.cell n).checkGood = true) :
    ∃ b, s.ReadEnded b (v.readRefresh n reads) s.afterMove ∧ ∀ j, j ≠ n → b.cell j = v.cell j := by
  by_cases offered : ∃ g, s.Offered (v.slot n) g s.carousel.pass
  case pos =>
    obtain ⟨_, offered⟩ := offered
    obtain ⟨b, _, _, sent, cells, -⟩ := r.readRefresh_sent cursor good offered
    exact ⟨b, sent.toReadEnded, cells⟩
  case neg =>
    exact ⟨v, (r.readRefresh_barren cursor good (not_exists.1 offered)).toReadEnded, fun _ _ => rfl⟩

end Sys2Proof.Machine

open Sys2Proof Sys2Proof.Machine

/-- Settles O46. A read of the urgent queue's head or of the cursor's slot ends in one of two ways: the slot's message
is placed, of which `State.Sent` says what is left, or the attempt goes on, of which `State.Barren` does; either keeps
what `State.ReadEnded` says. -/
theorem urgentAndRefreshReadsSend : Obligations.UrgentAndRefreshReadsSend := by
  unfold Obligations.UrgentAndRefreshReadsSend
  constructor
  case left =>
    intro s v a n rest u r step head good
    have run := exec_urgentDequeue r step head
    have slot := State.slot_urgentRead r.corruption.ok n rest
    have cells (m : Nat) (hm : m ≠ n) := v.cell_urgentRead hm rest
    have use := r.urgentUse_iff rest
    obtain ⟨⟨fresh, urgent, cursor, pass⟩, store, kept, notice, counters⟩ := r.takeUrgent_ended good rest
    refine ⟨_, run, (State.slot_congr _ _ n store).trans slot,
      fun m hm => (State.cell_congr _ _ m store).trans (cells m hm), urgent, fresh, cursor, pass, kept, notice,
      counters, fun g revoking held notClosed notRetired => ?used, fun dropped => ?dropped⟩
    case used =>
      have sent := r.takeUrgent_sent good ((use g).2 ⟨held, revoking, notClosed, notRetired⟩) a.again
      obtain ⟨urgentShare, freshShare⟩ := sent.shares
      exact ⟨sent.composed, urgentShare, freshShare, sent.port⟩
    case dropped =>
      have unused (g : Grant) : (v.urgentRead n rest).urgentUse n ≠ some g := by
        intro found
        obtain ⟨held, revoking, notClosed, notRetired⟩ := (use g).1 found
        rcases dropped with ne | none | ⟨g', held', ended⟩
        · exact ne revoking
        · exact nomatch held.symm.trans none
        · obtain rfl : g = g' := Option.some.inj (held.symm.trans held')
          exact ended.elim notClosed notRetired
      exact (r.takeUrgent_barren good (Option.eq_none_iff_forall_ne_some.2 unused)).goesOn
  case right =>
    intro s v reads n u r cursor good
    have run := exec_refreshRead r cursor
    obtain ⟨b, ⟨⟨fresh, urgent, movedTo, pass⟩, store, kept, notice, counters⟩, cells⟩ :=
      r.readRefresh_ended cursor good
    refine ⟨_, s.afterMove, run, by rw [State.afterMove, cursor],
      fun j hj => (b.cell_congr _ j store).trans (cells j hj), movedTo, pass, fresh, urgent, kept, notice, counters,
      fun g offered => ?offered, fun notOffered => ?left⟩
    case offered =>
      obtain ⟨b, m, k, sent, -, unconverted, converted, revoking⟩ := r.readRefresh_sent cursor good offered
      have written := b.slot_congr _ n sent.store
      have composed := sent.composed
      obtain ⟨urgentShare, freshShare⟩ := sent.shares
      refine ⟨sent.port, urgentShare, freshShare, fun ne keeps => ?unconverted, fun why ne why' => ?converted,
        fun already => ?revoking⟩
      case unconverted =>
        obtain ⟨same, rfl, rfl⟩ := unconverted ne keeps
        exact ⟨written.trans same, composed⟩
      case converted =>
        obtain ⟨revoked, rfl, rfl⟩ := converted why ne why'
        exact ⟨written.trans revoked, composed⟩
      case revoking =>
        obtain ⟨same, rfl, rfl⟩ := revoking already
        exact ⟨written.trans same, composed⟩
    case left =>
      have barren := r.readRefresh_barren cursor good notOffered
      exact ⟨v.slot_congr _ n barren.store, barren.goesOn⟩

end

