-- ==== Sys2Proof/Proofs/RevokeCompletion.lean ====
section
/-! REVOKE_COMPLETION_UPDATE (R12, R13, R98). -/

namespace Sys2Proof.Machine

variable {s v a : State} {t : Tag} {rest : List Tag} {n d e : Nat} {u : List Nat}

/-! ## A completion update, for either message (R96) -/

theorem State.Updates.corruption (up : s.Updates v t rest n u) : Corrupted s v :=
  .of_upset s v u up.corrupted up.canonical

/-- An update that writes the slot memory and event records but no blackout list leaves, with its tag taken off and the
port handed on, what every completion update leaves (R43, R96). -/
theorem State.endUpdate_kept (only : ∃ m ev, a = { s with store := { s.store with memory := m }, events := ev })
    (ranges : ∀ k, (a.event k).blackout = (s.event k).blackout) (rest : List Tag) :
    s.KeptByUpdate (a.endUpdate rest) rest := by
  have port : State.portReleased { a with port := { a.port with completions := rest } } =
      State.portReleased { s with port := { s.port with completions := rest } } := by
    refine State.portReleased_congr ?_ ?_ ranges
    · obtain ⟨_, _, rfl⟩ := only; rfl
    · obtain ⟨_, _, rfl⟩ := only; rfl
  rw [State.endUpdate_eq, port]
  obtain ⟨_, _, rfl⟩ := only
  exact ⟨rfl, rfl, rfl, rfl, rfl, rfl, rfl, rfl, rfl, rfl, rfl, rfl, rfl, rfl, rfl, rfl, rfl⟩

/-! ## The report of a revoke leaves the blackout lists -/

theorem State.blackout_setEvent {r : EventRecord} (s : State) (n k : Nat)
    (same : r.blackout = (s.event n).blackout) : ((s.setEvent n r).event k).blackout = (s.event k).blackout := by
  rw [State.event_setEvent]
  split
  case isTrue self => rw [same, self.1]
  case isFalse => rfl

theorem State.blackout_report (s : State) (n k : Nat) (f : Counts → Counts) :
    ((s.report n f).event k).blackout = (s.event k).blackout := by
  rw [State.report]
  split
  case isTrue => rfl
  case isFalse => exact s.blackout_setEvent n k rfl

theorem State.blackout_reportRevoked (s : State) (n k : Nat) :
    ((s.reportRevoked n).event k).blackout = (s.event k).blackout := by
  rw [State.reportRevoked, State.retireIfDone]
  split
  case isTrue =>
    refine (State.blackout_setEvent _ n k ?_).trans (s.blackout_report n k _)
    rfl
  case isFalse => exact s.blackout_report n k _

/-! ## The update of a REVOKE message (R98) -/

/-- REVOKE_COMPLETION_UPDATE with its tag at the head is the update of the tag's slot. -/
theorem exec_revokeCompletionUpdate (up : s.Updates v t rest n u) (content : t.content = .revoke n d e) :
    exec (.revokeCompletionUpdate u) s = .next ((v.updateRevoke n d e).endUpdate rest) := by
  show execRevokeCompletionUpdate u s = _
  simp only [execRevokeCompletionUpdate, up.port, up.head, content, up.notVoided, State.withinStore,
    if_pos up.inside, up.corrupted, Bool.false_eq_true, if_false]

/-- The update's slot still holds the pair, REVOKING (R98). -/
def Slot.RevokingFor (x : Slot) (d e : Nat) : Prop := x.holds d e = true ∧ x.state = .revoking

/-- Below the revoke count the emission is counted (R98). -/
theorem State.updateRevoke_of_below (good : (v.cell n).checkGood = true) (still : (v.slot n).RevokingFor d e)
    (below : bump255 (v.slot n).emissions < v.settings.record.revokeCount) :
    v.updateRevoke n d e = v.putSlot n { v.slot n with emissions := bump255 (v.slot n).emissions } := by
  rw [State.updateRevoke, State.check_good v n good]
  exact (if_pos still).trans (if_neg (by omega))

/-- At the revoke count the slot is VACANT, and reported (R98). -/
theorem State.updateRevoke_of_reached (good : (v.cell n).checkGood = true) (still : (v.slot n).RevokingFor d e)
    (reached : v.settings.record.revokeCount ≤ bump255 (v.slot n).emissions) :
    v.updateRevoke n d e = (v.putSlot n (v.slot n).vacate).reportRevoked e := by
  rw [State.updateRevoke, State.check_good v n good]
  exact (if_pos still).trans (if_pos reached)

/-- Any other slot is left (R98). -/
theorem State.updateRevoke_of_other (good : (v.cell n).checkGood = true) (other : ¬ (v.slot n).RevokingFor d e) :
    v.updateRevoke n d e = v := by
  rw [State.updateRevoke, State.check_good v n good]
  exact if_neg other

/-- What the update leaves in each of the three cases: it touches its slot and the record of its event alone, and no
blackout list. -/
theorem State.updateRevoke_only (good : (v.cell n).checkGood = true) (d e : Nat) :
    (∃ m ev, v.updateRevoke n d e = { v with store := { v.store with memory := m }, events := ev })
      ∧ (∀ k, ((v.updateRevoke n d e).event k).blackout = (v.event k).blackout)
      ∧ (∀ m, m ≠ n → (v.updateRevoke n d e).cell m = v.cell m)
      ∧ ∀ m, m ≠ e → (v.updateRevoke n d e).event m = v.event m := by
  by_cases still : (v.slot n).RevokingFor d e
  case neg =>
    rw [State.updateRevoke_of_other good still]
    exact ⟨⟨_, _, rfl⟩, fun _ => rfl, fun _ _ => rfl, fun _ _ => rfl⟩
  case pos =>
    by_cases reached : v.settings.record.revokeCount ≤ bump255 (v.slot n).emissions
    case neg =>
      rw [State.updateRevoke_of_below good still (by omega)]
      exact ⟨⟨_, _, rfl⟩, fun _ => rfl, fun m hm => v.cell_putSlot_other n m _ hm, fun _ _ => rfl⟩
    case pos =>
      rw [State.updateRevoke_of_reached good still reached]
      refine ⟨?_, State.blackout_reportRevoked _ e, ?_⟩
      all_goals obtain ⟨_, only, others⟩ := (v.putSlot n (v.slot n).vacate).reportRevoked_only e
      all_goals rw [only]
      · exact ⟨_, _, rfl⟩
      · exact ⟨fun m hm => v.cell_putSlot_other n m _ hm, others⟩

/-- At the revoke count the slot is VACANT, live is one less and revoked one more, and a CANCELLED event that is swept
becomes RETIRED with its last live grant (R12, R13, R98). -/
theorem State.updateRevoke_vacates (ok : v.storeOk) (good : (v.cell n).checkGood = true)
    (still : (v.slot n).RevokingFor d e) (reached : v.settings.record.revokeCount ≤ bump255 (v.slot n).emissions)
    (he : e < v.events.length) (ne : (v.event e).state ≠ .empty) (live : 1 ≤ (v.event e).counts.live) :
    (v.updateRevoke n d e).slot n = (v.slot n).vacate
      ∧ ((v.event e).state = .cancelled → v.CancelSwept e → (v.event e).counts.live = 1 →
          (v.updateRevoke n d e).event e =
            { v.event e with
              state := .retired
              counts := { (v.event e).counts with
                live := (v.event e).counts.live - 1, revoked := (v.event e).counts.revoked + 1 }
              causes := (v.event e).causes ||| 1#4, repeatsOwed := v.settings.record.stateRepeat })
      ∧ (((v.event e).state ≠ .cancelled ∨ ¬ v.CancelSwept e ∨ 1 < (v.event e).counts.live) →
          (v.updateRevoke n d e).event e =
            { v.event e with
              counts := { (v.event e).counts with
                live := (v.event e).counts.live - 1, revoked := (v.event e).counts.revoked + 1 } }) := by
  have slot := v.slot_putSlot_same n (v.slot n).vacate ok
  obtain ⟨r, run, counts, retires, counted⟩ := (v.putSlot n (v.slot n).vacate).reportRevoked_spec e he ne live
  have self : ((v.putSlot n (v.slot n).vacate).setEvent e r).event e = r := State.event_setEvent_self he r
  rw [State.updateRevoke_of_reached good still reached, run, self]
  rw [counts] at retires counted
  exact ⟨slot, retires, counted⟩

/-- Corruption leaves what tells whether a cancel sweep has completed. -/
theorem Corrupted.cancelSwept (c : Corrupted s v) (n : Nat) : v.CancelSwept n ↔ s.CancelSwept n := by
  obtain ⟨_, rfl⟩ := c.only
  exact Iff.rfl

end Sys2Proof.Machine

open Sys2Proof Sys2Proof.Machine

/-- Settles O50. The update is one of three, told apart by the slot and the revoke count; at the count
`State.updateRevoke_vacates` says what its report makes of the event's record. -/
theorem revokeCompletionVacatesAtCount : Obligations.RevokeCompletionVacatesAtCount := by
  unfold Obligations.RevokeCompletionVacatesAtCount
  intro s v t rest n d e u up content he live ne
  have c := up.corruption
  have good := up.good
  obtain ⟨only, ranges, cells, others⟩ := State.updateRevoke_only good d e
  obtain ⟨_, hv⟩ := c.only
  have events : v.events = s.events := by rw [hv]
  have record : v.settings = s.settings := by rw [hv]
  have written : ∃ m ev,
      v.updateRevoke n d e = { s with store := { s.store with memory := m }, events := ev } := by
    obtain ⟨m, ev, only⟩ := only
    exact ⟨m, ev, by rw [only, hv]⟩
  have run := exec_revokeCompletionUpdate up content
  have kept := State.endUpdate_kept written (fun k => (ranges k).trans (congrArg _ (c.event k))) rest
  rw [State.endUpdate_eq] at run kept
  refine ⟨_, run, kept, cells, fun m hm => (others m hm).trans (c.event m),
    fun g k counts held decoder event revoking emitted counted => ?counted, fun unlike => ?left⟩
  case counted =>
    have still : (v.slot n).RevokingFor d e := ⟨(Slot.holds_iff _ d e).2 ⟨g, held, decoder, event⟩, revoking⟩
    subst emitted counted
    refine ⟨fun below => ?below, fun reached => ?vacated⟩
    case below =>
      have update := State.updateRevoke_of_below good still (record ▸ below)
      have slot := v.slot_putSlot_same n { v.slot n with emissions := bump255 (v.slot n).emissions } c.ok
      rw [← update] at slot
      exact ⟨slot, (congrArg State.events update).trans events⟩
    case vacated =>
      have vacates := State.updateRevoke_vacates c.ok good still (record ▸ reached) (events ▸ he)
        ((c.event e).symm ▸ ne) ((c.event e).symm ▸ live)
      rw [c.event e, c.cancelSwept e, record] at vacates
      exact vacates
  case left =>
    have update : v.updateRevoke n d e = v := by
      refine State.updateRevoke_of_other good ?_
      rintro ⟨holds, revoking⟩
      obtain ⟨g, held, pair⟩ := (Slot.holds_iff _ d e).1 holds
      exact unlike.elim (· revoking) (· g held pair)
    have slot : (v.updateRevoke n d e).slot n = v.slot n := by rw [update]
    exact ⟨slot, (congrArg State.events update).trans events⟩

end

