-- ==== Sys2Proof/Proofs/PacketFinish.lean ====
section
/-! SUPPORT. What a packet that finishes does to its cycle (R79). -/

namespace Sys2Proof.Machine

variable {s : State}

/-- A running cycle ends when its packets are spent, or when nothing was eligible and every packet composed has finished
(R79). -/
theorem State.endCycle_of_running (running : s.carousel.run = .running) :
    s.endCycle = { s with
      carousel :=
        if s.settings.record.cycleLength ≤ s.carousel.finished
            ∨ (s.carousel.exhausted = true ∧ s.carousel.finished = s.carousel.composed) then
          s.carousel.cycleEnded
        else s.carousel } := by
  have ends : s.cycleOver = true ↔ s.settings.record.cycleLength ≤ s.carousel.finished
      ∨ (s.carousel.exhausted = true ∧ s.carousel.finished = s.carousel.composed) := by
    simp [State.cycleOver]
  simp only [State.endCycle, running, true_and, ends]
  split
  case isTrue => rfl
  case isFalse => rfl

/-- A packet finishes in the cycle it was composed in alone, which may end (R79). -/
theorem State.finishPacket_eq (s : State) (cycle : Nat) : s.finishPacket cycle = s.packetFinished cycle := by
  rw [State.finishPacket, State.packetFinished]
  split
  case isTrue current =>
    rw [State.endCycle_of_running (s := s.setCarousel { s.carousel with finished := s.carousel.finished + 1 })
      current.1]
    rfl
  case isFalse => rfl

end Sys2Proof.Machine

end

