-- ==== Sys2Proof/Proofs/PacketStart.lean ====
section
/-! PACKET_START (R124, R126). -/

namespace Sys2Proof.Machine

variable {s : State} {l : BusLines}

/-! ## The grant and the DRIVE line (R124) -/

/-- A secondary holds a grant by GNT, a primary by its arbiter's grant to its own requester. -/
theorem State.holdsGrant_iff (s : State) :
    s.holdsGrant = true ↔
      (s.straps.primary = false ∧ s.bus.lines.gnt = true)
        ∨ (s.straps.primary = true ∧ ∃ taken, s.arbiter.state = .granted .own taken) := by
  rw [State.holdsGrant]
  cases s.straps.primary with
  | false => simp
  | true =>
    cases s.arbiter.state with
    | granted r taken => cases r <;> simp
    | idle => simp
    | fault => simp

/-- DRIVE is asserted by another unit, or by this one while it sends. -/
theorem State.drive_iff (s : State) : s.drive = true ↔ s.bus.lines.drive = true ∨ s.bus.sending ≠ none := by
  simp [State.drive, State.driveOut, Option.isSome_iff_ne_none]

/-! ## A packet that finishes without completion (R79, R126) -/

/-- A buffer has no tag when no packet in it carries one. -/
theorem tagOf_eq_none {b : Option Packet} (untagged : ∀ p t, b = some p → p.tag ≠ some t) : tagOf b = none := by
  cases b with
  | none => rfl
  | some p => exact Option.eq_none_iff_forall_ne_some.2 fun t => untagged p t rfl

/-- A lost packet without a tag finishes in no cycle. -/
theorem State.finishLost_none (s : State) : s.finishLost none = s := rfl

/-- A lost packet with a tag finishes in the cycle of its tag. -/
theorem State.finishLost_some (s : State) (t : Tag) : s.finishLost (some t) = s.packetFinished t.cycle :=
  s.finishPacket_eq t.cycle

/-! ## The start of a packet (R124) -/

/-- With its conditions true, the levels taken in decide between a start and a mode fault. -/
theorem exec_packetStart (requesting : s.bus.state = .requesting) (opened : s.night = .opened)
    (grant : (s.sampleLines l).holdsGrant = true) :
    exec (.packetStart l) s = .next
      (if (s.sampleLines l).drive = true then (s.sampleLines l).modeFault else (s.sampleLines l).beginPacket) := by
  have due : (s.sampleLines l).bus.state = .requesting ∧ (s.sampleLines l).night = .opened
      ∧ (s.sampleLines l).holdsGrant = true := ⟨requesting, opened, grant⟩
  show execPacketStart l s = _
  rw [execPacketStart, State.startPacket, if_pos due]

end Sys2Proof.Machine

open Sys2Proof Sys2Proof.Machine

/-- Settles O20. A mode fault loses the packet, which then finishes in the cycle of its tag if it has one
(`State.finishLost_some`, `State.finishLost_none`). -/
theorem packetStartsOrFaults : Obligations.PacketStartsOrFaults := by
  unfold Obligations.PacketStartsOrFaults
  intro l s requesting opened grant u hu
  have run := exec_packetStart requesting opened ((s.sampleLines l).holdsGrant_iff.2 grant)
  have asserted := (s.sampleLines l).drive_iff
  obtain rfl : s.sampleLines l = u := hu.symm
  constructor
  case left =>
    intro released empty
    have free : ¬ (s.sampleLines l).drive = true := by
      rw [asserted]
      exact not_or.2 ⟨Bool.eq_false_iff.1 released, not_not.2 empty⟩
    rw [run, if_neg free]
    rfl
  case right =>
    intro busy lost hlost
    have fault : (s.sampleLines l).modeFault = lost.finishLost (tagOf s.bus.staging) := by rw [hlost]; rfl
    rw [run, if_pos (asserted.2 busy), fault]
    constructor
    case left =>
      intro p t staged tagged
      rw [staged, tagOf, tagged, State.finishLost_some]
    case right =>
      intro untagged
      rw [tagOf_eq_none untagged, State.finishLost_none]

end

