-- ==== Sys2Proof/Proofs/Recheck.lean ====
section
/-! SUPPORT. The conditions of an event in key wait or of a held epoch checked again (R7, R8, R112, R114). -/

namespace Sys2Proof.Machine

variable {s : State} {n : Nat} {key : Key} {w : Window}

/-! ## What an advance leaves of the event (R7, R111) -/

/-- An event with a next key keeps its window, its hold and its marks at an advance into a state `x`, which it enters
(R7, R9, R111). -/
theorem State.event_advanced (next : (s.event n).keys.next = some key) (x : EventState) :
    (s.advanced n key (some x)).event n =
      { s.event n with
        state := x
        causes := (s.event n).causes ||| 1#4 ||| (if (s.event n).keys.onDeck = none then 4#4 else 0#4)
        repeatsOwed := s.settings.record.stateRepeat
        keys := s.AdvancedKeys n } :=
  State.event_setEvent_self (s.lt_of_next n key next) _

/-- A further change of state on entry leaves what an entry into the later state does (R9). -/
theorem State.changeState_advanced (next : (s.event n).keys.next = some key) (x y : EventState) :
    (s.advanced n key (some x)).changeState n y = s.advanced n key (some y) := by
  have causes : (s.event n).causes ||| 1#4 ||| (if (s.event n).keys.onDeck = none then 4#4 else 0#4) ||| 1#4
      = (s.event n).causes ||| 1#4 ||| (if (s.event n).keys.onDeck = none then 4#4 else 0#4) := by
    rw [BitVec.or_assoc, BitVec.or_assoc, BitVec.or_comm _ 1#4, ← BitVec.or_assoc 1#4, BitVec.or_self,
      ← BitVec.or_assoc]
  rw [State.changeState, State.event_advanced next, EventRecord.changeState_eq]
  simp only [causes]
  simp [State.advanced, State.setEvent, State.stateRepeat]

/-! ## The entry of an event in key wait (R7, R8) -/

/-- The state that entry leads to (R7). -/
theorem Window.entryState_eq (w : Window) (clock : Nat) :
    w.entryState clock = if w.previewStart ≠ none ∧ clock < w.liveStart then .preview else .live := by
  simp only [Window.entryState, Option.isSome_iff_ne_none]

/-- Entry leads to a state ON-SALE or keyed. -/
theorem Window.selling_entryState (w : Window) (clock : Nat) : (w.entryState clock).selling = true := by
  rw [Window.entryState]
  split <;> rfl

/-- The close of an event entered is due at its effective close (R7, R10). -/
theorem State.stepClose_advanced_of_due (next : (s.event n).keys.next = some key) {x : EventState}
    (selling : x.selling = true) (due : effectiveCloseOf w.scheduledClose (s.event n).hold ≤ s.clock.clock) :
    (s.advanced n key (some x)).stepClose n w = (s.advanced n key (some x)).closeEvent n := by
  rw [State.stepClose, State.event_advanced next]
  exact if_pos ⟨selling, due⟩

/-- Before its effective close an event entered LIVE goes on to OVERTIME at its scheduled close (R7, R10). -/
theorem State.stepClose_advanced_of_not_due (next : (s.event n).keys.next = some key) (x : EventState)
    (notDue : s.clock.clock < effectiveCloseOf w.scheduledClose (s.event n).hold) :
    (s.advanced n key (some x)).stepClose n w =
      s.advanced n key (some (if x = .live ∧ w.scheduledClose ≤ s.clock.clock then .overtime else x)) := by
  rw [State.stepClose, State.event_advanced next]
  refine (if_neg fun close => Nat.not_le.2 notDue close.2).trans ?_
  rw [State.changeState_advanced next]
  exact (apply_ite (fun y => s.advanced n key (some y)) _ _ _).symm

/-! ## The check (R8, R112) -/

/-- Nothing happens to an event that waits for no key, that is not ready, or that is neither ON-SALE nor keyed. -/
theorem State.recheck_of_not_waiting
    (idle : (s.event n).keys.keyLate = false ∨ ¬ s.Ready n
      ∨ ((s.event n).state ≠ .onSale ∧ (s.event n).state.keyed = false)) :
    s.recheck n = s := by
  rw [State.recheck]
  rcases idle with notLate | notReady | ⟨notOnSale, notKeyed⟩
  · rw [if_neg fun due => Bool.false_ne_true (notLate.symm.trans due.1)]
  · rw [if_neg fun due => notReady ((s.advanceReady_iff n).1 due.2)]
  · rw [if_neg notOnSale, if_neg (Bool.eq_false_iff.1 notKeyed), ite_self]

/-- A held epoch whose conditions are true advances (R112). -/
theorem State.recheck_of_held (late : (s.event n).keys.keyLate = true) (ready : s.Ready n)
    (next : (s.event n).keys.next = some key) (keyed : (s.event n).state.keyed = true) :
    s.recheck n = s.advanced n key none := by
  have notOnSale : (s.event n).state ≠ .onSale := fun onSale => by rw [onSale] at keyed; exact nomatch keyed
  rw [State.recheck, if_pos ⟨late, (s.advanceReady_iff n).2 ready⟩, if_neg notOnSale, if_pos keyed,
    s.advance_advanced n key next]

/-- An event in key wait whose conditions are true enters, and its close step is taken at once (R7, R8). -/
theorem State.recheck_of_keyWait (late : (s.event n).keys.keyLate = true) (ready : s.Ready n)
    (next : (s.event n).keys.next = some key) (onSale : (s.event n).state = .onSale)
    (window : (s.event n).window = some w) :
    s.recheck n = (s.advanced n key (some (w.entryState s.clock.clock))).stepClose n w := by
  rw [State.recheck, if_pos ⟨late, (s.advanceReady_iff n).2 ready⟩, if_pos onSale,
    s.enter_advanced n key w next window, State.closeStepNow, State.event_advanced next]
  simp only [window]

/-- The check does what R8 and R112 say. -/
theorem State.recheck_rechecks (s : State) (n : Nat) : s.Rechecks (s.recheck n) n := by
  refine ⟨State.recheck_of_not_waiting, fun key late ready next =>
    ⟨State.recheck_of_held late ready next, fun w first onSale window hfirst => ?_⟩⟩
  obtain rfl : w.entryState s.clock.clock = first := (w.entryState_eq _).trans hfirst.symm
  rw [State.recheck_of_keyWait late ready next onSale window]
  constructor
  case left => exact State.stepClose_advanced_of_not_due next _
  case right =>
    intro due
    rw [State.stepClose_advanced_of_due next (w.selling_entryState _) due]
    refine State.closeEvent_ended ?_
    simpa [State.advanced] using s.lt_of_next n key next

end Sys2Proof.Machine

end

