-- ==== Sys2Proof/Proofs/SendEnd.lean ====
section
/-! SEND_END (R79, R96, R99 to R101, R125). -/

namespace Sys2Proof.Machine

variable {s : State} {t : Tag} {n d e : Nat}

/-! ## The report of a completed packet (R79, R96, R101, R125) -/

theorem exec_sendEnd {p : Packet} (sending : s.bus.sending = some p) :
    exec .sendEnd s = .next (s.endSend.complete p.tag) := by
  show execSendEnd s = _
  simp only [execSendEnd, sending]

/-- Sending empties, and a SENDING unit requests again if a packet is staged (R125). -/
theorem State.endSend_eq (s : State) :
    s.endSend = { s with bus := { s.bus with
      sending := none
      state := if s.bus.state = .sending then
          (if s.bus.staging = none then .idle else .requesting) else s.bus.state } } := by
  have state : s.bus.afterSend = if s.bus.state = .sending then
      (if s.bus.staging = none then .idle else .requesting) else s.bus.state := by
    rw [BusInterface.afterSend]
    cases s.bus.staging <;> rfl
  rw [State.endSend, state]
  rfl

/-- A packet without a tag, or that completes outside OPEN, is discarded (R96). -/
theorem State.complete_of_discarded {tag : Option Tag} (discarded : tag = none ∨ s.night ≠ .opened) :
    s.complete tag = s := by
  cases tag with
  | none => rfl
  | some t => exact if_neg (discarded.resolve_left nofun)

/-- A packet with a tag in OPEN is counted, booked, and finishes (R79, R96, R101). -/
theorem State.complete_of_opened (opened : s.night = .opened) (t : Tag) :
    s.complete (some t) = ((s.count (fun c => c.countPacket t.content)).book t).packetFinished t.cycle := by
  rw [State.complete, if_pos opened, State.finishPacket_eq]

/-! ## The bookkeeping of each kind of message (R96, R99, R100) -/

/-- A voided tag books nothing (R96). -/
theorem State.book_of_voided (voided : t.voided = true) : s.book t = s := if_pos voided

section
variable (valid : t.voided = false)
include valid

theorem State.book_key {carried : Option Nat} (content : t.content = .key n carried) :
    s.book t = s.bookKey n carried := by
  simp only [State.book, valid, Bool.false_eq_true, if_false, content]

theorem State.book_state {carried : EventState} (content : t.content = .state n carried) :
    s.book t = s.bookState n carried := by
  simp only [State.book, valid, Bool.false_eq_true, if_false, content]

theorem State.book_grant_or_revoke (content : t.content = .grant n d e ∨ t.content = .revoke n d e) :
    s.book t = s.claimCompletion t := by
  rcases content with content | content <;>
    simp only [State.book, valid, Bool.false_eq_true, if_false, content]

end

/-- A KEY message that carried the present next key raises its announce count, and the event's conditions are checked
again (R99, R109). -/
theorem State.bookKey_of_present {carried : Option Nat} (present : ∃ key, (s.event n).keys.next = some key)
    (same : carried = some ((s.event n).keys.epoch + 1)) :
    s.bookKey n carried =
      (s.setEvent n { s.event n with keys := { (s.event n).keys with
        announceCount := bump255 (s.event n).keys.announceCount } }).recheck n :=
  if_pos ⟨Option.isSome_iff_exists.2 present, same⟩

/-- A KEY message of another key books nothing (R99). -/
theorem State.bookKey_of_other {carried : Option Nat}
    (other : (s.event n).keys.next = none ∨ carried ≠ some ((s.event n).keys.epoch + 1)) :
    s.bookKey n carried = s := by
  refine if_neg fun ⟨present, same⟩ => other.elim (fun none => ?_) (· same)
  rw [none] at present
  exact nomatch present

/-- A STATE message whose state the event still holds lowers the repeats owed (R100). -/
theorem State.bookState_of_held {carried : EventState} (ne : (s.event n).state ≠ .empty)
    (same : (s.event n).state = carried) (owed : 0 < (s.event n).repeatsOwed) :
    s.bookState n carried = s.setEvent n { s.event n with repeatsOwed := (s.event n).repeatsOwed - 1 } :=
  if_pos ⟨ne, same, owed⟩

/-- A STATE message of another state, or with no repeats owed, books nothing (R100). -/
theorem State.bookState_of_other {carried : EventState}
    (other : (s.event n).state = .empty ∨ (s.event n).state ≠ carried ∨ (s.event n).repeatsOwed = 0) :
    s.bookState n carried = s := by
  refine if_neg fun ⟨ne, same, owed⟩ => ?_
  rcases other with empty | differs | paid
  · exact ne empty
  · exact differs same
  · omega

/-- A completion update waits behind those claimed before it, and an IDLE port is granted to the updates (R43, R96). -/
theorem State.claimCompletion_eq (s : State) (t : Tag) :
    s.claimCompletion t = { s with port := { s.port with
      completions := s.port.completions ++ [t]
      state := if s.port.state = .idle then .completion else s.port.state } } := by
  obtain ⟨p, run, granted, updates, _⟩ :=
    (s.setPort { s.port with completions := s.port.completions ++ [t] }).arbitrate_spec
  rw [State.claimCompletion, run]
  by_cases idle : s.port.state = .idle
  case pos =>
    rw [updates idle (by simp), if_pos idle]
    rfl
  case neg =>
    rw [granted idle, if_neg idle]
    rfl

end Sys2Proof.Machine

open Sys2Proof Sys2Proof.Machine

/-- Settles O21. The unit after the send is counted, booked by the kind of its tag and then finishes; of a KEY message
`State.recheck_rechecks` says what the check of the event's conditions does. -/
theorem sendEndReportsCompletion : Obligations.SendEndReportsCompletion := by
  unfold Obligations.SendEndReportsCompletion
  intro s p sending u hu
  have run := exec_sendEnd sending
  obtain rfl : s.endSend = u := s.endSend_eq.trans hu.symm
  refine ⟨fun discarded => ?discarded, fun t a tagged opened ha => ?booked⟩
  case discarded => rw [run, State.complete_of_discarded (s := s.endSend) discarded]
  case booked =>
    obtain rfl : s.endSend.count (fun c => c.countPacket t.content) = a := by
      rw [ha]
      cases t.content <;> rfl
    rw [tagged, State.complete_of_opened (s := s.endSend) opened] at run
    refine ⟨_, run, State.book_of_voided, fun n carried valid content => ?keyBooked,
      fun n carried valid content => ?stateBooked, fun n d e valid content => ?claimed⟩
    case keyBooked =>
      rw [State.book_key valid content]
      refine ⟨fun present same => ?_, State.bookKey_of_other (s := s.endSend.count _)⟩
      rw [State.bookKey_of_present (s := s.endSend.count _) present same]
      exact State.recheck_rechecks _ n
    case stateBooked =>
      rw [State.book_state valid content]
      exact ⟨State.bookState_of_held (s := s.endSend.count _), State.bookState_of_other (s := s.endSend.count _)⟩
    case claimed =>
      rw [State.book_grant_or_revoke valid content]
      exact State.claimCompletion_eq _ t

end

