-- ==== Sys2Proof/Proofs/EventOrder.lean ====
section
/-! The order of the events within one second (R143, log 6). -/

namespace Sys2Proof.Machine

variable {order : List Nat}

/-- A list without its repetitions holds each element once. -/
theorem nodup_eraseDups : ∀ l : List Nat, l.eraseDups.Nodup
  | [] => by simp
  | n :: l => by
    rw [List.eraseDups_cons, List.nodup_cons]
    exact ⟨by simp, nodup_eraseDups (l.filter (fun k => !k == n))⟩
termination_by l => l.length
decreasing_by
  have shorter := List.length_filter_le (fun k => !k == n) l
  simp only [List.length_cons]
  omega

/-- A list that repeats nothing loses nothing. -/
theorem eraseDups_of_nodup {l : List Nat} (once : l.Nodup) : l.eraseDups = l := by
  induction l with
  | nil => simp
  | cons n l ih =>
    obtain ⟨new, once⟩ := List.nodup_cons.1 once
    have kept : l.filter (fun k => !k == n) = l :=
      List.filter_eq_self.2 fun k hk => by simpa using ne_of_mem_of_not_mem hk new
    rw [List.eraseDups_cons, kept, ih once]

/-- The events of a second are the 32 of the table. -/
theorem mem_eventOrder (order : List Nat) (n : Nat) : n ∈ eventOrder order ↔ n < 32 := by
  simp only [eventOrder, List.mem_append, List.mem_eraseDups, List.mem_filter, List.mem_range, decide_eq_true_eq,
    Bool.not_eq_true', List.contains_eq_mem, decide_eq_false_iff_not]
  tauto

/-- No event is taken twice in a second: the others are those that the order does not name. -/
theorem nodup_eventOrder (order : List Nat) : (eventOrder order).Nodup := by
  refine (nodup_eraseDups _).append (List.nodup_range.filter _) fun n named other => ?_
  obtain ⟨_, unnamed⟩ := List.mem_filter.1 other
  simp only [List.contains_iff_mem.2 named, Bool.not_true, Bool.false_eq_true] at unnamed

/-- The events of a second are the 32 of the table, each once. -/
theorem eventOrder_perm (order : List Nat) : (eventOrder order).Perm (List.range 32) :=
  (List.perm_ext_iff_of_nodup (nodup_eventOrder order) List.nodup_range).2 fun n => by
    rw [mem_eventOrder, List.mem_range]

/-- The events that the order names come first and as it names them (log 6). -/
theorem eventOrder_begins (once : order.Nodup) (inside : ∀ n ∈ order, n < 32) :
    ∃ others, eventOrder order = order ++ others := by
  have first : (order.filter (fun n => decide (n < 32))).eraseDups = order := by
    rw [List.filter_eq_self.2 fun n hn => decide_eq_true (inside n hn), eraseDups_of_nodup once]
  exact ⟨_, congrArg (· ++ _) first⟩

end Sys2Proof.Machine
end

