-- ==== Sys2Proof/Proofs/ClockSeconds.lean ====
section
/-! SECOND_PULSE, FLYWHEEL_ENTRY and FLYWHEEL_SECOND (R138 to R142). -/

namespace Sys2Proof.Machine

variable {s : State} {order : List Nat} {a p m k : Nat}

/-! ## The advance of the clock (R142, R143) -/

/-- Below its last value the clock rises and the deadline steps are taken; at its last value it stays, and none is
taken (R142, R143). -/
theorem State.advanceClock_eq (s : State) (order : List Nat) :
    s.advanceClock order =
      if s.clock.clock < 16777215 then
        State.deadlinesOf { s with clock := { s.clock with clock := s.clock.clock + 1 } } (eventOrder order)
      else s := rfl

/-- A moment that is not past is where the timer then stands (log 4). -/
theorem State.reach_eq (inTime : s.timer.now ≤ m) :
    s.reach m = { s with timer := { s.timer with now := m } } := by
  rw [State.reach, max_eq_right inTime]

/-! ## The SECOND pulse (R138, R139, R141) -/

section
variable {elapsed : Nat} (moment : m = s.timer.now + elapsed)
include moment

/-- A pulse moves the timer to its moment and is taken there. -/
theorem exec_secondPulse :
    exec (.secondPulse elapsed order) s =
      .next (State.pulseAt { s with timer := { s.timer with now := m } } m order) := by
  subst moment
  show execSecondPulse elapsed order s = _
  rw [execSecondPulse, State.reach_eq (Nat.le_add_right _ _)]

/-- In STOPPED a pulse is ignored, and only the timer moves (R138). -/
theorem exec_secondPulse_of_stopped (stopped : s.clock.source = .stopped) :
    exec (.secondPulse elapsed order) s = .next { s with timer := { s.timer with now := m } } := by
  rw [exec_secondPulse moment]
  simp only [State.pulseAt, stopped]

/-- In REFERENCE a pulse is taken and advances the clock (R139). -/
theorem exec_secondPulse_of_reference (reference : s.clock.source = .reference) :
    exec (.secondPulse elapsed order) s = .next (State.advanceClock
      { s with
        timer := { s.timer with now := m }
        clock := { s.clock with lastTick := some m, lastPulse := some m } } order) := by
  rw [exec_secondPulse moment]
  simp only [State.pulseAt, State.takePulse, State.setClock, reference]

/-- In FLYWHEEL a pulse is taken with CLOCK-RESTORED; inside the absorb window, which ends 500 ms after the last tick,
it is counted, and past it the clock advances (R141). -/
theorem exec_secondPulse_of_flywheel (flywheel : s.clock.source = .flywheel) (tick : s.clock.lastTick = some a)
    {t : State}
    (restored : t =
      { s with
        timer := { s.timer with now := m }
        clock := { s.clock with source := .reference, lastTick := some m, lastPulse := some m }
        notice := { s.notice with causes := s.notice.causes ||| 0x040#10 } }) :
    exec (.secondPulse elapsed order) s = .next
      (if m < a + 500 then t.count (fun c => { c with absorbedPulses := bump c.absorbedPulses })
      else t.advanceClock order) := by
  rw [exec_secondPulse moment, restored]
  simp only [State.pulseAt, State.restorePulse, NightClock.absorbs, flywheel, tick, decide_eq_true_eq]
  rfl

end

/-! ## The flywheel (R140) -/

/-- A second supplied in time is counted, moves the timer and last tick to its moment, and advances the clock (R140). -/
theorem State.supplySecond_eq (inTime : s.timer.now ≤ m) :
    (s.reach m).supplySecond m order = State.advanceClock
      { s with
        timer := { s.timer with now := m }
        clock := { s.clock with lastTick := some m }
        counters := { s.counters with flywheelSeconds := bump s.counters.flywheelSeconds } } order := by
  rw [State.reach_eq inTime]
  rfl

/-- Flywheel entry raises CLOCK-FLYWHEEL and supplies a second, 1,500 ms after last tick (R140). -/
theorem exec_flywheelEntry (reference : s.clock.source = .reference) (tick : s.clock.lastTick = some a)
    (inTime : s.timer.now ≤ a + 1500) :
    exec (.flywheelEntry order) s = .next (State.advanceClock
      { s with
        timer := { s.timer with now := a + 1500 }
        clock := { s.clock with source := .flywheel, lastTick := some (a + 1500) }
        notice := { s.notice with causes := s.notice.causes ||| 0x020#10 }
        counters := { s.counters with flywheelSeconds := bump s.counters.flywheelSeconds } } order) := by
  show execFlywheelEntry order s = _
  simp only [execFlywheelEntry, reference, tick, State.enterFlywheel]
  exact congrArg Host.Outcome.next (State.supplySecond_eq inTime)

/-- No flywheel entry is due outside REFERENCE (log 2). -/
theorem exec_flywheelEntry_of_undue (undue : s.clock.source ≠ .reference) :
    exec (.flywheelEntry order) s = .next s := by
  show execFlywheelEntry order s = _
  cases source : s.clock.source with
  | stopped | flywheel => simp only [execFlywheelEntry, source]
  | reference => exact absurd source undue

/-- The flywheel's next moment is the next whole second after the last pulse (R140). -/
theorem flywheelMoment_eq (reached : p + 1000 * k ≤ a) (before : a < p + 1000 * (k + 1)) :
    flywheelMoment p a = p + 1000 * (k + 1) := by
  have whole : (a - p) / 1000 = k := by omega
  rw [flywheelMoment, whole]

/-- The flywheel supplies a second at its next moment (R140). -/
theorem exec_flywheelSecond (flywheel : s.clock.source = .flywheel) (tick : s.clock.lastTick = some a)
    (pulse : s.clock.lastPulse = some p) (reached : p + 1000 * k ≤ a) (before : a < p + 1000 * (k + 1))
    (inTime : s.timer.now ≤ p + 1000 * (k + 1)) :
    exec (.flywheelSecond order) s = .next (State.advanceClock
      { s with
        timer := { s.timer with now := p + 1000 * (k + 1) }
        clock := { s.clock with lastTick := some (p + 1000 * (k + 1)) }
        counters := { s.counters with flywheelSeconds := bump s.counters.flywheelSeconds } } order) := by
  rw [← State.supplySecond_eq inTime]
  show execFlywheelSecond order s = _
  simp only [execFlywheelSecond, flywheel, tick, pulse, flywheelMoment_eq reached before]

/-- No flywheel second is due outside FLYWHEEL (log 2). -/
theorem exec_flywheelSecond_of_undue (undue : s.clock.source ≠ .flywheel) :
    exec (.flywheelSecond order) s = .next s := by
  show execFlywheelSecond order s = _
  cases source : s.clock.source with
  | stopped | reference => simp only [execFlywheelSecond, source]
  | flywheel => exact absurd source undue

end Sys2Proof.Machine

open Sys2Proof Sys2Proof.Machine

/-- Settles O42. Each command is an advance of the clock in a unit that has taken the pulse or supplied the second, and
`State.advanceClock_eq` says what the advance does. -/
theorem secondsAdvanceClock : Obligations.SecondsAdvanceClock := by
  unfold Obligations.SecondsAdvanceClock
  refine ⟨fun elapsed order s m moment => ?pulse, fun order s a p tick pulse => ?flywheel⟩
  case pulse =>
    refine ⟨eventOrder_perm order, eventOrder_begins, State.deadlinesOf_foldl, exec_secondPulse_of_stopped moment,
      fun reference below => ?taken, fun reference last => ?takenLast, fun a flywheel tick inside => ?absorbed,
      fun a flywheel tick past below => ?restored, fun a flywheel tick past last => ?restoredLast⟩
    case taken =>
      rw [exec_secondPulse_of_reference moment reference, State.advanceClock_eq, if_pos below, ← reference]
    case takenLast =>
      rw [exec_secondPulse_of_reference moment reference, State.advanceClock_eq, if_neg (Nat.not_lt.2 last)]
    case absorbed =>
      rw [exec_secondPulse_of_flywheel moment flywheel tick rfl, if_pos inside]
      rfl
    case restored =>
      rw [exec_secondPulse_of_flywheel moment flywheel tick rfl, if_neg (Nat.not_lt.2 past),
        State.advanceClock_eq, if_pos below]
    case restoredLast =>
      rw [exec_secondPulse_of_flywheel moment flywheel tick rfl, if_neg (Nat.not_lt.2 past),
        State.advanceClock_eq, if_neg (Nat.not_lt.2 last)]
  case flywheel =>
    refine ⟨fun reference inTime below => ?entered, fun k flywheel reached before inTime below => ?supplied,
      fun reference inTime last => ?enteredLast, fun k flywheel reached before inTime last => ?suppliedLast,
      exec_flywheelEntry_of_undue, exec_flywheelSecond_of_undue⟩
    case entered =>
      rw [exec_flywheelEntry reference tick inTime, State.advanceClock_eq, if_pos below, ← pulse]
    case supplied =>
      rw [exec_flywheelSecond flywheel tick pulse reached before inTime, State.advanceClock_eq, if_pos below,
        ← flywheel, ← pulse]
    case enteredLast =>
      rw [exec_flywheelEntry reference tick inTime, State.advanceClock_eq, if_neg (Nat.not_lt.2 last)]
    case suppliedLast =>
      rw [exec_flywheelSecond flywheel tick pulse reached before inTime, State.advanceClock_eq,
        if_neg (Nat.not_lt.2 last)]

end

