-- ==== Sys2Proof/Proofs/ForcedClears.lean ====
section
/-! The CLEAR records of a forced close, all posted at once (R116, R117, R157). -/

namespace Sys2Proof.Machine

variable {s : State} {n m : Nat}

/-- The event's CLEAR record (R117). -/
def State.clearRecord (s : State) (n : Nat) : ScramblerRecord :=
  { event := n, payload := .clear (s.event n).service }

/-- A SWITCH record of the event is queued: a CLEAR record posted now would withdraw it (R117). -/
def State.switchQueued (s : State) (n : Nat) : Bool :=
  s.scrambler.queue.any (fun r => r.event == n && r.payload.isSwitch)

/-- The CLEAR records of the events listed, posted together: the events' queued records are dropped, those that were
SWITCH records are counted, and the CLEAR records are appended in the list's order. -/
def State.clearsPosted (s : State) (ns : List Nat) : State :=
  { s with
    scrambler := { s.scrambler with
      queue := s.scrambler.queue.filter (fun r => !ns.contains r.event) ++ ns.map s.clearRecord }
    counters := { s.counters with
      switchesWithdrawn := bump^[(ns.filter s.switchQueued).length] s.counters.switchesWithdrawn } }

theorem State.clearsPosted_nil (s : State) : s.clearsPosted [] = s := by
  simp [State.clearsPosted]

/-- A CLEAR record posted for one event: its withdrawn SWITCH record is counted, if it had one (R117). -/
theorem State.postClear_eq (s : State) (n : Nat) :
    s.postClear n =
      { s with
        scrambler := { s.scrambler with
          queue := s.scrambler.queue.filter (fun r => !(r.event == n)) ++ [s.clearRecord n] }
        counters := { s.counters with
          switchesWithdrawn :=
            if s.switchQueued n = true then bump s.counters.switchesWithdrawn
            else s.counters.switchesWithdrawn } } := by
  unfold State.postClear
  cases queued : s.switchQueued n with
  | false => exact if_neg (ne_true_of_eq_false queued)
  | true => exact if_pos queued

/-- Posting a CLEAR record leaves every event's record. -/
theorem State.postClear_event (s : State) (n : Nat) : (s.postClear n).event = s.event := by
  funext m
  simp only [State.event, State.postClear_events]

/-- Posting a CLEAR record of one event withdraws no SWITCH record of another. -/
theorem State.postClear_switchQueued (other : m ≠ n) : (s.postClear n).switchQueued m = s.switchQueued m := by
  rw [Bool.eq_iff_iff]
  simp only [State.switchQueued, State.postClear_queue, List.any_eq_true, List.mem_append, List.mem_filter,
    List.mem_singleton, Bool.and_eq_true, beq_iff_eq, Bool.not_eq_true', beq_eq_false_iff_ne]
  constructor
  · rintro ⟨r, ⟨queued, _⟩ | rfl, event, switch⟩
    · exact ⟨r, queued, event, switch⟩
    · exact absurd event.symm other
  · rintro ⟨r, queued, event, switch⟩
    exact ⟨r, .inl ⟨queued, event ▸ other⟩, event, switch⟩

/-- One CLEAR record posted ahead of those of other events is posted together with them. -/
theorem State.clearsPosted_postClear {ns : List Nat} (new : n ∉ ns) :
    (s.postClear n).clearsPosted ns = s.clearsPosted (n :: ns) := by
  have queues : (s.postClear n).scrambler.queue.filter (fun r => !ns.contains r.event)
        ++ ns.map (s.postClear n).clearRecord
      = s.scrambler.queue.filter (fun r => !(n :: ns).contains r.event) ++ (n :: ns).map s.clearRecord := by
    have same : (s.postClear n).clearRecord = s.clearRecord := by
      funext m
      rw [State.clearRecord, State.postClear_event, State.clearRecord]
    simp [same, State.postClear_queue, List.filter_filter, new, State.clearRecord, Bool.and_comm, beq_eq_decide]
  have counted : ns.filter (s.postClear n).switchQueued = ns.filter s.switchQueued :=
    List.filter_congr fun m hm => State.postClear_switchQueued (ne_of_mem_of_not_mem hm new)
  unfold State.clearsPosted
  rw [queues, counted, State.postClear_eq, List.filter_cons]
  cases s.switchQueued n <;> rfl

/-- A forced close posts the CLEAR records of the keyed events together (R116, R157). -/
theorem State.postForcedClears_eq {ns : List Nat} (once : ns.Nodup) :
    s.postForcedClears ns = s.clearsPosted (ns.filter (fun n => (s.event n).state.keyed)) := by
  induction ns generalizing s with
  | nil => exact s.clearsPosted_nil.symm
  | cons n ns ih =>
    obtain ⟨new, once⟩ := List.nodup_cons.1 once
    rw [State.postForcedClears, ih once, List.filter_cons]
    cases keyed : (s.event n).state.keyed with
    | false => rfl
    | true =>
      simp only [if_true, State.postClear_event]
      exact State.clearsPosted_postClear fun listed => new (List.mem_filter.1 listed).1

end Sys2Proof.Machine
end

