-- ==== Sys2Proof/Proofs/NightClose.lean ====
section
/-! NIGHT_CLOSE (R155 to R157). -/

namespace Sys2Proof.Machine

variable {s : State} {h : HeldRequest} {close : Nat}

/-! ## The close at every block -/

/-- The completion update that holds the port outlives the close as a voided one (log 16). -/
theorem StorePort.keptCompletions_eq (p : StorePort) :
    p.keptCompletions =
      if p.state = .completion then (p.completions.take 1).map (fun t => { t with voided := true }) else [] := by
  unfold StorePort.keptCompletions
  cases p.state
  case completion =>
    have void : Tag.voidIf (fun _ => true) = fun t => { t with voided := true } := by
      funext t
      simp [Tag.voidIf]
    simp only [void, if_true]
  all_goals rfl

/-- The attempt whose read holds the port outlives the close (log 16). -/
theorem State.keptAttempt_eq (s : State) :
    s.keptAttempt = if s.port.state = .composition then s.carousel.attempt else .none := by
  unfold State.keptAttempt
  cases s.port.state <;> rfl

/-- A plain close posts no record. -/
theorem State.takeClose_plain (s : State) : s.takeClose false = s.closeNight := rfl

/-- A forced close posts the CLEAR records of the keyed events before it stops the blocks (R157). -/
theorem State.takeClose_forced (s : State) :
    s.takeClose true =
      (s.clearsPosted ((List.range 32).filter (fun n => (s.event n).state.keyed))).closeNight := by
  rw [← State.postForcedClears_eq List.nodup_range]
  rfl

/-! ## The request at its owner -/

/-- In OPEN a forced close, and a plain one with nothing active, is taken (R155). -/
theorem exec_nightClose_of_passes {forced : Bool} (hq : s.holding h (.nightClose close)) (opened : s.night = .opened)
    (named : boolOfNumber close = some forced) (passes : forced = true ∨ ¬ s.Active) :
    exec .nightClose s = .next ((s.takeClose forced).replied h .ok []) := by
  have notRefused : ¬ (forced = false ∧ s.active = true) := by
    rintro ⟨rfl, active⟩
    exact passes.elim Bool.false_ne_true (· (s.active_iff.1 active))
  show execNightClose s = _
  simp only [execNightClose, hq.1, hq.2, opened, named, if_neg notRefused, State.finish_eq_replied]

/-- A plain close is refused while work is active (R155). -/
theorem exec_nightClose_of_active (hq : s.holding h (.nightClose 0)) (opened : s.night = .opened)
    (active : s.Active) : exec .nightClose s = .next (s.replied h .active []) := by
  show execNightClose s = _
  simp only [execNightClose, hq.1, hq.2, opened, boolOfNumber, if_true, s.active_iff.2 active, and_self,
    State.refuse_eq_replied]

/-- A close outside OPEN is refused (R152, R155). -/
theorem exec_nightClose_of_not_opened (hq : s.holding h (.nightClose close))
    (outside : s.night = .setup ∨ s.night = .closing) :
    exec .nightClose s = .next (s.replied h .wrongNightState []) := by
  show execNightClose s = _
  rcases outside with night | night <;>
    simp only [execNightClose, hq.1, hq.2, night, State.refuse_eq_replied]

/-- A forced field neither 0 nor 1 is BAD-FIELD 1 (R155, R184). -/
theorem exec_nightClose_of_badField (hq : s.holding h (.nightClose close)) (opened : s.night = .opened)
    (unnamed : 1 < close) : exec .nightClose s = .next (s.replied h .badField [1#8]) := by
  have named : boolOfNumber close = none := by
    rw [boolOfNumber, if_neg (by omega), if_neg (by omega)]
  show execNightClose s = _
  simp only [execNightClose, hq.1, hq.2, opened, named, State.badField_eq, State.finish_eq_replied]
  rfl

end Sys2Proof.Machine

open Sys2Proof Sys2Proof.Machine

/-- Settles O16. Either close is `State.closeNight`, a forced one in the unit with the CLEAR records posted, of which
`State.postForcedClears_eq` says what they do to the queue and the counter. -/
theorem nightCloseStopsNight : Obligations.NightCloseStopsNight := by
  unfold Obligations.NightCloseStopsNight
  refine ⟨fun s h forced queue withdrawn hq opened passes plainQueue forcedQueue => ?taken,
    fun s h forced hq => ⟨fun opened plain active => ?active, exec_nightClose_of_not_opened hq,
      exec_nightClose_of_badField hq⟩⟩
  case taken =>
    rw [← State.keptAttempt_eq, ← StorePort.keptCompletions_eq]
    rcases passes with rfl | ⟨rfl, idle⟩
    · obtain ⟨rfl, rfl⟩ := forcedQueue rfl _ rfl
      rw [exec_nightClose_of_passes hq opened rfl (.inl rfl), State.takeClose_forced]
      rfl
    · obtain ⟨rfl, rfl⟩ := plainQueue rfl
      rw [exec_nightClose_of_passes hq opened rfl (.inr idle), State.takeClose_plain]
      rfl
  case active =>
    subst plain
    exact exec_nightClose_of_active hq opened active

end

