-- ==== Sys2Proof/Proofs/UnitReset.lean ====
section
/-! UNIT_RESET and the end of a reply (R165, R168). -/

namespace Sys2Proof.Machine

variable {s : State} {h : HeldRequest} {pins : Straps} {r : Reply}

/-! ## The reset -/

/-- A reset leaves no claim at the port, so the WIPE of UNIT-RESET has its first write granted (R72, R168). -/
theorem State.unitReset_eq (s : State) (pins : Straps) :
    s.unitReset pins =
      { s.resetBlocks pins s.settings.record .notLoaded s.timer s.settings.record.bankA s.settings.record.bankB with
        sweep := { engine := .wiping 0, lastServed := 31, wipePending := false }
        port :=
          { state := .wipeWrite, composition := false, completions := [], request := false, sweep := false } } := by
  rw [State.unitReset, State.startWipe_of_free rfl rfl rfl rfl]
  rfl

theorem State.unitReset_afterReset (s : State) (pins : Straps) : (s.unitReset pins).AfterReset pins := by
  rw [State.unitReset_eq]
  exact {
    night := rfl
    straps := rfl
    clock := rfl
    save := ⟨rfl, rfl⟩
    events := rfl
    selection := rfl
    scrambler := rfl
    store := ⟨rfl, rfl⟩
    claims := ⟨rfl, rfl, rfl, rfl⟩
    sweep := ⟨rfl, rfl⟩
    carousel := rfl
    bus := ⟨rfl, rfl, rfl⟩
    arbiter := rfl
    link := rfl
    notice := rfl
    counters := rfl }

theorem State.unitReset_keptByReset (s : State) (pins : Straps) : s.KeptByReset (s.unitReset pins) := by
  rw [State.unitReset_eq]
  exact ⟨rfl, rfl, rfl, rfl⟩

theorem State.unitReset_wiping (s : State) (pins : Straps) : (s.unitReset pins).Wiping := by
  rw [State.unitReset_eq]
  exact {
    engine := rfl
    port := ⟨rfl, rfl⟩
    sizes := ⟨rfl, rfl⟩
    drawn := ⟨rfl, rfl⟩
    queues := ⟨rfl, rfl⟩
    cursor := ⟨rfl, rfl⟩
    marks := fun r empty => by rw [List.eq_of_mem_replicate empty]; rfl }

/-- The settings UNIT-RESET decides on, and the timer, which it does not move (R168; log 24). -/
theorem State.unitReset_settings (s : State) (pins : Straps) :
    (s.unitReset pins).settings.record = s.settings.record
      ∧ (s.unitReset pins).settings.lastLoad = .notLoaded
      ∧ (s.unitReset pins).timer = s.timer := by
  rw [State.unitReset_eq]
  exact ⟨rfl, rfl, rfl⟩

/-! ## When it is performed -/

theorem exec_unitReset_of_addressed (hq : s.holding h .unitReset) (addressed : h.broadcast = false) :
    exec (.unitReset pins) s = .next (s.replied h .ok []) := by
  obtain ⟨held, request⟩ := hq
  show execUnitReset pins s = _
  simp only [execUnitReset, held, request, addressed, Bool.false_eq_true, if_false, State.finish_eq_replied]

theorem exec_unitReset_of_broadcast (hq : s.holding h .unitReset) (broadcast : h.broadcast = true) :
    exec (.unitReset pins) s = .next (s.unitReset pins) := by
  obtain ⟨held, request⟩ := hq
  show execUnitReset pins s = _
  simp only [execUnitReset, held, request, broadcast, if_true]

/-- The reply whose end performs the reset is the OK of UNIT-RESET (R168). -/
theorem Reply.resets_iff (r : Reply) : r.resets = true ↔ r.code = 0x06#8 ∧ r.result = .ok := by
  simp [Reply.resets, Request.code]

theorem exec_replyComplete_of_resets (replying : s.link.holder = .replying r) (resets : r.resets = true) :
    exec (.replyComplete pins) s = .next (s.unitReset pins) := by
  show execReplyComplete pins s = _
  simp only [execReplyComplete, replying, resets, if_true]

theorem exec_replyComplete_of_not_resets (replying : s.link.holder = .replying r) (keeps : r.resets = false) :
    exec (.replyComplete pins) s = .next (s.setHolder .free) := by
  show execReplyComplete pins s = _
  simp only [execReplyComplete, replying, keeps, Bool.false_eq_true, if_false]

end Sys2Proof.Machine

open Sys2Proof Sys2Proof.Machine

/-- Settles O4. A broadcast request and the end of an addressed one's OK both perform `State.unitReset`, of which the
lemmas above say what it leaves; every other reply only frees the holder. -/
theorem unitResetIsPerformedOnce : Obligations.UnitResetIsPerformedOnce := by
  unfold Obligations.UnitResetIsPerformedOnce
  refine ⟨⟨fun pins s h => exec_unitReset_of_addressed, fun pins s h hq broadcast => ?broadcast,
    fun pins s tag body replying => ?replied⟩, fun pins s r replying other => ?freed⟩
  case broadcast =>
    exact ⟨_, exec_unitReset_of_broadcast hq broadcast, s.unitReset_afterReset pins, s.unitReset_keptByReset pins,
      s.unitReset_wiping pins, s.unitReset_settings pins⟩
  case replied =>
    exact ⟨_, exec_replyComplete_of_resets replying rfl, s.unitReset_afterReset pins, s.unitReset_keptByReset pins,
      s.unitReset_wiping pins, s.unitReset_settings pins⟩
  case freed =>
    have keeps : r.resets = false := by
      rw [← Bool.not_eq_true, Reply.resets_iff]
      exact fun ⟨code, ok⟩ => other.elim (· code) (· ok)
    exact exec_replyComplete_of_not_resets replying keeps

end

