-- ==== Sys2Proof/Proofs/LinkReceiver.lean ====
section
/-! The receiver (R162 to R164), and how the characters of a frame are read (R161). -/

namespace Sys2Proof.Machine

variable {s : State} {broadcast : Bool} {tag code lo hi : Byte} {body : List Byte}

/-! ## Where the receiver goes -/

/-- The model looks the own address up and `State.leadsTo` compares with the strap (R162). -/
theorem State.lead_eq_leadsTo (s : State) (v : Byte) : s.lead v = s.leadsTo v := by
  have broadcastAddress : v.toNat = 31 ↔ v = 31#8 := BitVec.toNat_inj (y := 31#8)
  have ownAddress : s.ownAddress = some v.toNat
      ↔ v.toNat = s.straps.unitAddress.val ∧ 1 ≤ v.toNat ∧ v.toNat ≤ 30 := by
    simp only [State.ownAddress, within, Bool.and_eq_true, decide_eq_true_eq, Option.ite_none_right_eq_some,
      Option.some.injEq]
    omega
  simp only [State.lead, State.leadsTo, broadcastAddress, ownAddress]

theorem State.failFrame_eq_failed (s : State) (leads : Receiver) (f : Counters → Counters) :
    s.failFrame leads f = s.failed leads f := by
  unfold State.failFrame State.failed
  by_cases fourth : 4 ≤ s.link.failureRun + 1
  · rw [if_pos fourth, if_neg (by omega)]
    rfl
  · rw [if_neg fourth, if_pos (by omega)]
    rfl

/-! ## Characters outside a frame, and failures of one (R162, R163) -/

theorem exec_addressCharacter_of_outside (v : Byte) (outside : s.link.receiver = .hunt ∨ s.link.receiver = .passing) :
    exec (.addressCharacter v) s = .next { s with link := { s.link with receiver := s.leadsTo v } } := by
  show execAddressCharacter v s = _
  rcases outside with receiver | receiver
  all_goals
    simp only [execAddressCharacter, receiver, State.lead_eq_leadsTo]
    rfl

theorem exec_addressCharacter_of_addressed (v : Byte) (receiver : s.link.receiver = .addressed broadcast) :
    exec (.addressCharacter v) s =
      .next (s.failed (s.leadsTo v) (fun c => { c with interruptedFrames := bump c.interruptedFrames })) := by
  show execAddressCharacter v s = _
  simp only [execAddressCharacter, receiver, State.lead_eq_leadsTo, State.failFrame_eq_failed]

theorem exec_characterFailure (receiver : s.link.receiver = .addressed broadcast) :
    exec .characterFailure s =
      .next (s.failed .hunt (fun c => { c with characterFailures := bump c.characterFailures })) := by
  show execCharacterFailure s = _
  simp only [execCharacterFailure, receiver, State.failFrame_eq_failed]

theorem exec_gapFailure (receiver : s.link.receiver = .addressed broadcast) :
    exec .gapFailure s = .next (s.failed .hunt (fun c => { c with gapFailures := bump c.gapFailures })) := by
  show execGapFailure s = _
  simp only [execGapFailure, receiver, State.failFrame_eq_failed]

theorem exec_lengthFailure (n : Byte) (receiver : s.link.receiver = .addressed broadcast)
    (out : n.toNat < 2 ∨ 252 < n.toNat) :
    exec (.lengthFailure n) s =
      .next (s.failed .hunt (fun c => { c with lengthFailures := bump c.lengthFailures })) := by
  have refused : ¬ within 2 252 n.toNat = true := by
    simp only [within, Bool.and_eq_true, decide_eq_true_eq]
    omega
  show execLengthFailure n s = _
  simp only [execLengthFailure, receiver, if_neg refused, State.failFrame_eq_failed]

/-! ## Frames (R161) -/

/-- The characters of a frame whose body the link can carry are read as its parts; its CRC is good when its last two
characters are that CRC. -/
theorem readFrame_frameHead (short : body.length ≤ 250) :
    readFrame (frameHead tag code body ++ [lo, hi]) =
      some { tag := tag, code := code, body := body, good := crcBytes (frameHead tag code body) == [lo, hi] } := by
  have length : (byte1 (body.length + 2)).toNat = body.length + 2 := by
    simp only [byte1, BitVec.toNat_ofNat]
    omega
  have fits : (within 2 252 (body.length + 2) && (body ++ [lo, hi]).length == body.length + 2) = true := by
    simp [within, short]
  show readFrame (byte1 (body.length + 2) :: tag :: code :: (body ++ [lo, hi])) = _
  simp only [readFrame, length, if_pos fits, Nat.add_sub_cancel, List.take_left, List.drop_left]
  rfl

/-- A good frame's last two characters are the CRC of the others (R161, R183). -/
theorem goodFrame_eq (tag code : Byte) (body : List Byte) :
    goodFrame tag code body = frameHead tag code body ++ crcBytes (frameHead tag code body) := rfl

/-- A good frame is read as its parts with a good CRC. -/
theorem readFrame_goodFrame (short : body.length ≤ 250) :
    readFrame (goodFrame tag code body) = some { tag := tag, code := code, body := body, good := true } := by
  obtain ⟨lo, hi, crc⟩ : ∃ lo hi, crcBytes (frameHead tag code body) = [lo, hi] := ⟨_, _, rfl⟩
  rw [goodFrame_eq, crc, readFrame_frameHead short, crc, beq_self_eq_true]

theorem exec_requestFrame_of_good (receiver : s.link.receiver = .addressed broadcast) (short : body.length ≤ 250) :
    exec (.requestFrame (goodFrame tag code body)) s =
      .next (s.handOver broadcast { tag := tag, code := code, body := body, good := true }) := by
  show execRequestFrame _ s = _
  simp only [execRequestFrame, receiver, readFrame_goodFrame short, if_true]

theorem exec_requestFrame_of_bad (receiver : s.link.receiver = .addressed broadcast) (short : body.length ≤ 250)
    (bad : crcBytes (frameHead tag code body) ≠ [lo, hi]) :
    exec (.requestFrame (frameHead tag code body ++ [lo, hi])) s =
      .next (s.failed .hunt (fun c => { c with crcFailures := bump c.crcFailures })) := by
  show execRequestFrame _ s = _
  simp only [execRequestFrame, receiver, readFrame_frameHead short, beq_eq_false_iff_ne.2 bad, Bool.false_eq_true,
    if_false, State.failFrame_eq_failed]

end Sys2Proof.Machine

open Sys2Proof Sys2Proof.Machine

/-- Settles O9. Every failure of a frame being collected is `State.failFrame`, which is `State.failed`; the rest is
where the address leads and how `readFrame` finds the CRC. -/
theorem receiverFollowsCharacters : Obligations.ReceiverFollowsCharacters := by
  unfold Obligations.ReceiverFollowsCharacters
  refine ⟨fun v s => exec_addressCharacter_of_outside v, fun b s receiver => ?failures,
    fun s b tag code lo hi body receiver short bad => exec_requestFrame_of_bad receiver short bad⟩
  case failures =>
    exact ⟨exec_characterFailure receiver, exec_gapFailure receiver, fun n => exec_lengthFailure n receiver,
      fun v => exec_addressCharacter_of_addressed v receiver⟩

end

