-- ==== Sys2Proof/Proofs/RequestFields.lean ====
section
/-! The fields of a request read back from its body (R161, R184). -/

namespace Sys2Proof.Machine

variable {b : Byte} {bs : List Byte} {n m v i : Nat}

/-! ## Fields of a body, the first ones skipped -/

@[simp] theorem fieldAt_cons_succ : fieldAt (b :: bs) (i + 1) n = fieldAt bs i n := rfl

@[simp] theorem fieldAt_cons_zero : fieldAt (b :: bs) 0 1 = b.toNat := rfl

@[simp] theorem byteAt_cons_succ : byteAt (b :: bs) (i + 1) = byteAt bs i := rfl

@[simp] theorem byteAt_cons_zero : byteAt (b :: bs) 0 = b := rfl

theorem fieldAt_leBytes (small : v < 256 ^ n) : fieldAt (leBytes n v ++ bs) 0 n = v := by
  rw [fieldAt, List.drop_zero, List.take_left' (length_leBytes n v), le_leBytes, Nat.mod_eq_of_lt small]

theorem fieldAt_skip (after : n ≤ i) : fieldAt (leBytes n v ++ bs) i m = fieldAt bs (i - n) m := by
  rw [fieldAt, List.drop_append, length_leBytes, List.drop_eq_nil_of_le (by rwa [length_leBytes]), List.nil_append,
    fieldAt]

theorem byteAt_skip (after : n ≤ i) : byteAt (leBytes n v ++ bs) i = byteAt bs (i - n) := by
  rw [byteAt, List.getD_append_right _ _ _ _ (by rwa [length_leBytes]), length_leBytes, byteAt]

theorem fieldAt_leBytes_last (small : v < 256 ^ n) : fieldAt (leBytes n v) 0 n = v := by
  simpa using fieldAt_leBytes (bs := []) small

theorem toNat_byte1 (small : v < 256) : (byte1 v).toNat = v := by
  simp [byte1, Nat.mod_eq_of_lt small]

theorem ofLength_of_eq {body : List Byte} (q : Request) (length : body.length = n) : ofLength body n q = .ok q :=
  if_pos length

theorem eq_badLength_of_ofLength {body : List Byte} {q : Request} {r : ResultCode}
    (error : ofLength body n q = .error r) : r = .badLength := by
  unfold ofLength at error
  split at error
  · nomatch error
  · exact (Except.error.inj error).symm

/-! ## Requests whose fields are read as a record -/

theorem readAck_bytes (a : AckFields) (fits : (Request.noticeAck a).fits = true) : readAck a.bytes = a := by
  simp only [Request.fits, Bool.and_eq_true, decide_eq_true_eq, beq_iff_eq, List.all_eq_true] at fits
  obtain ⟨⟨⟨rearm, count⟩, -⟩, events⟩ := fits
  have entries : readEntries (a.bytes.drop 8) = a.entries := readEntries_entryBytes a.entries events
  have causes := a.causes.isLt
  have unitMasks := a.unitMasks.isLt
  have count' : a.entryCount < 256 := by omega
  unfold readAck
  rw [entries]
  simp [AckFields.bytes, fieldAt_skip, fieldAt_leBytes, byteAt_skip, toNat_byte1, *]

theorem readDefine_bytes (d : DefineFields) (fits : (Request.eventDefine d).fits = true) : readDefine d.bytes = d := by
  simp only [Request.fits, Bool.and_eq_true, decide_eq_true_eq, beq_iff_eq, List.all_eq_true] at fits
  obtain ⟨⟨⟨⟨⟨⟨⟨⟨event, service⟩, saleOpen⟩, preview⟩, live⟩, close⟩, count⟩, -⟩, codes⟩ := fits
  have entries : readRanges (d.bytes.drop 17) = d.ranges := readRanges_rangeBytes d.ranges codes
  have count' : d.rangeCount < 256 := by omega
  unfold readDefine
  rw [entries]
  simp [DefineFields.bytes, fieldAt_skip, fieldAt_leBytes, byteAt_skip, toNat_byte1, *]

theorem readHold_body (f : HoldFields) (fits : (Request.eventHold f).fits = true) :
    readHold (Request.eventHold f).body = f := by
  simp only [Request.fits, Bool.and_eq_true, decide_eq_true_eq] at fits
  obtain ⟨⟨event, kind⟩, time⟩ := fits
  simp [readHold, Request.body, fieldAt_leBytes_last, toNat_byte1, *]

theorem RawConfig.ofBytes_bytes (r : RawConfig) (fits : (Request.configWrite r).fits = true) :
    RawConfig.ofBytes r.bytes = r := by
  simp only [Request.fits, Bool.and_eq_true, decide_eq_true_eq] at fits
  simp [RawConfig.ofBytes, RawConfig.bytes, fieldAt_skip, fieldAt_leBytes, byteAt_skip, toNat_byte1, fits]

theorem AckFields.length_bytes (a : AckFields) : a.bytes.length = 8 + 2 * a.entries.length := by
  simp only [AckFields.bytes, List.length_append, List.length_cons, List.length_nil, length_leBytes, length_entryBytes]

theorem DefineFields.length_bytes (d : DefineFields) : d.bytes.length = 17 + 2 * d.ranges.length := by
  simp only [DefineFields.bytes, List.length_append, List.length_cons, List.length_nil, length_leBytes,
    length_rangeBytes]

/-! ## Every request -/

/-- The repeated fields of a request that fits are as many as its count says. -/
theorem Request.entries_length {a : AckFields} (fits : (Request.noticeAck a).fits = true) :
    a.entries.length = a.entryCount ∧ a.entryCount < 122 := by
  simp only [Request.fits, Bool.and_eq_true, decide_eq_true_eq, beq_iff_eq] at fits
  obtain ⟨⟨⟨-, few⟩, count⟩, -⟩ := fits
  exact ⟨count, few⟩

theorem Request.ranges_length {d : DefineFields} (fits : (Request.eventDefine d).fits = true) :
    d.ranges.length = d.rangeCount ∧ d.rangeCount < 117 := by
  simp only [Request.fits, Bool.and_eq_true, decide_eq_true_eq, beq_iff_eq] at fits
  obtain ⟨⟨⟨-, few⟩, count⟩, -⟩ := fits
  exact ⟨count, few⟩

/-- A request that fits is one a frame can carry (R161). -/
theorem Request.length_body_le (q : Request) (fits : q.fits = true) : q.body.length ≤ 250 := by
  cases q
  case noticeAck a =>
    have length := a.length_bytes
    obtain ⟨count, few⟩ := Request.entries_length fits
    rw [Request.body]
    omega
  case eventDefine d =>
    have length := d.length_bytes
    obtain ⟨count, few⟩ := Request.ranges_length fits
    rw [Request.body]
    omega
  -- the requests of one length
  all_goals exact Nat.le_of_ble_eq_true rfl

/-- The two requests with repeated fields have the length their count gives (section 11.3). -/
theorem Request.read_noticeAck (body : List Byte) :
    Request.read 0x05#8 body =
      if 8 ≤ body.length then ofLength body (8 + 2 * fieldAt body 7 1) (.noticeAck (readAck body))
      else .error .badLength := rfl

theorem Request.read_eventDefine (body : List Byte) :
    Request.read 0x20#8 body =
      if 17 ≤ body.length then ofLength body (17 + 2 * fieldAt body 16 1) (.eventDefine (readDefine body))
      else .error .badLength := rfl

/-- A request that fits its frame reads back from its code and its body (R161, R184). -/
theorem Request.read_body (q : Request) (fits : q.fits = true) : Request.read q.code q.body = .ok q := by
  cases q
  case unitId | unitStatus | noticeFetch | unitReset | configRead | settingsSave | busClear => rfl
  case noticeAck a =>
    have length := a.length_bytes
    have fields := readAck_bytes a fits
    have count : fieldAt a.bytes 7 1 = a.entryCount := congrArg AckFields.entryCount fields
    have entries : a.entries.length = a.entryCount := (Request.entries_length fits).1
    rw [Request.code, Request.body, Request.read_noticeAck, if_pos (by omega), fields, ofLength_of_eq _ (by omega)]
  case eventDefine d =>
    have length := d.length_bytes
    have fields := readDefine_bytes d fits
    have count : fieldAt d.bytes 16 1 = d.rangeCount := congrArg DefineFields.rangeCount fields
    have ranges : d.ranges.length = d.rangeCount := (Request.ranges_length fits).1
    rw [Request.code, Request.body, Request.read_eventDefine, if_pos (by omega), fields, ofLength_of_eq _ (by omega)]
  case eventHold f =>
    exact (ofLength_of_eq _ rfl).trans (congrArg (fun g => Except.ok (Request.eventHold g)) (readHold_body f fits))
  case configWrite r =>
    exact (ofLength_of_eq _ rfl).trans
      (congrArg (fun g => Except.ok (Request.configWrite g)) (RawConfig.ofBytes_bytes r fits))
  case keyLoad e n k =>
    simp only [Request.fits, Bool.and_eq_true, decide_eq_true_eq] at fits
    have key : fieldAt (leBytes 16 k.toNat) 0 16 = k.toNat := fieldAt_leBytes_last (k.isLt.trans_eq (by norm_num))
    refine (ofLength_of_eq _ rfl).trans ?_
    simp [Request.body, fieldAt_skip, fieldAt_leBytes, toNat_byte1, fits, key]
  -- the requests of one length whose fields are numbers
  all_goals
    simp only [Request.fits, Bool.and_eq_true, decide_eq_true_eq] at fits
    refine (ofLength_of_eq _ rfl).trans ?_
    simp [Request.body, fieldAt_skip, fieldAt_leBytes, fieldAt_leBytes_last, toNat_byte1, fits]

/-- A code that names no request and a length that is not its own are the faults of reading a request (R166). -/
theorem Request.error_of_read {code : Byte} {body : List Byte} {r : ResultCode}
    (error : Request.read code body = .error r) : r = .badCode ∨ r = .badLength := by
  unfold Request.read at error
  -- the codes of NOTICE-ACK and EVENT-DEFINE, which have a least length, and every code that names no request
  split at error
  case h_5 | h_13 =>
    split at error
    · exact .inr (eq_badLength_of_ofLength error)
    · exact .inr (Except.error.inj error).symm
  case h_25 => exact .inl (Except.error.inj error).symm
  all_goals exact .inr (eq_badLength_of_ofLength error)

end Sys2Proof.Machine
end

