-- ==== Sys2Proof/Proofs/RequestHolder.lean ====
section
/-! A good frame at the request holder (R165, R166). -/

namespace Sys2Proof.Machine

variable {s : State} {broadcast : Bool} {tag code : Byte} {body : List Byte}

/-- The two requests a unit in STARTING takes (R166). -/
theorem Request.inStarting_iff (q : Request) : q.inStarting = true ↔ q = .unitId ∨ q = .unitStatus := by
  cases q <;> simp [Request.inStarting]

/-! ## A frame that a FREE holder takes -/

theorem State.acceptFrame_of_held {q : Request} (read : Request.read code body = .ok q)
    (allowed : s.night ≠ .starting ∨ q = .unitId ∨ q = .unitStatus) :
    s.acceptFrame broadcast { tag := tag, code := code, body := body, good := true } =
      s.setHolder (.held { broadcast := broadcast, tag := tag, request := q }) := by
  have passes : ¬ (s.night = .starting ∧ q.inStarting = false) := by
    rintro ⟨starting, refused⟩
    rcases allowed with other | taken
    · exact other starting
    · rw [q.inStarting_iff.2 taken] at refused
      exact nomatch refused
  simp only [State.acceptFrame, read, if_neg passes]

theorem State.acceptFrame_of_error {r : ResultCode} (read : Request.read code body = .error r) :
    s.acceptFrame broadcast { tag := tag, code := code, body := body, good := true } =
      s.answer broadcast tag code r [] := by
  simp only [State.acceptFrame, read]

theorem State.acceptFrame_of_notReady {q : Request} (read : Request.read code body = .ok q)
    (starting : s.night = .starting) (other : q ≠ .unitId ∧ q ≠ .unitStatus) :
    s.acceptFrame broadcast { tag := tag, code := code, body := body, good := true } =
      s.answer broadcast tag code .notReady [] := by
  have refused : q.inStarting = false := by
    rw [← Bool.not_eq_true, q.inStarting_iff]
    exact fun taken => taken.elim other.1 other.2
  simp only [State.acceptFrame, read, starting, refused, and_self, if_true]

/-! ## What a good frame leaves -/

/-- The link after a good frame: outside a frame, with a failure run of 0, and the frame counted (R163, R165). -/
def State.frameTaken (s : State) : State :=
  { s with
    link := { s.link with receiver := .hunt, failureRun := 0 }
    counters := { s.counters with framesTaken := bump s.counters.framesTaken } }

theorem exec_requestFrame_of_free (receiver : s.link.receiver = .addressed broadcast) (short : body.length ≤ 250)
    (free : s.link.holder = .free) :
    exec (.requestFrame (goodFrame tag code body)) s =
      .next (s.frameTaken.acceptFrame broadcast { tag := tag, code := code, body := body, good := true }) := by
  simp only [exec_requestFrame_of_good receiver short, State.handOver, free]
  rfl

/-- A good frame that finds the holder occupied is an overrun (R165). -/
theorem exec_requestFrame_of_occupied (receiver : s.link.receiver = .addressed broadcast) (short : body.length ≤ 250)
    (occupied : s.link.holder ≠ .free) :
    exec (.requestFrame (goodFrame tag code body)) s =
      .next ((s.frameTaken.raise .linkOverrun).count (fun c => { c with overruns := bump c.overruns })) := by
  rw [exec_requestFrame_of_good receiver short, State.handOver]
  cases holder : s.link.holder with
  | free => exact absurd holder occupied
  | held | replying => rfl

/-- A result of the link's own checks: the reply, or the FREE holder when the frame was broadcast (R165, R166). -/
theorem State.answer_eq (s : State) (broadcast : Bool) (tag code : Byte) (r : ResultCode) :
    s.answer broadcast tag code r [] = { s with
      link := { s.link with
        holder :=
          match broadcast with
          | true => .free
          | false => .replying { tag := tag, code := code, result := r, body := [] } } } := by
  cases broadcast <;> rfl

end Sys2Proof.Machine

open Sys2Proof Sys2Proof.Machine

/-- Settles O11. Each clause is `State.handOver` of the frame as `readFrame_goodFrame` reads it: the first has the
request of `Request.read_body`, the second the faults of `Request.error_of_read` or NOT-READY. -/
theorem goodFramesReachHolder : Obligations.GoodFramesReachHolder := by
  unfold Obligations.GoodFramesReachHolder
  refine ⟨fun s b tag q receiver free fits allowed => ?held,
    fun s b tag code body r receiver free short refused => ⟨?faults, ?answered⟩,
    fun s b tag code body receiver occupied short => ?overrun⟩
  case held =>
    rw [exec_requestFrame_of_free receiver (q.length_body_le fits) free,
      State.acceptFrame_of_held (s := s.frameTaken) (q.read_body fits) allowed]
    rfl
  case faults =>
    rcases refused with error | ⟨notReady, -⟩
    · exact (Request.error_of_read error).imp_right .inl
    · exact .inr (.inr notReady)
  case answered =>
    rw [exec_requestFrame_of_free receiver short free]
    rcases refused with error | ⟨rfl, starting, q, read, other⟩
    · rw [State.acceptFrame_of_error error, State.answer_eq]
      rfl
    · rw [State.acceptFrame_of_notReady (s := s.frameTaken) read starting other, State.answer_eq]
      rfl
  case overrun =>
    rw [exec_requestFrame_of_occupied receiver short occupied]
    rfl

end

