-- ==== Sys2Proof/Proofs/NoticeLine.lean ====
section
/-! NOTICE_FETCH and the ATTENTION line (R172, R173). -/

namespace Sys2Proof.Machine

variable {s : State} {h : HeldRequest}

/-! ## The events with a cause pending (R173) -/

theorem State.length_pendingEvents (s : State) :
    s.pendingEvents.length = ((List.range 32).filter (fun n => (s.event n).causes != 0#4)).length := by
  rw [State.pendingEvents, List.length_filterMap_eq_countP, List.countP_eq_length_filter]
  congr 2
  funext n
  split <;> simp [*]

theorem State.flatMap_pendingEvents (s : State) (bytes : Nat × BitVec 4 → List Byte) :
    s.pendingEvents.flatMap bytes =
      (List.range 32).flatMap (fun n =>
        if (s.event n).causes = 0#4 then [] else bytes (n, (s.event n).causes)) := by
  rw [State.pendingEvents, List.filterMap_eq_flatMap_toList, List.flatMap_assoc]
  congr 1
  funext n
  split <;> simp

theorem exec_noticeFetch (hq : s.holding h .noticeFetch) :
    exec .noticeFetch s =
      .next ((s.setNotice { s.notice with master := false }).replied h .ok s.noticeBody) := by
  obtain ⟨held, request⟩ := hq
  show execNoticeFetch s = _
  simp only [execNoticeFetch, held, request, State.finish_eq_replied]

/-! ## ATTENTION (R172) -/

theorem State.eventAttention_iff (s : State) :
    s.eventAttention = true ↔ ∃ r ∈ s.events, r.causes &&& s.notice.eventMasks ≠ 0#4 := by
  simp [State.eventAttention]

/-- The bit of EVENT-ATTENTION is enabled when its mask is. -/
theorem and_eventAttention_ne_zero (masks : BitVec 11) : 0x400#11 &&& masks ≠ 0#11 ↔ masks.getLsbD 10 = true := by
  rw [show 0x400#11 = BitVec.twoPow 11 10 from rfl, BitVec.twoPow_and]
  split <;> simp_all

/-- An enabled cause is pending: one of the unit's own, or EVENT-ATTENTION (R172). -/
theorem State.unitCauses_and_ne_zero (s : State) (masks : BitVec 11) :
    s.unitCauses &&& masks ≠ 0#11 ↔
      s.notice.causes.setWidth 11 &&& masks ≠ 0#11 ∨ (s.eventAttention = true ∧ masks.getLsbD 10 = true) := by
  rw [← and_eventAttention_ne_zero, State.unitCauses, BitVec.and_or_distrib_right, ne_eq, BitVec.or_eq_zero_iff,
    not_and_or]
  cases s.eventAttention <;> simp

theorem State.attention_iff (s : State) :
    s.attention = true ↔ s.notice.master = true
      ∧ (s.notice.causes.setWidth 11 &&& s.notice.unitMasks ≠ 0#11
        ∨ (s.eventAttention = true ∧ s.notice.unitMasks.getLsbD 10 = true)) := by
  rw [State.attention, Bool.and_eq_true, bne_iff_ne, State.unitCauses_and_ne_zero]

end Sys2Proof.Machine
end

