-- ==== Sys2Proof/Proofs/FirstBadField.lean ====
section
/-! Which field a chain of checks names (R184; log 21), and the chain of NOTICE-ACK (R174). -/

namespace Sys2Proof.Machine

/-- A chain of checks names `answer`: the least index that is out, nothing when none is. All it tests stand at `start`
or later. -/
structure NamesFirst (answer : Option Nat) (start : Nat) (Out : Nat → Prop) : Prop where
  above : ∀ i, Out i → start ≤ i
  named : ∀ i, answer = some i → Out i ∧ ∀ j, j < i → ¬ Out j
  silent : answer = none → ∀ i, ¬ Out i

variable {answer : Option Nat} {start : Nat} {Out : Nat → Prop}

/-- A chain with nothing to test names nothing. -/
theorem NamesFirst.nothing (start : Nat) (never : ∀ i, ¬ Out i) : NamesFirst none start Out where
  above i out := absurd out (never i)
  named _ named := nomatch named
  silent _ := never

/-- A check in front of a chain. -/
theorem NamesFirst.check {c d : Prop} [Decidable c] (tests : c ↔ d) (rest : NamesFirst answer (start + 1) Out) :
    NamesFirst (if c then some start else answer) start (fun i => (i = start ∧ d) ∨ Out i) where
  above i := by
    rintro (⟨rfl, -⟩ | out)
    · exact le_rfl
    · exact Nat.le_of_succ_le (rest.above i out)
  named i named := by
    obtain ⟨bad, rfl⟩ | ⟨good, later⟩ := (check_some _ _ _).1 named
    · refine ⟨.inl ⟨rfl, tests.1 bad⟩, fun j before => ?_⟩
      rintro (⟨rfl, -⟩ | out)
      · exact lt_irrefl _ before
      · have := rest.above j out
        omega
    · obtain ⟨out, first⟩ := rest.named i later
      refine ⟨.inr out, fun j before => ?_⟩
      rintro (⟨-, bad⟩ | earlier)
      · exact good (tests.2 bad)
      · exact first j before earlier
  silent silent i := by
    obtain ⟨good, later⟩ := (check_none _ _).1 silent
    rintro (⟨-, bad⟩ | out)
    · exact good (tests.2 bad)
    · exact rest.silent later i out

/-- A chain names a field exactly when one is out. -/
theorem NamesFirst.eq_none_iff (names : NamesFirst answer start Out) : answer = none ↔ ¬ ∃ i, Out i := by
  refine ⟨fun silent ⟨i, out⟩ => names.silent silent i out, fun none => ?_⟩
  cases named : answer with
  | none => rfl
  | some i => exact absurd ⟨i, (names.named i named).1⟩ none

/-- The field at `i`, of entries whose fields stand from `start` on, is out (R174, R184). -/
def AckFields.EntryOut (entries : List AckEntry) (start i : Nat) : Prop :=
  ∃ k e, entries[k]? = some e
    ∧ ((i = start + 2 * k ∧ 31 < e.event) ∨ (i = start + 1 + 2 * k ∧ e.causes &&& 0xF0#8 ≠ 0#8))

/-- The fields of the first entry stand before those of the others. -/
theorem AckFields.entryOut_cons (e : AckEntry) (es : List AckEntry) (start : Nat) :
    AckFields.EntryOut (e :: es) start = fun i =>
      (i = start ∧ 31 < e.event) ∨ (i = start + 1 ∧ e.causes &&& 0xF0#8 ≠ 0#8)
        ∨ AckFields.EntryOut es (start + 2) i := by
  funext i
  refine propext ⟨?_, ?_⟩
  · rintro ⟨k, e', entry, out⟩
    cases k with
    | zero =>
      obtain rfl : e = e' := Option.some.inj entry
      exact out.imp id .inl
    | succ k =>
      refine .inr (.inr ⟨k, e', entry, out.imp ?_ ?_⟩) <;> exact And.imp_left (by omega)
  · rintro (out | out | ⟨k, e', entry, out⟩)
    · exact ⟨0, e, rfl, .inl out⟩
    · exact ⟨0, e, rfl, .inr out⟩
    · exact ⟨k + 1, e', entry, out.imp (And.imp_left (by omega)) (And.imp_left (by omega))⟩

theorem AckFields.badEntry_names (entries : List AckEntry) (start : Nat) :
    NamesFirst (AckFields.badEntry entries start) start (AckFields.EntryOut entries start) := by
  induction entries generalizing start with
  | nil => exact .nothing start fun i ⟨k, e, entry, _⟩ => nomatch entry
  | cons e es ih =>
    rw [AckFields.badEntry, AckFields.entryOut_cons]
    exact .check Iff.rfl (.check bne_iff_ne (ih (start + 2)))

theorem boolOfNumber_isNone_iff (n : Nat) : (boolOfNumber n).isNone = true ↔ 1 < n := by
  unfold boolOfNumber
  split
  · simp [*]
  · split
    · simp [*]
    · simp
      omega

/-- The index NOTICE-ACK is refused with is that of its first bad field (R174, R184; log 21). -/
theorem AckFields.firstBad_names (a : AckFields) : NamesFirst a.firstBad 1 a.FieldOut := by
  refine .check bne_iff_ne (.check bne_iff_ne (.check ?_ (.check ?_ (.check (boolOfNumber_isNone_iff a.rearm)
    (.check Iff.rfl ?_)))))
  · rw [Bool.and_eq_true, bne_iff_ne]
  · rw [Bool.and_eq_true, bne_iff_ne]
  · exact AckFields.badEntry_names a.entries 7

/-- What makes some field of NOTICE-ACK bad, whatever its index. -/
theorem AckFields.exists_fieldOut_iff (a : AckFields) :
    (∃ i, a.FieldOut i) ↔
      a.causes &&& 0xF800#16 ≠ 0#16 ∨ a.flags &&& 0xFC#8 ≠ 0#8
        ∨ (a.flags.getLsbD 0 = true ∧ a.unitMasks &&& 0xF800#16 ≠ 0#16)
        ∨ (a.flags.getLsbD 1 = true ∧ a.eventMasks &&& 0xF0#8 ≠ 0#8) ∨ 1 < a.rearm
        ∨ 32 < a.entryCount ∨ ∃ e ∈ a.entries, 31 < e.event ∨ e.causes &&& 0xF0#8 ≠ 0#8 := by
  have entries : (∃ i, AckFields.EntryOut a.entries 7 i)
      ↔ ∃ e ∈ a.entries, 31 < e.event ∨ e.causes &&& 0xF0#8 ≠ 0#8 := by
    simp only [AckFields.EntryOut, List.mem_iff_getElem?]
    constructor
    · rintro ⟨i, k, e, entry, out⟩
      exact ⟨e, ⟨k, entry⟩, out.imp And.right And.right⟩
    · rintro ⟨e, ⟨k, entry⟩, out | out⟩
      · exact ⟨_, k, e, entry, .inl ⟨rfl, out⟩⟩
      · exact ⟨_, k, e, entry, .inr ⟨rfl, out⟩⟩
  rw [← entries]
  simp only [AckFields.FieldOut, AckFields.EntryOut, exists_or, exists_eq_left]

end Sys2Proof.Machine
end

