-- ==== Sys2Proof/Proofs/NoticeAck.lean ====
section
/-! NOTICE_ACK (R174). -/

namespace Sys2Proof.Machine

variable {s : State} {h : HeldRequest} {a : AckFields} {n : Nat}

/-! ## The causes of an event that entries leave -/

/-- The causes of event `n` after an entry, which clears the causes it names of the event it names (R174). -/
def AckEntry.leaves (n : Nat) (causes : BitVec 4) (e : AckEntry) : BitVec 4 :=
  if e.event = n then causes &&& ~~~(e.causes.setWidth 4) else causes

theorem AckEntry.getLsbD_leaves (n : Nat) (causes : BitVec 4) (e : AckEntry) (i : Nat) :
    (e.leaves n causes).getLsbD i = true
      ↔ causes.getLsbD i = true ∧ (e.event = n → e.causes.getLsbD i = false) := by
  unfold AckEntry.leaves
  by_cases names : e.event = n
  case neg => simp [names]
  case pos =>
    rw [if_pos names, BitVec.getLsbD_and, Bool.and_eq_true]
    refine and_congr_right fun pending => ?_
    have bit : i < 4 := BitVec.lt_of_getLsbD pending
    simp [names, bit]

/-- A cause stays pending when no entry of the event names it, the entries being taken one after another. -/
theorem AckEntry.getLsbD_foldl_leaves (n : Nat) (causes : BitVec 4) (es : List AckEntry) (i : Nat) :
    (es.foldl (AckEntry.leaves n) causes).getLsbD i = true
      ↔ causes.getLsbD i = true ∧ ∀ e ∈ es, e.event = n → e.causes.getLsbD i = false := by
  induction es generalizing causes with
  | nil => simp
  | cons e es ih => rw [List.foldl_cons, ih, AckEntry.getLsbD_leaves, List.forall_mem_cons, and_assoc]

/-! ## The event table -/

/-- The entries touch the event table alone, and keep its length. -/
theorem State.ackEvents_only (s : State) (es : List AckEntry) :
    ∃ events, s.ackEvents es = { s with events := events } ∧ events.length = s.events.length := by
  induction es generalizing s with
  | nil => exact ⟨s.events, rfl, rfl⟩
  | cons e es ih =>
    obtain ⟨events, rest, length⟩ := ih (s.setEvent e.event _)
    exact ⟨events, rest, length.trans List.length_set⟩

/-- One entry changes the causes of its event alone; an event number beyond the table names none. -/
theorem State.setEvent_ack_event (s : State) (e : AckEntry) (n : Nat) :
    (s.setEvent e.event
        { s.event e.event with causes := (s.event e.event).causes &&& ~~~(e.causes.setWidth 4) }).event n =
      { s.event n with causes := e.leaves n (s.event n).causes } := by
  rw [State.event_setEvent, AckEntry.leaves]
  by_cases names : e.event = n
  case neg => rw [if_neg fun own => names own.1.symm, if_neg names]
  case pos =>
    subst names
    by_cases inside : e.event < s.events.length
    case pos => rw [if_pos ⟨rfl, inside⟩, if_pos rfl]
    case neg =>
      have beyond : s.event e.event = EventRecord.empty := List.getD_eq_default _ _ (by omega)
      rw [if_neg fun own => inside own.2, if_pos rfl, beyond]
      simp [EventRecord.empty]

theorem State.ackEvents_event (s : State) (es : List AckEntry) (n : Nat) :
    (s.ackEvents es).event n =
      { s.event n with causes := es.foldl (AckEntry.leaves n) (s.event n).causes } := by
  induction es generalizing s with
  | nil => rfl
  | cons e es ih => rw [State.ackEvents, ih, State.setEvent_ack_event, List.foldl_cons]

/-! ## The notice unit -/

/-- Re-arm sets the master enable in a unit that has an own address (R162, R174). -/
theorem State.acknowledge_eq (s : State) (a : AckFields) :
    s.notice.acknowledge a s.ownAddress.isNone =
      { causes := s.notice.causes &&& ~~~(a.causes.setWidth 10)
        unitMasks := if a.flags.getLsbD 0 then a.unitMasks.setWidth 11 else s.notice.unitMasks
        eventMasks := if a.flags.getLsbD 1 then a.eventMasks.setWidth 4 else s.notice.eventMasks
        master := s.notice.master
          || decide (a.rearm = 1 ∧ 1 ≤ s.straps.unitAddress.val ∧ s.straps.unitAddress.val ≤ 30) } := by
  have armed : (a.rearm == 1 && !s.ownAddress.isNone)
      = decide (a.rearm = 1 ∧ 1 ≤ s.straps.unitAddress.val ∧ s.straps.unitAddress.val ≤ 30) := by
    unfold State.ownAddress within
    by_cases own : 1 ≤ s.straps.unitAddress.val ∧ s.straps.unitAddress.val ≤ 30 <;> simp [own, beq_eq_decide]
  rw [Notice.acknowledge, armed]

/-! ## The request at its owner -/

theorem exec_noticeAck_of_good (hq : s.holding h (.noticeAck a)) (good : a.firstBad = none) :
    exec .noticeAck s =
      .next (((s.ackEvents a.entries).setNotice
        (s.notice.acknowledge a s.ownAddress.isNone)).replied h .ok []) := by
  obtain ⟨held, request⟩ := hq
  show execNoticeAck s = _
  simp only [execNoticeAck, held, request, good, State.finish_eq_replied]

theorem exec_noticeAck_of_bad {i : Nat} (hq : s.holding h (.noticeAck a)) (bad : a.firstBad = some i) :
    exec .noticeAck s = .next (s.replied h .badField [byte1 i]) := by
  obtain ⟨held, request⟩ := hq
  show execNoticeAck s = _
  simp only [execNoticeAck, held, request, bad, State.badField_eq, State.finish_eq_replied]

end Sys2Proof.Machine

open Sys2Proof Sys2Proof.Machine

/-- Settles O14. NOTICE-FETCH's body is its layout but for the pending events; NOTICE-ACK follows its first bad field,
which `AckFields.firstBad_names` finds, and its entries, of which `State.ackEvents_event` says what they clear. -/
theorem noticesAreFetchedAndAcknowledged : Obligations.NoticesAreFetchedAndAcknowledged := by
  unfold Obligations.NoticesAreFetchedAndAcknowledged
  refine ⟨fun s h hq => ?fetched, fun s h a hq => ⟨?acknowledged, fun bad => ?refused⟩,
    fun s => ⟨s.eventAttention_iff, s.attention_iff⟩⟩
  case fetched =>
    refine ⟨s.noticeBody, exec_noticeFetch hq, rfl, rfl, rfl, rfl, ?_, ?_⟩
    · rw [← s.length_pendingEvents]
      rfl
    · exact s.flatMap_pendingEvents _
  case acknowledged =>
    intro causes flags unitMasks eventMasks rearm count entries
    have good : a.firstBad = none := by
      rw [a.firstBad_names.eq_none_iff, a.exists_fieldOut_iff]
      rintro (bad | bad | ⟨given, bad⟩ | ⟨given, bad⟩ | bad | bad | ⟨e, entry, bad | bad⟩)
      · exact bad causes
      · exact bad flags
      · exact bad (unitMasks given)
      · exact bad (eventMasks given)
      · exact absurd rearm (Nat.not_le.2 bad)
      · exact absurd count (Nat.not_le.2 bad)
      · exact absurd (entries e entry).1 (Nat.not_le.2 bad)
      · exact bad (entries e entry).2
    obtain ⟨events, only, length⟩ := s.ackEvents_only a.entries
    have table : (s.ackEvents a.entries).events = events := by rw [only]
    refine ⟨events, ?_, length, fun n => ⟨_, ?_, fun i => AckEntry.getLsbD_foldl_leaves n _ a.entries i⟩⟩
    · rw [exec_noticeAck_of_good hq good, only, State.acknowledge_eq]
      rfl
    · rw [← table]
      exact s.ackEvents_event a.entries n
  case refused =>
    obtain ⟨i, named⟩ : ∃ i, a.firstBad = some i := by
      rw [← Option.ne_none_iff_exists', ne_eq, a.firstBad_names.eq_none_iff, not_not]
      exact a.exists_fieldOut_iff.2 bad
    obtain ⟨out, first⟩ := a.firstBad_names.named i named
    exact ⟨i, out, first, exec_noticeAck_of_bad hq named⟩

end

