-- ==== Sys2Proof/Proofs/SettingsLoad.lean ====
section
/-! The end of the settings load (R180). -/

namespace Sys2Proof.Machine

variable {s : State} {t : Settings} {ack : Bool} {b : List Byte}

/-! ## What the load finds -/

theorem Settings.finding_of_not_acknowledged (t : Settings) :
    t.finding false = (.noAck, ConfigRecord.default) := rfl

theorem Settings.finding_of_cutShort (copy : t.eeprom = .cutShort) :
    t.finding true = (.badCrc, ConfigRecord.default) := by
  simp only [Settings.finding, copy, if_true]

theorem Settings.finding_of_crc_differs (copy : t.eeprom = .stored b)
    (differs : crcBytes (b.take 21) ≠ b.drop 21) : t.finding true = (.badCrc, ConfigRecord.default) := by
  simp only [Settings.finding, copy, if_true, if_neg differs]

theorem Settings.finding_of_not_inRange (copy : t.eeprom = .stored b)
    (agrees : crcBytes (b.take 21) = b.drop 21) (out : ¬ (RawConfig.ofBytes b).InRange) :
    t.finding true = (.badField, ConfigRecord.default) := by
  obtain ⟨i, bad⟩ : ∃ i, (RawConfig.ofBytes b).firstBad = some i := by
    rwa [← Option.ne_none_iff_exists', ne_eq, RawConfig.firstBad_none]
  simp only [Settings.finding, copy, agrees, bad, if_true]

theorem Settings.finding_of_inRange (copy : t.eeprom = .stored b)
    (agrees : crcBytes (b.take 21) = b.drop 21) (fields : (RawConfig.ofBytes b).InRange) :
    t.finding true = (.ok, (RawConfig.ofBytes b).record) := by
  simp only [Settings.finding, copy, agrees, (RawConfig.firstBad_none _).2 fields, if_true]

/-- A load that does not end OK leaves the defaults in force, whatever it found (R180). -/
theorem Settings.finding_default (failed : (t.finding ack).1 ≠ .ok) :
    (t.finding ack).2 = ConfigRecord.default := by
  cases ack with
  | false => rfl
  | true =>
    match copy : t.eeprom with
    | .cutShort => rw [Settings.finding_of_cutShort copy]
    | .stored b =>
      by_cases agrees : crcBytes (b.take 21) = b.drop 21
      case neg => rw [Settings.finding_of_crc_differs copy agrees]
      case pos =>
        by_cases fields : (RawConfig.ofBytes b).InRange
        case neg => rw [Settings.finding_of_not_inRange copy agrees fields]
        case pos => exact absurd (by rw [Settings.finding_of_inRange copy agrees fields]) failed

/-! ## The WIPE of start-up -/

/-- What the start of a WIPE touches: the marks, the queues, the figures of the store beside its memory, the engine
and the port (R72). -/
theorem State.startWipe_only (s : State) : ∃ p,
    s.startWipe = { s with
      events := clearMarks s.events
      carousel := { s.carousel with fresh := [], urgent := [], cursor := 0, pass := 0 }
      store := { s.store with
        sizeA := s.settings.record.bankA, sizeB := s.settings.record.bankB, drawn := 0, damaged := 0 }
      sweep := { engine := .wiping 0, lastServed := 31, wipePending := false }
      port := p } :=
  ⟨_, State.claimSweep_eq _⟩

theorem State.startWipe_wiping (idle : s.port.state = .idle) (updates : s.port.completions = [])
    (read : s.port.composition = false) (request : s.port.request = false) : s.startWipe.Wiping := by
  rw [State.startWipe_of_free idle updates read request]
  exact {
    engine := rfl
    port := ⟨rfl, rfl⟩
    sizes := ⟨rfl, rfl⟩
    drawn := ⟨rfl, rfl⟩
    queues := ⟨rfl, rfl⟩
    cursor := ⟨rfl, rfl⟩
    marks := clearMarks_none s.events }

/-! ## The step -/

/-- The unit once the load has decided, before its WIPE starts: result, record and cause (R180). -/
def State.loaded (s : State) (ack : Bool) : State :=
  { s with
    settings := { s.settings with
      lastLoad := (s.settings.finding ack).1, record := (s.settings.finding ack).2 }
    notice :=
      if (s.settings.finding ack).1 = .ok then s.notice
      else { s.notice with causes := s.notice.causes ||| 0x080#10 } }

theorem exec_settingsLoadEnd (loading : s.settings.lastLoad = .loading) :
    exec (.settingsLoadEnd ack) s = .next (s.loaded ack).startWipe := by
  show execSettingsLoadEnd ack s = _
  by_cases ok : (s.settings.finding ack).1 = .ok
  case pos => simp only [execSettingsLoadEnd, State.loaded, if_pos loading, if_pos ok]
  case neg =>
    simp only [execSettingsLoadEnd, State.loaded, State.raise, unitCauseBit, if_pos loading, if_neg ok]

end Sys2Proof.Machine

open Sys2Proof Sys2Proof.Machine

/-- Settles O5. The step is `State.loaded` and the start of a WIPE: the lemmas on `Settings.finding` give the result and
the record, `State.startWipe_wiping` the WIPE, and `State.startWipe_only` what is left. -/
theorem loadEndSetsRecordAndWipes : Obligations.LoadEndSetsRecordAndWipes := by
  unfold Obligations.LoadEndSetsRecordAndWipes
  intro ack s loading
  have wiping := State.startWipe_wiping (s := s.loaded ack)
  obtain ⟨p, only⟩ := (s.loaded ack).startWipe_only
  rw [only] at wiping
  rw [exec_settingsLoadEnd loading, only]
  refine ⟨_, rfl, ?noAck, ?cutShort, ?stored, ?failed, ?ok, wiping, rfl, rfl, rfl, rfl, rfl, rfl, rfl, rfl, rfl,
    rfl, rfl, rfl, rfl, rfl, rfl⟩
  case noAck =>
    rintro rfl
    exact congrArg Prod.fst s.settings.finding_of_not_acknowledged
  case cutShort =>
    rintro rfl copy
    exact congrArg Prod.fst (Settings.finding_of_cutShort copy)
  case stored =>
    rintro b rfl copy
    refine ⟨fun differs => ?_, fun agrees out => ?_, fun agrees fields => ?_⟩
    · exact congrArg Prod.fst (Settings.finding_of_crc_differs copy differs)
    · exact congrArg Prod.fst (Settings.finding_of_not_inRange copy agrees out)
    · exact Prod.ext_iff.1 (Settings.finding_of_inRange copy agrees fields)
  case failed => exact fun failed => ⟨Settings.finding_default failed, if_neg failed⟩
  case ok => exact fun ok => if_pos ok

end

