-- ==== Sys2Proof/Proofs/StepEffects.lean ====
section
/-! SUPPORT. What a command can do: one relation for all commands, inverted once. The laws that every step keeps are
derived from it case by case. -/

namespace Sys2Proof.Machine

/-- What an event's request does to its event once its checks have passed (section 1.8, R105). -/
inductive EventServed (s : State) : State → Prop where
  | defined (d : DefineFields) (empty : (s.event d.event).state = .empty) :
    EventServed s (s.setEvent d.event (d.record s.stateRepeat))
  | held (n : Nat) (w : Window) (hold : Option Hold) (selling : (s.event n).state.selling = true)
    (window : (s.event n).window = some w) : EventServed s (s.applyHold n w hold)
  | cancelled (n : Nat) (admitting : (s.event n).state.admitting = true) : EventServed s (s.cancelEvent n)
  | emptied (n : Nat) (clearable : (s.event n).state = .retired ∨ (s.event n).state = .scheduled) :
    EventServed s (s.emptyEvent n)
  | givenUp (n : Nat) (cancelled : (s.event n).state = .cancelled) (swept : s.cancelSweepDone n = true) :
    EventServed s (s.giveUpCancelled n)
  | rangeAdded (n : Nat) (x : Range) (admitting : (s.event n).state.admitting = true) :
    EventServed s (s.addRange n x)
  | rangeRemoved (n : Nat) (x : Range) (admitting : (s.event n).state.admitting = true) :
    EventServed s (s.setEvent n
      { s.event n with blackout := (s.event n).blackout.erase x, repeatsOwed := s.stateRepeat })
  | nextLoaded (n : Nat) (key : Key) (admitting : (s.event n).state.admitting = true)
    (free : (s.event n).keys.next = none) :
    EventServed s ((s.setEvent n
      { s.event n with keys := { (s.event n).keys with next := some key, announceCount := 0 } }).recheck n)
  | onDeckLoaded (n : Nat) (key : Key) (admitting : (s.event n).state.admitting = true)
    (next : (s.event n).keys.next ≠ none) :
    EventServed s (s.setEvent n { s.event n with keys := { (s.event n).keys with onDeck := some key } })

/-- What a request's owner does before it hands its result back. -/
inductive Served (s : State) : State → Prop where
  | nothing : Served s s
  | sampled (l : BusLines) : Served s (s.sampleLines l)
  | counted (f : Counters → Counters) : Served s (s.count f)
  | fetched (n : Notice) : Served s (s.setNotice n)
  | acknowledged (es : List AckEntry) (n : Notice) : Served s ((s.ackEvents es).setNotice n)
  | configured (r : RawConfig) (good : r.firstBad = none) :
    Served s { s with settings := { s.settings with record := r.record } }
  | saving : Served s { s with settings := { s.settings with save := some s.settings.record } }
  | opened (start : Nat) (setup : s.night = .setup) (inRange : start ≤ 16777215) : Served s (s.openNight start)
  | closed (forced : Bool) (opened : s.night = .opened) : Served s (s.takeClose forced)
  | busCleared (l : BusLines) : Served s (s.sampleLines l).clearBusFault.clearArbiterFault
  | selected (e : EpochSelection) : Served s { s with selection := e }
  | event {t : State} (night : s.night = .setup ∨ s.night = .opened) (served : EventServed s t) : Served s t

/-- What a command does to the unit `s`. -/
inductive Effect (s : State) : State → Prop where
  | undue : Effect s s
  | answered {t : State} (h : HeldRequest) (r : ResultCode) (body : List Byte) (served : Served s t) :
    Effect s (t.finish h r body)
  | hardwareReset (pins : Straps) : Effect s (s.hardwareReset pins .loading)
  | hardwareResetWipes (pins : Straps) : Effect s (s.hardwareReset pins .notLoaded).startWipe
  | unitReset (pins : Straps) : Effect s (s.unitReset pins)
  | loaded (ack : Bool) (loading : s.settings.lastLoad = .loading) : Effect s (s.loaded ack).startWipe
  | saved (result : SaveResult) (copy : EepromCopy) :
    Effect s
      (({ s with settings := { s.settings with save := none, lastSave := result, eeprom := copy } } : State).raise
        .saveDone)
  | received (r : Receiver) (outside : s.link.receiver = .hunt ∨ s.link.receiver = .passing) (open_ : r ≠ .locked) :
    Effect s (s.setReceiver r s.link.failureRun)
  | frameFailed {broadcast : Bool} (r : Receiver) (f : Counters → Counters)
    (collecting : s.link.receiver = .addressed broadcast) (open_ : r ≠ .locked) : Effect s (s.failFrame r f)
  | lineBroken : Effect s (s.setReceiver .hunt 0)
  | handedOver (broadcast : Bool) (f : FrameRead) : Effect s (s.handOver broadcast f)
  | freed : Effect s (s.setHolder .free)
  | requestClaimed (night : s.night = .setup ∨ s.night = .opened) : Effect s s.claimRequest
  | grantAdded (u : List Nat) (h : HeldRequest) (f : AddFields) (port : s.port.state = .request)
    (inside : s.home f.decoder f.event < s.slotCount) : Effect s ((s.upset u).addGrant h f).releasePort
  | grantRevoked (u : List Nat) (h : HeldRequest) (d e : Nat) (port : s.port.state = .request)
    (inside : s.home d e < s.slotCount) : Effect s ((s.upset u).revokeGrant h d e).releasePort
  | grantQueried (u : List Nat) (h : HeldRequest) (d e : Nat) (port : s.port.state = .request)
    (inside : s.home d e < s.slotCount) : Effect s ((s.upset u).queryGrant h d e).releasePort
  | pulsed (t : Nat) (order : List Nat) : Effect s ((s.reach t).pulseAt t order)
  | flywheelEntered (t : Nat) (order : List Nat) (reference : s.clock.source = .reference) :
    Effect s (s.enterFlywheel t order)
  | flywheelSupplied (t : Nat) (order : List Nat) (flywheel : s.clock.source = .flywheel) :
    Effect s ((s.reach t).supplySecond t order)
  | cycleTicked (t : Nat) : Effect s (s.cycleTick t)
  | attempted (may : s.mayCompose = true) : Effect s (State.tryOwed s.carousel.owed s)
  | queueFoundEmpty (a : Attempt) (port : s.port.state = .composition) : Effect s (s.releasePort.goOn a.again)
  | urgentTaken (u : List Nat) (n : Nat) (rest : List Nat) (a : Attempt) (port : s.port.state = .composition)
    (head : s.carousel.urgent = n :: rest) (inside : n < s.slotCount) :
    Effect s ((s.upset u).takeUrgent n rest a.again)
  | freshTaken (u : List Nat) (n : Nat) (rest : List Nat) (a : Attempt) (port : s.port.state = .composition)
    (head : s.carousel.fresh = n :: rest) (inside : n < s.slotCount) :
    Effect s ((s.upset u).takeFresh n rest a.again)
  | refreshed (u : List Nat) (reads : Nat) (port : s.port.state = .composition)
    (inside : s.carousel.cursor < s.slotCount) : Effect s ((s.upset u).readRefresh s.carousel.cursor reads)
  | arbiterGranted (l : BusLines) : Effect s (s.sampleLines l).arbiterGrants
  | grantTaken (l : BusLines) : Effect s (s.sampleLines l).takeGrant
  | grantEnded (l : BusLines) : Effect s (s.sampleLines l).endGrant
  | grantTimedOut (l : BusLines) : Effect s (s.sampleLines l).timeoutGrant
  | arbiterFaulted (l : BusLines) : Effect s (s.sampleLines l).testArbiterFault
  | packetStarted (l : BusLines) : Effect s (s.sampleLines l).startPacket
  | sendEnded (p : Packet) : Effect s (s.endSend.complete p.tag)
  | updateVoided (t : Tag) (rest : List Tag) (port : s.port.state = .completion)
    (head : s.port.completions = t :: rest) : Effect s (s.endUpdate rest)
  | grantUpdated (u : List Nat) (t : Tag) (rest : List Tag) (n d e : Nat) (port : s.port.state = .completion)
    (head : s.port.completions = t :: rest) (inside : n < s.slotCount) :
    Effect s (((s.upset u).updateGrant n d e).endUpdate rest)
  | revokeUpdated (u : List Nat) (t : Tag) (rest : List Tag) (n d e : Nat) (port : s.port.state = .completion)
    (head : s.port.completions = t :: rest) (inside : n < s.slotCount) :
    Effect s (((s.upset u).updateRevoke n d e).endUpdate rest)
  | visited (u : List Nat) (w : Sweep) (kind : SweepKind) (ranges : List Range) (overtaken : Bool)
    (port : s.port.state = .visit kind ranges overtaken) (engine : s.sweep.engine = .sweeping w)
    (inside : w.cursor < s.slotCount) : Effect s ((s.upset u).visit w kind ranges overtaken)
  | wipeStarted (asked : s.sweep.wipePending = true) (free : s.port.state = .idle) : Effect s s.startWipe
  | wipeWritten (c : Nat) (port : s.port.state = .wipeWrite) (engine : s.sweep.engine = .wiping c)
    (inside : c < s.slotCount) : Effect s (s.wipeSlot c)
  | readyFollowed (level : Bool) : Effect s { s with scrambler := { s.scrambler with ready := level } }
  | recordAccepted (r : ScramblerRecord) (rest : List ScramblerRecord) (head : s.scrambler.queue = r :: rest) :
    Effect s (s.acceptRecord r rest)

/-- A command that completes has an effect of the relation. -/
def Result.HasEffect (r : Result) (s : State) : Prop := ∀ t, r = .next t → Effect s t

variable {s : State}

theorem Result.HasEffect.next {t : State} (e : Effect s t) : Result.HasEffect (.next t) s := by
  rintro _ ⟨⟩
  exact e

theorem Result.HasEffect.undue : Result.HasEffect (.next s) s := .next .undue

theorem Result.HasEffect.answered {t : State} {h : HeldRequest} {r : ResultCode} {body : List Byte}
    (served : Served s t) : Result.HasEffect (.next (t.finish h r body)) s := .next (.answered h r body served)

/-- A request that is refused, or that only reports. -/
theorem Result.HasEffect.finish {h : HeldRequest} {r : ResultCode} {body : List Byte} :
    Result.HasEffect (.next (s.finish h r body)) s := .answered .nothing

theorem Result.HasEffect.refuse {h : HeldRequest} {r : ResultCode} : Result.HasEffect (.next (s.refuse h r)) s :=
  .finish

theorem Result.HasEffect.badField {h : HeldRequest} {i : Nat} : Result.HasEffect (.next (s.badField h i)) s := .finish

/-- A store operation outside the slot space stops the unit, so one that completes is inside (R27, log 23). -/
theorem Result.HasEffect.withinStore {n : Nat} {t : State} (e : n < s.slotCount → Effect s t) :
    Result.HasEffect (s.withinStore n (.next t)) s := by
  unfold State.withinStore
  split
  case isTrue inside => exact .next (e inside)
  case isFalse => rintro _ ⟨⟩

/-! ## The link, the unit requests and the settings block -/

theorem State.lead_ne_locked (s : State) (v : Byte) : s.lead v ≠ .locked := by
  unfold State.lead
  repeat' split
  all_goals nofun

theorem addressCharacter_hasEffect (v : Byte) : (execAddressCharacter v s).HasEffect s := by
  unfold execAddressCharacter
  split
  case h_1 hunt => exact .next (.received _ (.inl hunt) (s.lead_ne_locked v))
  case h_2 passing => exact .next (.received _ (.inr passing) (s.lead_ne_locked v))
  case h_3 collecting => exact .next (.frameFailed _ _ collecting (s.lead_ne_locked v))
  case h_4 => exact .undue

theorem characterFailure_hasEffect : (execCharacterFailure s).HasEffect s := by
  unfold execCharacterFailure
  split
  case h_1 collecting => exact .next (.frameFailed _ _ collecting nofun)
  all_goals exact .undue

theorem lengthFailure_hasEffect (n : Byte) : (execLengthFailure n s).HasEffect s := by
  unfold execLengthFailure
  split
  case h_1 collecting =>
    split
    · exact .undue
    · exact .next (.frameFailed _ _ collecting nofun)
  all_goals exact .undue

theorem gapFailure_hasEffect : (execGapFailure s).HasEffect s := by
  unfold execGapFailure
  split
  case h_1 collecting => exact .next (.frameFailed _ _ collecting nofun)
  all_goals exact .undue

theorem requestFrame_hasEffect (characters : List Byte) : (execRequestFrame characters s).HasEffect s := by
  unfold execRequestFrame
  split
  case h_1 collecting =>
    repeat' split
    · exact .undue
    · exact .next (.handedOver _ _)
    · exact .next (.frameFailed _ _ collecting nofun)
  all_goals exact .undue

theorem replyComplete_hasEffect (pins : Straps) : (execReplyComplete pins s).HasEffect s := by
  unfold execReplyComplete
  repeat' split
  · exact .next (.unitReset pins)
  · exact .next .freed
  all_goals exact .undue

theorem hardwareReset_hasEffect (pins : Straps) : (execHardwareReset pins s).HasEffect s := by
  unfold execHardwareReset
  split
  · exact .next (.hardwareReset pins)
  · exact .next (.hardwareResetWipes pins)

theorem settingsLoadEnd_hasEffect (ack : Bool) : Result.HasEffect (exec (.settingsLoadEnd ack) s) s := by
  by_cases loading : s.settings.lastLoad = .loading
  case pos =>
    rw [exec_settingsLoadEnd loading]
    exact .next (.loaded ack loading)
  case neg =>
    show Result.HasEffect (execSettingsLoadEnd ack s) s
    rw [execSettingsLoadEnd, if_neg loading]
    exact .undue

theorem saveDone_hasEffect (n : Nat) : (execSaveDone n s).HasEffect s := by
  unfold execSaveDone
  split
  · exact .undue
  · exact .next (.saved _ _)

theorem unitId_hasEffect : (execUnitId s).HasEffect s := by
  unfold execUnitId
  repeat' split
  · exact .finish
  all_goals exact .undue

theorem unitStatus_hasEffect (l : BusLines) : (execUnitStatus l s).HasEffect s := by
  unfold execUnitStatus
  repeat' split
  · exact .answered (.sampled l)
  all_goals exact .undue

theorem countersRead_hasEffect : (execCountersRead s).HasEffect s := by
  unfold execCountersRead
  repeat' split
  · exact .badField
  · exact .finish
  · exact .answered (.counted _)
  all_goals exact .undue

theorem noticeFetch_hasEffect : (execNoticeFetch s).HasEffect s := by
  unfold execNoticeFetch
  repeat' split
  · exact .answered (.fetched _)
  all_goals exact .undue

theorem noticeAck_hasEffect : (execNoticeAck s).HasEffect s := by
  unfold execNoticeAck
  repeat' split
  · exact .badField
  · exact .answered (.acknowledged _ _)
  all_goals exact .undue

theorem unitReset_hasEffect (pins : Straps) : (execUnitReset pins s).HasEffect s := by
  unfold execUnitReset
  repeat' split
  · exact .next (.unitReset pins)
  · exact .finish
  all_goals exact .undue

theorem configRead_hasEffect : (execConfigRead s).HasEffect s := by
  unfold execConfigRead
  repeat' split
  · exact .finish
  all_goals exact .undue

theorem configWrite_hasEffect : (execConfigWrite s).HasEffect s := by
  unfold execConfigWrite
  split
  case h_1 =>
    split
    case h_1 r _ =>
      split
      case h_1 => exact .badField
      case h_2 good =>
        split
        · exact .refuse
        · exact .answered (.configured r good)
    case h_2 => exact .undue
  case h_2 => exact .undue

theorem settingsSave_hasEffect : (execSettingsSave s).HasEffect s := by
  unfold execSettingsSave
  repeat' split
  · exact .refuse
  · exact .answered .saving
  all_goals exact .undue

/-! ## The night -/

theorem nightOpen_hasEffect : (execNightOpen s).HasEffect s := by
  unfold execNightOpen
  split
  case h_1 =>
    split
    case h_1 start _ =>
      split
      case h_4 setup =>
        split
        case isTrue => exact .badField
        case isFalse inRange => exact .answered (.opened start setup (by omega))
      all_goals exact .refuse
    case h_2 => exact .undue
  case h_2 => exact .undue

theorem nightClose_hasEffect : (execNightClose s).HasEffect s := by
  unfold execNightClose
  split
  case h_1 =>
    split
    case h_1 =>
      split
      case h_4 opened =>
        repeat' split
        · exact .badField
        · exact .refuse
        · exact .answered (.closed _ opened)
      all_goals exact .refuse
    case h_2 => exact .undue
  case h_2 => exact .undue

theorem epochSelect_hasEffect : (execEpochSelect s).HasEffect s := by
  unfold execEpochSelect
  repeat' split
  · exact .badField
  · exact .answered (.selected _)
  all_goals exact .undue

theorem busClear_hasEffect (l : BusLines) : (execBusClear l s).HasEffect s := by
  unfold execBusClear
  split
  case h_1 =>
    split
    case h_1 =>
      unfold State.clearBus
      split
      · exact .answered (.sampled l)
      · exact .answered (.busCleared l)
    case h_2 => exact .undue
  case h_2 => exact .undue

/-! ## The event table -/

/-- The checks of an event's request answer it, or pass (R18). -/
theorem State.eventGate_cases (s : State) (h : HeldRequest) (n : Nat) (k : EventRecord → State) :
    (∃ r body, s.eventGate h n k = s.finish h r body)
      ∨ ((s.night = .setup ∨ s.night = .opened) ∧ s.eventGate h n k = k (s.event n)) := by
  unfold State.eventGate
  split
  case h_1 => exact .inl ⟨_, _, rfl⟩
  case h_2 => exact .inl ⟨_, _, rfl⟩
  case h_3 setup =>
    repeat' split
    · exact .inl ⟨_, _, rfl⟩
    · exact .inl ⟨_, _, rfl⟩
    · exact .inr ⟨.inl setup, rfl⟩
  case h_4 opened =>
    repeat' split
    · exact .inl ⟨_, _, rfl⟩
    · exact .inl ⟨_, _, rfl⟩
    · exact .inr ⟨.inr opened, rfl⟩

/-- A request that passes the checks has the effect of what follows them. -/
theorem Result.HasEffect.eventGate {h : HeldRequest} {n : Nat} {k : EventRecord → State}
    (follows : s.night = .setup ∨ s.night = .opened → Result.HasEffect (.next (k (s.event n))) s) :
    Result.HasEffect (.next (s.eventGate h n k)) s := by
  obtain ⟨r, body, refused⟩ | ⟨night, passed⟩ := s.eventGate_cases h n k
  · rw [refused]
    exact .finish
  · rw [passed]
    exact follows night

theorem eventDefine_hasEffect : (execEventDefine s).HasEffect s := by
  have owner : ∀ h d, Result.HasEffect (.next (s.defineEvent h d)) s := by
    intro h d
    have night : ∀ managed : s.night = .setup ∨ s.night = .opened, Result.HasEffect (.next
        (if 31 < d.event then s.badField h 1
        else if (s.event d.event).state ≠ .empty then s.refuse h .wrongEventState
        else
          match d.firstBad with
          | some i => s.badField h i
          | none => (s.setEvent d.event (d.record s.stateRepeat)).finish h .ok [])) s := by
      intro managed
      split
      case isTrue => exact .badField
      case isFalse =>
        split
        case isTrue => exact .refuse
        case isFalse empty =>
          split
          · exact .badField
          · exact .answered (.event managed (.defined d (by simpa using empty)))
    unfold State.defineEvent
    split
    case h_1 => exact .refuse
    case h_2 => exact .refuse
    case h_3 setup => exact night (.inl setup)
    case h_4 opened => exact night (.inr opened)
  unfold execEventDefine
  repeat' split
  · exact owner _ _
  all_goals exact .undue

theorem eventRead_hasEffect : (execEventRead s).HasEffect s := by
  unfold execEventRead
  repeat' split
  · exact .badField
  · exact .finish
  all_goals exact .undue

theorem eventHold_hasEffect : (execEventHold s).HasEffect s := by
  have owner : ∀ h f, Result.HasEffect (.next (s.holdEvent h f)) s := by
    intro h f
    refine .eventGate fun night => ?_
    split
    case isTrue => exact .refuse
    case isFalse selling =>
      split
      case h_1 => exact .refuse
      case h_2 w window =>
        split
        · exact .badField
        · exact .answered (.event night (.held f.event w f.hold (by simpa using selling) window))
  unfold execEventHold
  repeat' split
  · exact owner _ _
  all_goals exact .undue

theorem eventCancel_hasEffect : (execEventCancel s).HasEffect s := by
  have owner : ∀ h n, Result.HasEffect (.next (s.cancelRequest h n)) s := by
    intro h n
    refine .eventGate fun night => ?_
    split
    case isTrue admitting => exact .answered (.event night (.cancelled n admitting))
    case isFalse => exact .refuse
  unfold execEventCancel
  repeat' split
  · exact owner _ _
  all_goals exact .undue

theorem eventClear_hasEffect : (execEventClear s).HasEffect s := by
  have owner : ∀ h n, Result.HasEffect (.next (s.clearRequest h n)) s := by
    intro h n
    refine .eventGate fun night => ?_
    split
    case h_1 retired => exact .answered (.event night (.emptied n (.inl retired)))
    case h_2 scheduled =>
      split
      · exact .answered (.event night (.emptied n (.inr scheduled)))
      · exact .refuse
    case h_3 cancelled =>
      split
      case isTrue swept => exact .answered (.event night (.givenUp n cancelled swept))
      case isFalse => exact .refuse
    all_goals exact .refuse
  unfold execEventClear
  repeat' split
  · exact owner _ _
  all_goals exact .undue

/-- The checks of BLACKOUT-ADD and BLACKOUT-REMOVE answer the request, or pass (R25, R26). -/
theorem Result.HasEffect.rangeGate {h : HeldRequest} {n lo hi : Nat} {k : EventRecord → State}
    (follows : s.night = .setup ∨ s.night = .opened → (s.event n).state.admitting = true →
      Result.HasEffect (.next (k (s.event n))) s) :
    Result.HasEffect (.next (s.rangeGate h n lo hi k)) s := by
  refine .eventGate fun night => ?_
  split
  case isTrue => exact .refuse
  case isFalse admitting =>
    split
    · exact .badField
    · exact follows night (by simpa using admitting)

theorem blackoutAdd_hasEffect : (execBlackoutAdd s).HasEffect s := by
  have owner : ∀ h n lo hi, Result.HasEffect (.next (s.addRangeRequest h n lo hi)) s := by
    intro h n lo hi
    rw [State.addRangeRequest_eq]
    refine .rangeGate fun night admitting => ?_
    split
    · exact .refuse
    · exact .answered (.event night (.rangeAdded n _ admitting))
  unfold execBlackoutAdd
  repeat' split
  · exact owner _ _ _ _
  all_goals exact .undue

theorem blackoutRemove_hasEffect : (execBlackoutRemove s).HasEffect s := by
  have owner : ∀ h n lo hi, Result.HasEffect (.next (s.removeRangeRequest h n lo hi)) s := by
    intro h n lo hi
    rw [State.removeRangeRequest_eq]
    refine .rangeGate fun night admitting => ?_
    split
    · exact .answered (.event night (.rangeRemoved n _ admitting))
    · exact .refuse
  unfold execBlackoutRemove
  repeat' split
  · exact owner _ _ _ _
  all_goals exact .undue

/-- A key goes into next when that is free, and into on-deck otherwise (R105, R106). -/
theorem KeyFields.load_cases {k l : KeyFields} {epoch : Nat} {key : Key} (load : k.load epoch key = some l) :
    (k.next = none ∧ l = { k with next := some key, announceCount := 0 })
      ∨ (k.next ≠ none ∧ l = { k with onDeck := some key }) := by
  unfold KeyFields.load at load
  cases next : k.next <;> simp only [next, Option.isNone_none, Option.isNone_some] at load <;> grind

theorem keyLoad_hasEffect : (execKeyLoad s).HasEffect s := by
  have owner : ∀ h n epoch key, Result.HasEffect (.next (s.loadKey h n epoch key)) s := by
    intro h n epoch key
    refine .eventGate fun night => ?_
    split
    case isTrue => exact .refuse
    case isFalse admitting =>
      replace admitting : (s.event n).state.admitting = true := by simpa using admitting
      split
      case isTrue => exact .badField
      case isFalse =>
        split
        case isTrue => exact .refuse
        case isFalse =>
          split
          case h_1 => exact .refuse
          case h_2 keys load =>
            obtain ⟨free, rfl⟩ | ⟨next, rfl⟩ := KeyFields.load_cases load
            · rw [if_pos (by simp [free])]
              exact .answered (.event night (.nextLoaded n key admitting free))
            · rw [if_neg (by simpa using next)]
              exact .answered (.event night (.onDeckLoaded n key admitting next))
  unfold execKeyLoad
  repeat' split
  · exact owner _ _ _ _
  all_goals exact .undue

/-! ## The grant requests -/

theorem takeGrantRequest_hasEffect (h : HeldRequest) : Result.HasEffect (.next (s.takeGrantRequest h)) s := by
  unfold State.takeGrantRequest
  split
  case h_1 => exact .refuse
  case h_2 => exact .refuse
  case h_3 setup =>
    split
    · exact .undue
    · exact .next (.requestClaimed (.inl setup))
  case h_4 opened =>
    split
    · exact .undue
    · exact .next (.requestClaimed (.inr opened))

theorem grantAdd_hasEffect : (execGrantAdd s).HasEffect s := by
  unfold execGrantAdd
  repeat' split
  · exact takeGrantRequest_hasEffect _
  all_goals exact .undue

theorem grantRevoke_hasEffect : (execGrantRevoke s).HasEffect s := by
  unfold execGrantRevoke
  repeat' split
  · exact takeGrantRequest_hasEffect _
  all_goals exact .undue

theorem grantQuery_hasEffect : (execGrantQuery s).HasEffect s := by
  unfold execGrantQuery
  repeat' split
  · exact takeGrantRequest_hasEffect _
  all_goals exact .undue

theorem requestStoreOperation_hasEffect (u : List Nat) : (execRequestStoreOperation u s).HasEffect s := by
  unfold execRequestStoreOperation
  split
  case h_1 h port _ =>
    dsimp only
    split
    · exact .withinStore (.grantAdded u h _ port)
    · exact .withinStore (.grantRevoked u h _ _ port)
    · exact .withinStore (.grantQueried u h _ _ port)
    · exact .undue
  case h_2 => exact .undue

/-! ## Time -/

theorem flywheelEntry_hasEffect (order : List Nat) : (execFlywheelEntry order s).HasEffect s := by
  unfold execFlywheelEntry
  split
  case h_1 reference _ => exact .next (.flywheelEntered _ order reference)
  all_goals exact .undue

theorem flywheelSecond_hasEffect (order : List Nat) : (execFlywheelSecond order s).HasEffect s := by
  unfold execFlywheelSecond
  split
  case h_1 flywheel _ _ => exact .next (.flywheelSupplied _ order flywheel)
  all_goals exact .undue

/-! ## The carousel, its completions, the bus and the scramblers -/

theorem compositionAttempt_hasEffect : (execCompositionAttempt s).HasEffect s := by
  unfold execCompositionAttempt
  split
  case isTrue due => exact .next (.attempted due.1)
  case isFalse => exact .undue

theorem dequeueUrgent_hasEffect (u : List Nat) (a : Attempt) (port : s.port.state = .composition) :
    (s.dequeueUrgent u a.again).HasEffect s := by
  unfold State.dequeueUrgent
  split
  case h_1 => exact .next (.queueFoundEmpty a port)
  case h_2 n rest head => exact .withinStore (.urgentTaken u n rest a port head)

theorem urgentDequeue_hasEffect (u : List Nat) : (execUrgentDequeue u s).HasEffect s := by
  unfold execUrgentDequeue
  split
  case h_1 port _ => exact dequeueUrgent_hasEffect u .urgentShare port
  case h_2 port _ => exact dequeueUrgent_hasEffect u .urgentRest port
  case h_3 => exact .undue

theorem dequeueFresh_hasEffect (u : List Nat) (a : Attempt) (port : s.port.state = .composition) :
    (s.dequeueFresh u a.again).HasEffect s := by
  unfold State.dequeueFresh
  split
  case h_1 => exact .next (.queueFoundEmpty a port)
  case h_2 n rest head => exact .withinStore (.freshTaken u n rest a port head)

theorem freshDequeue_hasEffect (u : List Nat) : (execFreshDequeue u s).HasEffect s := by
  unfold execFreshDequeue
  split
  case h_1 port _ => exact dequeueFresh_hasEffect u .freshShare port
  case h_2 port _ => exact dequeueFresh_hasEffect u .freshRest port
  case h_3 => exact .undue

theorem refreshRead_hasEffect (u : List Nat) : (execRefreshRead u s).HasEffect s := by
  unfold execRefreshRead
  split
  case h_1 reads port _ => exact .withinStore (.refreshed u reads port)
  case h_2 => exact .undue

theorem sendEnd_hasEffect : (execSendEnd s).HasEffect s := by
  unfold execSendEnd
  split
  case h_1 => exact .undue
  case h_2 p _ => exact .next (.sendEnded p)

theorem grantCompletionUpdate_hasEffect (u : List Nat) : (execGrantCompletionUpdate u s).HasEffect s := by
  unfold execGrantCompletionUpdate
  split
  case h_1 t rest port head =>
    split
    case h_1 n d e _ =>
      split
      · exact .next (.updateVoided t rest port head)
      · exact .withinStore (.grantUpdated u t rest n d e port head)
    all_goals exact .undue
  case h_2 => exact .undue

theorem revokeCompletionUpdate_hasEffect (u : List Nat) : (execRevokeCompletionUpdate u s).HasEffect s := by
  unfold execRevokeCompletionUpdate
  split
  case h_1 t rest port head =>
    split
    case h_1 n d e _ =>
      split
      · exact .next (.updateVoided t rest port head)
      · exact .withinStore (.revokeUpdated u t rest n d e port head)
    all_goals exact .undue
  case h_2 => exact .undue

theorem scramblerAccept_hasEffect : (execScramblerAccept s).HasEffect s := by
  unfold execScramblerAccept
  split
  · split
    case h_1 => exact .undue
    case h_2 r rest head => exact .next (.recordAccepted r rest head)
  · exact .undue

/-! ## The sweep engine -/

theorem sweepVisit_hasEffect (u : List Nat) : (execSweepVisit u s).HasEffect s := by
  unfold execSweepVisit
  split
  case h_1 kind ranges overtaken w port engine => exact .withinStore (.visited u w kind ranges overtaken port engine)
  case h_2 => exact .undue

theorem wipeStart_hasEffect : (execWipeStart s).HasEffect s := by
  unfold execWipeStart
  split
  case isTrue due => exact .next (.wipeStarted due.1 due.2)
  case isFalse => exact .undue

theorem wipeWrite_hasEffect : (execWipeWrite s).HasEffect s := by
  unfold execWipeWrite
  split
  case h_1 c port engine => exact .withinStore (.wipeWritten c port engine)
  case h_2 => exact .undue

/-! ## All commands -/

/-- Every command that completes has an effect of the relation. -/
theorem exec_hasEffect (c : Instr) (s : State) : Result.HasEffect (exec c s) s := by
  cases c with
  | hardwareReset pins => exact hardwareReset_hasEffect pins
  | settingsLoadEnd ack => exact settingsLoadEnd_hasEffect ack
  | saveDone n => exact saveDone_hasEffect n
  | addressCharacter v => exact addressCharacter_hasEffect v
  | characterFailure => exact characterFailure_hasEffect
  | lengthFailure n => exact lengthFailure_hasEffect n
  | gapFailure => exact gapFailure_hasEffect
  | lineBreak => exact .next .lineBroken
  | requestFrame cs => exact requestFrame_hasEffect cs
  | replyComplete pins => exact replyComplete_hasEffect pins
  | unitId => exact unitId_hasEffect
  | unitStatus l => exact unitStatus_hasEffect l
  | countersRead => exact countersRead_hasEffect
  | noticeFetch => exact noticeFetch_hasEffect
  | noticeAck => exact noticeAck_hasEffect
  | unitReset pins => exact unitReset_hasEffect pins
  | configRead => exact configRead_hasEffect
  | configWrite => exact configWrite_hasEffect
  | settingsSave => exact settingsSave_hasEffect
  | nightOpen => exact nightOpen_hasEffect
  | nightClose => exact nightClose_hasEffect
  | busClear l => exact busClear_hasEffect l
  | eventDefine => exact eventDefine_hasEffect
  | eventRead => exact eventRead_hasEffect
  | eventHold => exact eventHold_hasEffect
  | eventCancel => exact eventCancel_hasEffect
  | eventClear => exact eventClear_hasEffect
  | blackoutAdd => exact blackoutAdd_hasEffect
  | blackoutRemove => exact blackoutRemove_hasEffect
  | keyLoad => exact keyLoad_hasEffect
  | epochSelect => exact epochSelect_hasEffect
  | grantAdd => exact grantAdd_hasEffect
  | grantRevoke => exact grantRevoke_hasEffect
  | grantQuery => exact grantQuery_hasEffect
  | requestStoreOperation u => exact requestStoreOperation_hasEffect u
  | secondPulse elapsed order => exact .next (.pulsed _ order)
  | flywheelEntry order => exact flywheelEntry_hasEffect order
  | flywheelSecond order => exact flywheelSecond_hasEffect order
  | cycleTick => exact .next (.cycleTicked _)
  | compositionAttempt => exact compositionAttempt_hasEffect
  | urgentDequeue u => exact urgentDequeue_hasEffect u
  | freshDequeue u => exact freshDequeue_hasEffect u
  | refreshRead u => exact refreshRead_hasEffect u
  | arbiterGrant l => exact .next (.arbiterGranted l)
  | packetStart l => exact .next (.packetStarted l)
  | grantTaken l => exact .next (.grantTaken l)
  | grantEnd l => exact .next (.grantEnded l)
  | grantTimeout l => exact .next (.grantTimedOut l)
  | arbiterFault l => exact .next (.arbiterFaulted l)
  | sendEnd => exact sendEnd_hasEffect
  | grantCompletionUpdate u => exact grantCompletionUpdate_hasEffect u
  | revokeCompletionUpdate u => exact revokeCompletionUpdate_hasEffect u
  | sweepVisit u => exact sweepVisit_hasEffect u
  | wipeStart => exact wipeStart_hasEffect
  | wipeWrite => exact wipeWrite_hasEffect
  | scramblerReady level => exact .next (.readyFollowed level)
  | scramblerAccept => exact scramblerAccept_hasEffect

/-- A law that says nothing of the timer and the waiting commands is kept by every step once every effect keeps it. -/
theorem step_keeps {Law : State → Prop} {t : State} (idle : Law s → Law s.idle)
    (pending : ∀ q, Law s → Law (s.setPending q)) (effect : ∀ {a b : State}, Effect a b → Law a → Law b)
    (law : Law s) (run : step s = .next t) : Law t := by
  unfold step at run
  split at run
  case h_1 =>
    obtain rfl := Host.Outcome.next.inj run
    exact idle law
  case h_2 c rest _ => exact effect (exec_hasEffect c _ t run) (pending rest law)

end Sys2Proof.Machine
end

