-- ==== Sys2Proof/Proofs/StoreCanonical.lean ====
section
/-! The slot memory stays in canonical form (log 9). -/

namespace Sys2Proof.Machine

variable {s t : State}

/-- A state that keeps the store keeps the form. -/
theorem State.storeOk.of_store (ok : s.storeOk) (store : t.store = s.store) : t.storeOk :=
  State.storeOk_congr _ _ (by rw [store]) ok

theorem Tries.storeOk (tries : Tries s t) (ok : s.storeOk) : t.storeOk := by
  obtain ⟨c, p, rfl⟩ := tries.only
  exact ok

/-- Every step of an attempt is taken up again as such a step. -/
theorem State.again_tries (a : Attempt) (s : State) : Tries s (a.again s) := by
  cases a with
  | none => exact s.nothingEligible_tries
  | urgentShare => exact s.tryUrgentShare_tries
  | freshShare => exact s.tryFreshShare_tries
  | refresh reads => exact s.tryRefresh_tries (reads + 1)
  | urgentRest => exact s.tryUrgentRest_tries
  | freshRest => exact s.tryFreshRest_tries

theorem State.goOn_again_ok (a : Attempt) (ok : s.storeOk) : (s.releasePort.goOn a.again).storeOk :=
  (s.releasePort.goOn_tries _ (State.again_tries a _)).storeOk (ok.of_store (by simp))

theorem State.storeOk.releasePort (ok : s.storeOk) : s.releasePort.storeOk := ok.of_store (by simp)

theorem State.storeOk.endUpdate (ok : s.storeOk) (rest : List Tag) : (s.endUpdate rest).storeOk :=
  ok.of_store (by simp)

/-! ## The operations over slots -/

theorem State.reinstate_ok (n : Nat) (f : AddFields) (ok : s.storeOk) : (s.reinstate n f).storeOk :=
  State.appendFresh_ok _ n ((State.putSlot_ok _ n ((s.slot n).withGrant (f.grant s.stamp)) ok).of_store (by simp))

theorem State.drawSlot_ok (was : SlotState) (ok : s.storeOk) : (s.drawSlot was).storeOk := by
  unfold State.drawSlot
  split <;> exact ok

theorem State.insert_ok (n : Nat) (f : AddFields) (ok : s.storeOk) : (s.insert n f).storeOk :=
  State.appendFresh_ok _ n
    ((State.drawSlot_ok (s.slot n).state
      (State.putSlot_ok _ n ((s.slot n).withGrant (f.grant s.stamp)) ok)).of_store (by simp))

theorem State.addAfterLookup_ok (h : HeldRequest) (f : AddFields) (l : Lookup) (ok : s.storeOk) :
    (s.addAfterLookup h f l).storeOk := by
  unfold State.addAfterLookup
  split
  case h_1 n =>
    split
    · exact State.reinstate_ok n f ok
    · exact ok
  case h_2 n => exact State.insert_ok n f ok
  case h_3 => exact ok

theorem State.addGrant_ok (h : HeldRequest) (f : AddFields) (ok : s.storeOk) : (s.addGrant h f).storeOk := by
  unfold State.addGrant
  repeat' split
  case h_2.isFalse => exact State.addAfterLookup_ok h f _ (State.lookup_ok _ _ _ ok)
  all_goals exact ok

theorem State.revokeUnsent_ok (n e : Nat) (ok : s.storeOk) : (s.revokeUnsent n e).storeOk :=
  (State.putSlot_ok _ n (s.slot n).vacate ok).of_store (by simp [State.revokeUnsent])

theorem State.revokeSent_ok (n : Nat) (why : RevokeReason) (ok : s.storeOk) : (s.revokeSent n why).storeOk :=
  State.appendUrgent_ok _ n (State.putSlot_ok _ n _ ok)

theorem State.revokeAfterLookup_ok (h : HeldRequest) (d e : Nat) (l : Lookup) (ok : s.storeOk) :
    (s.revokeAfterLookup h d e l).storeOk := by
  unfold State.revokeAfterLookup
  split
  case h_1 => exact ok
  case h_2 n =>
    repeat' split
    · exact ok
    · exact State.revokeUnsent_ok n e ok
    · exact State.revokeSent_ok n .customer ok

theorem State.revokeGrant_ok (h : HeldRequest) (d e : Nat) (ok : s.storeOk) : (s.revokeGrant h d e).storeOk := by
  unfold State.revokeGrant
  repeat' split
  case isFalse.isFalse.isFalse.isFalse => exact State.revokeAfterLookup_ok h d e _ (State.lookup_ok _ d e ok)
  all_goals exact ok

theorem State.queryGrant_ok (h : HeldRequest) (d e : Nat) (ok : s.storeOk) : (s.queryGrant h d e).storeOk := by
  have looked := State.lookup_ok s d e ok
  unfold State.queryGrant
  repeat' split
  · exact ok
  · exact ok
  · unfold State.queryAfterLookup
    split <;> exact looked

theorem State.emit_ok (m : Message) (c : TagContent) (share : Carousel → Carousel) (ok : s.storeOk) :
    (s.emit m c share).storeOk := ok.of_store (by simp)

theorem State.emitCandidate_ok (n : Nat) (g : Grant) (share : Carousel → Carousel) (ok : s.storeOk) :
    (s.emitCandidate n g share).storeOk := by
  unfold State.emitCandidate
  split
  · exact State.emit_ok _ _ _ (State.putSlot_ok _ n _ ok)
  · exact State.emit_ok _ _ _ ok

theorem State.takeUrgent_ok (n : Nat) (rest : List Nat) (a : Attempt) (ok : s.storeOk) :
    (s.takeUrgent n rest a.again).storeOk := by
  have read : (((s.check n).setUrgent rest).clearSlotMark n).storeOk := State.putSlot_ok _ n _ (State.check_ok _ n ok)
  unfold State.takeUrgent
  dsimp only
  split
  · exact (State.emit_ok _ _ _ read).releasePort
  · exact State.goOn_again_ok a read

theorem State.takeFresh_ok (n : Nat) (rest : List Nat) (a : Attempt) (ok : s.storeOk) :
    (s.takeFresh n rest a.again).storeOk := by
  have read : (((s.check n).setFresh rest).clearSlotMark n).storeOk := State.putSlot_ok _ n _ (State.check_ok _ n ok)
  unfold State.takeFresh
  dsimp only
  split
  · exact (State.emitCandidate_ok _ _ _ read).releasePort
  · exact State.goOn_again_ok a read

theorem State.emitRefresh_ok (n : Nat) (g : Grant) (ok : s.storeOk) : (s.emitRefresh n g).storeOk := by
  unfold State.emitRefresh
  split
  · exact State.emit_ok _ _ _ ok
  · exact State.emitCandidate_ok _ _ _ ok

theorem State.readRefresh_ok (n reads : Nat) (ok : s.storeOk) : (s.readRefresh n reads).storeOk := by
  have read : (s.check n).moveCursor.storeOk := State.check_ok _ n ok
  unfold State.readRefresh
  dsimp only
  split
  · exact (State.emitRefresh_ok n _ read).releasePort
  · exact State.goOn_again_ok (.refresh reads) read

theorem State.updateGrant_ok (n d e : Nat) (ok : s.storeOk) : (s.updateGrant n d e).storeOk := by
  unfold State.updateGrant
  dsimp only
  split
  · exact State.putSlot_ok _ n _ (State.check_ok _ n ok)
  · exact State.check_ok _ n ok

theorem State.updateRevoke_ok (n d e : Nat) (ok : s.storeOk) : (s.updateRevoke n d e).storeOk := by
  have checked := State.check_ok s n ok
  unfold State.updateRevoke
  dsimp only
  repeat' split
  · exact State.revokeUnsent_ok n e checked
  · exact State.putSlot_ok _ n _ checked
  · exact checked

theorem State.revokeVisited_ok (n : Nat) (g : Grant) (why : RevokeReason) (ok : s.storeOk) :
    (s.revokeVisited n g why).storeOk := by
  unfold State.revokeVisited
  split
  · exact State.revokeUnsent_ok n g.event ok
  · exact State.revokeSent_ok n why ok

theorem State.retireVisited_ok (n e : Nat) (ok : s.storeOk) : (s.retireVisited n e).storeOk :=
  (State.putSlot_ok _ n (s.slot n).vacate ok).of_store (by simp [State.retireVisited])

theorem State.visitAct_ok (n : Nat) (g : Grant) (k : SweepKind) (ok : s.storeOk) : (s.visitAct n g k).storeOk := by
  cases k with
  | cancel => exact State.revokeVisited_ok n g .cancelled ok
  | retire => exact State.retireVisited_ok n g.event ok
  | blackout => exact State.revokeVisited_ok n g .blackout ok

theorem State.visit_ok (w : Sweep) (k : SweepKind) (ranges : List Range) (o : Bool) (ok : s.storeOk) :
    (s.visit w k ranges o).storeOk := by
  have checked := State.check_ok s w.cursor ok
  unfold State.visit
  dsimp only
  split
  case h_1 g _ => exact (State.visitAct_ok w.cursor g k checked).of_store (by simp)
  case h_2 => exact checked.of_store (by simp)

theorem State.wipeSlot_ok (c : Nat) (ok : s.storeOk) : (s.wipeSlot c).storeOk := by
  have written := State.putSlot_ok s c blankSlot ok
  unfold State.wipeSlot
  dsimp only
  split
  · exact written.of_store (by simp)
  · exact written.of_store (by simp)

theorem State.startWipe_ok (ok : s.storeOk) : s.startWipe.storeOk :=
  State.storeOk_congr s _ (by simp [State.startWipe]) ok

/-! ## Steps -/

theorem EventServed.store (served : EventServed s t) : t.store = s.store := by
  cases served <;> simp

theorem Served.store (served : Served s t) : t.store = s.store := by
  cases served with
  | event night served => exact served.store
  | closed forced opened =>
    unfold State.takeClose
    split <;> simp [State.closeNight]
  | _ => simp

theorem Effect.storeOk (effect : Effect s t) (ok : s.storeOk) : t.storeOk := by
  have upset (u : List Nat) : (s.upset u).storeOk := State.upset_ok _ u ok
  cases effect with
  | answered h r body served => exact ok.of_store (by simp [served.store])
  | grantAdded u => exact (State.addGrant_ok _ _ (upset u)).releasePort
  | grantRevoked u => exact (State.revokeGrant_ok _ _ _ (upset u)).releasePort
  | grantQueried u => exact (State.queryGrant_ok _ _ _ (upset u)).releasePort
  | queueFoundEmpty a => exact State.goOn_again_ok a ok
  | urgentTaken u n rest a => exact State.takeUrgent_ok n rest a (upset u)
  | freshTaken u n rest a => exact State.takeFresh_ok n rest a (upset u)
  | refreshed u reads => exact State.readRefresh_ok _ reads (upset u)
  | grantUpdated u t rest => exact (State.updateGrant_ok _ _ _ (upset u)).endUpdate rest
  | revokeUpdated u t rest => exact (State.updateRevoke_ok _ _ _ (upset u)).endUpdate rest
  | visited u w kind ranges overtaken => exact State.visit_ok w kind ranges overtaken (upset u)
  | wipeWritten c => exact State.wipeSlot_ok c ok
  | hardwareReset => exact ok
  | hardwareResetWipes | unitReset | loaded | wipeStarted => exact State.startWipe_ok ok
  | _ => exact ok.of_store (by simp)

end Sys2Proof.Machine

open Sys2Proof Sys2Proof.Machine

/-- Settles O55. Each command's effect writes the memory slot by slot, if at all. -/
theorem stepsKeepStoreCanonical : Obligations.StepsKeepStoreCanonical := by
  unfold Obligations.StepsKeepStoreCanonical
  intro s t
  exact step_keeps (fun ok => ok) (fun _ ok => ok) (fun effect => effect.storeOk)
end

