-- ==== Sys2Proof/Proofs/TableCourse.lean ====
section
/-! SUPPORT. What a command can do to the event table, the scrambler queue and the sweep engine: a course of few kinds of
change. The laws between these three are derived from the kinds of change. -/

namespace Sys2Proof.Machine

/-- No sweep of the event stands: its state is none that a sweep is for, or it is CANCELLED and swept (R12). -/
def State.Unswept (s : State) (n : Nat) : Prop :=
  (∀ k, ¬ (s.event n).state.SweptFor k) ∨ ((s.event n).state = .cancelled ∧ s.cancelSweepDone n = true)

/-- A record that follows `r` without its counts leaving balance or its key fields the relations of R103. -/
structure EventRecord.Follows (r q : EventRecord) : Prop where
  counts : r.counts.Balanced → q.counts.Balanced
  keys : r.KeysRelate → q.KeysRelate

/-- One change of the event table, the scrambler queue or the sweep engine. -/
inductive TableChange (s : State) : State → Prop where
  | elsewhere {t : State} (events : t.events = s.events) (queue : t.scrambler.queue = s.scrambler.queue)
    (engine : t.sweep = s.sweep) : TableChange s t
  | recorded (n : Nat) (r : EventRecord) (follows : (s.event n).Follows r) (marks : r.marks = (s.event n).marks)
    (swept : ∀ k, (s.event n).state.SweptFor k → r.state.SweptFor k) : TableChange s (s.setEvent n r)
  | replaced (n : Nat) (r : EventRecord) (unswept : s.Unswept n) (follows : (s.event n).Follows r)
    (marks : r.marks = (s.event n).marks ∨ r.marks = Marks.none) : TableChange s (s.setEvent n r)
  | advanced (n : Nat) (key : Key) (entered : Option EventState) (next : (s.event n).keys.next = some key)
    (free : s.hasRecord n = false)
    (state : ((s.event n).state.keyed = true ∧ entered = none)
      ∨ ((s.event n).state = .onSale ∧ ∃ e, entered = some e ∧ e.keyed = true)) :
    TableChange s (s.advanced n key entered)
  | clearPosted (n : Nat) (keyed : (s.event n).state.keyed = true) : TableChange s (s.postClear n)
  | offered (n : Nat) (r : EventRecord) (k : SweepKind) (b : State) (events : b.events = s.events.set n r)
    (queue : b.scrambler.queue = s.scrambler.queue) (engine : b.sweep = s.sweep)
    (old : (s.event n).state.admitting = true ∨ ((s.event n).state = .cancelled ∧ s.cancelSweepDone n = true))
    (follows : (s.event n).Follows r) (swept : r.state.SweptFor k) (marked : r.marked k)
    (marks : ∀ q, r.marked q → q = k ∨ ((s.event n).marked q ∧ ¬ (s.event n).state.SweptFor q)) : TableChange s (b.markSet n)
  | accepted (r : ScramblerRecord) (rest : List ScramblerRecord) (head : s.scrambler.queue = r :: rest) :
    TableChange s (s.setScramblerQueue rest)
  | moved (w v : Sweep) (engine : s.sweep.engine = .sweeping w) (kind : v.kind = w.kind) (event : v.event = w.event) :
    TableChange s (s.setEngine (.sweeping v))
  | completed (w : Sweep) (engine : s.sweep.engine = .sweeping w) (goes : s.sweep.wipePending = false) :
    TableChange s (s.completeSweep w.event w.kind)

/-- The sweep engine begins, goes on with or ends a WIPE, or every event goes at a close or a reset. -/
inductive TableCleared (s : State) : State → Prop where
  | wiped {t : State} (events : t.events = s.events ∨ t.events = clearMarks s.events)
    (queue : t.scrambler.queue = s.scrambler.queue) (engine : ∀ w, t.sweep.engine ≠ .sweeping w) : TableCleared s t
  | emptied {t : State} (events : t.events = List.replicate 32 EventRecord.empty)
    (queue : t.scrambler.queue = s.scrambler.queue ∨ t.scrambler.queue = [])
    (engine : (∀ w, t.sweep.engine ≠ .sweeping w) ∨ t.sweep.wipePending = true) : TableCleared s t

/-- Some changes one after another. -/
abbrev TableCourse : State → State → Prop := Relation.ReflTransGen TableChange

/-- What each kind of change keeps is kept by every course. -/
theorem TableCourse.keeps {Law : State → Prop} (change : ∀ {a b : State}, TableChange a b → Law a → Law b) {s t : State}
    (course : TableCourse s t) (law : Law s) : Law t := by
  induction course with
  | refl => exact law
  | tail _ last kept => exact change last kept

/-- What a command does to the three: a course of changes, after which all may be cleared. -/
def TableEnd (s t : State) : Prop := TableCourse s t ∨ ∃ a, TableCourse s a ∧ TableCleared a t

theorem TableEnd.keeps {Law : State → Prop} (change : ∀ {a b : State}, TableChange a b → Law a → Law b)
    (cleared : ∀ {a b : State}, TableCleared a b → Law a → Law b) {s t : State} (ended : TableEnd s t) (law : Law s) :
    Law t := by
  obtain course | ⟨a, course, last⟩ := ended
  · exact course.keeps change law
  · exact cleared last (course.keeps change law)

variable {s t : State} {n : Nat}

theorem TableCleared.ended (last : TableCleared s t) : TableEnd s t := .inr ⟨s, .refl, last⟩

theorem TableChange.course (change : TableChange s t) : TableCourse s t := .single change

/-- A state that differs elsewhere alone. -/
theorem TableCourse.of_same (events : t.events = s.events) (queue : t.scrambler.queue = s.scrambler.queue)
    (engine : t.sweep = s.sweep) : TableCourse s t := (TableChange.elsewhere events queue engine).course

/-- A change comes before a course. -/
theorem TableCourse.after {u : State} (course : TableCourse t u) (change : TableChange s t) : TableCourse s u :=
  .head change course

/-- A course begins elsewhere. -/
theorem TableCourse.after_same {u : State} (course : TableCourse t u) (events : t.events = s.events)
    (queue : t.scrambler.queue = s.scrambler.queue) (engine : t.sweep = s.sweep) : TableCourse s u :=
  course.after (.elsewhere events queue engine)

/-- A course goes on elsewhere. -/
theorem TableCourse.same {u : State} (course : TableCourse s t) (events : u.events = t.events)
    (queue : u.scrambler.queue = t.scrambler.queue) (engine : u.sweep = t.sweep) : TableCourse s u :=
  course.tail (.elsewhere events queue engine)

/-- The end goes on elsewhere. -/
theorem TableEnd.same {u : State} (ended : TableEnd s t) (events : u.events = t.events)
    (queue : u.scrambler.queue = t.scrambler.queue) (engine : u.sweep = t.sweep) : TableEnd s u := by
  obtain course | ⟨a, course, last⟩ := ended
  · exact .inl (course.same events queue engine)
  · refine .inr ⟨a, course, ?_⟩
    cases last with
    | wiped events' queue' engine' =>
      exact .wiped (by rw [events]; exact events') (by rw [queue]; exact queue') (by rw [engine]; exact engine')
    | emptied events' queue' engine' =>
      exact .emptied (by rw [events]; exact events') (by rw [queue]; exact queue') (by rw [engine]; exact engine')

/-! ## Attempts taken up again -/

/-- An attempt that goes on after a read touches the carousel and the port alone. -/
theorem State.goOn_again_only (a : Attempt) (s : State) :
    ∃ c p, s.releasePort.goOn a.again = { s with carousel := c, port := p } := by
  obtain ⟨c, p, goes⟩ := (s.releasePort.goOn_tries _ (State.again_tries a _)).only
  obtain ⟨q, released⟩ := s.releasePort_only
  exact ⟨c, p, by rw [goes, released]⟩

@[simp] theorem State.goOn_again_keeps (a : Attempt) (s : State) :
    (s.releasePort.goOn a.again).night = s.night ∧ (s.releasePort.goOn a.again).clock = s.clock
      ∧ (s.releasePort.goOn a.again).settings = s.settings ∧ (s.releasePort.goOn a.again).events = s.events
      ∧ (s.releasePort.goOn a.again).scrambler = s.scrambler ∧ (s.releasePort.goOn a.again).store = s.store
      ∧ (s.releasePort.goOn a.again).sweep = s.sweep ∧ (s.releasePort.goOn a.again).bus = s.bus
      ∧ (s.releasePort.goOn a.again).link = s.link := by
  obtain ⟨c, p, goes⟩ := State.goOn_again_only a s
  simp [goes]

@[simp] theorem State.takeUrgent_again_keeps (n : Nat) (rest : List Nat) (a : Attempt) (s : State) :
    (s.takeUrgent n rest a.again).night = s.night ∧ (s.takeUrgent n rest a.again).clock = s.clock
      ∧ (s.takeUrgent n rest a.again).settings = s.settings ∧ (s.takeUrgent n rest a.again).events = s.events
      ∧ (s.takeUrgent n rest a.again).scrambler = s.scrambler ∧ (s.takeUrgent n rest a.again).sweep = s.sweep
      ∧ (s.takeUrgent n rest a.again).link = s.link := by
  unfold State.takeUrgent
  dsimp only
  split <;> simp

@[simp] theorem State.takeFresh_again_keeps (n : Nat) (rest : List Nat) (a : Attempt) (s : State) :
    (s.takeFresh n rest a.again).night = s.night ∧ (s.takeFresh n rest a.again).clock = s.clock
      ∧ (s.takeFresh n rest a.again).settings = s.settings ∧ (s.takeFresh n rest a.again).events = s.events
      ∧ (s.takeFresh n rest a.again).scrambler = s.scrambler ∧ (s.takeFresh n rest a.again).sweep = s.sweep
      ∧ (s.takeFresh n rest a.again).link = s.link := by
  unfold State.takeFresh
  dsimp only
  split <;> simp

/-! ## Records that follow one another -/

theorem EventRecord.KeysRelate.of_same {r q : EventRecord} (relate : r.KeysRelate) (keys : q.keys = r.keys)
    (keyed : q.state.keyed = r.state.keyed)
    (first : q.state = .scheduled ∨ q.state = .onSale → r.state = .scheduled ∨ r.state = .onSale)
    (empty : q.state = .empty → r.state = .empty) : q.KeysRelate where
  current := by rw [keys, keyed]; exact relate.current
  onDeck := by rw [keys]; exact relate.onDeck
  announced := by rw [keys]; exact relate.announced
  entered := by rw [keys]; exact relate.entered
  first q := by rw [keys]; exact relate.first (first q)
  keyed q := by rw [keys]; exact relate.keyed (keyed ▸ q)
  empty q := by rw [keys]; exact relate.empty (empty q)

/-- A record with the state and the keys of another. -/
theorem EventRecord.Follows.of_same {r q : EventRecord} (state : q.state = r.state) (keys : q.keys = r.keys)
    (counts : r.counts.Balanced → q.counts.Balanced) : r.Follows q where
  counts := counts
  keys relate := relate.of_same keys (by rw [state]) (by rw [state]; exact id) (by rw [state]; exact id)

/-- A change of state that neither enters nor leaves a keyed state, nor goes back before the first entry. -/
theorem EventRecord.Follows.changeState {r : EventRecord} (stateRepeat : Nat) {e : EventState}
    (keyed : e.keyed = r.state.keyed)
    (first : e = .scheduled ∨ e = .onSale → r.state = .scheduled ∨ r.state = .onSale) (ne : e ≠ .empty) :
    r.Follows (r.changeState stateRepeat e) where
  counts balanced := balanced
  keys relate := relate.of_same rfl keyed first (fun empty => absurd empty ne)

/-- Key fields changed in a record that is not EMPTY, its current key, its epoch and what goes with it left. -/
theorem EventRecord.Follows.of_keys {r q : EventRecord} (state : q.state = r.state) (counts : q.counts = r.counts)
    (ne : r.state ≠ .empty)
    (epoch : q.keys.epoch = r.keys.epoch ∧ q.keys.current = r.keys.current ∧ q.keys.epochStart = r.keys.epochStart
      ∧ q.keys.length = r.keys.length)
    (next : r.KeysRelate → (q.keys.onDeck.isSome = true → q.keys.next.isSome = true)
      ∧ (q.keys.next = none → q.keys.announceCount = 0)) : r.Follows q where
  counts := by rw [counts]; exact id
  keys relate := by
    obtain ⟨epoch, current, epochStart, length⟩ := epoch
    exact {
      current := by rw [current, state]; exact relate.current
      onDeck := (next relate).1
      announced := (next relate).2
      entered := by rw [epoch, epochStart, length]; exact relate.entered
      first := by rw [epoch, state]; exact relate.first
      keyed := by rw [epoch, state]; exact relate.keyed
      empty := fun empty => absurd (state ▸ empty) ne }

/-- An event that has ended keeps the relations: its keys are gone, its epoch stays (R103, R115). -/
theorem EventRecord.Follows.ended {r : EventRecord} (stateRepeat : Nat) {e : EventState}
    (ended : e = .closed ∨ e = .cancelled) (marks : Marks) : r.Follows (r.ended stateRepeat e marks) where
  counts balanced := balanced
  keys relate := by
    have state : e.keyed = false ∧ e ≠ .scheduled ∧ e ≠ .onSale ∧ e ≠ .empty := by
      obtain rfl | rfl := ended <;> decide
    obtain ⟨notKeyed, notScheduled, notOnSale, notEmpty⟩ := state
    exact {
      current := by simp [EventRecord.ended, KeyFields.ended, notKeyed]
      onDeck := by simp [EventRecord.ended, KeyFields.ended]
      announced := by simp [EventRecord.ended, KeyFields.ended]
      entered := relate.entered
      first := fun first => absurd first (by simp [EventRecord.ended, notScheduled, notOnSale])
      keyed := fun keyed => absurd keyed (by simp [EventRecord.ended, notKeyed])
      empty := fun empty => absurd empty notEmpty }

theorem EventRecord.keysRelate_empty : EventRecord.empty.KeysRelate := by
  constructor <;> decide

theorem EventState.sweptFor_of_selling {e f : EventState} (new : f.selling = true) (old : e.selling = true)
    (k : SweepKind) (swept : e.SweptFor k) : f.SweptFor k := by
  cases k with
  | cancel =>
    obtain rfl : e = .cancelled := swept
    cases old
  | retire =>
    obtain rfl : e = .closed := swept
    cases old
  | blackout => exact new

/-- An event SCHEDULED to OVERTIME is swept for its blackout list alone. -/
theorem EventState.not_sweptFor_of_admitting {e : EventState} (admitting : e.admitting = true) {k : SweepKind}
    (other : k ≠ .blackout) : ¬ e.SweptFor k := by
  intro swept
  cases k with
  | cancel =>
    obtain rfl : e = .cancelled := swept
    cases admitting
  | retire =>
    obtain rfl : e = .closed := swept
    cases admitting
  | blackout => exact other rfl

theorem EventState.selling_of_keyed {e : EventState} (keyed : e.keyed = true) : e.selling = true := by
  simp [EventState.selling, keyed]

theorem EventState.ne_empty_of_keyed {e : EventState} (keyed : e.keyed = true) : e ≠ .empty :=
  EventState.selling_ne_empty e (EventState.selling_of_keyed keyed)

/-! ## Deadlines, keys and ends of events -/

/-- A number of a record that is not EMPTY lies in the table. -/
theorem State.lt_of_state_ne_empty (ne : (s.event n).state ≠ .empty) : n < s.events.length := by
  by_contra outside
  exact ne (by simp [State.event, List.getD_eq_getElem?_getD, List.getElem?_eq_none (Nat.le_of_not_lt outside),
    EventRecord.empty])

theorem State.stepSaleOpen_course (s : State) (n : Nat) (w : Window) : TableCourse s (s.stepSaleOpen n w) := by
  unfold State.stepSaleOpen
  split
  case isTrue due =>
    refine TableChange.course (.recorded n _ (.changeState _ ?_ (fun _ => .inl due.1) nofun) ?_ ?_)
    · rw [due.1]; rfl
    · rfl
    · intro k swept
      rw [due.1] at swept
      cases k <;> cases swept
  case isFalse => exact .refl

theorem State.setKeyLate_course (ne : (s.event n).state ≠ .empty) : TableCourse s (s.setKeyLate n) := by
  unfold State.setKeyLate
  split
  case isTrue => exact .refl
  case isFalse =>
    refine TableChange.course (.recorded n _ (.of_keys ?_ ?_ ne ?_ ?_) ?_ (fun _ => id))
    · rfl
    · rfl
    · exact ⟨rfl, rfl, rfl, rfl⟩
    · exact fun relate => ⟨relate.onDeck, relate.announced⟩
    · rfl

/-- The advance conditions give a next key and a queue without a record of the event (R110, R117). -/
theorem State.ready_parts (ready : s.advanceReady n = true) :
    (∃ key, (s.event n).keys.next = some key) ∧ s.hasRecord n = false := by
  simp only [State.advanceReady, Bool.and_eq_true, Bool.not_eq_true', Option.isSome_iff_exists] at ready
  obtain ⟨⟨next, _⟩, free⟩ := ready
  exact ⟨next, free⟩

theorem State.advance_course (ready : s.advanceReady n = true) (keyed : (s.event n).state.keyed = true) :
    TableCourse s (s.advance n) := by
  obtain ⟨⟨key, next⟩, free⟩ := State.ready_parts ready
  rw [State.advance_advanced s n key next]
  exact (TableChange.advanced n key none next free (.inl ⟨keyed, rfl⟩)).course

theorem Window.keyed_entryState (w : Window) (clock : Nat) : (w.entryState clock).keyed = true := by
  unfold Window.entryState
  split <;> rfl

theorem State.enter_course (ready : s.advanceReady n = true) (onSale : (s.event n).state = .onSale) :
    TableCourse s (s.enter n) := by
  obtain ⟨⟨key, next⟩, free⟩ := State.ready_parts ready
  cases window : (s.event n).window with
  | none =>
    rw [State.enter, window]
  | some w =>
    rw [State.enter_advanced s n key w next window]
    exact (TableChange.advanced n key _ next free (.inr ⟨onSale, _, rfl, w.keyed_entryState _⟩)).course

theorem State.stepEntry_course (s : State) (n : Nat) (w : Window) : TableCourse s (s.stepEntry n w) := by
  unfold State.stepEntry
  split
  case isTrue due =>
    split
    case isTrue ready => exact State.enter_course ready due.1
    case isFalse => exact State.setKeyLate_course (by rw [due.1]; nofun)
  case isFalse => exact .refl

/-- A change of state among those ON-SALE or keyed that keeps the key relations. -/
theorem State.changeState_course {e f : EventState} (state : (s.event n).state = e) (new : f.keyed = true)
    (old : e.keyed = true) : TableCourse s (s.changeState n f) := by
  refine TableChange.course (.recorded n _ (.changeState _ (by rw [state, new, old]) ?_ ?_) ?_ ?_)
  · rintro (rfl | rfl) <;> cases new
  · exact EventState.ne_empty_of_keyed new
  · rfl
  · rw [state]
    exact EventState.sweptFor_of_selling (EventState.selling_of_keyed new) (EventState.selling_of_keyed old)

theorem State.stepLive_course (s : State) (n : Nat) (w : Window) : TableCourse s (s.stepLive n w) := by
  unfold State.stepLive
  split
  case isTrue due => exact State.changeState_course due.1 rfl rfl
  case isFalse => exact .refl

/-- The keys of an event are ended at its close or cancel, its record is that of an ended event, and its mark is offered
to the engine (R10, R22, R115). -/
theorem State.ended_course {e : EventState} {k : SweepKind} {marks : Marks}
    (admitting : (s.event n).state.admitting = true) (ended : e = .closed ∨ e = .cancelled) (swept : e.SweptFor k)
    (marked : ((s.event n).ended s.stateRepeat e marks).marked k)
    (marksOf : ∀ q, ((s.event n).ended s.stateRepeat e marks).marked q →
      q = k ∨ ((s.event n).marked q ∧ ¬ (s.event n).state.SweptFor q)) :
    TableCourse s (((s.endKeys n).setEvent n ((s.event n).ended s.stateRepeat e marks)).markSet n) := by
  have offer (a : State) (event : a.event n = s.event n) (b : State)
      (events : b.events = a.events.set n ((s.event n).ended s.stateRepeat e marks))
      (queue : b.scrambler.queue = a.scrambler.queue) (engine : b.sweep = a.sweep) :
      TableChange a (b.markSet n) := by
    refine .offered n _ k b events queue engine (.inl ?_) ?_ swept marked ?_
    · rw [event]; exact admitting
    · rw [event]; exact .ended _ ended _
    · rw [event]; exact marksOf
  by_cases keyed : (s.event n).state.keyed = true
  case pos =>
    refine (TableChange.clearPosted n keyed).course.tail (offer _ (by rw [State.postClear_event]) _ ?_ ?_ ?_)
    · simp [State.endKeys, keyed]
    · simp [State.endKeys, keyed]
    · simp
  case neg =>
    refine (offer s rfl _ ?_ ?_ ?_).course
    · simp [State.endKeys, keyed]
    · simp [State.endKeys, keyed]
    · simp

theorem State.closeEvent_course (selling : (s.event n).state.selling = true) : TableCourse s (s.closeEvent n) := by
  rw [State.closeEvent_eq (State.lt_of_state_ne_empty (EventState.selling_ne_empty _ selling))]
  refine State.ended_course (k := .retire) (EventState.admitting_of_selling _ selling) (.inl rfl) rfl rfl ?_
  intro q marked
  cases q with
  | cancel =>
    exact .inr ⟨marked, EventState.not_sweptFor_of_admitting (EventState.admitting_of_selling _ selling) nofun⟩
  | retire => exact .inl rfl
  | blackout => cases marked

theorem State.cancelEvent_course (admitting : (s.event n).state.admitting = true) :
    TableCourse s (s.cancelEvent n) := by
  rw [State.cancelEvent_eq (State.lt_of_state_ne_empty (EventState.admitting_ne_empty _ admitting))]
  refine State.ended_course (k := .cancel) admitting (.inr rfl) rfl rfl ?_
  intro q marked
  cases q with
  | cancel => exact .inl rfl
  | retire => exact .inr ⟨marked, EventState.not_sweptFor_of_admitting admitting nofun⟩
  | blackout => cases marked

theorem State.stepClose_course (s : State) (n : Nat) (w : Window) : TableCourse s (s.stepClose n w) := by
  unfold State.stepClose
  split
  case isTrue due => exact State.closeEvent_course due.1
  case isFalse =>
    split
    case isTrue due => exact State.changeState_course due.1 rfl rfl
    case isFalse => exact .refl

theorem State.stepEpoch_course (s : State) (n : Nat) : TableCourse s (s.stepEpoch n) := by
  unfold State.stepEpoch
  split
  case isTrue due =>
    split
    case isTrue ready => exact State.advance_course ready due.1
    case isFalse => exact State.setKeyLate_course (EventState.ne_empty_of_keyed due.1)
  case isFalse => exact .refl

theorem State.deadlineSteps_course (s : State) (n : Nat) : TableCourse s (s.deadlineSteps n) := by
  unfold State.deadlineSteps
  split
  · exact .refl
  · exact ((((s.stepSaleOpen_course n _).trans (State.stepEntry_course _ n _)).trans
      (State.stepLive_course _ n _)).trans (State.stepClose_course _ n _)).trans (State.stepEpoch_course _ n)

theorem State.deadlinesOf_course (ns : List Nat) : ∀ s : State, TableCourse s (s.deadlinesOf ns) := by
  induction ns with
  | nil => exact fun s => .refl
  | cons n ns ih => exact fun s => (s.deadlineSteps_course n).trans (ih _)

theorem State.advanceClock_course (s : State) (order : List Nat) : TableCourse s (s.advanceClock order) := by
  unfold State.advanceClock
  split
  · exact (State.deadlinesOf_course _ _).after_same rfl rfl rfl
  · exact .refl

theorem State.pulseAt_course (s : State) (t : Nat) (order : List Nat) : TableCourse s (s.pulseAt t order) := by
  unfold State.pulseAt State.restorePulse
  dsimp only
  repeat' split
  · exact .refl
  · exact (State.advanceClock_course _ order).after_same rfl rfl rfl
  · exact .of_same rfl rfl rfl
  · exact (State.advanceClock_course _ order).after_same rfl rfl rfl

theorem State.recheck_course (s : State) (n : Nat) : TableCourse s (s.recheck n) := by
  unfold State.recheck State.closeStepNow
  split
  case isTrue due =>
    split
    case isTrue onSale =>
      have entered := State.enter_course due.2 onSale
      split
      · exact entered
      · exact entered.trans (State.stepClose_course _ n _)
    case isFalse =>
      split
      case isTrue keyed => exact State.advance_course due.2 keyed
      case isFalse => exact .refl
  case isFalse => exact .refl

theorem State.acceptRecord_course {r : ScramblerRecord} {rest : List ScramblerRecord}
    (head : s.scrambler.queue = r :: rest) : TableCourse s (s.acceptRecord r rest) := by
  unfold State.acceptRecord
  refine TableCourse.after ?_ (.accepted r rest head)
  exact (State.recheck_course _ r.event).after_same rfl rfl rfl

theorem State.bookKey_course (s : State) (n : Nat) (carried : Option Nat) : TableCourse s (s.bookKey n carried) := by
  unfold State.bookKey
  split
  case isTrue present =>
    refine (State.recheck_course _ n).after (.recorded n _ ⟨?_, fun relate => ?_⟩ ?_ (fun _ => id))
    · exact id
    · refine (EventRecord.Follows.of_keys (r := s.event n) ?_ ?_ ?_ ?_ ?_).keys relate
      · rfl
      · rfl
      · intro empty
        rw [relate.empty empty] at present
        cases present.1
      · exact ⟨rfl, rfl, rfl, rfl⟩
      · refine fun relate => ⟨relate.onDeck, fun absent => ?_⟩
        rw [show (s.event n).keys.next = none from absent] at present
        cases present.1
    · rfl
  case isFalse => exact .refl

/-- A record that keeps state, marks and keys is written. -/
theorem State.recorded_course (s : State) (n : Nat) (r : EventRecord) (state : r.state = (s.event n).state)
    (marks : r.marks = (s.event n).marks) (keys : r.keys = (s.event n).keys)
    (counts : (s.event n).counts.Balanced → r.counts.Balanced) : TableCourse s (s.setEvent n r) :=
  (TableChange.recorded n r (.of_same state keys counts) marks (by rw [state]; exact fun _ => id)).course

theorem State.bookState_course (s : State) (n : Nat) (e : EventState) : TableCourse s (s.bookState n e) := by
  unfold State.bookState
  split
  · exact s.recorded_course n _ rfl rfl rfl id
  · exact .refl

theorem State.book_course (s : State) (t : Tag) : TableCourse s (s.book t) := by
  have claimed : TableCourse s (s.claimCompletion t) := .of_same (by simp) (by simp) (by simp)
  unfold State.book
  split
  · exact .refl
  · split
    · exact s.bookKey_course _ _
    · exact s.bookState_course _ _
    · exact claimed
    · exact claimed

theorem State.complete_course (s : State) (tag : Option Tag) : TableCourse s (s.complete tag) := by
  unfold State.complete
  repeat' split
  · exact .refl
  · case isTrue t _ =>
    have booked : TableCourse s ((s.count (fun c => c.countPacket t.content)).book t) :=
      (State.book_course _ t).after_same rfl rfl rfl
    exact booked.same (by simp) (by simp) (by simp)
  · exact .refl

theorem State.ackEvents_course (es : List AckEntry) : ∀ s : State, TableCourse s (s.ackEvents es) := by
  induction es with
  | nil => exact fun s => .refl
  | cons e es ih => exact fun s => (ih _).after (.recorded e.event _ (.of_same rfl rfl id) rfl (fun _ => id))

/-! ## Counts and sweeps -/

theorem Counts.Balanced.revoke {c : Counts} (balanced : c.Balanced) : c.revoke.Balanced := by
  unfold Counts.revoke Counts.Balanced at *
  split
  · exact balanced
  · simp only
    omega

theorem Counts.Balanced.retire {c : Counts} (balanced : c.Balanced) : c.retire.Balanced := by
  unfold Counts.retire Counts.Balanced at *
  split
  · exact balanced
  · simp only
    omega

theorem Counts.Balanced.lose {c : Counts} (balanced : c.Balanced) : c.lose.Balanced := by
  unfold Counts.lose Counts.Balanced at *
  simp only
  omega

theorem Counts.Balanced.insert {c : Counts} (balanced : c.Balanced) : c.insert.Balanced := by
  unfold Counts.insert Counts.Balanced at *
  simp only
  omega

theorem State.report_course (s : State) (n : Nat) {f : Counts → Counts}
    (keeps : ∀ {c : Counts}, c.Balanced → (f c).Balanced) : TableCourse s (s.report n f) := by
  unfold State.report
  split
  · exact .refl
  · exact s.recorded_course n _ rfl rfl rfl keeps

theorem State.retireIfDone_course (s : State) (n : Nat) : TableCourse s (s.retireIfDone n) := by
  unfold State.retireIfDone
  split
  case isTrue done =>
    obtain ⟨cancelled, swept, _⟩ := done
    refine TableChange.course (.replaced n _ (.inr ⟨cancelled, swept⟩) (.changeState _ ?_ ?_ nofun) (.inl ?_))
    · rw [cancelled]; rfl
    · nofun
    · rfl
  case isFalse => exact .refl

theorem State.reportRevoked_course (s : State) (n : Nat) : TableCourse s (s.reportRevoked n) :=
  (s.report_course n Counts.Balanced.revoke).trans (State.retireIfDone_course _ n)

theorem State.revokeUnsent_course (s : State) (n e : Nat) : TableCourse s (s.revokeUnsent n e) :=
  (State.reportRevoked_course _ e).after_same rfl rfl rfl

theorem State.revokeSent_course (s : State) (n : Nat) (why : RevokeReason) : TableCourse s (s.revokeSent n why) :=
  .of_same (by simp) (by simp) (by simp)

theorem State.revokeVisited_course (s : State) (n : Nat) (g : Grant) (why : RevokeReason) :
    TableCourse s (s.revokeVisited n g why) := by
  unfold State.revokeVisited
  split
  · exact s.revokeUnsent_course n g.event
  · exact s.revokeSent_course n why

theorem State.visitAct_course (s : State) (n : Nat) (g : Grant) (k : SweepKind) : TableCourse s (s.visitAct n g k) := by
  cases k with
  | cancel => exact s.revokeVisited_course n g .cancelled
  | retire => exact (State.report_course _ g.event Counts.Balanced.retire).after_same rfl rfl rfl
  | blackout => exact s.revokeVisited_course n g .blackout

theorem State.check_course (s : State) (n : Nat) : TableCourse s (s.check n) := .of_same (by simp) (by simp) (by simp)

/-- The end of a visit moves the sweep on, and completes it when its lap is done (R60, R70). -/
theorem State.endVisit_course {w v : Sweep} (engine : s.sweep.engine = .sweeping w) (kind : v.kind = w.kind)
    (event : v.event = w.event) (overtaken : Bool) : TableCourse s (s.endVisit v overtaken) := by
  have moved : TableCourse s (s.setEngine (.sweeping v)) := (TableChange.moved w v engine kind event).course
  unfold State.endVisit
  dsimp only
  split
  case isTrue => exact moved.same (by simp) (by simp) (by simp)
  case isFalse goes =>
    split
    case isTrue =>
      have completed : TableCourse s ((s.setEngine (.sweeping v)).completeSweep v.event v.kind) :=
        moved.tail (.completed v rfl (by simpa using goes))
      exact TableCourse.same completed (by simp) (by simp) (by simp)
    case isFalse => exact moved.same (by simp) (by simp) (by simp)

theorem State.visit_course {w : Sweep} (engine : s.sweep.engine = .sweeping w) (k : SweepKind) (ranges : List Range)
    (o : Bool) : TableCourse s (s.visit w k ranges o) := by
  unfold State.visit
  dsimp only
  split
  case h_1 g _ =>
    refine ((s.check_course w.cursor).trans (State.visitAct_course _ w.cursor g k)).trans
      (State.endVisit_course (w := w) ?_ ?_ ?_ o)
    · simpa using engine
    · rfl
    · rfl
  case h_2 =>
    refine (s.check_course w.cursor).trans (State.endVisit_course (w := w) ?_ ?_ ?_ o)
    · simpa using engine
    · rfl
    · rfl

/-! ## Commands -/

/-- A definition fills an EMPTY record (R19). -/
theorem DefineFields.follows_record (d : DefineFields) (stateRepeat : Nat) (r : EventRecord) :
    r.Follows (d.record stateRepeat) where
  counts _ := rfl
  keys _ := {
    current := (by decide : KeyFields.empty.current.isSome = true ↔ EventState.scheduled.keyed = true)
    onDeck := nofun
    announced := fun _ => rfl
    entered := (by decide : (KeyFields.empty.epochStart.isSome = true ↔ 1 ≤ KeyFields.empty.epoch)
      ∧ (KeyFields.empty.length.isSome = true ↔ 1 ≤ KeyFields.empty.epoch))
    first := fun _ => rfl
    keyed := nofun
    empty := nofun }

theorem State.applyHold_course (w : Window) (hold : Option Hold) (selling : (s.event n).state.selling = true) :
    TableCourse s (s.applyHold n w hold) := by
  have inside := State.lt_of_state_ne_empty (EventState.selling_ne_empty _ selling)
  have held (r : Nat) : TableCourse s (s.setEvent n { s.event n with hold := hold, repeatsOwed := r }) :=
    s.recorded_course n _ rfl rfl rfl id
  unfold State.applyHold
  dsimp only
  split
  · refine (held _).trans (State.closeEvent_course ?_)
    rw [State.event_setEvent_self inside]
    exact selling
  · exact held _

theorem State.giveUpCancelled_course (cancelled : (s.event n).state = .cancelled)
    (swept : s.cancelSweepDone n = true) : TableCourse s (s.giveUpCancelled n) := by
  have inside : n < s.events.length := State.lt_of_state_ne_empty (by rw [cancelled]; nofun)
  unfold State.giveUpCancelled
  dsimp only
  rw [State.changeState, State.event_setEvent_self inside, State.setEvent_setEvent]
  refine TableChange.course (.offered n
    { (s.event n).changeState s.stateRepeat .closed with marks := { (s.event n).marks with retire := true } } .retire _
    ?_ ?_ ?_ (.inr ⟨cancelled, swept⟩) ?_ ?_ ?_ ?_)
  · rfl
  · rfl
  · rfl
  · exact ⟨id, fun relate => relate.of_same rfl (by rw [cancelled]; rfl) nofun nofun⟩
  · rfl
  · rfl
  · intro q marked
    cases q with
    | cancel =>
      have unmarked := ((State.cancelSweepDone_iff s n).1 swept).1
      exact absurd (show (s.event n).marks.cancel = true from marked) (by simp [unmarked])
    | retire => exact .inl rfl
    | blackout => exact .inr ⟨marked, by rw [cancelled]; nofun⟩

theorem State.addRange_course (x : Range) (admitting : (s.event n).state.admitting = true) :
    TableCourse s (s.addRange n x) := by
  unfold State.addRange
  dsimp only
  split
  case isTrue selling =>
    refine TableChange.course (.offered n
      { s.event n with
        blackout := (s.event n).blackout ++ [x], repeatsOwed := s.stateRepeat
        marks := { (s.event n).marks with blackout := true } } .blackout _ ?_ ?_ ?_ (.inl admitting) ?_ ?_ ?_ ?_)
    · rfl
    · rfl
    · rfl
    · exact .of_same rfl rfl id
    · exact selling
    · rfl
    · intro q marked
      cases q with
      | cancel => exact .inr ⟨marked, EventState.not_sweptFor_of_admitting admitting nofun⟩
      | retire => exact .inr ⟨marked, EventState.not_sweptFor_of_admitting admitting nofun⟩
      | blackout => exact .inl rfl
  case isFalse => exact s.recorded_course n _ rfl rfl rfl id

theorem EventState.not_sweptFor_of_empty (k : SweepKind) : ¬ EventState.empty.SweptFor k := by cases k <;> nofun

theorem EventState.not_sweptFor_of_scheduled (k : SweepKind) : ¬ EventState.scheduled.SweptFor k := by cases k <;> nofun

theorem EventState.not_sweptFor_of_retired (k : SweepKind) : ¬ EventState.retired.SweptFor k := by cases k <;> nofun

theorem EventRecord.Follows.empty (r : EventRecord) : r.Follows EventRecord.empty where
  counts _ := rfl
  keys _ := EventRecord.keysRelate_empty

theorem EventServed.course (served : EventServed s t) : TableCourse s t := by
  cases served with
  | defined d empty =>
    refine TableChange.course (.replaced d.event _ (.inl ?_) (d.follows_record _ _) (.inr rfl))
    rw [empty]
    exact EventState.not_sweptFor_of_empty
  | held n w hold selling => exact State.applyHold_course w hold selling
  | cancelled n admitting => exact State.cancelEvent_course admitting
  | emptied n clearable =>
    have emptied : TableCourse s (s.setEvent n EventRecord.empty) := by
      refine TableChange.course (.replaced n _ (.inl ?_) (.empty _) (.inr rfl))
      obtain retired | scheduled := clearable
      · rw [retired]; exact EventState.not_sweptFor_of_retired
      · rw [scheduled]; exact EventState.not_sweptFor_of_scheduled
    exact emptied.same (by simp [State.emptyEvent]) (by simp) (by simp)
  | givenUp n cancelled swept => exact State.giveUpCancelled_course cancelled swept
  | rangeAdded n x admitting => exact State.addRange_course x admitting
  | rangeRemoved n x => exact s.recorded_course n _ rfl rfl rfl id
  | nextLoaded n key admitting free =>
    refine (State.recheck_course _ n).after (.recorded n _ ⟨?_, fun relate => ?_⟩ ?_ (fun _ => id))
    · exact id
    · refine (EventRecord.Follows.of_keys (r := s.event n) ?_ ?_ (EventState.admitting_ne_empty _ admitting) ?_
        ?_).keys relate
      · rfl
      · rfl
      · exact ⟨rfl, rfl, rfl, rfl⟩
      · exact fun relate => ⟨fun _ => rfl, nofun⟩
    · rfl
  | onDeckLoaded n key admitting next =>
    refine TableChange.course (.recorded n _ (.of_keys ?_ ?_ (EventState.admitting_ne_empty _ admitting) ?_ ?_) ?_
      (fun _ => id))
    · rfl
    · rfl
    · exact ⟨rfl, rfl, rfl, rfl⟩
    · exact fun relate => ⟨fun _ => Option.isSome_iff_ne_none.2 next, fun absent => absurd absent next⟩
    · rfl

theorem State.postForcedClears_course (ns : List Nat) : ∀ s : State, TableCourse s (s.postForcedClears ns) := by
  induction ns with
  | nil => exact fun s => .refl
  | cons n ns ih =>
    intro s
    by_cases keyed : (s.event n).state.keyed = true
    case pos =>
      rw [State.postForcedClears, if_pos keyed]
      exact (ih _).after (.clearPosted n keyed)
    case neg =>
      rw [State.postForcedClears, if_neg keyed]
      exact ih _

/-- A close empties every record, with the CLEAR records of a forced close posted (R116, R156). -/
theorem State.takeClose_ended (s : State) (forced : Bool) : TableEnd s (s.takeClose forced) := by
  have emptied (a : State) : TableCleared a a.closeNight := .emptied rfl (.inl rfl) (.inr rfl)
  unfold State.takeClose
  split
  · exact .inr ⟨_, State.postForcedClears_course _ s, emptied _⟩
  · exact (emptied s).ended

theorem Served.ended (served : Served s t) : TableEnd s t := by
  cases served with
  | acknowledged es n => exact .inl ((State.ackEvents_course es s).same rfl rfl rfl)
  | closed forced => exact s.takeClose_ended forced
  | event _ served => exact .inl served.course
  | _ => exact .inl (.of_same (by simp) (by simp) (by simp))

/-! ## The grant requests and the completion updates -/

theorem State.upset_course (s : State) (u : List Nat) : TableCourse s (s.upset u) :=
  .of_same (by simp) (by simp) (by simp)

theorem State.lookup_course (s : State) (d e : Nat) : TableCourse s (s.lookup d e).2 :=
  .of_same (by simp) (by simp) (by simp)

theorem State.reinstate_course (s : State) (n : Nat) (f : AddFields) : TableCourse s (s.reinstate n f) := by
  have reported := (State.report_course (s.putSlot n ((s.slot n).withGrant (f.grant s.stamp))) f.event
    (f := Counts.reinstate) id).after_same (s := s) rfl rfl rfl
  exact reported.same (by simp [State.reinstate]) (by simp) (by simp)

theorem State.insert_course (s : State) (n : Nat) (f : AddFields) : TableCourse s (s.insert n f) := by
  have reported := (State.report_course ((s.putSlot n ((s.slot n).withGrant (f.grant s.stamp))).drawSlot
    (s.slot n).state) f.event Counts.Balanced.insert).after_same (s := s) (by simp) (by simp) (by simp)
  exact reported.same (by simp [State.insert]) (by simp) (by simp)

theorem State.addAfterLookup_course (s : State) (h : HeldRequest) (f : AddFields) (l : Lookup) :
    TableCourse s (s.addAfterLookup h f l) := by
  unfold State.addAfterLookup
  split
  case h_1 n =>
    split
    · exact (s.reinstate_course n f).same rfl rfl rfl
    · exact .of_same rfl rfl rfl
  case h_2 n => exact (s.insert_course n f).same rfl rfl rfl
  case h_3 => exact .of_same rfl rfl rfl

theorem State.addGrant_course (s : State) (h : HeldRequest) (f : AddFields) : TableCourse s (s.addGrant h f) := by
  unfold State.addGrant
  repeat' split
  case h_2.isFalse => exact (s.lookup_course _ _).trans (State.addAfterLookup_course _ h f _)
  all_goals exact .of_same rfl rfl rfl

theorem State.revokeAfterLookup_course (s : State) (h : HeldRequest) (d e : Nat) (l : Lookup) :
    TableCourse s (s.revokeAfterLookup h d e l) := by
  unfold State.revokeAfterLookup
  split
  case h_1 => exact .of_same rfl rfl rfl
  case h_2 n =>
    repeat' split
    · exact .of_same rfl rfl rfl
    · exact (s.revokeUnsent_course n e).same rfl rfl rfl
    · exact (s.revokeSent_course n .customer).same rfl rfl rfl

theorem State.revokeGrant_course (s : State) (h : HeldRequest) (d e : Nat) :
    TableCourse s (s.revokeGrant h d e) := by
  unfold State.revokeGrant
  repeat' split
  case isFalse.isFalse.isFalse.isFalse => exact (s.lookup_course d e).trans (State.revokeAfterLookup_course _ h d e _)
  all_goals exact .of_same rfl rfl rfl

theorem State.updateRevoke_course (s : State) (n d e : Nat) : TableCourse s (s.updateRevoke n d e) := by
  unfold State.updateRevoke
  dsimp only
  repeat' split
  · exact (s.check_course n).trans (State.revokeUnsent_course _ n e)
  · exact (s.check_course n).same rfl rfl rfl
  · exact s.check_course n

/-! ## The WIPE and the resets -/

theorem State.startWipe_cleared (s : State) : TableCleared s s.startWipe := by
  obtain ⟨p, wipe⟩ := s.startWipe_only
  rw [wipe]
  exact .wiped (.inr rfl) rfl nofun

theorem State.wipeSlot_cleared (s : State) (c : Nat) : TableCleared s (s.wipeSlot c) := by
  refine .wiped (.inl (by simp)) (by simp) ?_
  unfold State.wipeSlot
  dsimp only
  split
  · simp [State.wipeDone]
  · simp

theorem State.resetBlocks_cleared (s : State) (pins : Straps) (record : ConfigRecord) (load : LoadResult)
    (timer : Timer) (sizeA sizeB : Nat) : TableCleared s (s.resetBlocks pins record load timer sizeA sizeB) :=
  .emptied rfl (.inr rfl) (.inl nofun)

/-- A reset whose WIPE starts at once leaves no mark to clear (R168, R182). -/
theorem State.startWipe_resetBlocks_cleared (s : State) (pins : Straps) (record : ConfigRecord) (load : LoadResult)
    (timer : Timer) (sizeA sizeB : Nat) :
    TableCleared s (s.resetBlocks pins record load timer sizeA sizeB).startWipe := by
  obtain ⟨p, wipe⟩ := (s.resetBlocks pins record load timer sizeA sizeB).startWipe_only
  rw [wipe]
  exact .emptied rfl (.inr rfl) (.inl nofun)

/-- What a command does to the event table, the scrambler queue and the sweep engine. -/
theorem Effect.ended (effect : Effect s t) : TableEnd s t := by
  cases effect with
  | undue => exact .inl .refl
  | answered h r body served => exact served.ended.same rfl rfl rfl
  | hardwareReset => exact (s.resetBlocks_cleared ..).ended
  | hardwareResetWipes | unitReset => exact (s.startWipe_resetBlocks_cleared ..).ended
  | loaded ack =>
    have settled : TableCourse s (s.loaded ack) := .of_same rfl rfl rfl
    exact .inr ⟨_, settled, State.startWipe_cleared _⟩
  | wipeStarted => exact s.startWipe_cleared.ended
  | grantAdded u h f =>
    exact .inl ((s.upset_course u).trans ((State.addGrant_course _ h f).same (by simp) (by simp) (by simp)))
  | grantRevoked u h d e =>
    exact .inl ((s.upset_course u).trans ((State.revokeGrant_course _ h d e).same (by simp) (by simp) (by simp)))
  | pulsed m order => exact .inl ((State.pulseAt_course _ m order).after_same rfl rfl rfl)
  | flywheelEntered m order | flywheelSupplied m order =>
    exact .inl ((State.advanceClock_course _ order).after_same rfl rfl rfl)
  | sendEnded p => exact .inl ((State.complete_course _ p.tag).after_same rfl rfl rfl)
  | revokeUpdated u m rest n d e =>
    exact .inl ((s.upset_course u).trans ((State.updateRevoke_course _ n d e).same (by simp) (by simp) (by simp)))
  | visited u w k ranges o _ engine =>
    exact .inl ((s.upset_course u).trans (State.visit_course (by simpa using engine) k ranges o))
  | wipeWritten c => exact (s.wipeSlot_cleared c).ended
  | recordAccepted r rest head => exact .inl (State.acceptRecord_course head)
  | _ => exact .inl (.of_same (by simp) (by simp) (by simp))

end Sys2Proof.Machine
end

