-- ==== Sys2Proof/Proofs/TableLaws.lean ====
section
/-! Records and their counts (R14), from the kinds of change of the table. -/

namespace Sys2Proof.Machine

variable {s t : State} {n : Nat}

/-! ## Event tables -/

/-- A property of every record, by event number, when an EMPTY record has it. -/
theorem State.forall_mem_events_iff {P : EventRecord → Prop} (empty : P EventRecord.empty) :
    (∀ r ∈ s.events, P r) ↔ ∀ m, P (s.event m) := by
  constructor
  · intro all m
    obtain mem | none := s.event_mem_or_empty m
    · exact all _ mem
    · rw [none]; exact empty
  · intro all r mem
    obtain ⟨m, inside, rfl⟩ := List.mem_iff_getElem.1 mem
    simpa [State.event, inside] using all m

theorem State.event_congr (events : t.events = s.events) (m : Nat) : t.event m = s.event m := by
  rw [State.event, State.event, events]

theorem State.event_of_replicate (events : t.events = List.replicate 32 EventRecord.empty) (m : Nat) :
    t.event m = EventRecord.empty := by
  obtain mem | none := t.event_mem_or_empty m
  · rw [events] at mem
    exact List.eq_of_mem_replicate mem
  · exact none

theorem State.event_of_clearMarks (events : t.events = clearMarks s.events) (m : Nat) :
    t.event m = { s.event m with marks := Marks.none } := by
  simp only [State.event, events, clearMarks, List.getD_eq_getElem?_getD, List.getElem?_map]
  cases s.events[m]? <;> rfl

/-- What holds of every record still holds once a record that has it is written. -/
theorem State.forall_event_setEvent {P : EventRecord → Prop} {r : EventRecord} (all : ∀ m, P (s.event m)) (new : P r)
    (m : Nat) : P ((s.setEvent n r).event m) := by
  rw [State.event_setEvent]
  split
  · exact new
  · exact all m

theorem MarkStep.forall_event {P : EventRecord → Prop} (step : MarkStep s t)
    (marks : ∀ (r : EventRecord) (k : Marks), P r → P { r with marks := k }) (all : ∀ m, P (s.event m)) (m : Nat) :
    P (t.event m) := by
  obtain ⟨k, same⟩ := step.ev m
  rw [same]
  exact marks _ k (all m)

/-- A number beyond the table has no record to write. -/
theorem State.setEvent_outside (outside : ¬ n < s.events.length) (r : EventRecord) : s.setEvent n r = s := by
  rw [State.setEvent, List.set_eq_of_length_le (Nat.le_of_not_lt outside)]

/-- A sweep that completes leaves its event the record of R70, and the engine, IDLE, chooses anew. -/
theorem State.completeSweep_chooses (s : State) (w : Sweep) :
    s.completeSweep w.event w.kind =
      ((s.setEvent w.event (s.sweepEnded w)).setEngine .idle).chooseSweep := by
  by_cases inside : w.event < s.events.length
  case pos => exact State.completeSweep_eq inside
  case neg =>
    have same (r : EventRecord) : s.setEvent w.event r = s := State.setEvent_outside inside r
    have effect : s.sweepEffect w.event w.kind = s := by
      cases w.kind <;> simp [State.sweepEffect, State.changeState, same]
    rw [State.completeSweep, same, same, effect]

/-! ## Counts (R14) -/

/-- Every record's counts balance, by event number. -/
def State.Balanced (s : State) : Prop := ∀ m, (s.event m).counts.Balanced

theorem State.countsOk_iff : s.countsOk ↔ s.Balanced := State.forall_mem_events_iff (P := fun r => r.counts.Balanced) rfl

theorem State.Balanced.setEvent {r : EventRecord} (balanced : s.Balanced) (new : r.counts.Balanced) :
    (s.setEvent n r).Balanced := State.forall_event_setEvent (P := fun r => r.counts.Balanced) balanced new

theorem State.Balanced.of_events (balanced : s.Balanced) (events : t.events = s.events) : t.Balanced := by
  intro m
  rw [State.event_congr events]
  exact balanced m

theorem MarkStep.balanced (step : MarkStep s t) (balanced : s.Balanced) : t.Balanced :=
  step.forall_event (P := fun r => r.counts.Balanced) (fun _ _ => id) balanced

theorem State.Balanced.sweepEnded (balanced : s.Balanced) (w : Sweep) : (s.sweepEnded w).counts.Balanced := by
  unfold State.sweepEnded
  split
  · exact (balanced w.event).lose
  · split <;> exact balanced w.event
  · exact balanced w.event

theorem TableChange.balanced (change : TableChange s t) (balanced : s.Balanced) : t.Balanced := by
  cases change with
  | elsewhere events => exact balanced.of_events events
  | recorded n r follows | replaced n r _ follows => exact balanced.setEvent (follows.counts (balanced n))
  | advanced n key entered => exact balanced.setEvent (n := n) (balanced n)
  | clearPosted => exact balanced.of_events (s.postClear_events _)
  | offered n r k b events _ _ _ follows =>
    exact (b.markSet_marks n).balanced ((balanced.setEvent (follows.counts (balanced n))).of_events events)
  | accepted | moved => exact balanced
  | completed w =>
    rw [State.completeSweep_chooses]
    exact (State.chooseSweep_marks _).balanced (balanced.setEvent (n := w.event) (balanced.sweepEnded w))

theorem TableCleared.balanced (cleared : TableCleared s t) (balanced : s.Balanced) : t.Balanced := by
  cases cleared with
  | wiped events =>
    obtain events | events := events
    · exact balanced.of_events events
    · intro m
      rw [State.event_of_clearMarks events]
      exact balanced m
  | emptied events =>
    intro m
    rw [State.event_of_replicate events]
    rfl

end Sys2Proof.Machine

open Sys2Proof Sys2Proof.Machine

/-- Settles O56. A record is written only with counts that balance when the one before had them. -/
theorem stepsKeepCountsBalanced : Obligations.StepsKeepCountsBalanced := by
  unfold Obligations.StepsKeepCountsBalanced
  intro s t
  simp only [State.countsOk_iff]
  exact step_keeps id (fun _ => id) (fun effect => effect.ended.keeps TableChange.balanced TableCleared.balanced)
end

