-- ==== Sys2Proof/Proofs/OneRecord.lean ====
section
/-! One record per event in the scrambler queue (R1, R117). -/

namespace Sys2Proof.Machine

variable {s t : State} {n : Nat}

theorem State.scramblerOk.of_same (ok : s.scramblerOk) (table : t.events.length = s.events.length)
    (queue : t.scrambler.queue = s.scrambler.queue) : t.scramblerOk where
  table := table.trans ok.table
  once := by rw [queue]; exact ok.once
  numbers := by rw [queue]; exact ok.numbers

/-- A record of an event without one is appended (R117). -/
theorem State.scramblerOk.append (ok : s.scramblerOk) {x : ScramblerRecord} {rest : List ScramblerRecord}
    (sublist : rest.Sublist s.scrambler.queue) (free : ∀ r ∈ rest, r.event ≠ x.event) (number : x.event < 32)
    (table : t.events.length = s.events.length) (queue : t.scrambler.queue = rest ++ [x]) : t.scramblerOk where
  table := table.trans ok.table
  once := by
    rw [queue, List.map_append, List.nodup_append]
    refine ⟨ok.once.sublist (sublist.map _), List.nodup_singleton _, ?_⟩
    rintro a mem b single rfl
    obtain ⟨r, inRest, rfl⟩ := List.mem_map.1 mem
    exact free r inRest (List.mem_singleton.1 single)
  numbers := by
    rw [queue]
    intro r mem
    obtain inRest | single := List.mem_append.1 mem
    · exact ok.numbers r (sublist.subset inRest)
    · rw [List.mem_singleton.1 single]
      exact number

theorem State.hasRecord_eq_false (free : s.hasRecord n = false) : ∀ r ∈ s.scrambler.queue, r.event ≠ n := by
  simpa [State.hasRecord] using free

theorem TableChange.scramblerOk (change : TableChange s t) (ok : s.scramblerOk) : t.scramblerOk := by
  cases change with
  | elsewhere events queue => exact ok.of_same (by rw [events]) queue
  | recorded | replaced => exact ok.of_same (by simp) rfl
  | advanced n key entered next free =>
    exact ok.append (List.Sublist.refl _) (State.hasRecord_eq_false free) (ok.table ▸ s.lt_of_next n key next)
      (by simp [State.advanced]) rfl
  | clearPosted n keyed =>
    refine ok.append List.filter_sublist (x := s.clearRecord n) ?_ ?_ (by rw [s.postClear_events]) (s.postClear_queue n)
    · intro r mem
      simpa [State.clearRecord] using (List.mem_filter.1 mem).2
    · exact ok.table ▸ State.lt_of_state_ne_empty (EventState.ne_empty_of_keyed keyed)
  | offered n r k b events queue =>
    exact ok.of_same (by simp [(b.markSet_marks n).len, events]) (by simp [queue])
  | accepted r rest head =>
    have tail : rest.Sublist s.scrambler.queue := by simp [head]
    exact ⟨ok.table, ok.once.sublist (tail.map _), fun r mem => ok.numbers r (tail.subset mem)⟩
  | moved => exact ok.of_same rfl rfl
  | completed w =>
    rw [State.completeSweep_chooses]
    exact ok.of_same (by simp [(State.chooseSweep_marks _).len]) (by simp)

theorem TableCleared.scramblerOk (cleared : TableCleared s t) (ok : s.scramblerOk) : t.scramblerOk := by
  cases cleared with
  | wiped events queue =>
    refine ok.of_same ?_ queue
    obtain events | events := events
    · rw [events]
    · rw [events, clearMarks, List.length_map]
  | emptied events queue =>
    have table : t.events.length = 32 := by rw [events, List.length_replicate]
    obtain queue | queue := queue
    · exact ok.of_same (table.trans ok.table.symm) queue
    · exact ⟨table, by simp [queue], by simp [queue]⟩

/-- Records of different events below 32 are 32 at most. -/
theorem State.scramblerOk.length_le (ok : s.scramblerOk) : s.scrambler.queue.length ≤ 32 := by
  have inside : s.scrambler.queue.map (fun r => r.event) ⊆ List.range 32 := by
    intro m mem
    obtain ⟨r, inQueue, rfl⟩ := List.mem_map.1 mem
    exact List.mem_range.2 (ok.numbers r inQueue)
  simpa using (List.subperm_of_subset ok.once inside).length_le

end Sys2Proof.Machine

open Sys2Proof Sys2Proof.Machine

/-- Settles O58. A SWITCH record is appended only with no record of its event queued, and a CLEAR record replaces what
is queued of its event. -/
theorem stepsKeepOneRecordPerEvent : Obligations.StepsKeepOneRecordPerEvent := by
  unfold Obligations.StepsKeepOneRecordPerEvent
  refine ⟨fun s t => step_keeps ?_ ?_ ?_, fun s ok => ok.length_le⟩
  · exact fun ok => ok.of_same rfl rfl
  · exact fun _ ok => ok.of_same rfl rfl
  · exact fun effect => effect.ended.keeps TableChange.scramblerOk TableCleared.scramblerOk
end

