-- ==== Sys2Proof/Proofs/KeyRelations.lean ====
section
/-! The keys, the marks and the running sweep (R15, R58, R59, R69, R103). -/

namespace Sys2Proof.Machine

variable {s t : State} {n : Nat}

/-- The key fields of every event keep the relations of R103, by event number. -/
def State.KeysRelate (s : State) : Prop := ∀ m, (s.event m).KeysRelate

/-- A mark stands only in the state it belongs to, by event number. -/
def State.MarksBelong (s : State) : Prop := ∀ m k, (s.event m).marked k → (s.event m).state.SweptFor k

/-- The event `n` carries no mark. -/
def State.Unmarked (s : State) (n : Nat) : Prop := ∀ k, ¬ (s.event n).marked k

/-- The sweep that runs is for the state of its event, which carries no mark, unless a WIPE is asked for (R69). -/
def State.SweepRuns (s : State) : Prop :=
  ∀ w, s.sweep.engine = .sweeping w → s.sweep.wipePending = false →
    (s.event w.event).state.SweptFor w.kind ∧ s.Unmarked w.event

theorem EventRecord.not_marked_of_none {r : EventRecord} (none : r.marks = Marks.none) (k : SweepKind) :
    ¬ r.marked k := by
  cases k <;> simp [EventRecord.marked, none, Marks.none]

/-- The laws of R15, R58, R69 and R103 by event number. -/
structure State.SweepsOk (s : State) : Prop where
  keys : s.KeysRelate
  marks : s.MarksBelong
  runs : s.SweepRuns

theorem State.eventsOk_iff : s.eventsOk ↔ s.SweepsOk := by
  have keys := State.forall_mem_events_iff (s := s) EventRecord.keysRelate_empty
  have marks := State.forall_mem_events_iff (s := s) (P := fun r => ∀ k, r.marked k → r.state.SweptFor k)
    (fun k marked => absurd marked (EventRecord.not_marked_of_none rfl k))
  exact ⟨fun ok => ⟨keys.1 ok.keys, marks.1 ok.marks, ok.running⟩,
    fun ok => ⟨keys.2 ok.keys, marks.2 ok.marks, ok.runs⟩⟩

/-- The states of the kinds of sweep differ. -/
theorem EventState.SweptFor.unique {e : EventState} {k q : SweepKind} (one : e.SweptFor k) (other : e.SweptFor q) :
    k = q := by
  have kinds (cancelled : e = .cancelled ∧ (e = .closed ∨ e.selling = true) ∨ e = .closed ∧ e.selling = true) :
      False := by
    obtain ⟨rfl, absurd | absurd⟩ | ⟨rfl, absurd⟩ := cancelled <;> cases absurd
  cases k <;> cases q
  case cancel.cancel | retire.retire | blackout.blackout => rfl
  case cancel.retire => exact (kinds (.inl ⟨one, .inl other⟩)).elim
  case cancel.blackout => exact (kinds (.inl ⟨one, .inr other⟩)).elim
  case retire.cancel => exact (kinds (.inl ⟨other, .inl one⟩)).elim
  case retire.blackout => exact (kinds (.inr ⟨one, other⟩)).elim
  case blackout.cancel => exact (kinds (.inl ⟨other, .inr one⟩)).elim
  case blackout.retire => exact (kinds (.inr ⟨other, one⟩)).elim

theorem MarkStep.keysRelate (step : MarkStep s t) (relate : s.KeysRelate) : t.KeysRelate :=
  step.forall_event (P := EventRecord.KeysRelate)
    (fun _ _ relate => relate.of_same rfl rfl id id) relate

theorem MarkStep.state (step : MarkStep s t) (m : Nat) : (t.event m).state = (s.event m).state := by
  obtain ⟨k, same⟩ := step.ev m
  rw [same]

theorem MarkStep.marksBelong (step : MarkStep s t) (belong : s.MarksBelong) : t.MarksBelong := by
  intro m k marked
  rw [step.state]
  exact belong m k (step.mono m k marked)

/-- With the one mark of an event cleared it is unmarked. -/
theorem State.MarksBelong.unmarked_clearMark (belong : s.MarksBelong) {k : SweepKind} (marked : (s.event n).marked k) :
    (s.clearMark n k).Unmarked n := by
  intro q stands
  rw [State.marked_clearMark] at stands
  exact stands.2 ⟨rfl, (belong n q stands.1).unique (belong n k marked)⟩

theorem EventRecord.marked_of_first {r : EventRecord} {k : SweepKind} (first : r.marks.first = some k) :
    r.marked k := by
  unfold Marks.first at first
  split at first
  case isTrue cancel =>
    obtain rfl := Option.some.inj first
    exact cancel
  case isFalse =>
    split at first
    case isTrue retire =>
      obtain rfl := Option.some.inj first
      exact retire
    case isFalse =>
      split at first
      case isTrue blackout =>
        obtain rfl := Option.some.inj first
        exact blackout
      case isFalse => cases first

theorem EventRecord.not_marked_of_first {r : EventRecord} (none : r.marks.first = none) (k : SweepKind) :
    ¬ r.marked k := by
  unfold Marks.first at none
  split at none
  · cases none
  · split at none
    · cases none
    · split at none
      · cases none
      · cases k <;> assumption

/-- The choice of an IDLE engine starts no sweep but one for a mark that it clears (R58). -/
theorem State.MarksBelong.sweepRuns_chooseSweep (belong : s.MarksBelong) (idle : s.sweep.engine = .idle) :
    s.chooseSweep.SweepRuns := by
  have nothing : s.SweepRuns := by
    intro w engine
    rw [idle] at engine
    cases engine
  unfold State.chooseSweep
  split
  case h_1 => exact nothing
  case h_2 n _ =>
    split
    case h_1 => exact nothing
    case h_2 k first =>
      have marked := EventRecord.marked_of_first first
      intro w engine _
      rw [State.startSweep_eq] at engine ⊢
      obtain rfl := EngineState.sweeping.inj engine
      refine ⟨?_, belong.unmarked_clearMark marked⟩
      show ((s.clearMark n k).event n).state.SweptFor k
      obtain ⟨marks, same⟩ := s.clearMark_event n n k
      rw [same]
      exact belong n k marked

/-- A mark offered to the engine: chosen, taken over by the BLACKOUT sweep of its event, or left to wait (R58, R67 to
R69). -/
theorem State.MarksBelong.sweepRuns_markSet {b : State} {k : SweepKind} (belong : b.MarksBelong)
    (marked : (b.event n).marked k)
    (runs : ∀ w, b.sweep.engine = .sweeping w → b.sweep.wipePending = false →
      (w.event = n ∧ w.kind = .blackout) ∨
        (w.event ≠ n ∧ (b.event w.event).state.SweptFor w.kind ∧ b.Unmarked w.event)) :
    (b.markSet n).SweepRuns := by
  unfold State.markSet
  split
  case h_1 idle => exact belong.sweepRuns_chooseSweep idle
  case h_2 engine =>
    intro w wiping
    rw [engine] at wiping
    cases wiping
  case h_3 w engine =>
    split
    case isTrue own =>
      obtain ⟨rfl, _⟩ := own
      split
      case h_1 none => exact absurd marked (EventRecord.not_marked_of_first none k)
      case h_2 q first =>
        have taken := EventRecord.marked_of_first first
        intro v running _
        obtain rfl := EngineState.sweeping.inj running
        refine ⟨?_, belong.unmarked_clearMark taken⟩
        show ((b.clearMark w.event q).event w.event).state.SweptFor q
        obtain ⟨marks, same⟩ := b.clearMark_event w.event w.event q
        rw [same]
        exact belong w.event q taken
    case isFalse other =>
      intro v running goes
      obtain rfl := EngineState.sweeping.inj (engine.symm.trans running)
      obtain own | ⟨_, swept⟩ := runs w engine goes
      · exact absurd own other
      · exact swept

/-- A record written where no sweep runs or one that its state still suits, its marks left. -/
theorem State.SweepRuns.setEvent {r : EventRecord} (runs : s.SweepRuns) (marks : r.marks = (s.event n).marks)
    (swept : ∀ k, (s.event n).state.SweptFor k → r.state.SweptFor k) : (s.setEvent n r).SweepRuns := by
  intro w engine goes
  obtain ⟨suits, unmarked⟩ := runs w engine goes
  unfold State.Unmarked
  rw [State.event_setEvent]
  split
  case isTrue own =>
    rw [own.1] at suits unmarked
    exact ⟨swept _ suits, fun k => by rw [EventRecord.marked_congr marks]; exact unmarked k⟩
  case isFalse => exact ⟨suits, unmarked⟩

theorem State.MarksBelong.setEvent {r : EventRecord} (belong : s.MarksBelong)
    (new : ∀ k, r.marked k → r.state.SweptFor k) : (s.setEvent n r).MarksBelong :=
  State.forall_event_setEvent (P := fun r => ∀ k, r.marked k → r.state.SweptFor k) belong new

theorem State.KeysRelate.setEvent {r : EventRecord} (relate : s.KeysRelate) (new : r.KeysRelate) :
    (s.setEvent n r).KeysRelate := State.forall_event_setEvent (P := EventRecord.KeysRelate) relate new

/-- An event of which no sweep stands carries no mark, and the engine runs none of it. -/
theorem State.Unswept.free (unswept : s.Unswept n) (belong : s.MarksBelong) (runs : s.SweepRuns) :
    s.Unmarked n ∧ ∀ w, s.sweep.engine = .sweeping w → s.sweep.wipePending = false → w.event ≠ n := by
  obtain never | ⟨cancelled, done⟩ := unswept
  · refine ⟨fun k marked => never k (belong n k marked), ?_⟩
    rintro w engine goes rfl
    exact never _ (runs w engine goes).1
  · obtain ⟨unmarked, idle⟩ := (State.cancelSweepDone_iff s n).1 done
    have cancel : (s.event n).state.SweptFor .cancel := cancelled
    constructor
    · intro k marked
      obtain rfl := (belong n k marked).unique cancel
      exact absurd marked (by simp [EventRecord.marked, unmarked])
    · rintro w engine goes rfl
      exact idle w engine ⟨(runs w engine goes).1.unique cancel, rfl⟩

theorem State.SweepsOk.of_same (ok : s.SweepsOk) (events : t.events = s.events) (engine : t.sweep = s.sweep) :
    t.SweepsOk where
  keys m := by rw [State.event_congr events]; exact ok.keys m
  marks m := by rw [State.event_congr events]; exact ok.marks m
  runs w := by
    unfold State.Unmarked
    rw [engine, State.event_congr events]
    exact ok.runs w

/-- A record without a mark is written for an event of which no sweep stands. -/
theorem State.SweepsOk.setEvent_unmarked {r : EventRecord} (ok : s.SweepsOk) (unswept : s.Unswept n)
    (relate : r.KeysRelate) (clean : ∀ k, ¬ r.marked k) : (s.setEvent n r).SweepsOk where
  keys := ok.keys.setEvent relate
  marks := ok.marks.setEvent (fun k marked => absurd marked (clean k))
  runs w engine goes := by
    have other := (unswept.free ok.marks ok.runs).2 w engine goes
    unfold State.Unmarked
    rw [State.event_setEvent_other other]
    exact ok.runs w engine goes

/-- The record of an event that has advanced keeps the relations (R103, R111). -/
theorem EventRecord.KeysRelate.of_advanced {q : EventRecord} {key : Key} (keys : q.keys = s.AdvancedKeys n)
    (next : (s.event n).keys.next = some key) (keyed : q.state.keyed = true) : q.KeysRelate where
  current := by simp [keys, State.AdvancedKeys, next, keyed]
  onDeck := by simp [keys, State.AdvancedKeys]
  announced := by simp [keys, State.AdvancedKeys]
  entered := by simp [keys, State.AdvancedKeys]
  first first := by
    obtain state | state := first <;> rw [state] at keyed <;> cases keyed
  keyed _ := by simp [keys, State.AdvancedKeys]
  empty empty := absurd empty (EventState.ne_empty_of_keyed keyed)

/-- What the completion of a sweep leaves its event keeps the relations when the event is in the sweep's state. -/
theorem State.keysRelate_sweepEnded (w : Sweep) (suits : (s.event w.event).state.SweptFor w.kind)
    (relate : (s.event w.event).KeysRelate) : (s.sweepEnded w).KeysRelate := by
  have retires (state : (s.event w.event).state.keyed = false) {q : EventRecord} (retired : q.state = .retired)
      (keys : q.keys = (s.event w.event).keys) : q.KeysRelate :=
    relate.of_same keys (by rw [retired, state]; rfl) (by rw [retired]; nofun) (by rw [retired]; nofun)
  unfold State.sweepEnded
  split
  case h_1 kind =>
    rw [kind] at suits
    exact retires (by rw [show (s.event w.event).state = .closed from suits]; rfl) rfl rfl
  case h_2 kind =>
    rw [kind] at suits
    split
    · exact retires (by rw [show (s.event w.event).state = .cancelled from suits]; rfl) rfl rfl
    · exact relate.of_same rfl rfl id id
  case h_3 => exact relate.of_same rfl rfl id id

theorem State.marks_sweepEnded (s : State) (w : Sweep) : (s.sweepEnded w).marks = (s.event w.event).marks := by
  unfold State.sweepEnded
  split
  · rfl
  · split <;> rfl
  · rfl

theorem TableChange.sweepsOk (change : TableChange s t) (ok : s.SweepsOk) : t.SweepsOk := by
  cases change with
  | elsewhere events _ engine => exact ok.of_same events engine
  | recorded n r follows marks swept =>
    refine ⟨ok.keys.setEvent (follows.keys (ok.keys n)), ok.marks.setEvent ?_, ok.runs.setEvent marks swept⟩
    exact fun k marked => swept k (ok.marks n k ((EventRecord.marked_congr marks k).1 marked))
  | replaced n r unswept follows marks =>
    refine ok.setEvent_unmarked unswept (follows.keys (ok.keys n)) (fun k => ?_)
    obtain same | none := marks
    · rw [EventRecord.marked_congr same]
      exact (unswept.free ok.marks ok.runs).1 k
    · exact EventRecord.not_marked_of_none none k
  | advanced n key entered next free state =>
    refine State.SweepsOk.of_same (s := s.setEvent n _) ?_ rfl rfl
    have keyed : (match entered with | none => (s.event n).state | some x => x).keyed = true := by
      obtain ⟨keyed, rfl⟩ | ⟨_, e, rfl, keyed⟩ := state
      · exact keyed
      · exact keyed
    have selling : (s.event n).state.selling = true := by
      obtain ⟨keyed, _⟩ | ⟨onSale, _⟩ := state
      · exact EventState.selling_of_keyed keyed
      · rw [onSale]; rfl
    have swept := EventState.sweptFor_of_selling (EventState.selling_of_keyed keyed) selling
    exact {
      keys := ok.keys.setEvent (.of_advanced (n := n) rfl next keyed)
      marks := ok.marks.setEvent (fun k marked => swept k (ok.marks n k marked))
      runs := ok.runs.setEvent rfl swept }
  | clearPosted n keyed => exact ok.of_same (s.postClear_events n) (by simp)
  | offered n r k b events queue engine old follows swept marked marks =>
    have event (m : Nat) : b.event m = (s.setEvent n r).event m := State.event_congr events m
    have belong : b.MarksBelong := by
      intro m
      rw [event]
      refine ok.marks.setEvent (fun q stands => ?_) m
      obtain rfl | ⟨before, never⟩ := marks q stands
      · exact swept
      · exact absurd (ok.marks n q before) never
    have inside : n < s.events.length := by
      refine State.lt_of_state_ne_empty ?_
      obtain admitting | ⟨cancelled, _⟩ := old
      · exact EventState.admitting_ne_empty _ admitting
      · rw [cancelled]; nofun
    have step := b.markSet_marks n
    refine ⟨step.keysRelate fun m => ?_, step.marksBelong belong, belong.sweepRuns_markSet (k := k) ?_ ?_⟩
    · rw [event]
      exact ok.keys.setEvent (follows.keys (ok.keys n)) m
    · rw [event, State.event_setEvent_self inside]
      exact marked
    · intro w running goes
      rw [engine] at running goes
      obtain ⟨suits, unmarked⟩ := ok.runs w running goes
      by_cases own : w.event = n
      case pos =>
        refine .inl ⟨own, ?_⟩
        rw [own] at suits
        obtain admitting | cancelled := old
        · by_contra other
          exact EventState.not_sweptFor_of_admitting admitting other suits
        · exact absurd own ((State.Unswept.free (.inr cancelled) ok.marks ok.runs).2 w running goes)
      case neg =>
        refine .inr ⟨own, ?_⟩
        unfold State.Unmarked
        rw [event, State.event_setEvent_other own]
        exact ⟨suits, unmarked⟩
  | accepted r rest head => exact ok.of_same rfl rfl
  | moved w v engine kind event =>
    refine ⟨ok.keys, ok.marks, fun u running goes => ?_⟩
    obtain rfl := EngineState.sweeping.inj running
    rw [kind, event]
    exact ok.runs w engine goes
  | completed w engine goes =>
    obtain ⟨suits, unmarked⟩ := ok.runs w engine goes
    rw [State.completeSweep_chooses]
    have relate : (s.setEvent w.event (s.sweepEnded w)).KeysRelate :=
      ok.keys.setEvent (State.keysRelate_sweepEnded w suits (ok.keys w.event))
    have belong : (s.setEvent w.event (s.sweepEnded w)).MarksBelong := by
      refine ok.marks.setEvent (fun k marked => absurd marked ?_)
      rw [EventRecord.marked_congr (s.marks_sweepEnded w)]
      exact unmarked k
    have step := State.chooseSweep_marks ((s.setEvent w.event (s.sweepEnded w)).setEngine .idle)
    exact ⟨step.keysRelate relate, step.marksBelong belong, State.MarksBelong.sweepRuns_chooseSweep belong rfl⟩

theorem TableCleared.sweepsOk (cleared : TableCleared s t) (ok : s.SweepsOk) : t.SweepsOk := by
  cases cleared with
  | wiped events queue engine =>
    have runs : t.SweepRuns := fun w running => absurd running (engine w)
    obtain events | events := events
    · exact ⟨fun m => by rw [State.event_congr events]; exact ok.keys m,
        fun m => by rw [State.event_congr events]; exact ok.marks m, runs⟩
    · refine ⟨fun m => ?_, fun m k marked => ?_, runs⟩
      · rw [State.event_of_clearMarks events]
        exact (ok.keys m).of_same rfl rfl id id
      · rw [State.event_of_clearMarks events] at marked
        exact absurd marked (EventRecord.not_marked_of_none rfl k)
  | emptied events queue engine =>
    refine ⟨fun m => ?_, fun m k marked => ?_, fun w running goes => ?_⟩
    · rw [State.event_of_replicate events]
      exact EventRecord.keysRelate_empty
    · rw [State.event_of_replicate events] at marked
      exact absurd marked (EventRecord.not_marked_of_none rfl k)
    · obtain none | asked := engine
      · exact absurd running (none w)
      · rw [asked] at goes
        cases goes

end Sys2Proof.Machine

open Sys2Proof Sys2Proof.Machine

/-- Settles O8. A record is written, or its mark offered to the engine, only where the laws allow it: `TableChange`
says when each kind of change can come. -/
theorem stepsKeepKeyRelations : Obligations.StepsKeepKeyRelations := by
  unfold Obligations.StepsKeepKeyRelations
  intro s t
  simp only [State.eventsOk_iff]
  exact step_keeps (fun ok => ok.of_same rfl rfl) (fun _ ok => ok.of_same rfl rfl)
    (fun effect => effect.ended.keeps TableChange.sweepsOk TableCleared.sweepsOk)
end

