-- ==== Sys2Proof/Proofs/NightLaw.lean ====
section
/-! The clock, the carousel and the bus outside OPEN, and when a WIPE runs (R72, R77, R122, R137, R138, R142, R148). -/

namespace Sys2Proof.Machine

variable {s t : State} {n : Nat}

/-! ## The clock -/

theorem State.advanceClock_clock (s : State) (order : List Nat) :
    (s.advanceClock order).clock = s.clock ∨
      (s.clock.clock < 16777215 ∧ (s.advanceClock order).clock = { s.clock with clock := s.clock.clock + 1 }) := by
  rw [State.advanceClock_eq]
  split
  case isTrue before => exact .inr ⟨before, by simp⟩
  case isFalse => exact .inl rfl

theorem State.advanceClock_clockOk (order : List Nat) (ok : s.clockOk) : (s.advanceClock order).clockOk := by
  unfold State.clockOk at *
  obtain same | ⟨before, risen⟩ := s.advanceClock_clock order
  · rw [same]; exact ok
  · rw [risen]
    show s.clock.clock + 1 ≤ 16777215
    omega

theorem State.advanceClock_source (s : State) (order : List Nat) :
    (s.advanceClock order).clock.source = s.clock.source := by
  obtain same | ⟨_, risen⟩ := s.advanceClock_clock order
  · rw [same]
  · rw [risen]

theorem State.pulseAt_clockOk (m : Nat) (order : List Nat) (ok : s.clockOk) : (s.pulseAt m order).clockOk := by
  unfold State.pulseAt State.restorePulse
  dsimp only
  repeat' split
  · exact ok
  · exact State.advanceClock_clockOk (s := s.takePulse m) order ok
  · exact ok
  · exact State.advanceClock_clockOk (s := (s.takePulse m).raise .clockRestored) order ok

theorem State.clockOk.of_clock (ok : s.clockOk) (clock : t.clock.clock = s.clock.clock) : t.clockOk := by
  unfold State.clockOk
  rw [clock]
  exact ok

theorem EventServed.clock (served : EventServed s t) : t.clock = s.clock := by
  cases served <;> simp

theorem Served.clockOk (served : Served s t) (ok : s.clockOk) : t.clockOk := by
  cases served with
  | opened start _ inRange => exact inRange
  | closed forced =>
    unfold State.takeClose
    split <;> exact ok.of_clock (by simp [State.closeNight])
  | event _ served => exact ok.of_clock (by rw [served.clock])
  | _ => exact ok.of_clock (by simp)

theorem Effect.clockOk (effect : Effect s t) (ok : s.clockOk) : t.clockOk := by
  cases effect with
  | answered h r body served => exact served.clockOk ok
  | hardwareReset => exact Nat.zero_le _
  | hardwareResetWipes | unitReset =>
    unfold State.clockOk
    simp [State.unitReset, State.hardwareReset, State.resetBlocks]
  | loaded ack => exact ok.of_clock (by simp [State.loaded])
  | pulsed m order => exact State.pulseAt_clockOk (s := s.reach m) m order ok
  | flywheelEntered m order | flywheelSupplied m order => exact State.advanceClock_clockOk order ok
  | _ => exact ok.of_clock (by simp)

/-! ## The sweep engine -/

/-- A WIPE has not begun, and is asked for as before. -/
structure State.NoWipeBegins (s t : State) : Prop where
  asked : t.sweep.wipePending = s.sweep.wipePending
  engine : ∀ c, t.sweep.engine = .wiping c → s.sweep.engine = .wiping c

theorem State.NoWipeBegins.of_sweep (same : t.sweep = s.sweep) : s.NoWipeBegins t where
  asked := by rw [same]
  engine c := by rw [same]; exact id

theorem State.NoWipeBegins.trans {u : State} (first : s.NoWipeBegins t) (second : t.NoWipeBegins u) :
    s.NoWipeBegins u where
  asked := second.asked.trans first.asked
  engine c wiping := first.engine c (second.engine c wiping)

theorem State.NoWipeBegins.after {u : State} (second : t.NoWipeBegins u) (first : s.NoWipeBegins t) :
    s.NoWipeBegins u := first.trans second

theorem State.chooseSweep_noWipeBegins (s : State) : s.NoWipeBegins s.chooseSweep := by
  have same : s.NoWipeBegins s := .of_sweep rfl
  unfold State.chooseSweep
  split
  · exact same
  · split
    · exact same
    · rw [State.startSweep_eq]
      exact ⟨rfl, nofun⟩

theorem State.markSet_noWipeBegins (s : State) (n : Nat) : s.NoWipeBegins (s.markSet n) := by
  have same : s.NoWipeBegins s := .of_sweep rfl
  unfold State.markSet
  split
  · exact s.chooseSweep_noWipeBegins
  · exact same
  · split
    · split
      · exact same
      · exact ⟨rfl, nofun⟩
    · exact same

theorem TableChange.noWipeBegins (change : TableChange s t) : s.NoWipeBegins t := by
  cases change with
  | elsewhere _ _ engine => exact .of_sweep engine
  | recorded | replaced | advanced | accepted => exact .of_sweep rfl
  | clearPosted => exact .of_sweep (by simp)
  | offered n r k b _ _ engine => exact (State.NoWipeBegins.of_sweep engine).trans (b.markSet_noWipeBegins n)
  | moved => exact ⟨rfl, nofun⟩
  | completed w =>
    rw [State.completeSweep_chooses]
    refine State.NoWipeBegins.trans ?_ (State.chooseSweep_noWipeBegins _)
    exact ⟨rfl, nofun⟩

theorem TableCourse.noWipeBegins (course : TableCourse s t) : s.NoWipeBegins t :=
  course.keeps (Law := s.NoWipeBegins) (fun change begun => begun.trans change.noWipeBegins) (.of_sweep rfl)

/-! ## The night -/

/-- The carousel of `t` is STOPPED, and its bus OFF, just when those of `s` are. -/
structure State.RunsAlike (s t : State) : Prop where
  carousel : t.carousel.run = .stopped ↔ s.carousel.run = .stopped
  bus : t.bus.state = .off ↔ s.bus.state = .off

theorem State.RunsAlike.of_same (run : t.carousel.run = s.carousel.run) (bus : t.bus.state = s.bus.state) :
    s.RunsAlike t := ⟨by rw [run], by rw [bus]⟩

theorem State.RunsAlike.trans {u : State} (first : s.RunsAlike t) (second : t.RunsAlike u) : s.RunsAlike u :=
  ⟨second.carousel.trans first.carousel, second.bus.trans first.bus⟩

theorem State.RunsAlike.after {u : State} (second : t.RunsAlike u) (first : s.RunsAlike t) : s.RunsAlike u :=
  first.trans second

theorem State.nightOk.of_alike (ok : s.nightOk) (night : t.night = s.night)
    (clock : t.clock.source = .stopped ↔ s.clock.source = .stopped) (runs : s.RunsAlike t)
    (load : t.settings.lastLoad = s.settings.lastLoad) (wipes : s.NoWipeBegins t) : t.nightOk where
  clock := by rw [clock, night]; exact ok.clock
  carousel := by rw [runs.carousel, night]; exact ok.carousel
  bus := by rw [runs.bus, night]; exact ok.bus
  wiping c wiping := by
    rw [night, wipes.asked, load]
    exact ok.wiping c (wipes.engine c wiping)
  asked := by rw [night, wipes.asked]; exact ok.asked
  loading := by rw [night, load]; exact ok.loading

theorem State.endCycle_runsAlike (s : State) : s.RunsAlike s.endCycle := by
  unfold State.endCycle
  split
  case isTrue ends => exact ⟨by simp [Carousel.atRest, ends.1], by simp⟩
  case isFalse => exact .of_same rfl rfl

theorem State.finishPacket_runsAlike (s : State) (cycle : Nat) : s.RunsAlike (s.finishPacket cycle) := by
  unfold State.finishPacket
  split
  · exact (State.endCycle_runsAlike _).after (.of_same rfl rfl)
  · exact .of_same rfl rfl

theorem State.standAt_runsAlike (s : State) (a : Attempt) : s.RunsAlike (s.standAt a) := by
  by_cases absent : a = .none
  case pos =>
    rw [absent]
    show s.RunsAlike s.nothingEligible
    unfold State.nothingEligible
    exact (State.endCycle_runsAlike _).after (.of_same rfl rfl)
  case neg =>
    obtain ⟨p, claimed, _⟩ := s.claimComposition_spec a
    rw [State.standAt_of_ne_none _ absent, claimed]
    exact .of_same rfl rfl

theorem State.goOn_again_runsAlike (s : State) (a : Attempt) : s.RunsAlike (s.releasePort.goOn a.again) := by
  have released : s.RunsAlike s.releasePort := .of_same (by simp) (by simp)
  unfold State.goOn
  split
  · rw [State.again_eq]
    exact released.trans (State.standAt_runsAlike _ _)
  · exact released.trans (.of_same rfl rfl)

/-- A message placed makes an IDLE bus request, and an OFF one stays OFF (R123). -/
theorem State.place_runsAlike (s : State) (m : Message) (c : TagContent) : s.RunsAlike (s.place m c) := by
  refine ⟨Iff.rfl, ?_⟩
  show (if s.bus.state = .idle then BusState.requesting else s.bus.state) = .off ↔ _
  split
  case isTrue idle => simp [idle]
  case isFalse => rfl

theorem State.emit_runsAlike (s : State) (m : Message) (c : TagContent) {share : Carousel → Carousel}
    (run : (share s.carousel).run = s.carousel.run) : s.RunsAlike (s.emit m c share) := by
  unfold State.emit
  split
  · exact (State.place_runsAlike _ m c).after (.of_same run rfl)
  · exact .of_same rfl rfl

theorem State.emitRevoke_runsAlike (s : State) (n : Nat) (g : Grant) (why : Option RevokeReason)
    {share : Carousel → Carousel} (run : ∀ c, (share c).run = c.run) : s.RunsAlike (s.emitRevoke n g why share) :=
  State.emit_runsAlike _ _ _ (run _)

theorem State.emitCandidate_runsAlike (s : State) (n : Nat) (g : Grant) {share : Carousel → Carousel}
    (run : ∀ c, (share c).run = c.run) : s.RunsAlike (s.emitCandidate n g share) := by
  unfold State.emitCandidate
  split
  · exact (State.emitRevoke_runsAlike _ n g _ run).after (.of_same rfl rfl)
  · exact State.emit_runsAlike _ _ _ (run _)

theorem State.releasePort_runsAlike (s : State) : s.RunsAlike s.releasePort := .of_same (by simp) (by simp)

theorem State.emitRefresh_runsAlike (s : State) (n : Nat) (g : Grant) : s.RunsAlike (s.emitRefresh n g) := by
  unfold State.emitRefresh
  split
  · exact s.emitRevoke_runsAlike n g _ (fun _ => rfl)
  · exact s.emitCandidate_runsAlike n g (fun _ => rfl)

theorem Carousel.run_countUrgent (c : Carousel) : c.countUrgent.run = c.run := rfl

theorem Carousel.run_countFresh (c : Carousel) : c.countFresh.run = c.run := rfl

theorem State.takeUrgent_runsAlike (s : State) (n : Nat) (rest : List Nat) (a : Attempt) :
    s.RunsAlike (s.takeUrgent n rest a.again) := by
  have read : s.RunsAlike (((s.check n).setUrgent rest).clearSlotMark n) := .of_same (by simp) (by simp)
  unfold State.takeUrgent
  dsimp only
  split
  case h_1 g _ =>
    exact (read.trans (State.emitRevoke_runsAlike _ n g _ Carousel.run_countUrgent)).trans (State.releasePort_runsAlike _)
  case h_2 => exact read.trans (State.goOn_again_runsAlike _ a)

theorem State.takeFresh_runsAlike (s : State) (n : Nat) (rest : List Nat) (a : Attempt) :
    s.RunsAlike (s.takeFresh n rest a.again) := by
  have read : s.RunsAlike (((s.check n).setFresh rest).clearSlotMark n) := .of_same (by simp) (by simp)
  unfold State.takeFresh
  dsimp only
  split
  case h_1 g _ =>
    exact (read.trans (State.emitCandidate_runsAlike _ n g Carousel.run_countFresh)).trans (State.releasePort_runsAlike _)
  case h_2 => exact read.trans (State.goOn_again_runsAlike _ a)

theorem State.readRefresh_runsAlike (s : State) (n reads : Nat) : s.RunsAlike (s.readRefresh n reads) := by
  have read : s.RunsAlike (s.check n).moveCursor := .of_same (by simp [State.moveCursor]) (by simp)
  unfold State.readRefresh
  dsimp only
  split
  · exact (read.trans (State.emitRefresh_runsAlike _ n _)).trans (State.releasePort_runsAlike _)
  · exact read.trans (State.goOn_again_runsAlike _ (.refresh reads))

theorem State.tryOwed_runsAlike (es : List OwedEntry) (s : State) : s.RunsAlike (State.tryOwed es s) := by
  induction es with
  | nil =>
    have emptied : s.RunsAlike (s.setOwed []) := .of_same rfl rfl
    rw [State.tryOwed, State.tryUrgentShare_eq]
    exact emptied.trans (State.standAt_runsAlike _ _)
  | cons e es ih =>
    rw [State.tryOwed]
    split
    · exact (State.place_runsAlike _ _ _).after (.of_same rfl rfl)
    · exact ih

theorem State.endSend_runsAlike (s : State) : s.RunsAlike s.endSend := by
  refine ⟨Iff.rfl, ?_⟩
  show s.bus.afterSend = .off ↔ _
  unfold BusInterface.afterSend
  split
  case isTrue sending =>
    rw [sending]
    split <;> simp
  case isFalse => rfl

/-! Of the carousel the operations on grants reach the queues alone. -/

@[simp] theorem State.appendFresh_run (s : State) (n : Nat) : (s.appendFresh n).carousel.run = s.carousel.run := by
  unfold State.appendFresh
  split
  · split <;> rfl
  · rfl
  · rfl

@[simp] theorem State.appendUrgent_run (s : State) (n : Nat) : (s.appendUrgent n).carousel.run = s.carousel.run := by
  unfold State.appendUrgent
  split
  · split <;> rfl
  · rfl
  · rfl

@[simp] theorem State.addGrant_run (s : State) (h : HeldRequest) (f : AddFields) :
    (s.addGrant h f).carousel.run = s.carousel.run := by
  unfold State.addGrant State.addAfterLookup State.reinstate State.insert
  repeat' split
  all_goals simp

@[simp] theorem State.revokeSent_run (s : State) (n : Nat) (why : RevokeReason) :
    (s.revokeSent n why).carousel.run = s.carousel.run := by
  simp [State.revokeSent]

@[simp] theorem State.revokeGrant_run (s : State) (h : HeldRequest) (d e : Nat) :
    (s.revokeGrant h d e).carousel.run = s.carousel.run := by
  unfold State.revokeGrant State.revokeAfterLookup
  repeat' split
  all_goals simp

@[simp] theorem State.visitAct_run (s : State) (n : Nat) (g : Grant) (k : SweepKind) :
    (s.visitAct n g k).carousel.run = s.carousel.run := by
  have revoked (why : RevokeReason) : (s.revokeVisited n g why).carousel.run = s.carousel.run := by
    unfold State.revokeVisited
    split <;> simp
  cases k with
  | cancel => exact revoked .cancelled
  | retire => simp [State.visitAct]
  | blackout => exact revoked .blackout

@[simp] theorem State.visit_run (s : State) (w : Sweep) (k : SweepKind) (ranges : List Range) (o : Bool) :
    (s.visit w k ranges o).carousel.run = s.carousel.run := by
  unfold State.visit
  dsimp only
  split <;> simp

/-! Of the bus interface the operations on events reach the tags alone. -/

@[simp] theorem State.voidTags_busState (s : State) (p : TagContent → Bool) :
    (s.voidTags p).bus.state = s.bus.state := rfl

@[simp] theorem State.endKeys_busState (s : State) (n : Nat) : (s.endKeys n).bus.state = s.bus.state := by
  unfold State.endKeys
  dsimp only
  split <;> simp

@[simp] theorem State.closeEvent_busState (s : State) (n : Nat) : (s.closeEvent n).bus.state = s.bus.state := by
  simp [State.closeEvent]

@[simp] theorem State.stepClose_busState (s : State) (n : Nat) (w : Window) :
    (s.stepClose n w).bus.state = s.bus.state := by
  unfold State.stepClose
  split
  · simp
  · split <;> simp

@[simp] theorem State.deadlineSteps_busState (s : State) (n : Nat) : (s.deadlineSteps n).bus.state = s.bus.state := by
  unfold State.deadlineSteps
  split <;> simp

@[simp] theorem State.deadlinesOf_busState (ns : List Nat) :
    ∀ s : State, (s.deadlinesOf ns).bus.state = s.bus.state := by
  induction ns with
  | nil => exact fun s => rfl
  | cons n ns ih => exact fun s => (ih _).trans (s.deadlineSteps_busState n)

@[simp] theorem State.advanceClock_busState (s : State) (order : List Nat) :
    (s.advanceClock order).bus.state = s.bus.state := by
  unfold State.advanceClock
  split <;> simp

@[simp] theorem State.pulseAt_busState (s : State) (m : Nat) (order : List Nat) :
    (s.pulseAt m order).bus.state = s.bus.state := by
  unfold State.pulseAt State.restorePulse
  dsimp only
  repeat' split
  all_goals simp

@[simp] theorem State.recheck_busState (s : State) (n : Nat) : (s.recheck n).bus.state = s.bus.state := by
  unfold State.recheck State.closeStepNow
  repeat' split
  all_goals simp

theorem State.book_busState (s : State) (t : Tag) : (s.book t).bus.state = s.bus.state := by
  unfold State.book State.bookKey State.bookState
  repeat' split
  all_goals simp

theorem EventServed.busState (served : EventServed s t) : t.bus.state = s.bus.state := by
  cases served with
  | held n w hold =>
    unfold State.applyHold
    dsimp only
    split <;> simp
  | cancelled n => simp [State.cancelEvent]
  | _ => simp [State.emptyEvent]

theorem State.complete_runsAlike (s : State) (tag : Option Tag) : s.RunsAlike (s.complete tag) := by
  unfold State.complete
  repeat' split
  · exact .of_same rfl rfl
  case isTrue t _ =>
    exact (State.finishPacket_runsAlike _ _).after (.of_same (by simp) (by rw [State.book_busState]; rfl))
  · exact .of_same rfl rfl

theorem State.startPacket_runsAlike (s : State) : s.RunsAlike s.startPacket := by
  unfold State.startPacket
  split
  case isTrue due =>
    have requesting : s.bus.state ≠ .off := by rw [due.1]; nofun
    have starts {t : State} (run : t.carousel = s.carousel) (on : t.bus.state ≠ .off) : s.RunsAlike t :=
      ⟨by rw [run], by simp [on, requesting]⟩
    split
    · unfold State.modeFault State.finishLost
      split
      · exact starts rfl nofun
      · exact (State.finishPacket_runsAlike _ _).after (starts rfl nofun)
    · exact starts rfl nofun
  case isFalse => exact .of_same rfl rfl

/-- Outside OPEN nothing runs but, in STARTING and CLOSING, a WIPE. -/
structure State.Shut (s : State) : Prop where
  night : s.night ≠ .opened
  clock : s.clock.source = .stopped
  carousel : s.carousel.run = .stopped
  bus : s.bus.state = .off

theorem State.nightOk.shut (ok : s.nightOk) (night : s.night ≠ .opened) : s.Shut :=
  ⟨night, ok.clock.2 night, ok.carousel.2 night, ok.bus.2 night⟩

theorem State.Shut.nightOk (shut : s.Shut)
    (wiping : ∀ c, s.sweep.engine = .wiping c →
      (s.night = .starting ∨ s.night = .closing) ∧ s.sweep.wipePending = false ∧ s.settings.lastLoad ≠ .loading)
    (asked : s.sweep.wipePending = true → s.night = .closing)
    (loading : s.settings.lastLoad = .loading → s.night = .starting) : s.nightOk where
  clock := iff_of_true shut.clock shut.night
  carousel := iff_of_true shut.carousel shut.night
  bus := iff_of_true shut.bus shut.night
  wiping := wiping
  asked := asked
  loading := loading

/-- A WIPE starts in a unit that is shut in STARTING or CLOSING and has loaded (R72). -/
theorem State.Shut.startWipe (shut : s.Shut) (night : s.night = .starting ∨ s.night = .closing)
    (settled : s.settings.lastLoad ≠ .loading) : s.startWipe.nightOk := by
  obtain ⟨p, wipe⟩ := s.startWipe_only
  rw [wipe]
  refine State.Shut.nightOk ⟨shut.night, shut.clock, shut.carousel, shut.bus⟩ ?_ nofun ?_
  · exact fun c _ => ⟨night, rfl, settled⟩
  · exact fun loading => absurd loading settled

theorem State.shut_resetBlocks (s : State) (pins : Straps) (record : ConfigRecord) (load : LoadResult) (timer : Timer)
    (sizeA sizeB : Nat) : (s.resetBlocks pins record load timer sizeA sizeB).Shut := ⟨nofun, rfl, rfl, rfl⟩

/-- The last write of a WIPE ends it in SETUP; any other goes on with it (R73, R74). -/
theorem State.wipeSlot_nightOk (c : Nat) (engine : s.sweep.engine = .wiping c) (ok : s.nightOk) :
    (s.wipeSlot c).nightOk := by
  obtain ⟨night, notAsked, settled⟩ := ok.wiping c engine
  have shut : s.Shut := ok.shut (by obtain night | night := night <;> rw [night] <;> nofun)
  unfold State.wipeSlot
  dsimp only
  split
  case isTrue =>
    refine State.Shut.nightOk ⟨?_, ?_, ?_, ?_⟩ ?_ ?_ ?_
    · simp [State.wipeDone]
    · simpa using shut.clock
    · simpa using shut.carousel
    · simpa using shut.bus
    · simp [State.wipeDone]
    · simp [State.wipeDone, notAsked]
    · simp [settled]
  case isFalse =>
    refine State.Shut.nightOk ⟨?_, ?_, ?_, ?_⟩ ?_ ?_ ?_
    · simpa using shut.night
    · simpa using shut.clock
    · simpa using shut.carousel
    · simpa using shut.bus
    · simp [night, notAsked, settled]
    · simp [notAsked]
    · simp [settled]

theorem State.openNight_nightOk (start : Nat) (setup : s.night = .setup) (ok : s.nightOk) :
    (s.openNight start).nightOk where
  clock := iff_of_false nofun (fun shut => shut rfl)
  carousel := iff_of_false nofun (fun shut => shut rfl)
  bus := iff_of_false nofun (fun shut => shut rfl)
  wiping c engine := by
    obtain ⟨night | night, _⟩ := ok.wiping c engine <;> rw [setup] at night <;> cases night
  asked asked := by
    have night := ok.asked asked
    rw [setup] at night
    cases night
  loading loading := by
    have night := ok.loading loading
    rw [setup] at night
    cases night

theorem State.closeNight_nightOk (opened : s.night = .opened) (ok : s.nightOk) : s.closeNight.nightOk := by
  refine State.Shut.nightOk ⟨nofun, rfl, rfl, rfl⟩ ?_ (fun _ => rfl) ?_
  · intro c engine
    obtain ⟨night | night, _⟩ := ok.wiping c engine <;> rw [opened] at night <;> cases night
  · intro loading
    have night := ok.loading loading
    rw [opened] at night
    cases night

theorem State.takeClose_nightOk (forced : Bool) (opened : s.night = .opened) (ok : s.nightOk) :
    (s.takeClose forced).nightOk := by
  unfold State.takeClose
  split
  · refine State.closeNight_nightOk (by simpa using opened) ?_
    exact ok.of_alike (by simp) (by simp) (.of_same (by simp) (by simp)) (by simp) (.of_sweep (by simp))
  · exact State.closeNight_nightOk opened ok

theorem State.clearBusFault_runsAlike (s : State) : s.RunsAlike s.clearBusFault := by
  unfold State.clearBusFault
  split
  case isTrue fault => exact ⟨Iff.rfl, by simp [fault]⟩
  case isFalse => exact .of_same rfl rfl

theorem Settings.finding_ne_loading (t : Settings) (ack : Bool) : (t.finding ack).1 ≠ .loading := by
  unfold Settings.finding
  repeat' split
  all_goals nofun

theorem State.pulseAt_source (s : State) (m : Nat) (order : List Nat) :
    (s.pulseAt m order).clock.source = .stopped ↔ s.clock.source = .stopped := by
  unfold State.pulseAt State.restorePulse
  split
  case h_1 => rfl
  case h_2 reference => simp [State.advanceClock_source, State.takePulse, reference]
  case h_3 flywheel =>
    dsimp only
    split <;> simp [State.advanceClock_source, State.takePulse, flywheel]

theorem EventServed.nightOk (served : EventServed s t) (ok : s.nightOk) : t.nightOk := by
  refine ok.of_alike ?_ ?_ (.of_same ?_ served.busState) ?_ served.course.noWipeBegins
  all_goals cases served <;> simp

theorem Served.nightOk (served : Served s t) (ok : s.nightOk) : t.nightOk := by
  have alike {t : State} (night : t.night = s.night) (clock : t.clock = s.clock) (runs : s.RunsAlike t)
      (load : t.settings.lastLoad = s.settings.lastLoad) (sweep : t.sweep = s.sweep) : t.nightOk :=
    ok.of_alike night (by rw [clock]) runs load (.of_sweep sweep)
  cases served with
  | opened start setup => exact State.openNight_nightOk start setup ok
  | closed forced opened => exact State.takeClose_nightOk forced opened ok
  | busCleared l =>
    have cleared : s.RunsAlike (s.sampleLines l).clearBusFault :=
      (State.clearBusFault_runsAlike _).after (.of_same rfl rfl)
    exact alike (by simp) (by simp) (cleared.trans (.of_same (by simp) (by simp))) (by simp) (by simp)
  | event _ served => exact served.nightOk ok
  | _ => exact alike (by simp) (by simp) (.of_same (by simp) (by simp)) (by simp) (by simp)

theorem Effect.nightOk (effect : Effect s t) (ok : s.nightOk) : t.nightOk := by
  have alike {t : State} (night : t.night = s.night) (clock : t.clock = s.clock) (runs : s.RunsAlike t)
      (load : t.settings.lastLoad = s.settings.lastLoad) (sweep : t.sweep = s.sweep) : t.nightOk :=
    ok.of_alike night (by rw [clock]) runs load (.of_sweep sweep)
  cases effect with
  | answered h r body served => exact (served.nightOk ok).of_alike rfl .rfl (.of_same rfl rfl) rfl (.of_sweep rfl)
  | hardwareReset => exact (s.shut_resetBlocks ..).nightOk nofun nofun (fun _ => rfl)
  | hardwareResetWipes | unitReset => exact (s.shut_resetBlocks ..).startWipe (.inl rfl) nofun
  | loaded ack loading =>
    have starting := ok.loading loading
    have shut := ok.shut (by rw [starting]; nofun)
    exact State.Shut.startWipe (s := s.loaded ack) ⟨shut.night, shut.clock, shut.carousel, shut.bus⟩ (.inl starting)
      (Settings.finding_ne_loading _ ack)
  | pulsed m order =>
    exact ok.of_alike (by simp) (State.pulseAt_source _ m order) (.of_same (by simp) (by simp)) (by simp)
      ((State.pulseAt_course _ m order).noWipeBegins.after (.of_sweep rfl))
  | flywheelEntered m order reference =>
    refine ok.of_alike (by simp) ?_ (.of_same (by simp) (by simp [State.enterFlywheel, State.supplySecond])) (by simp)
      ((State.advanceClock_course _ order).noWipeBegins.after (.of_sweep rfl))
    simp [State.enterFlywheel, State.supplySecond, State.advanceClock_source, reference]
  | flywheelSupplied m order flywheel =>
    refine ok.of_alike (by simp) ?_ (.of_same (by simp) (by simp [State.supplySecond])) (by simp)
      ((State.advanceClock_course _ order).noWipeBegins.after (.of_sweep rfl))
    simp [State.supplySecond, State.advanceClock_source]
  | cycleTicked m =>
    refine alike (by simp) (by simp) ?_ (by simp) (by simp)
    unfold State.cycleTick
    dsimp only
    split
    case isTrue waiting => exact ⟨by simp [State.startCycle, waiting.1], Iff.rfl⟩
    case isFalse => exact .of_same rfl rfl
  | attempted may => exact alike (by simp) (by simp) (State.tryOwed_runsAlike _ s) (by simp) (by simp)
  | queueFoundEmpty a => exact alike (by simp) (by simp) (s.goOn_again_runsAlike a) (by simp) (by simp)
  | urgentTaken u n rest a =>
    exact alike (by simp) (by simp) ((State.takeUrgent_runsAlike _ n rest a).after (.of_same (by simp) (by simp)))
      (by simp) (by simp)
  | freshTaken u n rest a =>
    exact alike (by simp) (by simp) ((State.takeFresh_runsAlike _ n rest a).after (.of_same (by simp) (by simp)))
      (by simp) (by simp)
  | refreshed u reads =>
    exact alike (by simp) (by simp) ((State.readRefresh_runsAlike _ _ reads).after (.of_same (by simp) (by simp)))
      (by simp) (by simp)
  | packetStarted l =>
    exact alike (by simp) (by simp) ((State.startPacket_runsAlike _).after (.of_same rfl rfl)) (by simp) (by simp)
  | sendEnded p =>
    exact ok.of_alike (by simp) (by simp) ((State.complete_runsAlike _ p.tag).after s.endSend_runsAlike) (by simp)
      ((State.complete_course _ p.tag).noWipeBegins.after (.of_sweep rfl))
  | visited u w k ranges o _ engine =>
    exact ok.of_alike (by simp) (by simp) (.of_same (by simp) (by simp)) (by simp)
      ((State.NoWipeBegins.of_sweep (by simp)).trans
        (State.visit_course (s := s.upset u) (by simpa using engine) k ranges o).noWipeBegins)
  | wipeStarted asked =>
    have closing := ok.asked asked
    refine (ok.shut (by rw [closing]; nofun)).startWipe (.inr closing) (fun loading => ?_)
    have starting := ok.loading loading
    rw [closing] at starting
    cases starting
  | wipeWritten c _ engine => exact State.wipeSlot_nightOk c engine ok
  | recordAccepted r rest head =>
    exact ok.of_alike (by simp) (by simp) (.of_same (by simp) (by simp [State.acceptRecord])) (by simp)
      (State.acceptRecord_course head).noWipeBegins
  | _ => exact alike (by simp) (by simp) (.of_same (by simp) (by simp)) (by simp) (by simp)

end Sys2Proof.Machine

open Sys2Proof Sys2Proof.Machine

/-- Settles O57. NIGHT-OPEN and NIGHT-CLOSE move the clock, the carousel and the bus together with the night; a WIPE
begins and ends where `State.Shut` holds. -/
theorem stepsKeepNightAndClock : Obligations.StepsKeepNightAndClock := by
  unfold Obligations.StepsKeepNightAndClock
  constructor
  · intro s t
    exact step_keeps (fun ok => ok.of_alike rfl .rfl (.of_same rfl rfl) rfl (.of_sweep rfl))
      (fun _ ok => ok.of_alike rfl .rfl (.of_same rfl rfl) rfl (.of_sweep rfl)) Effect.nightOk
  · intro s t
    exact step_keeps (fun ok => ok) (fun _ ok => ok) Effect.clockOk
end

