-- ==== Sys2Proof/Proofs/Bounds.lean ====
section
/-! The queues within their capacities, the failure run, and the record in force (R40, R83, R163, R164, R176). -/

namespace Sys2Proof.Machine

variable {s t : State} {n : Nat}

/-! ## The queues -/

/-- The queues of `t` are those of `s`. -/
structure State.SameQueues (s t : State) : Prop where
  fresh : t.carousel.fresh = s.carousel.fresh
  urgent : t.carousel.urgent = s.carousel.urgent

theorem State.SameQueues.of_carousel (same : t.carousel = s.carousel) : s.SameQueues t := ⟨by rw [same], by rw [same]⟩

theorem State.SameQueues.after {u : State} (second : t.SameQueues u) (first : s.SameQueues t) : s.SameQueues u :=
  ⟨second.fresh.trans first.fresh, second.urgent.trans first.urgent⟩

theorem Tries.sameQueues (tries : Tries s t) : s.SameQueues t := ⟨tries.lists.1, tries.lists.2.1⟩

theorem State.goOn_again_sameQueues (s : State) (a : Attempt) : s.SameQueues (s.releasePort.goOn a.again) :=
  (s.releasePort.goOn_tries _ (State.again_tries a _)).sameQueues.after (.of_carousel (by simp))

/-- A message placed or abandoned leaves the queues, as its count in a share does. -/
theorem State.emit_sameQueues (s : State) (m : Message) (c : TagContent) {share : Carousel → Carousel}
    (lists : ∀ c, (share c).fresh = c.fresh ∧ (share c).urgent = c.urgent) : s.SameQueues (s.emit m c share) := by
  obtain ⟨fresh, urgent⟩ := lists s.carousel
  unfold State.emit
  split
  · exact ⟨fresh, urgent⟩
  · exact ⟨rfl, rfl⟩

theorem State.emitRevoke_sameQueues (s : State) (n : Nat) (g : Grant) (why : Option RevokeReason)
    {share : Carousel → Carousel} (lists : ∀ c, (share c).fresh = c.fresh ∧ (share c).urgent = c.urgent) :
    s.SameQueues (s.emitRevoke n g why share) := State.emit_sameQueues _ _ _ lists

theorem State.emitCandidate_sameQueues (s : State) (n : Nat) (g : Grant) {share : Carousel → Carousel}
    (lists : ∀ c, (share c).fresh = c.fresh ∧ (share c).urgent = c.urgent) :
    s.SameQueues (s.emitCandidate n g share) := by
  unfold State.emitCandidate
  split
  · exact (State.emitRevoke_sameQueues _ n g _ lists).after (.of_carousel rfl)
  · exact State.emit_sameQueues _ _ _ lists

theorem Carousel.lists_countUrgent (c : Carousel) : c.countUrgent.fresh = c.fresh ∧ c.countUrgent.urgent = c.urgent :=
  ⟨rfl, rfl⟩

theorem Carousel.lists_countFresh (c : Carousel) : c.countFresh.fresh = c.fresh ∧ c.countFresh.urgent = c.urgent :=
  ⟨rfl, rfl⟩

theorem State.emitRefresh_sameQueues (s : State) (n : Nat) (g : Grant) : s.SameQueues (s.emitRefresh n g) := by
  unfold State.emitRefresh
  split
  · exact s.emitRevoke_sameQueues n g _ (fun _ => ⟨rfl, rfl⟩)
  · exact s.emitCandidate_sameQueues n g (fun _ => ⟨rfl, rfl⟩)

/-- An entry taken leaves the rest of the urgent queue, and the fresh queue. -/
theorem State.takeUrgent_queues (s : State) (n : Nat) (rest : List Nat) (a : Attempt) :
    (s.setUrgent rest).SameQueues (s.takeUrgent n rest a.again) := by
  have read : (s.setUrgent rest).SameQueues (((s.check n).setUrgent rest).clearSlotMark n) := ⟨by simp, by simp⟩
  unfold State.takeUrgent
  dsimp only
  split
  case h_1 g _ =>
    have sent := (State.emitRevoke_sameQueues _ n g ((((s.check n).setUrgent rest).clearSlotMark n).slot n).reason
      Carousel.lists_countUrgent).after read
    exact State.SameQueues.after (.of_carousel (by simp)) sent
  case h_2 => exact (State.goOn_again_sameQueues _ a).after read

theorem State.takeFresh_queues (s : State) (n : Nat) (rest : List Nat) (a : Attempt) :
    (s.setFresh rest).SameQueues (s.takeFresh n rest a.again) := by
  have read : (s.setFresh rest).SameQueues (((s.check n).setFresh rest).clearSlotMark n) := ⟨by simp, by simp⟩
  unfold State.takeFresh
  dsimp only
  split
  case h_1 g _ =>
    have sent := (State.emitCandidate_sameQueues _ n g Carousel.lists_countFresh).after read
    exact State.SameQueues.after (.of_carousel (by simp)) sent
  case h_2 => exact (State.goOn_again_sameQueues _ a).after read

theorem State.readRefresh_sameQueues (s : State) (n reads : Nat) : s.SameQueues (s.readRefresh n reads) := by
  have read : s.SameQueues (s.check n).moveCursor := ⟨by simp [State.moveCursor], by simp [State.moveCursor]⟩
  unfold State.readRefresh
  dsimp only
  split
  case h_1 g _ =>
    exact State.SameQueues.after (.of_carousel (by simp)) ((State.emitRefresh_sameQueues _ n g).after read)
  case h_2 => exact (State.goOn_again_sameQueues _ (.refresh reads)).after read

theorem State.place_sameQueues (s : State) (m : Message) (c : TagContent) : s.SameQueues (s.place m c) := ⟨rfl, rfl⟩

theorem State.tryOwed_sameQueues (es : List OwedEntry) (s : State) : s.SameQueues (State.tryOwed es s) := by
  induction es with
  | nil => exact (State.tryUrgentShare_tries _).sameQueues.after ⟨rfl, rfl⟩
  | cons e es ih =>
    rw [State.tryOwed]
    split
    · exact (State.place_sameQueues _ _ _).after ⟨rfl, rfl⟩
    · exact ih

theorem State.finishPacket_sameQueues (s : State) (cycle : Nat) : s.SameQueues (s.finishPacket cycle) := by
  obtain ⟨c, finished, fresh, urgent, _⟩ := s.finishPacket_only cycle
  rw [finished]
  exact ⟨fresh, urgent⟩

theorem State.complete_sameQueues (s : State) (tag : Option Tag) : s.SameQueues (s.complete tag) := by
  unfold State.complete
  repeat' split
  · exact ⟨rfl, rfl⟩
  · exact (State.finishPacket_sameQueues _ _).after (.of_carousel (by simp))
  · exact ⟨rfl, rfl⟩

theorem State.startPacket_sameQueues (s : State) : s.SameQueues s.startPacket := by
  unfold State.startPacket
  repeat' split
  · unfold State.modeFault State.finishLost
    split
    · exact ⟨rfl, rfl⟩
    · exact (State.finishPacket_sameQueues _ _).after ⟨rfl, rfl⟩
  · exact ⟨rfl, rfl⟩
  · exact ⟨rfl, rfl⟩

theorem State.takeClose_sameQueues (s : State) (forced : Bool) : s.SameQueues (s.takeClose forced) := by
  unfold State.takeClose
  split <;> exact ⟨by simp [State.closeNight, Carousel.atRest], by simp [State.closeNight, Carousel.atRest]⟩

/-- The queues have not grown beyond their capacities, if they had not before. -/
def State.QueuesWithin (s t : State) : Prop := s.queuesOk → t.queuesOk

theorem State.SameQueues.within (same : s.SameQueues t) : s.QueuesWithin t := by
  unfold State.QueuesWithin State.queuesOk
  rw [same.fresh, same.urgent]
  exact id

theorem State.QueuesWithin.of_carousel (same : t.carousel = s.carousel) : s.QueuesWithin t :=
  (State.SameQueues.of_carousel same).within

theorem State.QueuesWithin.after {u : State} (second : t.QueuesWithin u) (first : s.QueuesWithin t) :
    s.QueuesWithin u := fun ok => second (first ok)

theorem State.QueuesWithin.of_finish {h : HeldRequest} {r : ResultCode} {body : List Byte} (within : s.QueuesWithin t) :
    s.QueuesWithin (t.finish h r body) := State.QueuesWithin.after (.of_carousel rfl) within

theorem State.appendFresh_queuesWithin (s : State) (n : Nat) : s.QueuesWithin (s.appendFresh n) := by
  rintro ⟨fresh, urgent⟩
  unfold State.appendFresh
  split
  · split
    case isTrue room => exact ⟨by simpa using room, urgent⟩
    case isFalse => exact ⟨fresh, urgent⟩
  · exact ⟨fresh, urgent⟩
  · exact ⟨fresh, urgent⟩

theorem State.appendUrgent_queuesWithin (s : State) (n : Nat) : s.QueuesWithin (s.appendUrgent n) := by
  rintro ⟨fresh, urgent⟩
  unfold State.appendUrgent
  split
  · split
    case isTrue room => exact ⟨fresh, by simpa using room⟩
    case isFalse => exact ⟨fresh, urgent⟩
  · exact ⟨fresh, urgent⟩
  · exact ⟨fresh, urgent⟩

theorem State.reinstate_queuesWithin (s : State) (n : Nat) (f : AddFields) : s.QueuesWithin (s.reinstate n f) :=
  (State.appendFresh_queuesWithin _ n).after (.of_carousel (by simp))

theorem State.insert_queuesWithin (s : State) (n : Nat) (f : AddFields) : s.QueuesWithin (s.insert n f) :=
  (State.appendFresh_queuesWithin _ n).after (.of_carousel (by simp))

theorem State.addAfterLookup_queuesWithin (s : State) (h : HeldRequest) (f : AddFields) (l : Lookup) :
    s.QueuesWithin (s.addAfterLookup h f l) := by
  unfold State.addAfterLookup
  split
  case h_1 n =>
    split
    · exact (s.reinstate_queuesWithin n f).of_finish
    · exact .of_carousel rfl
  case h_2 n => exact (s.insert_queuesWithin n f).of_finish
  case h_3 => exact .of_carousel rfl

theorem State.addGrant_queuesWithin (s : State) (h : HeldRequest) (f : AddFields) :
    s.QueuesWithin (s.addGrant h f) := by
  unfold State.addGrant
  repeat' split
  case h_2.isFalse =>
    exact (State.addAfterLookup_queuesWithin _ h f (s.lookup f.decoder f.event).1).after (.of_carousel (by simp))
  all_goals exact .of_carousel rfl

theorem State.revokeSent_queuesWithin (s : State) (n : Nat) (why : RevokeReason) :
    s.QueuesWithin (s.revokeSent n why) := (State.appendUrgent_queuesWithin _ n).after (.of_carousel rfl)

theorem State.revokeAfterLookup_queuesWithin (s : State) (h : HeldRequest) (d e : Nat) (l : Lookup) :
    s.QueuesWithin (s.revokeAfterLookup h d e l) := by
  unfold State.revokeAfterLookup
  split
  case h_1 => exact .of_carousel rfl
  case h_2 n =>
    repeat' split
    · exact .of_carousel rfl
    · exact .of_carousel (by simp)
    · exact (s.revokeSent_queuesWithin n .customer).of_finish

theorem State.revokeGrant_queuesWithin (s : State) (h : HeldRequest) (d e : Nat) :
    s.QueuesWithin (s.revokeGrant h d e) := by
  unfold State.revokeGrant
  repeat' split
  case isFalse.isFalse.isFalse.isFalse =>
    exact (State.revokeAfterLookup_queuesWithin _ h d e (s.lookup d e).1).after (.of_carousel (by simp))
  all_goals exact .of_carousel rfl

theorem State.visitAct_queuesWithin (s : State) (n : Nat) (g : Grant) (k : SweepKind) :
    s.QueuesWithin (s.visitAct n g k) := by
  have revoked (why : RevokeReason) : s.QueuesWithin (s.revokeVisited n g why) := by
    unfold State.revokeVisited
    split
    · exact .of_carousel (by simp)
    · exact s.revokeSent_queuesWithin n why
  cases k with
  | cancel => exact revoked .cancelled
  | retire => exact .of_carousel (by simp [State.visitAct])
  | blackout => exact revoked .blackout

theorem State.visit_queuesWithin (s : State) (w : Sweep) (k : SweepKind) (ranges : List Range) (o : Bool) :
    s.QueuesWithin (s.visit w k ranges o) := by
  have checked : s.QueuesWithin (s.check w.cursor) := .of_carousel (by simp)
  unfold State.visit
  dsimp only
  split
  case h_1 g _ =>
    have acted := (State.visitAct_queuesWithin _ w.cursor g k).after checked
    exact State.QueuesWithin.after (.of_carousel (by simp)) acted
  case h_2 => exact .of_carousel (by simp)

theorem State.takeUrgent_queuesWithin {rest : List Nat} (head : s.carousel.urgent = n :: rest) (a : Attempt) :
    s.QueuesWithin (s.takeUrgent n rest a.again) := by
  refine (s.takeUrgent_queues n rest a).within.after (fun ok => ⟨ok.1, ?_⟩)
  have bound := ok.2
  rw [head, List.length_cons] at bound
  exact Nat.le_of_succ_le bound

theorem State.takeFresh_queuesWithin {rest : List Nat} (head : s.carousel.fresh = n :: rest) (a : Attempt) :
    s.QueuesWithin (s.takeFresh n rest a.again) := by
  refine (s.takeFresh_queues n rest a).within.after (fun ok => ⟨?_, ok.2⟩)
  have bound := ok.1
  rw [head, List.length_cons] at bound
  exact Nat.le_of_succ_le bound

theorem State.startWipe_queuesOk (s : State) : s.startWipe.queuesOk := by
  obtain ⟨p, wipe⟩ := s.startWipe_only
  rw [wipe]
  exact ⟨Nat.zero_le _, Nat.zero_le _⟩

theorem EventServed.carousel (served : EventServed s t) : t.carousel = s.carousel := by
  cases served <;> simp

theorem Served.sameQueues (served : Served s t) : s.SameQueues t := by
  cases served with
  | opened => exact ⟨rfl, rfl⟩
  | closed forced => exact s.takeClose_sameQueues forced
  | event _ served => exact .of_carousel served.carousel
  | _ => exact .of_carousel (by simp)

theorem Effect.queuesWithin (effect : Effect s t) : s.QueuesWithin t := by
  have upset (u : List Nat) : s.QueuesWithin (s.upset u) := .of_carousel (by simp)
  have kept {a b : State} (before : s.QueuesWithin a) (same : b.carousel = a.carousel) : s.QueuesWithin b :=
    State.QueuesWithin.after (.of_carousel same) before
  cases effect with
  | answered h r body served => exact served.sameQueues.within
  | hardwareReset => exact fun _ => ⟨Nat.zero_le _, Nat.zero_le _⟩
  | hardwareResetWipes | unitReset | loaded | wipeStarted => exact fun _ => State.startWipe_queuesOk _
  | grantAdded u h f => exact kept ((State.addGrant_queuesWithin _ h f).after (upset u)) (by simp)
  | grantRevoked u h d e => exact kept ((State.revokeGrant_queuesWithin _ h d e).after (upset u)) (by simp)
  | cycleTicked m =>
    unfold State.cycleTick
    dsimp only
    split <;> exact State.SameQueues.within ⟨rfl, rfl⟩
  | attempted => exact (State.tryOwed_sameQueues _ s).within
  | queueFoundEmpty a => exact (s.goOn_again_sameQueues a).within
  | urgentTaken u n rest a _ head =>
    exact (State.takeUrgent_queuesWithin (by simpa using head) a).after (upset u)
  | freshTaken u n rest a _ head =>
    exact (State.takeFresh_queuesWithin (by simpa using head) a).after (upset u)
  | refreshed u reads => exact (State.readRefresh_sameQueues _ _ reads).within.after (upset u)
  | packetStarted l => exact (State.startPacket_sameQueues _).within.after (.of_carousel rfl)
  | sendEnded p => exact (State.complete_sameQueues _ p.tag).within.after (.of_carousel rfl)
  | visited u w k ranges o => exact (State.visit_queuesWithin _ w k ranges o).after (upset u)
  | _ => exact .of_carousel (by simp)

/-! ## The failure run -/

theorem State.linkOk.of_link (ok : s.linkOk) (receiver : t.link.receiver = s.link.receiver)
    (run : t.link.failureRun = s.link.failureRun) : t.linkOk := by
  unfold State.linkOk
  rw [receiver, run]
  exact ok

/-- Outside LOCKED the failure run is below 4 (R163, R164). -/
theorem State.linkOk.below (ok : s.linkOk) (open_ : s.link.receiver ≠ .locked) : s.link.failureRun < 4 := by
  have bound := ok.1
  have iff := ok.2
  have ne : s.link.failureRun ≠ 4 := fun four => open_ (iff.2 four)
  omega

theorem State.setReceiver_linkOk {r : Receiver} {run : Nat} (open_ : r ≠ .locked) (below : run < 4) :
    (s.setReceiver r run).linkOk := by
  refine ⟨Nat.le_of_lt below, iff_of_false open_ ?_⟩
  show ¬ run = 4
  omega

theorem State.failFrame_linkOk {r : Receiver} (f : Counters → Counters) (open_ : r ≠ .locked) :
    (s.failFrame r f).linkOk := by
  unfold State.failFrame
  split
  case isTrue => exact ⟨Nat.le_refl 4, iff_of_true rfl rfl⟩
  case isFalse below => exact State.setReceiver_linkOk open_ (by omega)

theorem State.handOver_linkOk (s : State) (broadcast : Bool) (f : FrameRead) : (s.handOver broadcast f).linkOk := by
  have taken : (s.setReceiver .hunt 0).linkOk := State.setReceiver_linkOk nofun (by omega)
  unfold State.handOver State.acceptFrame
  dsimp only
  repeat' split
  all_goals exact taken.of_link rfl rfl

theorem EventServed.link (served : EventServed s t) : t.link = s.link := by
  cases served <;> simp

theorem Served.link (served : Served s t) : t.link = s.link := by
  cases served with
  | closed forced =>
    unfold State.takeClose
    split <;> simp [State.closeNight]
  | event _ served => exact served.link
  | _ => simp

theorem State.startWipe_resetBlocks_linkOk (s : State) (pins : Straps) (record : ConfigRecord) (load : LoadResult)
    (timer : Timer) (sizeA sizeB : Nat) : (s.resetBlocks pins record load timer sizeA sizeB).startWipe.linkOk := by
  unfold State.linkOk
  simp [State.resetBlocks]

/-- The receiver and the failure run of `t` are those of `s`. -/
def State.SameRun (s t : State) : Prop :=
  t.link.receiver = s.link.receiver ∧ t.link.failureRun = s.link.failureRun

theorem State.SameRun.of_link (same : t.link = s.link) : s.SameRun t := ⟨by rw [same], by rw [same]⟩

theorem State.SameRun.after {u : State} (second : t.SameRun u) (first : s.SameRun t) : s.SameRun u :=
  ⟨second.1.trans first.1, second.2.trans first.2⟩

/-- A result reaches the holder alone. -/
theorem State.finish_sameRun (s : State) (h : HeldRequest) (r : ResultCode) (body : List Byte) :
    s.SameRun (s.finish h r body) := ⟨rfl, rfl⟩

theorem State.addAfterLookup_sameRun (s : State) (h : HeldRequest) (f : AddFields) (l : Lookup) :
    s.SameRun (s.addAfterLookup h f l) := by
  unfold State.addAfterLookup
  split
  case h_1 n =>
    split
    · exact (State.finish_sameRun _ h _ _).after (.of_link (by simp))
    · exact ⟨rfl, rfl⟩
  case h_2 n => exact (State.finish_sameRun _ h _ _).after (.of_link (by simp))
  case h_3 => exact ⟨rfl, rfl⟩

theorem State.addGrant_sameRun (s : State) (h : HeldRequest) (f : AddFields) : s.SameRun (s.addGrant h f) := by
  unfold State.addGrant
  repeat' split
  case h_2.isFalse =>
    exact (State.addAfterLookup_sameRun _ h f (s.lookup f.decoder f.event).1).after (.of_link (by simp))
  all_goals exact ⟨rfl, rfl⟩

theorem State.revokeAfterLookup_sameRun (s : State) (h : HeldRequest) (d e : Nat) (l : Lookup) :
    s.SameRun (s.revokeAfterLookup h d e l) := by
  unfold State.revokeAfterLookup
  split
  case h_1 => exact ⟨rfl, rfl⟩
  case h_2 n =>
    repeat' split
    · exact ⟨rfl, rfl⟩
    · exact (State.finish_sameRun _ h _ _).after (.of_link (by simp))
    · exact (State.finish_sameRun _ h _ _).after (.of_link (by simp))

theorem State.revokeGrant_sameRun (s : State) (h : HeldRequest) (d e : Nat) : s.SameRun (s.revokeGrant h d e) := by
  unfold State.revokeGrant
  repeat' split
  case isFalse.isFalse.isFalse.isFalse =>
    exact (State.revokeAfterLookup_sameRun _ h d e (s.lookup d e).1).after (.of_link (by simp))
  all_goals exact ⟨rfl, rfl⟩

theorem State.queryAfterLookup_sameRun (s : State) (h : HeldRequest) (l : Lookup) :
    s.SameRun (s.queryAfterLookup h l) := by
  cases l <;> exact ⟨rfl, rfl⟩

theorem State.queryGrant_sameRun (s : State) (h : HeldRequest) (d e : Nat) : s.SameRun (s.queryGrant h d e) := by
  unfold State.queryGrant
  repeat' split
  case isFalse.isFalse =>
    exact (State.queryAfterLookup_sameRun _ h (s.lookup d e).1).after (.of_link (by simp))
  all_goals exact ⟨rfl, rfl⟩

theorem Effect.linkOk (effect : Effect s t) (ok : s.linkOk) : t.linkOk := by
  have keeps {t : State} (same : s.SameRun t) : t.linkOk := ok.of_link same.1 same.2
  have upset (u : List Nat) : s.SameRun (s.upset u) := .of_link (by simp)
  have released {u : State} (same : s.SameRun u) : u.releasePort.linkOk :=
    keeps (State.SameRun.after (.of_link (by simp)) same)
  cases effect with
  | answered h r body served => exact keeps ((State.finish_sameRun _ h r body).after (.of_link served.link))
  | hardwareReset => exact State.setReceiver_linkOk (s := s) (r := .hunt) (run := 0) nofun (by omega)
  | hardwareResetWipes | unitReset => exact State.startWipe_resetBlocks_linkOk ..
  | loaded => exact keeps (.of_link (by simp [State.loaded]))
  | received r outside open_ =>
    exact State.setReceiver_linkOk open_ (ok.below (by obtain out | out := outside <;> rw [out] <;> nofun))
  | frameFailed r f _ open_ => exact State.failFrame_linkOk f open_
  | lineBroken => exact State.setReceiver_linkOk nofun (by omega)
  | handedOver broadcast f => exact s.handOver_linkOk broadcast f
  | freed => exact keeps ⟨rfl, rfl⟩
  | grantAdded u h f => exact released ((State.addGrant_sameRun _ h f).after (upset u))
  | grantRevoked u h d e => exact released ((State.revokeGrant_sameRun _ h d e).after (upset u))
  | grantQueried u h d e => exact released ((State.queryGrant_sameRun _ h d e).after (upset u))
  | _ => exact keeps (.of_link (by simp))

/-! ## The record in force -/

theorem byte_ofByte {b : Byte} : b &&& 0xF1#8 = 0#8 → byte1 (PairSet.ofByte b).byte = b := by
  revert b
  decide

/-- Thirteen fields in range are those of the record they make (R186). -/
theorem RawConfig.raw_record {r : RawConfig} (pairs : r.pairs &&& 0xF1#8 = 0#8) : r.record.raw = r := by
  rw [ConfigRecord.raw, RawConfig.record, byte_ofByte pairs]

theorem RawConfig.InRange.record {r : RawConfig} (inRange : r.InRange) : r.record.InRange := by
  unfold ConfigRecord.InRange
  rw [RawConfig.raw_record inRange.pairs]
  exact inRange

theorem ConfigRecord.default_inRange : ConfigRecord.default.InRange := by
  constructor <;> decide

theorem Settings.finding_inRange (x : Settings) (ack : Bool) : (x.finding ack).2.InRange := by
  unfold Settings.finding
  split
  case isFalse => exact ConfigRecord.default_inRange
  case isTrue =>
    split
    case h_1 => exact ConfigRecord.default_inRange
    case h_2 b _ =>
      split
      case isFalse => exact ConfigRecord.default_inRange
      case isTrue =>
        split
        case h_1 good => exact ((RawConfig.firstBad_none _).1 good).record
        case h_2 => exact ConfigRecord.default_inRange

theorem State.configOk.of_record (ok : s.configOk) (record : t.settings.record = s.settings.record) : t.configOk := by
  unfold State.configOk
  rw [record]
  exact ok

theorem Served.configOk (served : Served s t) (ok : s.configOk) : t.configOk := by
  cases served with
  | configured r good => exact ((RawConfig.firstBad_none r).1 good).record
  | closed forced =>
    unfold State.takeClose
    split <;> exact ok.of_record (by simp [State.closeNight])
  | event _ served => exact ok.of_record (by cases served <;> simp)
  | _ => exact ok.of_record (by simp)

theorem Effect.configOk (effect : Effect s t) (ok : s.configOk) : t.configOk := by
  cases effect with
  | answered h r body served => exact (served.configOk ok).of_record rfl
  | hardwareReset => exact ConfigRecord.default_inRange
  | hardwareResetWipes =>
    unfold State.configOk
    simpa [State.hardwareReset, State.resetBlocks] using ConfigRecord.default_inRange
  | unitReset => exact ok.of_record (by simp [State.unitReset, State.resetBlocks])
  | loaded ack =>
    unfold State.configOk
    simpa [State.loaded] using s.settings.finding_inRange ack
  | _ => exact ok.of_record (by simp)

end Sys2Proof.Machine

open Sys2Proof Sys2Proof.Machine

/-- Settles O59. The appends look at the lengths, the failures of a frame at the failure run, and CONFIG-WRITE and the
load at the ranges, before anything is written. -/
theorem stepsKeepBounds : Obligations.StepsKeepBounds := by
  unfold Obligations.StepsKeepBounds
  intro s t queues link config run
  refine ⟨?_, ?_, ?_⟩
  · exact step_keeps (Law := State.queuesOk) id (fun _ => id) Effect.queuesWithin queues run
  · exact step_keeps (Law := State.linkOk) id (fun _ => id) Effect.linkOk link run
  · exact step_keeps (Law := State.configOk) id (fun _ => id) Effect.configOk config run
end

