-- ==== Sys2Proof/Proofs/UndueCommands.lean ====
section
/-! The command taken, and the commands that are not due (R140, R165; log 1, log 3): a request command without a held
request, and an arbiter command in a secondary. -/

namespace Sys2Proof.Machine

variable {s : State} {c : Instr} {l : BusLines}

/-- The commands whose owner acts on the held request alone (R165). -/
def ownerCommands : List Instr :=
  [Instr.unitId, .countersRead, .noticeFetch, .noticeAck, .configRead, .configWrite, .settingsSave, .nightOpen,
    .nightClose, .eventDefine, .eventRead, .eventHold, .eventCancel, .eventClear, .blackoutAdd, .blackoutRemove,
    .keyLoad, .epochSelect, .grantAdd, .grantRevoke, .grantQuery]

/-- An owner looks for its request in the holder, and finds none held. -/
theorem exec_of_not_held (owns : c ∈ ownerCommands) (idle : ∀ h, s.link.holder ≠ .held h) : exec c s = .next s := by
  cases holder : s.link.holder with
  | held h => exact absurd holder (idle h)
  | free | replying =>
    cases c with
    | unitId => simp only [exec, execUnitId, holder]
    | countersRead => simp only [exec, execCountersRead, holder]
    | noticeFetch => simp only [exec, execNoticeFetch, holder]
    | noticeAck => simp only [exec, execNoticeAck, holder]
    | configRead => simp only [exec, execConfigRead, holder]
    | configWrite => simp only [exec, execConfigWrite, holder]
    | settingsSave => simp only [exec, execSettingsSave, holder]
    | nightOpen => simp only [exec, execNightOpen, holder]
    | nightClose => simp only [exec, execNightClose, holder]
    | eventDefine => simp only [exec, execEventDefine, holder]
    | eventRead => simp only [exec, execEventRead, holder]
    | eventHold => simp only [exec, execEventHold, holder]
    | eventCancel => simp only [exec, execEventCancel, holder]
    | eventClear => simp only [exec, execEventClear, holder]
    | blackoutAdd => simp only [exec, execBlackoutAdd, holder]
    | blackoutRemove => simp only [exec, execBlackoutRemove, holder]
    | keyLoad => simp only [exec, execKeyLoad, holder]
    | epochSelect => simp only [exec, execEpochSelect, holder]
    | grantAdd => simp only [exec, execGrantAdd, holder]
    | grantRevoke => simp only [exec, execGrantRevoke, holder]
    | grantQuery => simp only [exec, execGrantQuery, holder]
    | _ => simp [ownerCommands] at owns

/-- A secondary has no arbiter (R128): its commands take in the lines and nothing else. -/
theorem exec_arbiter_of_secondary (secondary : s.straps.primary = false)
    (named : c ∈ [Instr.arbiterGrant l, .grantTaken l, .grantEnd l, .grantTimeout l, .arbiterFault l]) :
    exec c s = .next (s.sampleLines l) := by
  have noArbiter : ∀ p : Prop, ¬ ((s.sampleLines l).straps.primary = true ∧ p) := fun p both => by
    rw [State.sampleLines_straps, secondary] at both
    exact Bool.false_ne_true both.1
  simp only [List.mem_cons, List.not_mem_nil, or_false] at named
  obtain rfl | rfl | rfl | rfl | rfl := named
  · exact congrArg _ (if_neg (noArbiter _))
  · exact congrArg _ (if_neg (noArbiter _))
  · exact congrArg _ (if_neg (noArbiter _))
  · exact congrArg _ (if_neg (noArbiter _))
  · exact congrArg _ (if_neg (noArbiter _))

end Sys2Proof.Machine

open Sys2Proof Sys2Proof.Machine

/-- Settles O1. -/
theorem stepTakesFrontCommand : Obligations.StepTakesFrontCommand := by
  unfold Obligations.StepTakesFrontCommand
  intro c rest s
  rfl

/-- Settles O2. With no command waiting the step is the millisecond of the timer by definition. -/
theorem undueStepsChangeNothing : Obligations.UndueStepsChangeNothing := by
  unfold Obligations.UndueStepsChangeNothing
  refine ⟨fun s none => ?_, ?_, ?_⟩
  · simp only [step, none, State.idle]
  · intro s c idle owns
    refine exec_of_not_held owns ?_
    rintro h held
    rw [held] at idle
    obtain free | ⟨r, replying⟩ := idle
    · exact nomatch free
    · exact nomatch replying
  · intro s l c secondary named
    exact exec_arbiter_of_secondary secondary named
end

