-- ==== Sys2Proof/Proofs/SmallRequests.lean ====
section
/-! SETTINGS-SAVE and the save, NIGHT-OPEN, EPOCH-SELECT, the LOCKED receiver and the readings of an event record
(R3, R5, R107, R152, R153, R164, R181). -/

namespace Sys2Proof.Machine

variable {s : State} {h : HeldRequest}

theorem State.badField_eq_replied (s : State) (h : HeldRequest) (i : Nat) :
    s.badField h i = s.replied h .badField [BitVec.ofNat 8 i] := s.finish_eq_replied h _ _

/-! ## EPOCH-SELECT (R107) -/

theorem exec_epochSelect {v : Nat} (hq : s.holding h (.epochSelect v)) :
    exec .epochSelect s = .next
      (match EpochSelection.ofNumber v with
        | none => s.replied h .badField [1#8]
        | some sel => ({ s with selection := sel } : State).replied h .ok []) := by
  show execEpochSelect s = _
  simp only [execEpochSelect, hq.1, hq.2]
  cases EpochSelection.ofNumber v with
  | none => exact congrArg _ (s.badField_eq_replied h 1)
  | some sel => exact congrArg _ (State.finish_eq_replied _ h _ _)

/-! ## The settings save (R181) -/

theorem exec_settingsSave_of_idle (hq : s.holding h .settingsSave) (idle : s.settings.save = none) :
    exec .settingsSave s =
      .next (({ s with settings := { s.settings with save := some s.settings.record } } : State).replied h .ok []) := by
  show execSettingsSave s = _
  simp only [execSettingsSave, hq.1, hq.2, idle, State.finish_eq_replied]

theorem exec_settingsSave_of_saving {r : ConfigRecord} (hq : s.holding h .settingsSave)
    (saving : s.settings.save = some r) : exec .settingsSave s = .next (s.replied h .saveBusy []) := by
  show execSettingsSave s = _
  simp only [execSettingsSave, hq.1, hq.2, saving, State.refuse_eq_replied]

/-- A save ends by what was acknowledged: all of the 23 bytes, or fewer. -/
theorem exec_saveDone {r : ConfigRecord} (n : Nat) (saving : s.settings.save = some r) :
    exec (.saveDone n) s = .next { s with
      settings := { s.settings with
        save := none
        lastSave := if 23 ≤ n then .ok else .failed
        eeprom := s.settings.eeprom.written (r.bytes ++ crcBytes r.bytes) n }
      notice := { s.notice with causes := s.notice.causes ||| 0x100#10 } } := by
  show execSaveDone n s = _
  simp only [execSaveDone, saving]
  rfl

/-! ## NIGHT-OPEN (R152, R153) -/

theorem exec_nightOpen_of_setup {start : Nat} (hq : s.holding h (.nightOpen start)) (setup : s.night = .setup) :
    exec .nightOpen s = .next
      (if 16777215 < start then s.replied h .badField [1#8] else (s.openNight start).replied h .ok []) := by
  show execNightOpen s = _
  simp only [execNightOpen, hq.1, hq.2, setup]
  split
  · exact congrArg _ (s.badField_eq_replied h 1)
  · exact congrArg _ (State.finish_eq_replied _ h _ _)

theorem exec_nightOpen_of_locked {start : Nat} (hq : s.holding h (.nightOpen start))
    (locked : s.night = .opened ∨ s.night = .closing) :
    exec .nightOpen s = .next (s.replied h .wrongNightState []) := by
  show execNightOpen s = _
  obtain night | night := locked
  · simp only [execNightOpen, hq.1, hq.2, night, State.refuse_eq_replied]
  · simp only [execNightOpen, hq.1, hq.2, night, State.refuse_eq_replied]

/-! ## The readings of an event's state (section 1.2) -/

theorem EventState.keyed_iff (e : EventState) : e.keyed = true ↔ e = .preview ∨ e = .live ∨ e = .overtime := by
  cases e <;> simp [EventState.keyed]

theorem EventState.admitting_iff (e : EventState) :
    e.admitting = true ↔ e = .scheduled ∨ e = .onSale ∨ e = .preview ∨ e = .live ∨ e = .overtime := by
  simp [EventState.admitting, e.selling_iff]

theorem EventState.finished_iff (e : EventState) : e.finished = true ↔ e = .closed ∨ e = .retired := by
  simp [EventState.finished]

end Sys2Proof.Machine

open Sys2Proof Sys2Proof.Machine

/-- Settles O10. Every step of the receiver but the line break looks at its state first. -/
theorem lockedUntilLineBreak : Obligations.LockedUntilLineBreak := by
  unfold Obligations.LockedUntilLineBreak
  refine ⟨fun s locked => ⟨?_, ?_, ?_, ?_, ?_⟩, fun s => rfl⟩
  · intro v
    simp only [exec, execAddressCharacter, locked]
  · simp only [exec, execCharacterFailure, locked]
  · simp only [exec, execGapFailure, locked]
  · intro n
    simp only [exec, execLengthFailure, locked]
  · intro cs
    simp only [exec, execRequestFrame, locked]

/-- Settles O17. -/
theorem epochSelectStoresSelection : Obligations.EpochSelectStoresSelection := by
  unfold Obligations.EpochSelectStoresSelection
  intro s h v hq
  rw [exec_epochSelect hq]
  refine ⟨?_, ?_, ?_⟩
  · rintro rfl
    rfl
  · rintro rfl
    rfl
  · intro out
    rw [show EpochSelection.ofNumber v = none by
      rw [EpochSelection.ofNumber, if_neg (by omega), if_neg (by omega)]]

/-- Settles O6. -/
theorem savesCaptureAndStoreRecord : Obligations.SavesCaptureAndStoreRecord := by
  unfold Obligations.SavesCaptureAndStoreRecord
  refine ⟨⟨?_, ?_⟩, ?_⟩
  · intro s h hq idle
    exact exec_settingsSave_of_idle hq idle
  · intro s h r hq saving
    exact exec_settingsSave_of_saving hq saving
  · intro n s r saving
    rw [exec_saveDone n saving]
    refine ⟨fun whole => ?_, fun old short stored => ?_⟩
    · simp only [EepromCopy.written, if_pos whole]
    · simp only [EepromCopy.written, stored, if_neg (Nat.not_le.2 short)]

/-- Settles O15. -/
theorem nightOpenStartsNight : Obligations.NightOpenStartsNight := by
  unfold Obligations.NightOpenStartsNight
  intro s h start hq
  refine ⟨?_, ?_, ?_⟩
  · intro setup inRange
    rw [exec_nightOpen_of_setup hq setup, if_neg (Nat.not_lt.2 inRange)]
    rfl
  · intro setup out
    rw [exec_nightOpen_of_setup hq setup, if_pos out]
  · exact exec_nightOpen_of_locked hq

/-- Settles O25. -/
theorem effectiveCloseFollowsHold : Obligations.EffectiveCloseFollowsHold := by
  unfold Obligations.EffectiveCloseFollowsHold
  refine ⟨fun _ => rfl, ?_, fun _ _ => rfl, ?_, fun _ => rfl, ?_⟩
  · intro c t
    show max c t = _
    split <;> omega
  · intro r w n window
    simp only [EventRecord.effectiveClose, EventRecord.stateMessage, window, and_self]
  · intro e
    exact ⟨e.keyed_iff, e.selling_iff, e.admitting_iff, e.finished_iff⟩
end

