-- ==== Sys2Proof/Proofs/ResetState.lean ====
section
/-! The hardware reset, and the unit it leaves with its first WIPE running (R135, R180, R182; log 11). -/

namespace Sys2Proof.Machine

variable {s t : State} {pins : Straps}

/-! ## HARDWARE_RESET (R182) -/

theorem State.resetBlocks_afterReset (s : State) (pins : Straps) (record : ConfigRecord) (load : LoadResult)
    (timer : Timer) (sizeA sizeB : Nat) : (s.resetBlocks pins record load timer sizeA sizeB).AfterReset pins := by
  constructor <;> simp only [State.resetBlocks, and_self, Notice.reset]

/-- The unit with the settings and the timer of a hardware reset. -/
def State.atDefaults (s : State) : State :=
  { s with settings := { s.settings with record := ConfigRecord.default }, timer := { now := 0, cycleTickAt := 0 } }

/-- A hardware reset that loads nothing is a UNIT-RESET with the default record and the timer at 0. -/
theorem State.startWipe_hardwareReset (s : State) (pins : Straps) :
    (s.hardwareReset pins .notLoaded).startWipe = s.atDefaults.unitReset pins := by
  rw [State.unitReset_eq, State.startWipe_of_free rfl rfl rfl rfl]
  rfl

theorem exec_hardwareReset_of_load (s : State) (load : pins.load = true) :
    exec (.hardwareReset pins) s = .next (s.hardwareReset pins .loading) := if_pos load

theorem exec_hardwareReset_of_not_load (s : State) (noLoad : pins.load = false) :
    exec (.hardwareReset pins) s = .next (s.atDefaults.unitReset pins) := by
  rw [← State.startWipe_hardwareReset]
  show execHardwareReset pins s = _
  simp only [execHardwareReset, noLoad, Bool.false_eq_true, if_false]

/-- A reset during a save leaves the EEPROM copy cut short, and leaves it alone otherwise (R181). -/
theorem Settings.eepromAfterReset_spec (x : Settings) :
    (x.save = none → x.eepromAfterReset = x.eeprom) ∧ ∀ r, x.save = some r → x.eepromAfterReset = .cutShort := by
  unfold Settings.eepromAfterReset
  cases x.save with
  | none => exact ⟨fun _ => rfl, nofun⟩
  | some r => exact ⟨nofun, fun _ _ => rfl⟩

theorem State.unitReset_eeprom (s : State) (pins : Straps) :
    (s.unitReset pins).settings.eeprom = s.settings.eepromAfterReset := by
  rw [State.unitReset_eq]
  rfl

/-! ## The laws of a unit after reset whose WIPE has started -/

theorem State.AfterReset.port_eq (after : t.AfterReset pins) (wiping : t.Wiping) : t.port =
    { state := .wipeWrite, composition := false, completions := [], request := false, sweep := false } := by
  obtain ⟨composition, completions, request, sweep⟩ := after.claims
  exact congr (congr (congr (congr (congrArg StorePort.mk wiping.port.1) composition) completions) request) sweep

theorem State.Wiping.engine_eq (wiping : t.Wiping) : t.sweep.engine = .wiping 0 := by rw [wiping.engine]

theorem State.Wiping.not_asked (wiping : t.Wiping) : t.sweep.wipePending = false := by rw [wiping.engine]

theorem State.AfterReset.countsOk (after : t.AfterReset pins) : t.countsOk := by
  unfold State.countsOk
  rw [after.events]
  intro r mem
  rw [List.eq_of_mem_replicate mem]
  rfl

theorem State.AfterReset.nightOk (after : t.AfterReset pins) (wiping : t.Wiping)
    (loaded : t.settings.lastLoad = .notLoaded) : t.nightOk := by
  have notOpen : t.night ≠ .opened := by rw [after.night]; nofun
  exact {
    clock := iff_of_true (by rw [after.clock]) notOpen
    carousel := iff_of_true (by rw [after.carousel]; rfl) notOpen
    bus := iff_of_true after.bus.1 notOpen
    wiping := fun _ _ => ⟨.inl after.night, wiping.not_asked, by rw [loaded]; nofun⟩
    asked := fun asked => by rw [wiping.not_asked] at asked; exact nomatch asked
    loading := fun _ => after.night }

theorem State.AfterReset.clockOk (after : t.AfterReset pins) : t.clockOk := by
  unfold State.clockOk
  rw [after.clock]
  exact Nat.zero_le _

theorem State.AfterReset.scramblerOk (after : t.AfterReset pins) : t.scramblerOk where
  table := by rw [after.events, List.length_replicate]
  once := by rw [after.scrambler]; exact .nil
  numbers := by rw [after.scrambler]; nofun

theorem State.AfterReset.queuesOk (after : t.AfterReset pins) : t.queuesOk := by
  unfold State.queuesOk
  rw [after.carousel]
  exact ⟨Nat.zero_le _, Nat.zero_le _⟩

theorem State.AfterReset.linkOk (after : t.AfterReset pins) : t.linkOk := by
  unfold State.linkOk
  rw [after.link]
  exact ⟨Nat.zero_le _, iff_of_false nofun nofun⟩

theorem EventRecord.not_marked_empty (k : SweepKind) : ¬ EventRecord.empty.marked k := by cases k <;> nofun

theorem State.AfterReset.eventsOk (after : t.AfterReset pins) (wiping : t.Wiping) : t.eventsOk where
  keys := by
    rw [after.events]
    intro r mem
    rw [List.eq_of_mem_replicate mem]
    exact EventRecord.keysRelate_empty
  marks := by
    rw [after.events]
    intro r mem k marked
    rw [List.eq_of_mem_replicate mem] at marked
    exact absurd marked (EventRecord.not_marked_empty k)
  running := fun w sweeping => by
    rw [wiping.engine_eq] at sweeping
    exact nomatch sweeping

theorem State.AfterReset.slotsOk (after : t.AfterReset pins) (wiping : t.Wiping) : t.slotsOk where
  settled := fun _ none => absurd wiping.engine_eq (none 0)
  wiping := fun c engine => by
    rw [wiping.engine_eq] at engine
    obtain rfl := EngineState.wiping.inj engine
    exact ⟨wiping.queues.1, wiping.queues.2, nofun, after.port_eq wiping⟩
  starting := fun _ none => absurd wiping.engine_eq (none 0)
  noEvents := fun _ r mem => by
    rw [after.events] at mem
    exact List.eq_of_mem_replicate mem
  closing := fun closing => by
    rw [after.night] at closing
    exact nomatch closing
  asked := fun asked => by
    rw [wiping.not_asked] at asked
    exact nomatch asked

/-- The unit the machine starts as is what a UNIT-RESET with every strap at 0 makes of it (log 11). -/
theorem State.reset_eq : State.reset = State.reset.unitReset zeroStraps := by
  rw [State.unitReset_eq]
  rfl

theorem State.reset_afterReset : State.reset.AfterReset zeroStraps := by
  rw [State.reset_eq]
  exact State.unitReset_afterReset _ _

theorem State.reset_wiping : State.reset.Wiping := by
  rw [State.reset_eq]
  exact State.unitReset_wiping _ _

end Sys2Proof.Machine

open Sys2Proof Sys2Proof.Machine

/-- Settles O3. Without a load the reset is a UNIT-RESET at the defaults, whose lemmas serve. -/
theorem hardwareResetStartsUp : Obligations.HardwareResetStartsUp := by
  unfold Obligations.HardwareResetStartsUp
  intro pins s
  obtain ⟨kept, cut⟩ := s.settings.eepromAfterReset_spec
  cases load : pins.load with
  | true =>
    exact ⟨_, exec_hardwareReset_of_load s load, State.resetBlocks_afterReset .., ⟨rfl, rfl, rfl, rfl⟩, rfl, rfl, kept,
      cut, fun _ => ⟨rfl, rfl, rfl, rfl, rfl⟩, nofun⟩
  | false =>
    obtain ⟨record, notLoaded, timer⟩ := s.atDefaults.unitReset_settings pins
    have eeprom := s.atDefaults.unitReset_eeprom pins
    exact ⟨_, exec_hardwareReset_of_not_load s load, State.unitReset_afterReset _ _,
      s.atDefaults.unitReset_keptByReset pins, record, timer, fun idle => eeprom.trans (kept idle),
      fun r saving => eeprom.trans (cut r saving), nofun, fun _ => ⟨notLoaded, State.unitReset_wiping _ _⟩⟩

/-- Settles O60. -/
theorem resetStateKeepsLaws : Obligations.ResetStateKeepsLaws := by
  unfold Obligations.ResetStateKeepsLaws
  have after := State.reset_afterReset
  have wiping := State.reset_wiping
  exact ⟨⟨rfl, after.countsOk, after.nightOk wiping rfl, after.clockOk, after.scramblerOk, after.queuesOk, after.linkOk,
    ConfigRecord.default_inRange, after.eventsOk wiping, after.slotsOk wiping⟩, after, wiping, rfl, rfl, rfl, rfl, rfl⟩
end

