-- ==== Sys2Proof/Proofs/FormatsReadBack.lean ====
section
/-! The stored configuration record and the request frame read back (R181, R183, R186), and the levels of a character on
its line (R160). -/

namespace Sys2Proof.Machine

/-! ## The stored record (R186) -/

/-- A field that lies within the first of two parts is read from it. -/
theorem fieldAt_append {a : List Byte} {i n : Nat} (b : List Byte) (inside : i + n ≤ a.length) :
    fieldAt (a ++ b) i n = fieldAt a i n := by
  rw [fieldAt, List.drop_append_of_le_length (by omega), List.take_append_of_le_length (by simp; omega), fieldAt]

theorem byteAt_append {a : List Byte} {i : Nat} (b : List Byte) (inside : i < a.length) :
    byteAt (a ++ b) i = byteAt a i := List.getD_append _ _ _ _ inside

theorem RawConfig.length_bytes (r : RawConfig) : r.bytes.length = 21 := by
  simp only [RawConfig.bytes, List.length_append, List.length_cons, List.length_nil, length_leBytes]

/-- What follows the 21 bytes of a record is not read as a part of it. -/
theorem RawConfig.ofBytes_append {b : List Byte} (tail : List Byte) (whole : b.length = 21) :
    RawConfig.ofBytes (b ++ tail) = RawConfig.ofBytes b := by
  simp only [RawConfig.ofBytes, fieldAt_append tail, byteAt_append tail, whole, Nat.reduceAdd, Nat.reduceLeDiff,
    Nat.reduceLT]

/-- Fields in range fit their bytes. -/
theorem RawConfig.InRange.fits {r : RawConfig} (inRange : r.InRange) : (Request.configWrite r).fits = true := by
  obtain ⟨bankA, bankB, cycle, urgent, fresh, confirm, revoke, held, repeats, announce, short, long, pairs⟩ := inRange
  simp only [List.mem_cons, List.not_mem_nil, or_false] at bankA bankB
  simp only [Request.fits, Bool.and_eq_true, decide_eq_true_eq]
  omega

theorem ConfigRecord.raw_record (r : ConfigRecord) : r.raw.record = r := by
  rw [RawConfig.record, ConfigRecord.raw, PairSet.ofByte_byte]

/-! ## Characters (R160) -/

/-- The eight bits of a byte make it again. -/
theorem byte1_flagsByte (b : Byte) :
    byte1 (flagsByte [b.getLsbD 0, b.getLsbD 1, b.getLsbD 2, b.getLsbD 3, b.getLsbD 4, b.getLsbD 5, b.getLsbD 6,
      b.getLsbD 7]) = b := by
  revert b
  decide

theorem Character.ofLevels_levels (c : Character) : Character.ofLevels c.levels = some c := by
  rw [Character.levels_eq, Character.ofLevels, byte1_flagsByte]

/-- The bits of the byte that eight bits make are those bits. -/
theorem getLsbD_byte1_flagsByte (b0 b1 b2 b3 b4 b5 b6 b7 : Bool) :
    (List.range 8).map (fun i => (byte1 (flagsByte [b0, b1, b2, b3, b4, b5, b6, b7])).getLsbD i) =
      [b0, b1, b2, b3, b4, b5, b6, b7] := by
  revert b0 b1 b2 b3 b4 b5 b6 b7
  decide

theorem Character.ofLevels_iff (l : List Bool) (c : Character) : Character.ofLevels l = some c ↔ l = c.levels := by
  refine ⟨fun carries => ?_, fun levels => levels ▸ c.ofLevels_levels⟩
  unfold Character.ofLevels at carries
  split at carries
  case h_1 b0 b1 b2 b3 b4 b5 b6 b7 mark =>
    obtain rfl := Option.some.inj carries
    rw [Character.levels, getLsbD_byte1_flagsByte]
    rfl
  case h_2 => exact nomatch carries

theorem Character.levels_getElem (c : Character) : c.levels.length = 11 ∧ c.levels[0]? = some false
    ∧ (∀ i, i < 8 → c.levels[i + 1]? = some (c.data.getLsbD i)) ∧ c.levels[9]? = some c.mark
    ∧ c.levels[10]? = some true := by
  refine ⟨rfl, rfl, fun i inside => ?_, rfl, rfl⟩
  interval_cases i <;> rfl

/-- The reply line carries the levels of its characters one after another (R160, log 26). -/
theorem State.replyLevel_of_character {s : State} {i k : Nat} {c : Character} (sent : s.replyLine[i]? = some c)
    (inside : k < 11) : some (s.replyLevel (11 * i + k)) = c.levels[k]? := by
  have level := Character.flatMap_levels_get s.replyLine i k c sent inside
  have some_ : c.levels[k]? = some c.levels[k] := List.getElem?_eq_getElem inside
  rw [State.replyLevel, List.getD_eq_getElem?_getD, level, some_, Option.getD_some]

theorem length_flatMap_levels (l : List Character) : (l.flatMap Character.levels).length = 11 * l.length := by
  induction l with
  | nil => rfl
  | cons c cs ih =>
    have eleven : c.levels.length = 11 := rfl
    rw [List.flatMap_cons, List.length_append, ih, eleven, List.length_cons]
    omega

theorem State.replyLevel_of_after {s : State} {bit : Nat} (after : 11 * s.replyLine.length ≤ bit) :
    s.replyLevel bit = true :=
  List.getD_eq_default _ _ (by rwa [length_flatMap_levels])

end Sys2Proof.Machine

open Sys2Proof Sys2Proof.Machine

/-- Settles O7. -/
theorem storedRecordLoadsBack : Obligations.StoredRecordLoadsBack := by
  unfold Obligations.StoredRecordLoadsBack
  intro r inRange
  have length : r.bytes.length = 21 := r.raw.length_bytes
  have raw : RawConfig.ofBytes (r.bytes ++ crcBytes r.bytes) = r.raw :=
    (RawConfig.ofBytes_append _ length).trans (RawConfig.ofBytes_bytes r.raw (RawConfig.InRange.fits inRange))
  refine ⟨length, raw, ?_, ?_⟩
  · rw [raw, r.raw_record]
  · rw [List.take_left' length, List.drop_left' length]

/-- Settles O12. -/
theorem requestFramesReadBack : Obligations.RequestFramesReadBack := by
  unfold Obligations.RequestFramesReadBack
  refine ⟨fun tag q fits => ⟨readFrame_goodFrame (q.length_body_le fits), q.read_body fits⟩,
    Character.levels_getElem, Character.ofLevels_iff, ?_, ?_, ?_⟩
  · exact fun s i k c => State.replyLevel_of_character
  · exact fun s bit => State.replyLevel_of_after
  · exact fun s => rfl
end

