-- ==== Sys2Proof/Proofs/UnitReports.lean ====
section
/-! UNIT-ID, UNIT-STATUS, COUNTERS-READ, CONFIG-READ and CONFIG-WRITE (R169, R170, R177, R178, section 11.2). -/

namespace Sys2Proof.Machine

variable {s : State} {h : HeldRequest} {l : BusLines}

/-! ## UNIT-STATUS (R169) -/

theorem exec_unitStatus (l : BusLines) (hq : s.holding h .unitStatus) :
    exec (.unitStatus l) s = .next ((s.sampleLines l).replied h .ok (s.sampleLines l).statusBody) := by
  show execUnitStatus l s = _
  simp only [execUnitStatus, hq.1, hq.2, State.finish_eq_replied]

theorem length_deadlineBytes (d : Option Deadline) : (deadlineBytes d).length = 6 := by cases d <;> rfl

theorem length_engineBytes (e : EngineState) : (engineBytes e).length = 15 := by
  cases e with
  | idle => rfl
  | wiping c => rfl
  | sweeping w =>
    simp only [engineBytes, List.length_append, List.length_cons, List.length_nil, length_leBytes, length_countBytes]

theorem State.length_arbiterBytes (s : State) : s.arbiterBytes.length = 5 := by
  unfold State.arbiterBytes
  repeat' split
  all_goals rfl

theorem State.length_statusBody (s : State) : s.statusBody.length = 67 := by
  simp only [State.statusBody, List.length_append, List.length_cons, List.length_nil, length_leBytes,
    length_deadlineBytes, length_engineBytes, State.length_arbiterBytes]

theorem deadlineBytes_eq (d : Option Deadline) : deadlineBytes d =
    match d with
    | none => [0#8, 0#8, 0#8, 0#8, 0#8, 0#8]
    | some d => [1#8, BitVec.ofNat 8 d.event] ++ leBytes 3 d.time ++ [BitVec.ofNat 8 (deadlineKindNumber d.kind)] := by
  cases d <;> rfl

theorem engineBytes_eq (e : EngineState) : engineBytes e =
    match e with
    | .idle => List.replicate 15 0#8
    | .wiping c => [1#8, 0#8, 0#8, 0#8, 0#8, 0#8] ++ leBytes 3 c ++ List.replicate 6 0#8
    | .sweeping w =>
      [2#8, BitVec.ofNat 8 w.kind.number, BitVec.ofNat 8 w.event] ++ leBytes 3 w.start
        ++ leBytes 3 w.cursor ++ leBytes 3 w.visited
        ++ (if w.changed ≤ 16777215 then leBytes 3 w.changed else leBytes 3 (freeCount w.changed).toNat) := by
  cases e with
  | idle => rfl
  | wiping c => rfl
  | sweeping w =>
    have width : (w.changed < 256 ^ 3) = (w.changed ≤ 16777215) := propext (by omega)
    simp only [engineBytes, countBytes, width, byte1]

/-- The primary holds a grant to its own requester; a secondary sees GNT (R124). -/
theorem State.holdsGrant_sampleLines (s : State) (l : BusLines) : (s.sampleLines l).holdsGrant =
    if s.straps.primary then
      (match s.arbiter.state with | .granted .own _ => true | _ => false) else l.gnt := by
  unfold State.holdsGrant
  cases arbiter : s.arbiter.state with
  | idle | fault => simp only [State.sampleLines_straps, State.sampleLines_arbiter, arbiter]; rfl
  | granted r taken => cases r <;> simp only [State.sampleLines_straps, State.sampleLines_arbiter, arbiter] <;> rfl

theorem State.busFlags_sampleLines (s : State) (l : BusLines) : (s.sampleLines l).busFlags =
    bitOf s.bus.staging.isSome + 2 * bitOf s.bus.sending.isSome + 4 * bitOf s.bus.staging.isSome
      + 8 * bitOf (if s.straps.primary then
          (match s.arbiter.state with | .granted .own _ => true | _ => false) else l.gnt)
      + 16 * bitOf (l.drive || s.bus.sending.isSome) + 32 * bitOf l.ready := by
  rw [State.busFlags, State.holdsGrant_sampleLines]
  simp only [flagsByte, State.request, State.drive, State.driveOut, State.sampleLines_bus]
  omega

theorem PairSet.byte_eq (p : PairSet) : p.byte = 2 * bitOf p.pair1 + 4 * bitOf p.pair2 + 8 * bitOf p.pair3 := by
  simp only [PairSet.byte, flagsByte, bitOf, Bool.false_eq_true, if_false]
  omega

theorem State.arbiterBytes_eq (s : State) : s.arbiterBytes =
    if s.straps.primary then
      (match s.arbiter.state with
        | .idle => [1#8, 0#8, 0#8]
        | .granted r taken => [2#8, BitVec.ofNat 8 (bitOf taken), BitVec.ofNat 8 r.number]
        | .fault => [3#8, 0#8, 0#8])
      ++ [BitVec.ofNat 8 s.arbiter.lastGranted.number,
        BitVec.ofNat 8 (2 * bitOf s.settings.record.pairs.pair1 + 4 * bitOf s.settings.record.pairs.pair2
          + 8 * bitOf s.settings.record.pairs.pair3)]
    else [0#8, 0#8, 0#8, 0#8, 0#8] := by
  rw [State.arbiterBytes, PairSet.byte_eq]
  cases s.arbiter.state <;> rfl

theorem State.presenting_eq (s : State) :
    s.presenting = (s.scrambler.ready && decide (s.scrambler.queue ≠ [])) := by
  rw [State.presenting]
  cases s.scrambler.queue <;> rfl

/-! ## COUNTERS-READ (R170) -/

theorem length_flatMap_leBytes (n : Nat) (l : List Nat) : (l.flatMap (leBytes n)).length = n * l.length := by
  induction l with
  | nil => rfl
  | cons v vs ih => rw [List.flatMap_cons, List.length_append, ih, length_leBytes, List.length_cons]; ring

theorem exec_countersRead {clear : Nat} (hq : s.holding h (.countersRead clear)) :
    exec .countersRead s = .next
      (match boolOfNumber clear with
        | none => s.replied h .badField [1#8]
        | some false => s.replied h .ok s.counters.bytes
        | some true => ({ s with counters := Counters.zero } : State).replied h .ok s.counters.bytes) := by
  show execCountersRead s = _
  simp only [execCountersRead, hq.1, hq.2]
  cases boolOfNumber clear with
  | none => exact congrArg _ (s.badField_eq_replied h 1)
  | some b => cases b <;> exact congrArg _ (State.finish_eq_replied _ h _ _)

theorem boolOfNumber_of_out {n : Nat} (out : 1 < n) : boolOfNumber n = none :=
  Option.isNone_iff_eq_none.1 ((boolOfNumber_isNone_iff n).2 out)

/-! ## CONFIG-WRITE (R178) -/

/-- A chain's last check. -/
theorem NamesFirst.last {c d : Prop} [Decidable c] (start : Nat) (tests : c ↔ d) :
    NamesFirst (if c then some start else none) start (fun i => i = start ∧ d) := by
  simpa using NamesFirst.check (Out := fun _ => False) tests (.nothing (start + 1) (fun _ => not_false))

theorem not_within_iff {lo hi n : Nat} : (!within lo hi n) = true ↔ ¬ (lo ≤ n ∧ n ≤ hi) := by
  rw [Bool.not_eq_true', within, ← Bool.decide_and, decide_eq_false_iff_not]

/-- The index CONFIG-WRITE is refused with is that of its first bad field (R178; log 21). -/
theorem RawConfig.firstBad_names (r : RawConfig) : NamesFirst r.firstBad 1 r.FieldOut := by
  have not_upTo {hi n : Nat} : (!within 0 hi n) = true ↔ ¬ n ≤ hi := by simp [within]
  refine .check ?_ (.check ?_ (.check not_within_iff (.check not_upTo (.check not_upTo (.check not_within_iff
    (.check not_within_iff (.check not_within_iff (.check not_within_iff (.check not_within_iff (.check not_within_iff
      (.check ?_ (.last 13 bne_iff_ne))))))))))))
  · simp [bankSizeOk, and_assoc]
  · rw [Bool.not_eq_true', ← Bool.not_eq_true]
    simp [bankSizeOk, or_assoc]
  · rw [Bool.not_eq_true', ← Bool.not_eq_true]
    simp [within, and_assoc]

theorem State.locked_iff (s : State) : s.locked = true ↔ s.night = .opened ∨ s.night = .closing := by
  simp [State.locked]

theorem ConfigRecord.samePairsAside_iff (a b : ConfigRecord) :
    a.samePairsAside b = true ↔ { a with pairs := b.pairs } = b := beq_iff_eq

theorem exec_configWrite_of_out {r : RawConfig} {i : Nat} (hq : s.holding h (.configWrite r))
    (bad : r.firstBad = some i) : exec .configWrite s = .next (s.replied h .badField [BitVec.ofNat 8 i]) := by
  show execConfigWrite s = _
  simp only [execConfigWrite, hq.1, hq.2, bad, State.badField_eq_replied]

theorem exec_configWrite_of_inRange {r : RawConfig} (hq : s.holding h (.configWrite r)) (inRange : r.InRange) :
    exec .configWrite s = .next
      (if s.locked = true ∧ r.record.samePairsAside s.settings.record = false then s.replied h .locked []
      else ({ s with settings := { s.settings with record := r.record } } : State).replied h .ok []) := by
  show execConfigWrite s = _
  simp only [execConfigWrite, hq.1, hq.2, (RawConfig.firstBad_none r).2 inRange, State.refuse_eq_replied,
    State.finish_eq_replied]
  split <;> rfl

end Sys2Proof.Machine

open Sys2Proof Sys2Proof.Machine

/-- Settles O13. Each report is the body the model builds, its parts written out by the lemmas above; the refusal of
CONFIG-WRITE names the first bad field. -/
theorem unitAndConfigRequestsReport : Obligations.UnitAndConfigRequestsReport := by
  unfold Obligations.UnitAndConfigRequestsReport
  refine ⟨?unitId, ?unitStatus, ?counters, ?configRead, ?configWrite⟩
  case unitId =>
    intro s h hq
    show execUnitId s = _
    simp only [execUnitId, hq.1, hq.2, State.finish_eq_replied, State.idBody, flagsByte]
    refine congrArg (fun flags => Host.Outcome.next (s.replied h .ok
      [0x88#8, 0x0C#8, 0x01#8, BitVec.ofNat 8 s.straps.unitAddress.val, BitVec.ofNat 8 flags])) ?_
    cases s.straps.primary <;> cases s.straps.linkRate <;> cases s.straps.load <;> rfl
  case unitStatus =>
    intro l s h hq
    refine ⟨_, State.length_statusBody _, exec_unitStatus l hq, ?_⟩
    rintro one rfl
    rw [State.statusBody, State.arbiterBytes_eq, deadlineBytes_eq, engineBytes_eq, State.busFlags_sampleLines,
      State.presenting_eq]
    simp only [List.append_assoc, List.cons_append, List.nil_append]
    rw [show (s.sampleLines l).link.holder = .held h from hq.1]
    rfl
  case counters =>
    rintro s h clear hq b rfl
    rw [exec_countersRead hq]
    refine ⟨length_flatMap_leBytes 4 _, ?_, ?_, ?_, fun c => rfl⟩
    · rintro rfl
      rfl
    · rintro rfl
      rfl
    · intro out
      rw [boolOfNumber_of_out out]
  case configRead =>
    intro s h hq
    show execConfigRead s = _
    simp only [execConfigRead, hq.1, hq.2, State.finish_eq_replied]
  case configWrite =>
    intro s h r hq
    refine ⟨fun out => ?_, fun inRange locked changed => ?_, fun inRange free => ?_⟩
    · cases bad : r.firstBad with
      | none => exact absurd ((RawConfig.firstBad_none r).1 bad) out
      | some i =>
        obtain ⟨fieldOut, first⟩ := r.firstBad_names.named i bad
        exact ⟨i, fieldOut, first, exec_configWrite_of_out hq bad⟩
    · rw [exec_configWrite_of_inRange hq inRange, if_pos]
      exact ⟨s.locked_iff.2 locked, Bool.eq_false_iff.2 fun same => changed ((r.record.samePairsAside_iff _).1 same)⟩
    · rw [exec_configWrite_of_inRange hq inRange, if_neg]
      rintro ⟨locked, changed⟩
      obtain ⟨notOpened, notClosing⟩ | same := free
      · exact (s.locked_iff.1 locked).elim notOpened notClosing
      · exact Bool.eq_false_iff.1 changed ((r.record.samePairsAside_iff _).2 same)
end

