-- ==== Sys2Proof/Proofs/BusAndArbiter.lean ====
section
/-! BUS-CLEAR and the arbiter (R128 to R130, R133). -/

namespace Sys2Proof.Machine

variable {s : State} {h : HeldRequest} {l : BusLines}

theorem State.drive_sampleLines_iff (s : State) (l : BusLines) :
    (s.sampleLines l).drive = true ↔ l.drive = true ∨ s.bus.sending ≠ none := (s.sampleLines l).drive_iff

theorem State.drive_sampleLines_of_released (released : l.drive = false) (notSending : s.bus.sending = none) :
    (s.sampleLines l).drive = false := by
  rw [← Bool.not_eq_true, s.drive_sampleLines_iff l, released]
  simp [notSending]

/-! ## BUS-CLEAR (R133) -/

theorem exec_busClear (l : BusLines) (hq : s.holding h .busClear) :
    exec (.busClear l) s = .next ((s.sampleLines l).clearBus h) := by
  show execBusClear l s = _
  simp only [execBusClear, hq.1, hq.2]

theorem State.arbiterFaulted_iff (s : State) :
    s.arbiterFaulted = true ↔ s.straps.primary = true ∧ s.arbiter.state = .fault := by
  simp [State.arbiterFaulted]

/-- A fault of the unit's bus state or of its arbiter. -/
def State.BusFaulted (s : State) : Prop :=
  s.bus.state = .fault ∨ (s.straps.primary = true ∧ s.arbiter.state = .fault)

theorem State.busFaulted_iff (s : State) :
    (s.bus.state == .fault || s.arbiterFaulted) = true ↔ s.BusFaulted := by
  rw [Bool.or_eq_true, beq_iff_eq, s.arbiterFaulted_iff, State.BusFaulted]

/-- What BUS-CLEAR does to the two faults. -/
theorem State.clearFaults_eq (s : State) : s.clearBusFault.clearArbiterFault =
    { s with
      bus := { s.bus with state := if s.bus.state = .fault then .idle else s.bus.state }
      arbiter := { s.arbiter with
        state := if s.straps.primary = true ∧ s.arbiter.state = .fault then .idle else s.arbiter.state } } := by
  have bus : s.clearBusFault =
      { s with bus := { s.bus with state := if s.bus.state = .fault then .idle else s.bus.state } } := by
    unfold State.clearBusFault
    split <;> rfl
  have faulted : s.clearBusFault.arbiterFaulted = true ↔ s.straps.primary = true ∧ s.arbiter.state = .fault := by
    rw [bus]
    exact s.arbiterFaulted_iff
  rw [State.clearArbiterFault, ite_congr (propext faulted) (fun _ => rfl) (fun _ => rfl), bus]
  split <;> rfl

theorem State.clearBus_of_driven (faulted : s.BusFaulted) (driven : s.drive = true) :
    s.clearBus h = s.replied h .wrongState [] := by
  rw [State.clearBus, s.busFaulted_iff.2 faulted, driven, State.refuse_eq_replied]
  rfl

theorem State.clearBus_of_passes (passes : ¬ s.BusFaulted ∨ s.drive = false) :
    s.clearBus h = s.clearBusFault.clearArbiterFault.replied h .ok [] := by
  rw [State.clearBus, if_neg, State.finish_eq_replied]
  rw [Bool.and_eq_true, s.busFaulted_iff]
  rintro ⟨faulted, driven⟩
  obtain sound | released := passes
  · exact sound faulted
  · exact Bool.false_ne_true (released.symm.trans driven)

theorem State.clearFaults_of_sound (sound : ¬ s.BusFaulted) : s.clearBusFault.clearArbiterFault = s := by
  obtain ⟨bus, arbiter⟩ := not_or.1 sound
  rw [State.clearFaults_eq, if_neg bus, if_neg arbiter]

/-! ## The arbiter (R128 to R130) -/

/-- A requester that may be granted: its request is asserted and it is in service. -/
theorem State.mayGrant_sampleLines (s : State) (l : BusLines) (r : Requester) :
    (s.sampleLines l).mayGrant r = true ↔ match r with
      | .own => s.bus.staging ≠ none
      | .pair1 => l.req1 = true ∧ s.settings.record.pairs.pair1 = true
      | .pair2 => l.req2 = true ∧ s.settings.record.pairs.pair2 = true
      | .pair3 => l.req3 = true ∧ s.settings.record.pairs.pair3 = true := by
  unfold State.mayGrant
  rw [Bool.and_eq_true]
  cases r with
  | own => simp [State.requests, State.request, PairSet.serves, Option.isSome_iff_ne_none]
  | pair1 | pair2 | pair3 => simp [State.requests, PairSet.serves]

theorem State.arbiterGrants_of_idle (primary : s.straps.primary = true) (idle : s.arbiter.state = .idle)
    (ready : s.bus.lines.ready = true) (released : s.drive = false) :
    s.arbiterGrants = match s.nextGrant with | none => s | some r => s.grantBus r :=
  if_pos ⟨primary, idle, ready, released⟩

theorem State.arbiterGrants_of_undue
    (undue : s.arbiter.state ≠ .idle ∨ s.bus.lines.ready = false ∨ s.drive = true) : s.arbiterGrants = s := by
  refine if_neg ?_
  rintro ⟨-, idle, ready, released⟩
  obtain busy | notReady | driven := undue
  · exact busy idle
  · exact Bool.false_ne_true (notReady.symm.trans ready)
  · exact Bool.false_ne_true (released.symm.trans driven)

theorem State.nextGrant_eq_some {before after : List Requester} {r : Requester}
    (order : s.arbiter.lastGranted.rotation = before ++ r :: after) (may : s.mayGrant r = true)
    (first : ∀ q ∈ before, ¬ s.mayGrant q = true) : s.nextGrant = some r := by
  rw [State.nextGrant, order, List.find?_append, List.find?_eq_none.2 first, Option.none_or, List.find?_cons_of_pos may]

theorem State.nextGrant_eq_none (never : ∀ q, ¬ s.mayGrant q = true) : s.nextGrant = none :=
  List.find?_eq_none.2 fun q _ => never q

theorem State.takeGrant_of_driven {r : Requester} {taken : Bool} (primary : s.straps.primary = true)
    (granted : s.arbiter.state = .granted r taken) (driven : s.drive = true) :
    s.takeGrant = { s with arbiter := { s.arbiter with state := .granted r true } } := by
  simp only [State.takeGrant, primary, driven, and_self, if_true, granted, State.setArbiter]

theorem State.endGrant_of_taken {r : Requester} (primary : s.straps.primary = true)
    (granted : s.arbiter.state = .granted r true) (released : s.drive = false) :
    s.endGrant = { s with arbiter := { s.arbiter with state := .idle } } := by
  simp only [State.endGrant, primary, released, and_self, if_true, granted, State.idleArbiter, State.setArbiter]

theorem State.timeoutGrant_of_not_taken {r : Requester} (primary : s.straps.primary = true)
    (granted : s.arbiter.state = .granted r false) (released : s.drive = false) :
    s.timeoutGrant = { s with
      arbiter := { s.arbiter with state := .idle }
      counters := { s.counters with grantTimeouts := bump s.counters.grantTimeouts } } := by
  simp only [State.timeoutGrant, primary, released, and_self, if_true, granted]
  rfl

theorem State.testArbiterFault_of_driven (primary : s.straps.primary = true) (idle : s.arbiter.state = .idle)
    (driven : s.drive = true) :
    s.testArbiterFault = { s with
      arbiter := { s.arbiter with state := .fault }
      counters := { s.counters with arbiterFaults := bump s.counters.arbiterFaults }
      notice := { s.notice with causes := s.notice.causes ||| 0x010#10 } } :=
  if_pos ⟨primary, idle, driven⟩

end Sys2Proof.Machine

open Sys2Proof Sys2Proof.Machine

/-- Settles O18. -/
theorem busClearReturnsFromFault : Obligations.BusClearReturnsFromFault := by
  unfold Obligations.BusClearReturnsFromFault
  rintro l s h hq u rfl
  rw [exec_busClear l hq]
  refine ⟨fun bus arbiter => ?_, fun faulted released notSending => ?_, fun faulted driven => ?_⟩
  · have sound : ¬ (s.sampleLines l).BusFaulted := by
      rintro (fault | ⟨primary, fault⟩)
      · exact bus fault
      · exact arbiter.elim (fun secondary => Bool.false_ne_true (secondary.symm.trans primary)) (· fault)
    rw [State.clearBus_of_passes (.inl sound), State.clearFaults_of_sound sound]
    rfl
  · rw [State.clearBus_of_passes (.inr (State.drive_sampleLines_of_released released notSending)), State.clearFaults_eq]
    rfl
  · rw [State.clearBus_of_driven (s := s.sampleLines l) faulted ((s.drive_sampleLines_iff l).2 driven)]
    rfl

/-- Settles O19. The arbiter's order is the model's rotation; the first requester of it that may be granted is the one
`find?` finds. -/
theorem arbiterGrantsAndWatches : Obligations.ArbiterGrantsAndWatches := by
  unfold Obligations.ArbiterGrantsAndWatches
  constructor
  · rintro l s primary u order may rfl rotation rfl
    have order_eq : order = (s.sampleLines l).arbiter.lastGranted.rotation := by
      rw [rotation, State.sampleLines_arbiter]
      cases s.arbiter.lastGranted <;> rfl
    refine ⟨fun idle ready released notSending => ?_, fun undue => ?_⟩
    · have grants := State.arbiterGrants_of_idle (s := s.sampleLines l) primary idle ready
        (State.drive_sampleLines_of_released released notSending)
      refine ⟨fun before r after parts may first => ?_, fun never => ?_⟩
      · have next : (s.sampleLines l).nextGrant = some r :=
          State.nextGrant_eq_some (order_eq ▸ parts) ((s.mayGrant_sampleLines l r).2 may)
            (fun q mem eligible => first q mem ((s.mayGrant_sampleLines l q).1 eligible))
        rw [next] at grants
        exact congrArg _ grants
      · have next : (s.sampleLines l).nextGrant = none :=
          State.nextGrant_eq_none (fun q eligible => never q ((s.mayGrant_sampleLines l q).1 eligible))
        rw [next] at grants
        exact congrArg _ grants
    · refine congrArg _ (State.arbiterGrants_of_undue (s := s.sampleLines l) ?_)
      exact undue.imp_right (Or.imp_right (s.drive_sampleLines_iff l).2)
  · rintro l s primary u rfl
    refine ⟨fun r taken granted driven => ?_, fun r granted released notSending => ?_,
      fun r granted released notSending => ?_, fun idle driven => ?_⟩
    · exact congrArg _ (State.takeGrant_of_driven (s := s.sampleLines l) primary granted
        ((s.drive_sampleLines_iff l).2 driven))
    · exact congrArg _ (State.endGrant_of_taken (s := s.sampleLines l) primary granted
        (State.drive_sampleLines_of_released released notSending))
    · exact congrArg _ (State.timeoutGrant_of_not_taken (s := s.sampleLines l) primary granted
        (State.drive_sampleLines_of_released released notSending))
    · exact congrArg _ (State.testArbiterFault_of_driven (s := s.sampleLines l) primary idle
        ((s.drive_sampleLines_iff l).2 driven))
end

