-- ==== Sys2Proof/Proofs/EventRequestRest.lean ====
section
/-! EVENT-DEFINE, EVENT-HOLD, KEY-LOAD, and the gate that the requests of an event share (R18, R19, R21, R105). -/

namespace Sys2Proof.Machine

variable {s : State} {h : HeldRequest} {n : Nat}

/-! ## The gate (R18) -/

theorem State.eventGate_of_closing (k : EventRecord → State) (night : s.night = .closing) :
    s.eventGate h n k = s.replied h .wrongNightState [] := by
  simp only [State.eventGate, night, State.refuse_eq_replied]

theorem State.eventGate_of_bad_number (k : EventRecord → State) (night : s.night = .setup ∨ s.night = .opened)
    (bad : 31 < n) : s.eventGate h n k = s.replied h .badField [1#8] := by
  have gate : s.eventGate h n k = s.badField h 1 := by
    obtain night | night := night <;> simp only [State.eventGate, night, if_pos bad]
  rw [gate, State.badField_eq_replied]

theorem State.eventGate_of_empty (k : EventRecord → State) (night : s.night = .setup ∨ s.night = .opened) (h31 : n ≤ 31)
    (empty : (s.event n).state = .empty) : s.eventGate h n k = s.replied h .noEvent [] := by
  have gate : s.eventGate h n k = s.refuse h .noEvent := by
    obtain night | night := night <;> simp only [State.eventGate, night, if_neg (Nat.not_lt.2 h31), if_pos empty]
  rw [gate, State.refuse_eq_replied]

theorem exec_keyLoad {e : Nat} {key : Key} (hq : s.holding h (.keyLoad n e key)) :
    exec .keyLoad s = .next (s.loadKey h n e key) := by
  show execKeyLoad s = _
  simp only [execKeyLoad, hq.1, hq.2]

/-! ## EVENT-DEFINE (R19) -/

theorem exec_eventDefine {d : DefineFields} (hq : s.holding h (.eventDefine d)) :
    exec .eventDefine s = .next (s.defineEvent h d) := by
  show execEventDefine s = _
  simp only [execEventDefine, hq.1, hq.2]

/-- EVENT-DEFINE in SETUP and OPEN: the number, that the record is EMPTY, the fields (R18, R19). -/
theorem State.defineEvent_eq (d : DefineFields) (night : s.night = .setup ∨ s.night = .opened) :
    s.defineEvent h d =
      if 31 < d.event then s.replied h .badField [1#8]
      else if (s.event d.event).state ≠ .empty then s.replied h .wrongEventState []
      else match d.firstBad with
        | some i => s.replied h .badField [BitVec.ofNat 8 i]
        | none => (s.setEvent d.event (d.record s.stateRepeat)).replied h .ok [] := by
  simp only [← State.finish_eq_replied]
  obtain night | night := night <;> simp only [State.defineEvent, night] <;> rfl

/-- The record EVENT-DEFINE makes (R19): SCHEDULED with STATE-CHANGED raised, nothing counted, marked or loaded. -/
theorem DefineFields.record_eq (d : DefineFields) (stateRepeat : Nat) :
    d.record stateRepeat =
      { state := .scheduled
        window := some
          { service := d.service, saleOpen := d.saleOpen
            previewStart := if d.flags.getLsbD 0 then some d.previewStart else none
            liveStart := d.liveStart, scheduledClose := d.scheduledClose }
        hold := none, blackout := d.ranges, repeatsOwed := stateRepeat, counts := Counts.zero, marks := Marks.none
        causes := 1#4, keys := KeyFields.empty } := by
  simp only [DefineFields.record, EventRecord.changeState_eq, EventRecord.empty, BitVec.zero_or]
  rfl

/-- The field at `i`, of ranges whose fields stand from `start` on, is out (R184). -/
def rangeOut (ranges : List Range) (start i : Nat) : Prop :=
  ∃ k r, ranges[k]? = some r
    ∧ ((i = start + 2 * k ∧ 255 < r.low) ∨ (i = start + 1 + 2 * k ∧ (255 < r.high ∨ r.high < r.low)))

theorem rangeOut_cons (r : Range) (rs : List Range) (start : Nat) :
    rangeOut (r :: rs) start = fun i =>
      (i = start ∧ 255 < r.low) ∨ (i = start + 1 ∧ (255 < r.high ∨ r.high < r.low)) ∨ rangeOut rs (start + 2) i := by
  funext i
  refine propext ⟨?_, ?_⟩
  · rintro ⟨k, x, at_, out⟩
    cases k with
    | zero =>
      obtain rfl : r = x := Option.some.inj at_
      exact out.imp id .inl
    | succ k => exact .inr (.inr ⟨k, x, at_, out.imp (And.imp_left (by omega)) (And.imp_left (by omega))⟩)
  · rintro (out | out | ⟨k, x, at_, out⟩)
    · exact ⟨0, r, rfl, .inl out⟩
    · exact ⟨0, r, rfl, .inr out⟩
    · exact ⟨k + 1, x, at_, out.imp (And.imp_left (by omega)) (And.imp_left (by omega))⟩

theorem badRange_names (ranges : List Range) (start : Nat) :
    NamesFirst (badRange ranges start) start (rangeOut ranges start) := by
  induction ranges generalizing start with
  | nil => exact .nothing start fun i ⟨k, r, at_, _⟩ => nomatch at_
  | cons r rs ih =>
    rw [badRange, rangeOut_cons]
    exact .check Iff.rfl (.check Iff.rfl (ih (start + 2)))

theorem DefineFields.previewBad_iff (d : DefineFields) : d.previewBad = true ↔
    d.flags.getLsbD 0 = true ∧ (16777215 < d.previewStart ∨ d.previewStart < d.saleOpen) := by
  unfold DefineFields.previewBad DefineFields.preview
  cases d.flags.getLsbD 0 <;> simp

theorem DefineFields.beforeLive_eq (d : DefineFields) :
    d.beforeLive = if d.flags.getLsbD 0 = true then d.previewStart else d.saleOpen := by
  unfold DefineFields.beforeLive DefineFields.preview
  cases d.flags.getLsbD 0 <;> rfl

/-- The index EVENT-DEFINE is refused with is that of its first bad field (R19, R184; log 21). -/
theorem DefineFields.firstBad_names (d : DefineFields) : NamesFirst d.firstBad 2 d.FieldOut := by
  refine .check not_within_iff (.check bne_iff_ne (.check Iff.rfl (.check d.previewBad_iff (.check ?_ (.check ?_
    (.check Iff.rfl (badRange_names d.ranges 9)))))))
  · rw [d.beforeLive_eq]
  · omega

/-! ## EVENT-HOLD (R21) -/

/-- EVENT-HOLD of an event in a state that does not take it. -/
theorem State.holdEvent_of_not_selling {f : HoldFields} (night : s.night = .setup ∨ s.night = .opened)
    (h31 : f.event ≤ 31) (defined : (s.event f.event).state ≠ .empty)
    (notSelling : (s.event f.event).state.selling = false) :
    s.holdEvent h f = s.replied h .wrongEventState [] := by
  rw [State.holdEvent, State.eventGate_passes s h f.event _ night h31 defined, if_pos notSelling,
    State.refuse_eq_replied]

theorem State.holdEvent_of_bad {f : HoldFields} {w : Window} {i : Nat} (night : s.night = .setup ∨ s.night = .opened)
    (h31 : f.event ≤ 31) (selling : (s.event f.event).state.selling = true)
    (window : (s.event f.event).window = some w) (bad : f.firstBad w.liveStart = some i) :
    s.holdEvent h f = s.replied h .badField [BitVec.ofNat 8 i] := by
  rw [State.holdEvent, State.eventGate_passes s h f.event _ night h31 (EventState.selling_ne_empty _ selling)]
  simp only [selling, Bool.true_eq_false, if_false, window, bad, State.badField_eq_replied]

/-- The flags of EVENT-HOLD name nothing but the presence of a time. -/
theorem flags_bad {b : Byte} : b ≠ 0#8 → b ≠ 1#8 → b &&& 0xFE#8 ≠ 0#8 := by
  revert b
  decide

theorem HoldFields.firstBad_of_flags {f : HoldFields} (liveStart : Nat) (notAbsent : f.flags ≠ 0#8)
    (notPresent : f.flags ≠ 1#8) : f.firstBad liveStart = some 2 :=
  if_pos (bne_iff_ne.2 (flags_bad notAbsent notPresent))

/-- With a time given the kind is looked at, and then the time. -/
theorem HoldFields.firstBad_of_present {f : HoldFields} (liveStart : Nat) (flags : f.flags = 1#8) :
    f.firstBad liveStart =
      if (HoldKind.ofNumber f.kind).isNone then some 3
      else if 16777215 < f.time ∨ liveStart + 86400 < f.time then some 4
      else none := by
  rw [HoldFields.firstBad, flags]
  rfl

theorem HoldKind.ofNumber_isNone_iff (k : Nat) : (HoldKind.ofNumber k).isNone = true ↔ k ≠ 1 ∧ k ≠ 2 := by
  unfold HoldKind.ofNumber
  split
  case isTrue one => simp [one]
  case isFalse notOne =>
    split
    case isTrue two => simp [two]
    case isFalse notTwo => simp [notOne, notTwo]

/-- A request to remove the hold, or to set one within its range, has no bad field and names that hold. -/
theorem HoldFields.good {f : HoldFields} {hold : Option Hold} {liveStart : Nat}
    (named : (f.flags = 0#8 ∧ hold = none)
      ∨ (f.flags = 1#8 ∧ f.kind = 1 ∧ hold = some { time := f.time, kind := .firm })
      ∨ (f.flags = 1#8 ∧ f.kind = 2 ∧ hold = some { time := f.time, kind := .tentative }))
    (inRange : f.flags = 1#8 → f.time ≤ 16777215 ∧ f.time ≤ liveStart + 86400) :
    f.firstBad liveStart = none ∧ f.hold = hold := by
  have early (flags : f.flags = 1#8) : ¬ (16777215 < f.time ∨ liveStart + 86400 < f.time) := by
    have := inRange flags
    omega
  obtain ⟨flags, rfl⟩ | ⟨flags, kind, rfl⟩ | ⟨flags, kind, rfl⟩ := named
  · simp [HoldFields.firstBad, HoldFields.hold, flags]
  · rw [HoldFields.firstBad_of_present liveStart flags, kind, if_neg (early flags)]
    exact ⟨rfl, HoldFields.hold_of_firm flags kind⟩
  · rw [HoldFields.firstBad_of_present liveStart flags, kind, if_neg (early flags)]
    exact ⟨rfl, by simp [HoldFields.hold, flags, kind, HoldKind.ofNumber]⟩

/-! ## KEY-LOAD (R105) -/

theorem KeyFields.holds_iff (k : KeyFields) (e : Nat) : k.holds e = true ↔
    (e = k.epoch ∧ k.current ≠ none) ∨ (e = k.epoch + 1 ∧ k.next ≠ none) ∨ (e = k.epoch + 2 ∧ k.onDeck ≠ none) := by
  simp [KeyFields.holds, Option.isSome_iff_ne_none, or_assoc]

/-- KEY-LOAD of an event that admits grants: the epoch, a key already present, the order (R105). -/
theorem State.loadKey_of_admitting {e : Nat} {key : Key} (night : s.night = .setup ∨ s.night = .opened) (h31 : n ≤ 31)
    (admitting : (s.event n).state.admitting = true) :
    s.loadKey h n e key =
      if e = 0 then s.replied h .badField [2#8]
      else if (s.event n).keys.holds e then s.replied h .keyPresent []
      else match (s.event n).keys.load e key with
        | none => s.replied h .keyOrder []
        | some keys =>
          if (s.event n).keys.next.isNone then
            ((s.setEvent n { s.event n with keys := keys }).recheck n).replied h .ok []
          else (s.setEvent n { s.event n with keys := keys }).replied h .ok [] := by
  rw [State.loadKey, State.eventGate_passes s h n _ night h31 (EventState.admitting_ne_empty _ admitting),
    if_neg (by rw [admitting]; exact Bool.true_eq_false_eq_False)]
  simp only [← State.finish_eq_replied]
  rfl

theorem State.loadKey_of_ended {e : Nat} {key : Key} (night : s.night = .setup ∨ s.night = .opened) (h31 : n ≤ 31)
    (ended : (s.event n).state = .closed ∨ (s.event n).state = .cancelled ∨ (s.event n).state = .retired) :
    s.loadKey h n e key = s.replied h .wrongEventState [] := by
  have defined : (s.event n).state ≠ .empty := by rintro empty; simp [empty] at ended
  have notAdmitting : (s.event n).state.admitting = false := by obtain e | e | e := ended <;> rw [e] <;> rfl
  rw [State.loadKey, State.eventGate_passes s h n _ night h31 defined, if_pos notAdmitting, State.refuse_eq_replied]

/-- A key stored as the next one has not been announced, so the check that follows finds the event not ready (R106,
R110). -/
theorem State.recheck_of_unannounced (unannounced : (s.event n).keys.announceCount = 0)
    (minimum : 1 ≤ s.settings.record.announceMinimum) : s.recheck n = s := by
  refine (s.recheck_rechecks n).1 (.inr (.inl ?_))
  rintro ⟨-, announced, -⟩
  rw [unannounced] at announced
  omega

end Sys2Proof.Machine

open Sys2Proof Sys2Proof.Machine

/-- Settles O22. -/
theorem eventDefineFillsRecord : Obligations.EventDefineFillsRecord := by
  unfold Obligations.EventDefineFillsRecord
  intro s h d hq
  rw [exec_eventDefine hq]
  refine ⟨fun night h31 empty inRange => ?_, fun closing => ?_, fun night bad => ?_, fun night h31 defined => ?_,
    fun night h31 empty out => ?_⟩
  · rw [State.defineEvent_eq d night, if_neg (Nat.not_lt.2 h31), if_neg (not_not.2 empty),
      d.firstBad_none.2 inRange, d.record_eq]
    rfl
  · simp only [State.defineEvent, closing, State.refuse_eq_replied]
  · rw [State.defineEvent_eq d night, if_pos bad]
  · rw [State.defineEvent_eq d night, if_neg (Nat.not_lt.2 h31), if_pos defined]
  · rw [State.defineEvent_eq d night, if_neg (Nat.not_lt.2 h31), if_neg (not_not.2 empty)]
    cases bad : d.firstBad with
    | none => exact absurd (d.firstBad_none.1 bad) out
    | some i =>
      obtain ⟨fieldOut, first⟩ := d.firstBad_names.named i bad
      exact ⟨i, fieldOut, first, rfl⟩

/-- Settles O23. Each of the six commands is the gate, with its own effect behind it. -/
theorem eventRequestsAreGated : Obligations.EventRequestsAreGated := by
  unfold Obligations.EventRequestsAreGated
  intro s h n c named
  obtain ⟨k, gate⟩ : ∃ k, exec c s = .next (s.eventGate h n k) := by
    obtain ⟨f, rfl, rfl, hq⟩ | ⟨rfl, hq⟩ | ⟨rfl, hq⟩ | ⟨lo, hi, rfl, hq⟩ | ⟨lo, hi, rfl, hq⟩ | ⟨e, key, rfl, hq⟩ := named
    · exact ⟨_, exec_eventHold hq⟩
    · exact ⟨_, exec_eventCancel hq⟩
    · exact ⟨_, exec_eventClear hq⟩
    · exact ⟨_, exec_blackoutAdd hq⟩
    · exact ⟨_, exec_blackoutRemove hq⟩
    · exact ⟨_, exec_keyLoad hq⟩
  rw [gate]
  exact ⟨fun closing => congrArg _ (State.eventGate_of_closing k closing),
    fun night bad => congrArg _ (State.eventGate_of_bad_number k night bad),
    fun night h31 empty => congrArg _ (State.eventGate_of_empty k night h31 empty)⟩

/-- Settles O26. -/
theorem eventHoldMovesClose : Obligations.EventHoldMovesClose := by
  unfold Obligations.EventHoldMovesClose
  intro s h f w hq table night h31 window
  rw [exec_eventHold hq]
  refine ⟨fun defined notSelling => ?_, fun selling hold s1 named inRange hs1 => ?_,
    fun selling notAbsent notPresent => ?_, fun selling flags => ⟨fun kind => ?_, fun kind late => ?_⟩⟩
  · rw [State.holdEvent_of_not_selling night h31 defined notSelling]
  · obtain ⟨good, rfl⟩ := HoldFields.good named inRange
    have held := State.holdEvent_of_good (h := h) night h31 selling window good
    have applied : s.applyHold f.event w f.hold =
        if effectiveCloseOf w.scheduledClose f.hold ≤ s.clock.clock then s1.closeEvent f.event else s1 := by
      rw [hs1]
      rfl
    rw [held, applied]
    refine ⟨fun early => ?_, fun reached => ?_⟩
    · rw [if_neg (Nat.not_le.2 early)]
    · have inside : f.event < s1.events.length := by
        rw [hs1, List.length_set]
        omega
      rw [if_pos reached]
      exact ⟨_, rfl, State.closeEvent_ended inside⟩
  · rw [State.holdEvent_of_bad night h31 selling window (HoldFields.firstBad_of_flags _ notAbsent notPresent)]
  · have bad : f.firstBad w.liveStart = some 3 := by
      rw [HoldFields.firstBad_of_present _ flags, if_pos ((HoldKind.ofNumber_isNone_iff _).2 kind)]
    rw [State.holdEvent_of_bad night h31 selling window bad]
  · have known : ¬ (HoldKind.ofNumber f.kind).isNone = true := by
      rw [HoldKind.ofNumber_isNone_iff]
      omega
    have bad : f.firstBad w.liveStart = some 4 := by
      rw [HoldFields.firstBad_of_present _ flags, if_neg known, if_pos late]
    rw [State.holdEvent_of_bad night h31 selling window bad]

/-- Settles O29. -/
theorem keyLoadStoresKey : Obligations.KeyLoadStoresKey := by
  unfold Obligations.KeyLoadStoresKey
  constructor
  · intro s h n e key hq night h31 admitting minimum table
    rw [exec_keyLoad hq, State.loadKey_of_admitting night h31 admitting]
    have holds := (s.event n).keys.holds_iff e
    refine ⟨fun epoch free => ?_, fun epoch next free => ?_, fun zero => ?_, fun positive present => ?_,
      fun positive current next onDeck notNext notDeck => ?_⟩
    · have absent : ¬ (s.event n).keys.holds e = true := by
        rw [holds]
        rintro (⟨is, -⟩ | ⟨-, filled⟩ | ⟨is, -⟩)
        · omega
        · exact filled free
        · omega
      have load : (s.event n).keys.load e key =
          some { (s.event n).keys with next := some key, announceCount := 0 } := by
        simp only [KeyFields.load, free, Option.isNone_none, if_true, if_pos epoch]
      rw [if_neg (by omega), if_neg absent, load]
      simp only [free, Option.isNone_none, if_true]
      rw [State.recheck_of_unannounced (by rw [State.event_setEvent_self (by omega)]) (by simpa using minimum)]
      rfl
    · have absent : ¬ (s.event n).keys.holds e = true := by
        rw [holds]
        rintro (⟨is, -⟩ | ⟨is, -⟩ | ⟨-, filled⟩)
        · omega
        · omega
        · exact filled free
      have taken : ¬ (s.event n).keys.next.isNone = true := fun none => next (Option.isNone_iff_eq_none.1 none)
      have load : (s.event n).keys.load e key = some { (s.event n).keys with onDeck := some key } := by
        simp only [KeyFields.load, if_neg taken, free, Option.isNone_none, if_true, if_pos epoch]
      rw [if_neg (by omega), if_neg absent, load]
      simp only [if_neg taken]
      rfl
    · rw [if_pos zero]
    · rw [if_neg (by omega), if_pos (holds.2 present)]
    · have absent : ¬ (s.event n).keys.holds e = true := by
        rw [holds]
        rintro (⟨is, filled⟩ | ⟨is, filled⟩ | ⟨is, filled⟩)
        · exact filled (current is)
        · exact filled (next is)
        · exact filled (onDeck is)
      have load : (s.event n).keys.load e key = none := by
        unfold KeyFields.load
        split
        case isTrue free =>
          exact if_neg fun is => notNext.elim (· is) (· (Option.isNone_iff_eq_none.1 free))
        case isFalse taken =>
          split
          · exact if_neg fun is => notDeck.elim (· is) fun free => taken (Option.isNone_iff_eq_none.2 free)
          · rfl
      rw [if_neg (by omega), if_neg absent, load]
  · intro s h n e key hq night h31 ended
    rw [exec_keyLoad hq, State.loadKey_of_ended night h31 ended]
end

