-- ==== Sys2Proof/Proofs/EventReadBody.lean ====
section
/-! EVENT-READ (R20, section 11.2). -/

namespace Sys2Proof.Machine

variable {s : State} {h : HeldRequest}

theorem exec_eventRead {n : Nat} (hq : s.holding h (.eventRead n)) :
    exec .eventRead s = .next
      (if 31 < n then s.replied h .badField [1#8] else s.replied h .ok ((s.event n).bytes n)) := by
  show execEventRead s = _
  simp only [execEventRead, hq.1, hq.2]
  split
  · exact congrArg _ (s.badField_eq_replied h 1)
  · exact congrArg _ (s.finish_eq_replied h _ _)

theorem length_windowBytes (w : Option Window) : (windowBytes w).length = 14 := by
  cases w with
  | none => rfl
  | some w => simp only [windowBytes, List.length_append, length_leBytes]

theorem length_holdBytes (x : Option Hold) : (holdBytes x).length = 4 := by
  cases x with
  | none => rfl
  | some x => simp only [holdBytes, List.length_cons, length_leBytes]

theorem length_eightRanges (rs : List Range) : (eightRanges rs).length = 16 := by
  simp only [eightRanges, zeros, List.length_take, List.length_append, List.length_replicate]
  omega

theorem EventRecord.length_bytes (r : EventRecord) (n : Nat) : (r.bytes n).length = 83 := by
  unfold EventRecord.bytes
  simp only [List.length_append, length_leBytes, length_countBytes, length_windowBytes, length_holdBytes,
    length_eightRanges]
  rfl

/-! ## The parts of the body -/

theorem windowBytes_eq (w : Option Window) : windowBytes w =
    match w with
    | none => List.replicate 14 0#8
    | some w =>
      leBytes 2 w.service ++ leBytes 3 w.saleOpen
        ++ leBytes 3 (match w.previewStart with | none => 0 | some t => t)
        ++ leBytes 3 w.liveStart ++ leBytes 3 w.scheduledClose := by
  cases w <;> rfl

theorem holdBytes_eq (x : Option Hold) : holdBytes x =
    match x with
    | none => List.replicate 4 0#8
    | some x => BitVec.ofNat 8 x.kind.number :: leBytes 3 x.time := by
  cases x <;> rfl

theorem orZero_eq (x : Option Nat) : orZero x = match x with | none => 0 | some t => t := by
  cases x <;> rfl

theorem EventRecord.orZero_effectiveClose (r : EventRecord) : orZero r.effectiveClose =
    match r.window with
    | none => 0
    | some w => effectiveCloseOf w.scheduledClose r.hold := by
  unfold EventRecord.effectiveClose
  cases r.window <;> rfl

theorem rangeBytes_eq (rs : List Range) :
    rangeBytes rs = rs.flatMap (fun x => [BitVec.ofNat 8 x.low, BitVec.ofNat 8 x.high]) := by
  induction rs with
  | nil => rfl
  | cons r rs ih => rw [rangeBytes, ih]; rfl

theorem countBytes_four (c : Nat) :
    countBytes 4 c = if c ≤ 4294967295 then leBytes 4 c else leBytes 4 (freeCount c).toNat := by
  have width : (c < 256 ^ 4) = (c ≤ 4294967295) := propext (by omega)
  simp only [countBytes, width]

/-- Three flags, the first in bit 0. -/
theorem flagsByte_three (a b c : Bool) : flagsByte [a, b, c] = bitOf a + 2 * bitOf b + 4 * bitOf c := by
  simp only [flagsByte]
  omega

theorem flagsByte_five (a b c d e : Bool) :
    flagsByte [a, b, c, d, e] = bitOf a + 2 * bitOf b + 4 * bitOf c + 8 * bitOf d + 16 * bitOf e := by
  simp only [flagsByte]
  omega

end Sys2Proof.Machine

open Sys2Proof Sys2Proof.Machine

/-- Settles O24. The body is the model's, its parts written out by the lemmas above. -/
theorem eventReadReturnsRecord : Obligations.EventReadReturnsRecord := by
  unfold Obligations.EventReadReturnsRecord
  intro s h n hq
  rw [exec_eventRead hq]
  refine ⟨fun bad => by rw [if_pos bad], fun h31 => ⟨_, EventRecord.length_bytes (s.event n) n, ?_, ?_⟩⟩
  · rw [if_neg (Nat.not_lt.2 h31)]
  · rintro r one count rfl rfl rfl
    unfold EventRecord.bytes
    rw [windowBytes_eq, holdBytes_eq, EventRecord.orZero_effectiveClose, eightRanges, rangeBytes_eq]
    simp only [flagsByte_three, flagsByte_five, countBytes_four, orZero_eq, byte1, bitOf, keyEpoch, zeros,
      EventRecord.hasPreview] <;> rfl
end

