-- ==== Sys2Proof/Proofs/DeadlineMoves.lean ====
section
/-! The five deadline steps of an event, one after another (R5 to R8, R10, R110 to R113). -/

namespace Sys2Proof.Machine

variable {s : State} {n : Nat} {w : Window} {key : Key}

/-! ## The steps that are not due -/

theorem State.deadlineSteps_eq (window : (s.event n).window = some w) :
    s.deadlineSteps n = ((((s.stepSaleOpen n w).stepEntry n w).stepLive n w).stepClose n w).stepEpoch n := by
  rw [State.deadlineSteps, window]

theorem State.stepSaleOpen_of_not_due (notDue : (s.event n).state = .scheduled → s.clock.clock < w.saleOpen) :
    s.stepSaleOpen n w = s :=
  if_neg fun ⟨scheduled, reached⟩ => Nat.not_le.2 (notDue scheduled) reached

theorem State.stepSaleOpen_of_ne (ne : (s.event n).state ≠ .scheduled) (w : Window) : s.stepSaleOpen n w = s :=
  State.stepSaleOpen_of_not_due fun scheduled => absurd scheduled ne

theorem State.stepLive_of_ne (ne : (s.event n).state ≠ .preview) (w : Window) : s.stepLive n w = s :=
  State.stepLive_of_not_due fun preview => absurd preview ne

theorem State.stepEntry_of_not_due (notDue : (s.event n).state = .onSale →
    s.clock.clock < w.entryDeadline ∨ (¬ s.Ready n ∧ (s.event n).keys.keyLate = true)) : s.stepEntry n w = s := by
  by_cases onSale : (s.event n).state = .onSale
  · exact State.stepEntry_of_waiting (notDue onSale)
  · exact State.stepEntry_of_ne onSale w

theorem State.stepClose_of_not_due (early : s.clock.clock < effectiveCloseOf w.scheduledClose (s.event n).hold)
    (notDue : (s.event n).state = .live → s.clock.clock < w.scheduledClose) : s.stepClose n w = s := by
  rw [State.stepClose, if_neg fun due => Nat.not_le.2 early due.2,
    if_neg fun due => Nat.not_le.2 (notDue due.1) due.2]

theorem State.stepEpoch_of_not_due (notDue : (s.event n).state.keyed = true → ¬ s.AtBoundary n) : s.stepEpoch n = s :=
  if_neg fun ⟨keyed, reached⟩ => notDue keyed ((s.boundaryReached_iff n).1 reached)

/-- None of the first four steps moves the event. -/
structure State.Waits (s : State) (n : Nat) (w : Window) : Prop where
  window : (s.event n).window = some w
  early : s.clock.clock < effectiveCloseOf w.scheduledClose (s.event n).hold
  saleOpen : (s.event n).state = .scheduled → s.clock.clock < w.saleOpen
  entry : (s.event n).state = .onSale →
    s.clock.clock < w.entryDeadline ∨ (¬ s.Ready n ∧ (s.event n).keys.keyLate = true)
  live : (s.event n).state = .preview → s.clock.clock < w.liveStart
  overtime : (s.event n).state = .live → s.clock.clock < w.scheduledClose

/-- What is left to an event none of the first four steps moves is its epoch boundary. -/
theorem State.Waits.deadlineSteps (waits : s.Waits n w) : s.deadlineSteps n = s.stepEpoch n := by
  rw [State.deadlineSteps_eq waits.window, State.stepSaleOpen_of_not_due waits.saleOpen,
    State.stepEntry_of_not_due waits.entry, State.stepLive_of_not_due waits.live,
    State.stepClose_of_not_due waits.early waits.overtime]

theorem State.Waits.stays (waits : s.Waits n w) (epoch : (s.event n).state.keyed = true → ¬ s.AtBoundary n) :
    s.deadlineSteps n = s := waits.deadlineSteps.trans (State.stepEpoch_of_not_due epoch)

/-- An event on sale waits for its entry deadline, or for a key. -/
theorem State.waits_of_onSale (window : (s.event n).window = some w) (onSale : (s.event n).state = .onSale)
    (early : s.clock.clock < effectiveCloseOf w.scheduledClose (s.event n).hold)
    (entry : s.clock.clock < w.entryDeadline ∨ (¬ s.Ready n ∧ (s.event n).keys.keyLate = true)) : s.Waits n w where
  window := window
  early := early
  saleOpen state := nomatch onSale.symm.trans state
  entry _ := entry
  live state := nomatch onSale.symm.trans state
  overtime state := nomatch onSale.symm.trans state

/-- A keyed event waits for its next deadline. -/
theorem State.waits_of_keyed (window : (s.event n).window = some w)
    (early : s.clock.clock < effectiveCloseOf w.scheduledClose (s.event n).hold)
    (keyed : (s.event n).state = .overtime ∨ ((s.event n).state = .live ∧ s.clock.clock < w.scheduledClose)
      ∨ ((s.event n).state = .preview ∧ s.clock.clock < w.liveStart)) :
    s.Waits n w ∧ (s.event n).state.keyed = true := by
  have notScheduled : (s.event n).state ≠ .scheduled ∧ (s.event n).state ≠ .onSale := by
    obtain e | ⟨e, -⟩ | ⟨e, -⟩ := keyed <;> rw [e] <;> exact ⟨nofun, nofun⟩
  refine ⟨⟨window, early, fun e => absurd e notScheduled.1, fun e => absurd e notScheduled.2, fun preview => ?_,
    fun live => ?_⟩, ?_⟩
  · obtain e | ⟨e, -⟩ | ⟨-, due⟩ := keyed
    · exact nomatch e.symm.trans preview
    · exact nomatch e.symm.trans preview
    · exact due
  · obtain e | ⟨-, due⟩ | ⟨e, -⟩ := keyed
    · exact nomatch e.symm.trans live
    · exact due
    · exact nomatch e.symm.trans live
  · obtain e | ⟨e, -⟩ | ⟨e, -⟩ := keyed <;> rw [e] <;> rfl

/-! ## What a change of state and a late key leave -/

theorem State.event_changeState (hn : n < s.events.length) (x : EventState) : (s.changeState n x).event n =
    { s.event n with
      state := x, causes := (s.event n).causes ||| 1#4, repeatsOwed := s.settings.record.stateRepeat } :=
  State.event_setEvent_self hn _

/-- The record of an event whose key is late (R8, R112). -/
def EventRecord.keyLateSet (r : EventRecord) : EventRecord :=
  { r with causes := r.causes ||| 2#4, keys := { r.keys with keyLate := true } }

theorem State.setKeyLate_eq (notLate : (s.event n).keys.keyLate = false) :
    s.setKeyLate n = s.setEvent n (s.event n).keyLateSet := by
  rw [State.setKeyLate, notLate]
  rfl

theorem State.setKeyLate_of_late (late : (s.event n).keys.keyLate = true) : s.setKeyLate n = s := if_pos late

/-- The advance conditions look at the next key, its announcements and the queue. -/
theorem State.ready_setEvent (hn : n < s.events.length) (r : EventRecord) (next : r.keys.next = (s.event n).keys.next)
    (count : r.keys.announceCount = (s.event n).keys.announceCount) : (s.setEvent n r).Ready n ↔ s.Ready n := by
  unfold State.Ready
  rw [State.event_setEvent_self hn, next, count]
  rfl

theorem State.atBoundary_setEvent (hn : n < s.events.length) (r : EventRecord)
    (start : r.keys.epochStart = (s.event n).keys.epochStart) (length : r.keys.length = (s.event n).keys.length) :
    (s.setEvent n r).AtBoundary n ↔ s.AtBoundary n := by
  unfold State.AtBoundary
  rw [State.event_setEvent_self hn, start, length]
  rfl

theorem State.atBoundary_changeState (hn : n < s.events.length) (x : EventState) :
    (s.changeState n x).AtBoundary n ↔ s.AtBoundary n := State.atBoundary_setEvent hn _ rfl rfl

/-! ## The first step that is due, and the steps after it (R5) -/

/-- The sale opens, and the other steps find the event on sale (R6). -/
theorem State.deadlineSteps_of_saleOpen (hn : n < s.events.length) (window : (s.event n).window = some w)
    (scheduled : (s.event n).state = .scheduled) (reached : w.saleOpen ≤ s.clock.clock) :
    s.deadlineSteps n = (s.changeState n .onSale).deadlineSteps n := by
  have after := State.event_changeState hn .onSale
  have again : (s.changeState n .onSale).stepSaleOpen n w = s.changeState n .onSale :=
    State.stepSaleOpen_of_ne (by rw [after]; nofun) w
  rw [State.deadlineSteps_eq window, State.deadlineSteps_eq ((congrArg EventRecord.window after).trans window), again,
    show s.stepSaleOpen n w = s.changeState n .onSale from if_pos ⟨scheduled, reached⟩]

/-- An event whose key is ready enters, and the other steps find it keyed (R7). -/
theorem State.deadlineSteps_of_entry (window : (s.event n).window = some w) (onSale : (s.event n).state = .onSale)
    (reached : w.entryDeadline ≤ s.clock.clock) (ready : s.Ready n) (next : (s.event n).keys.next = some key) :
    s.deadlineSteps n = (s.advanced n key (some (w.entryState s.clock.clock))).deadlineSteps n := by
  have after := State.event_advanced next (w.entryState s.clock.clock)
  have entered : s.stepEntry n w = s.advanced n key (some (w.entryState s.clock.clock)) := by
    rw [State.stepEntry, if_pos ⟨onSale, reached⟩, if_pos ((s.advanceReady_iff n).2 ready),
      s.enter_advanced n key w next window]
  have keyed : w.entryState s.clock.clock ≠ .scheduled ∧ w.entryState s.clock.clock ≠ .onSale := by
    rw [Window.entryState]
    split <;> exact ⟨nofun, nofun⟩
  rw [State.deadlineSteps_eq window, State.deadlineSteps_eq ((congrArg EventRecord.window after).trans window),
    State.stepSaleOpen_of_ne (by rw [onSale]; nofun) w, entered,
    State.stepSaleOpen_of_ne (s := s.advanced n key _) (by rw [after]; exact keyed.1) w,
    State.stepEntry_of_ne (s := s.advanced n key _) (by rw [after]; exact keyed.2) w]

/-- An event whose key is not ready is in key wait, and the other steps find it so (R8). -/
theorem State.deadlineSteps_of_keyWait (hn : n < s.events.length) (window : (s.event n).window = some w)
    (onSale : (s.event n).state = .onSale) (reached : w.entryDeadline ≤ s.clock.clock) (notReady : ¬ s.Ready n)
    (notLate : (s.event n).keys.keyLate = false) :
    s.deadlineSteps n = (s.setEvent n (s.event n).keyLateSet).deadlineSteps n := by
  have after := State.event_setEvent_self hn (s.event n).keyLateSet
  have late : s.stepEntry n w = s.setEvent n (s.event n).keyLateSet := by
    rw [State.stepEntry, if_pos ⟨onSale, reached⟩, if_neg (fun ready => notReady ((s.advanceReady_iff n).1 ready)),
      State.setKeyLate_eq notLate]
  have waits : (s.setEvent n (s.event n).keyLateSet).stepEntry n w = s.setEvent n (s.event n).keyLateSet := by
    refine State.stepEntry_of_waiting (.inr ⟨?_, congrArg (fun r => r.keys.keyLate) after⟩)
    rwa [State.ready_setEvent hn (s.event n).keyLateSet rfl rfl]
  rw [State.deadlineSteps_eq window, State.deadlineSteps_eq ((congrArg EventRecord.window after).trans window),
    State.stepSaleOpen_of_ne (by rw [onSale]; nofun) w, late,
    State.stepSaleOpen_of_ne (s := s.setEvent n _) (by rw [after]; exact fun e => nomatch onSale.symm.trans e) w, waits]

/-- A previewed event goes live, and the other steps find it so. -/
theorem State.deadlineSteps_of_live (hn : n < s.events.length) (window : (s.event n).window = some w)
    (preview : (s.event n).state = .preview) (reached : w.liveStart ≤ s.clock.clock) :
    s.deadlineSteps n = (s.changeState n .live).deadlineSteps n := by
  have after := State.event_changeState hn .live
  rw [State.deadlineSteps_eq window, State.deadlineSteps_eq ((congrArg EventRecord.window after).trans window),
    State.stepSaleOpen_of_ne (by rw [preview]; nofun) w, State.stepEntry_of_ne (by rw [preview]; nofun) w,
    show s.stepLive n w = s.changeState n .live from if_pos ⟨preview, reached⟩,
    State.stepSaleOpen_of_ne (s := s.changeState n .live) (by rw [after]; nofun) w,
    State.stepEntry_of_ne (s := s.changeState n .live) (by rw [after]; nofun) w,
    State.stepLive_of_ne (s := s.changeState n .live) (by rw [after]; nofun) w]

/-- A live event goes into overtime, and the epoch step finds it so. -/
theorem State.deadlineSteps_of_overtime (hn : n < s.events.length) (window : (s.event n).window = some w)
    (live : (s.event n).state = .live) (reached : w.scheduledClose ≤ s.clock.clock)
    (early : s.clock.clock < effectiveCloseOf w.scheduledClose (s.event n).hold) :
    s.deadlineSteps n = (s.changeState n .overtime).deadlineSteps n := by
  have after := State.event_changeState hn .overtime
  have state := congrArg EventRecord.state after
  have waits : (s.changeState n .overtime).Waits n w :=
    (State.waits_of_keyed ((congrArg EventRecord.window after).trans window)
      (by rw [congrArg EventRecord.hold after]; exact early) (.inl state)).1
  have moved : s.stepClose n w = s.changeState n .overtime := by
    rw [State.stepClose, if_neg fun due => Nat.not_le.2 early due.2, if_pos ⟨live, reached⟩]
  rw [waits.deadlineSteps, State.deadlineSteps_eq window,
    State.stepSaleOpen_of_ne (by rw [live]; nofun) w, State.stepEntry_of_ne (by rw [live]; nofun) w,
    State.stepLive_of_ne (by rw [live]; nofun) w, moved]

/-- An event that has ended, or that has not been defined, has no deadline. -/
theorem State.deadlineSteps_of_idle (idle : (s.event n).window = none ∨ (s.event n).state = .empty
    ∨ (s.event n).state = .closed ∨ (s.event n).state = .cancelled ∨ (s.event n).state = .retired) :
    s.deadlineSteps n = s := by
  cases window : (s.event n).window with
  | none => rw [State.deadlineSteps, window]
  | some w =>
    have state : (s.event n).state ≠ .scheduled ∧ (s.event n).state ≠ .onSale ∧ (s.event n).state ≠ .preview
        ∧ (s.event n).state ≠ .live ∧ (s.event n).state ≠ .overtime := by
      obtain e | e | e | e | e := idle
      · exact nomatch window.symm.trans e
      all_goals rw [e]; exact ⟨nofun, nofun, nofun, nofun, nofun⟩
    obtain ⟨notScheduled, notOnSale, notPreview, notLive, notOvertime⟩ := state
    have notKeyed : ¬ (s.event n).state.keyed = true := by simp [EventState.keyed_iff, *]
    have notSelling : ¬ (s.event n).state.selling = true := by simp [EventState.selling_iff, *]
    rw [State.deadlineSteps_eq window, State.stepSaleOpen_of_ne notScheduled w,
      State.stepEntry_of_ne notOnSale w, State.stepLive_of_ne notPreview w,
      State.stepClose, if_neg fun due => notSelling due.1, if_neg fun due => notLive due.1,
      State.stepEpoch_of_not_due fun keyed => absurd keyed notKeyed]

/-! ## The epoch boundary (R110, R112) -/

/-- A keyed event that waits advances at its boundary when its next key is ready. -/
theorem State.Waits.advances (waits : s.Waits n w) (keyed : (s.event n).state.keyed = true)
    (boundary : s.AtBoundary n) (ready : s.Ready n) : s.deadlineSteps n = s.advance n := by
  rw [waits.deadlineSteps, State.stepEpoch, if_pos ⟨keyed, (s.boundaryReached_iff n).2 boundary⟩,
    if_pos ((s.advanceReady_iff n).2 ready)]

/-- A keyed event that waits holds its epoch at its boundary when its next key is not ready. -/
theorem State.Waits.holds (waits : s.Waits n w) (keyed : (s.event n).state.keyed = true)
    (boundary : s.AtBoundary n) (notReady : ¬ s.Ready n) : s.deadlineSteps n = s.setKeyLate n := by
  rw [waits.deadlineSteps, State.stepEpoch, if_pos ⟨keyed, (s.boundaryReached_iff n).2 boundary⟩,
    if_neg (fun ready => notReady ((s.advanceReady_iff n).1 ready))]

/-- An epoch that has just begun has not reached its boundary. -/
theorem State.not_atBoundary_advanced (next : (s.event n).keys.next = some key)
    (short : 1 ≤ s.settings.record.shortEpoch) (long : 1 ≤ s.settings.record.longEpoch) (x : EventState) :
    ¬ (s.advanced n key (some x)).AtBoundary n := by
  rintro ⟨start, length, hstart, hlength, reached⟩
  rw [State.event_advanced next] at hstart hlength
  obtain rfl := Option.some.inj hstart
  obtain rfl := Option.some.inj hlength
  have clock : (s.advanced n key (some x)).clock.clock = s.clock.clock := rfl
  rw [clock] at reached
  split at reached <;> omega

theorem EventRecord.service_of_window {r : EventRecord} (window : r.window = some w) : r.service = w.service := by
  rw [EventRecord.service, window]

/-- The causes of an entry: STATE-CHANGED, and KEY-LOW when no key follows (R9, R111). -/
theorem entry_causes (causes : BitVec 4) (p : Prop) [Decidable p] :
    causes ||| 1#4 ||| (if p then 4#4 else 0#4) = causes ||| (if p then 5#4 else 1#4) := by
  rw [BitVec.or_assoc]
  split <;> rfl

theorem State.advanced_entered (window : (s.event n).window = some w) (x : EventState) :
    s.advanced n key (some x) =
      { s.setEvent n
          { s.event n with
            state := x
            causes := (s.event n).causes ||| (if (s.event n).keys.onDeck = none then 5#4 else 1#4)
            repeatsOwed := s.settings.record.stateRepeat
            keys := s.AdvancedKeys n } with
        scrambler := { s.scrambler with
          queue := s.scrambler.queue
            ++ [{ event := n, payload := .switch w.service ((s.event n).keys.epoch + 1) key }] } } := by
  rw [← entry_causes, ← EventRecord.service_of_window window]
  rfl

end Sys2Proof.Machine

open Sys2Proof Sys2Proof.Machine

/-- Settles O32. -/
theorem closeStepEndsEvent : Obligations.CloseStepEndsEvent := by
  unfold Obligations.CloseStepEndsEvent
  intro s n w hn window due state
  have selling : (s.event n).state.selling = true := by
    rw [EventState.selling_iff]
    obtain e | e | ⟨e, -⟩ | ⟨e, -⟩ := state <;> simp [e]
  have entry : s.stepEntry n w = s := by
    refine State.stepEntry_of_not_due fun onSale => ?_
    obtain e | e | ⟨e, -⟩ | ⟨-, waits⟩ := state
    · exact nomatch e.symm.trans onSale
    · exact nomatch e.symm.trans onSale
    · exact nomatch e.symm.trans onSale
    · exact waits
  have live : s.stepLive n w = s := by
    refine State.stepLive_of_not_due fun preview => ?_
    obtain e | e | ⟨-, early⟩ | ⟨e, -⟩ := state
    · exact nomatch e.symm.trans preview
    · exact nomatch e.symm.trans preview
    · exact early
    · exact nomatch e.symm.trans preview
  rw [State.deadlineSteps_of_closing hn window due selling entry live]
  exact State.closeEvent_ended hn

/-- Settles O31. An entry is the first step due, after which the event waits; a keyed event that waits has its boundary
left. -/
theorem entryAndAdvanceSwitchKeys : Obligations.EntryAndAdvanceSwitchKeys := by
  unfold Obligations.EntryAndAdvanceSwitchKeys
  refine ⟨fun s n w key hn window next early short long => ⟨fun ready onSale reached before => ?_,
    fun ready keyed boundary => ?_⟩, fun s n w hn window early notReady keyed boundary => ?_⟩
  · have after := State.event_advanced next (w.entryState s.clock.clock)
    have state := congrArg EventRecord.state after
    have keyed : (s.advanced n key (some (w.entryState s.clock.clock))).Waits n w := by
      refine (State.waits_of_keyed ((congrArg EventRecord.window after).trans window)
        (by rw [congrArg EventRecord.hold after]; exact early) ?_).1
      rw [state, Window.entryState]
      split
      case isTrue preview => exact .inr (.inr ⟨rfl, preview.2⟩)
      case isFalse => exact .inr (.inl ⟨rfl, before⟩)
    rw [State.deadlineSteps_of_entry window onSale reached ready next,
      keyed.stays fun _ => State.not_atBoundary_advanced next short long _, State.advanced_entered window,
      Window.entryState_eq]
  · obtain ⟨waits, isKeyed⟩ := State.waits_of_keyed window early keyed
    rw [waits.advances isKeyed boundary ready, s.advance_eq n w key window next]
  · obtain ⟨waits, isKeyed⟩ := State.waits_of_keyed window early keyed
    rw [waits.holds isKeyed boundary notReady]
    exact ⟨State.setKeyLate_eq, State.setKeyLate_of_late⟩
end

