-- ==== Sys2Proof/Proofs/EarliestDeadline.lean ====
section
/-! The deadlines of the events, and the earliest of them (R145, R146). -/

namespace Sys2Proof.Machine

variable {s : State} {n : Nat} {w : Window}

/-! ## The deadlines pending (R145) -/

theorem Window.entryDeadline_spec (w : Window) :
    (w.previewStart = none ∧ w.entryDeadline = w.liveStart)
      ∨ ∃ t, w.previewStart = some t ∧ w.entryDeadline = t := by
  unfold Window.entryDeadline
  cases w.previewStart with
  | none => exact .inl ⟨rfl, rfl⟩
  | some t => exact .inr ⟨t, rfl, rfl⟩

/-- A keyed event whose epoch is not held has its boundary as a deadline, if a night second reaches it (R110, R142). -/
theorem EventRecord.mem_epochDeadlines (r : EventRecord) (n : Nat) (d : Deadline) :
    d ∈ r.epochDeadlines n ↔ d.event = n ∧ r.keys.keyLate = false ∧ d.kind = .epoch ∧ d.time ≤ 16777215
      ∧ ∃ a b, r.keys.epochStart = some a ∧ r.keys.length = some b ∧ d.time = a + b := by
  obtain ⟨e, t, k⟩ := d
  unfold EventRecord.epochDeadlines KeyFields.boundary
  cases r.keys.epochStart with
  | none => simp
  | some a =>
    cases r.keys.length with
    | none => simp
    | some b =>
      dsimp only
      by_cases due : r.keys.keyLate = false ∧ a + b ≤ maxNightSecond
      · rw [if_pos due]
        simp only [List.mem_singleton, Deadline.mk.injEq, Option.some.injEq]
        constructor
        · rintro ⟨rfl, rfl, rfl⟩
          exact ⟨rfl, due.1, rfl, due.2, a, b, rfl, rfl, rfl⟩
        · rintro ⟨rfl, -, rfl, -, a', b', rfl, rfl, rfl⟩
          exact ⟨rfl, rfl, rfl⟩
      · rw [if_neg due]
        simp only [List.not_mem_nil, false_iff, Option.some.injEq]
        rintro ⟨-, notLate, -, inTime, a', b', rfl, rfl, rfl⟩
        exact due ⟨notLate, inTime⟩

/-- The deadlines of an event are those R145 gives its state. -/
theorem EventRecord.mem_deadlines (r : EventRecord) (n : Nat) (d : Deadline) :
    d ∈ r.deadlines n ↔ d.event = n ∧ ∃ w, r.window = some w
      ∧ ((r.state = .scheduled ∧ d.kind = .saleOpen ∧ d.time = w.saleOpen)
        ∨ (r.state = .onSale ∧ r.keys.keyLate = false ∧ w.previewStart = none ∧ d.kind = .live
            ∧ d.time = w.liveStart)
        ∨ (r.state = .onSale ∧ r.keys.keyLate = false ∧ d.kind = .preview ∧ w.previewStart = some d.time)
        ∨ (r.state = .preview ∧ d.kind = .live ∧ d.time = w.liveStart)
        ∨ (r.state = .live ∧ w.scheduledClose < effectiveCloseOf w.scheduledClose r.hold
            ∧ d.kind = .close ∧ d.time = w.scheduledClose)
        ∨ ((r.state = .onSale ∨ r.state = .preview ∨ r.state = .overtime
              ∨ (r.state = .live ∧ effectiveCloseOf w.scheduledClose r.hold ≤ w.scheduledClose))
            ∧ d.kind = .close ∧ d.time = effectiveCloseOf w.scheduledClose r.hold)
        ∨ ((r.state = .preview ∨ r.state = .live ∨ r.state = .overtime) ∧ r.keys.keyLate = false
            ∧ d.kind = .epoch ∧ d.time ≤ 16777215
            ∧ ∃ a b, r.keys.epochStart = some a ∧ r.keys.length = some b ∧ d.time = a + b)) := by
  have epoch := r.mem_epochDeadlines n d
  obtain ⟨e, t, k⟩ := d
  cases window : r.window with
  | none => simp [EventRecord.deadlines, window]
  | some w =>
    cases state : r.state with
    | empty | closed | cancelled | retired => simp [EventRecord.deadlines, window, state]
    | scheduled => simp [EventRecord.deadlines, window, state]; tauto
    | onSale =>
      cases late : r.keys.keyLate with
      | true =>
        simp [EventRecord.deadlines, window, state, late]
        grind
      | false =>
        obtain ⟨none, atLive⟩ | ⟨t', some, atPreview⟩ := w.entryDeadline_spec
        · simp [EventRecord.deadlines, window, state, late, none, atLive]
          grind
        · simp [EventRecord.deadlines, window, state, late, some, atPreview, eq_comm (a := t')]
          grind
    | preview =>
      simp [EventRecord.deadlines, window, state, epoch]
      grind
    | live =>
      by_cases after : w.scheduledClose < effectiveCloseOf w.scheduledClose r.hold
      · simp [EventRecord.deadlines, window, state, epoch, after, Nat.not_le.2 after]
        grind
      · simp [EventRecord.deadlines, window, state, epoch, after, Nat.not_lt.1 after]
        grind
    | overtime =>
      simp [EventRecord.deadlines, window, state, epoch]
      grind

theorem State.mem_allDeadlines (s : State) (d : Deadline) : d ∈ s.allDeadlines ↔ s.Pending d := by
  simp only [State.allDeadlines, List.mem_flatMap, List.mem_range, EventRecord.mem_deadlines, State.Pending]
  constructor
  · rintro ⟨n, inside, rfl, w, window, pending⟩
    exact ⟨by omega, _, w, rfl, window, pending⟩
  · rintro ⟨inside, r, w, rfl, window, pending⟩
    exact ⟨d.event, by omega, rfl, w, window, pending⟩

/-! ## The earliest of them (R146) -/

/-- The order the deadlines are listed in: by event number, then by step. -/
def Deadline.ListedBefore (d q : Deadline) : Prop :=
  d.event < q.event ∨ (d.event = q.event ∧ deadlineKindNumber d.kind < deadlineKindNumber q.kind)

/-- The order of the report: by time, then by event number, then by step. -/
def Deadline.NotAfter (d q : Deadline) : Prop :=
  d.time < q.time ∨ (d.time = q.time ∧ (d.event < q.event
    ∨ (d.event = q.event ∧ deadlineKindNumber d.kind ≤ deadlineKindNumber q.kind)))

theorem Deadline.NotAfter.refl (d : Deadline) : d.NotAfter d := .inr ⟨rfl, .inr ⟨rfl, Nat.le_refl _⟩⟩

theorem Deadline.NotAfter.trans {a b c : Deadline} (first : a.NotAfter b) (second : b.NotAfter c) : a.NotAfter c := by
  unfold Deadline.NotAfter at *
  omega

theorem Deadline.ListedBefore.notAfter {d q : Deadline} (before : d.ListedBefore q) (time : d.time ≤ q.time) :
    d.NotAfter q := by
  unfold Deadline.ListedBefore Deadline.NotAfter at *
  omega

theorem deadlineKindNumber_injective {a b : DeadlineKind} : deadlineKindNumber a = deadlineKindNumber b → a = b := by
  cases a <;> cases b <;> simp [deadlineKindNumber]

theorem Deadline.NotAfter.antisymm {d q : Deadline} (there : d.NotAfter q) (back : q.NotAfter d) : d = q := by
  obtain ⟨e, t, k⟩ := d
  obtain ⟨e', t', k'⟩ := q
  unfold Deadline.NotAfter at *
  have kind : deadlineKindNumber k = deadlineKindNumber k' := by dsimp only at there back; omega
  obtain rfl := deadlineKindNumber_injective kind
  dsimp only at there back
  obtain ⟨rfl, rfl⟩ : e = e' ∧ t = t' := by omega
  rfl

/-- The fold keeps the first of the earliest deadlines of a list. -/
theorem foldl_earlier_spec (l : List Deadline) (a : Deadline) (listed : (a :: l).Pairwise Deadline.ListedBefore) :
    ∃ m ∈ a :: l, l.foldl earlier (some a) = some m ∧ ∀ q ∈ a :: l, m.NotAfter q := by
  induction l generalizing a with
  | nil =>
    refine ⟨a, List.mem_singleton_self a, rfl, fun q mem => ?_⟩
    rw [List.mem_singleton.1 mem]
    exact .refl a
  | cons b l ih =>
    obtain ⟨first, rest⟩ := List.pairwise_cons.1 listed
    by_cases sooner : b.time < a.time
    · obtain ⟨m, mem, fold, least⟩ := ih b rest
      refine ⟨m, .tail _ mem, by simpa only [List.foldl_cons, earlier, if_pos sooner] using fold, fun q inside => ?_⟩
      obtain rfl | inside := List.mem_cons.1 inside
      · exact (least b (.head _)).trans (.inl sooner)
      · exact least q inside
    · obtain ⟨m, mem, fold, least⟩ := ih a
        (List.pairwise_cons.2 ⟨fun q inside => first q (.tail _ inside), (List.pairwise_cons.1 rest).2⟩)
      refine ⟨m, (List.mem_cons.1 mem).elim (· ▸ .head _) (.tail _ <| .tail _ ·),
        by simpa only [List.foldl_cons, earlier, if_neg sooner] using fold, fun q inside => ?_⟩
      obtain rfl | inside := List.mem_cons.1 inside
      · exact least q (.head _)
      obtain rfl | inside := List.mem_cons.1 inside
      · exact (least a (.head _)).trans ((first q (.head _)).notAfter (Nat.not_lt.1 sooner))
      · exact least q (.tail _ inside)

theorem EventRecord.deadlines_listed (r : EventRecord) (n : Nat) : (r.deadlines n).Pairwise Deadline.ListedBefore := by
  have single (d : Deadline) : [d].Pairwise Deadline.ListedBefore := List.pairwise_singleton _ d
  have epochs : (r.epochDeadlines n).Pairwise Deadline.ListedBefore := by
    unfold EventRecord.epochDeadlines
    repeat' split
    · exact .nil
    · exact single _
    · exact .nil
  have before {d : Deadline} (event : d.event = n) (kind : deadlineKindNumber d.kind < 4) :
      ∀ q ∈ r.epochDeadlines n, d.ListedBefore q := by
    intro q mem
    obtain ⟨event', -, kind', -⟩ := (r.mem_epochDeadlines n q).1 mem
    refine .inr ⟨event.trans event'.symm, ?_⟩
    rw [kind']
    exact kind
  unfold EventRecord.deadlines
  split
  case h_1 => exact .nil
  case h_2 w _ =>
    dsimp only
    split
    case h_1 => exact single _
    case h_2 =>
      split
      · exact single _
      · refine List.pairwise_pair.2 (.inr ⟨rfl, ?_⟩)
        dsimp only
        split <;> decide
    case h_3 =>
      refine .cons (List.forall_mem_cons.2 ⟨.inr ⟨rfl, show 2 < 3 by decide⟩, before rfl (show 2 < 4 by decide)⟩) ?_
      exact .cons (before rfl (show 3 < 4 by decide)) epochs
    case h_4 => exact .cons (by split <;> exact before rfl (show 3 < 4 by decide)) epochs
    case h_5 => exact .cons (before rfl (show 3 < 4 by decide)) epochs
    all_goals exact .nil

theorem State.allDeadlines_listed (s : State) : s.allDeadlines.Pairwise Deadline.ListedBefore := by
  refine List.pairwise_flatMap.2 ⟨fun n _ => (s.event n).deadlines_listed n, ?_⟩
  refine List.pairwise_lt_range.imp fun {m n} before d inM q inN => .inl ?_
  rw [((s.event m).mem_deadlines m d).1 inM |>.1, ((s.event n).mem_deadlines n q).1 inN |>.1]
  exact before

/-- The report is the earliest deadline pending, and nothing when none is (R146). -/
theorem State.earliestDeadline_spec (s : State) :
    (s.earliestDeadline = none ∧ ∀ d, ¬ s.Pending d)
      ∨ ∃ m, s.earliestDeadline = some m ∧ s.Pending m ∧ ∀ q, s.Pending q → m.NotAfter q := by
  have listed := s.allDeadlines_listed
  have pending := s.mem_allDeadlines
  unfold State.earliestDeadline
  cases all : s.allDeadlines with
  | nil =>
    rw [all] at pending
    exact .inl ⟨rfl, fun d => mt (pending d).2 List.not_mem_nil⟩
  | cons a l =>
    rw [all] at pending listed
    obtain ⟨m, mem, fold, least⟩ := foldl_earlier_spec l a listed
    exact .inr ⟨m, fold, (pending m).1 mem, fun q isPending => least q ((pending q).2 isPending)⟩

/-! ## An event that has just been moved waits (R5) -/

theorem State.waits_setEvent_onSale (hn : n < s.events.length) {r : EventRecord} (window : r.window = some w)
    (onSale : r.state = .onSale) (early : s.clock.clock < effectiveCloseOf w.scheduledClose r.hold)
    (entry : s.clock.clock < w.entryDeadline ∨ (¬ (s.setEvent n r).Ready n ∧ r.keys.keyLate = true)) :
    (s.setEvent n r).deadlineSteps n = s.setEvent n r := by
  have is := State.event_setEvent_self hn r
  refine (State.waits_of_onSale (w := w) (is.symm ▸ window) (is.symm ▸ onSale) (is.symm ▸ early)
    (is.symm ▸ entry)).stays fun keyed => ?_
  rw [is, onSale] at keyed
  exact nomatch keyed

theorem State.waits_setEvent_keyed (hn : n < s.events.length) {r : EventRecord} (window : r.window = some w)
    (early : s.clock.clock < effectiveCloseOf w.scheduledClose r.hold)
    (keyed : r.state = .overtime ∨ (r.state = .live ∧ s.clock.clock < w.scheduledClose)
      ∨ (r.state = .preview ∧ s.clock.clock < w.liveStart))
    (start : r.keys.epochStart = (s.event n).keys.epochStart) (length : r.keys.length = (s.event n).keys.length)
    (notReached : ¬ s.AtBoundary n) : (s.setEvent n r).deadlineSteps n = s.setEvent n r := by
  have is := State.event_setEvent_self hn r
  refine (State.waits_of_keyed (w := w) (is.symm ▸ window) (is.symm ▸ early) (is.symm ▸ keyed)).1.stays fun _ => ?_
  rwa [State.atBoundary_setEvent hn r start length]

/-- A keyed event that waits, and whose boundary is not reached, is left as it is. -/
theorem State.deadlineSteps_of_keyed (window : (s.event n).window = some w)
    (early : s.clock.clock < effectiveCloseOf w.scheduledClose (s.event n).hold)
    (keyed : (s.event n).state = .overtime ∨ ((s.event n).state = .live ∧ s.clock.clock < w.scheduledClose)
      ∨ ((s.event n).state = .preview ∧ s.clock.clock < w.liveStart))
    (notReached : ¬ s.AtBoundary n) : s.deadlineSteps n = s :=
  (State.waits_of_keyed window early keyed).1.stays fun _ => notReached

theorem State.deadlineSteps_of_onSale (window : (s.event n).window = some w) (onSale : (s.event n).state = .onSale)
    (early : s.clock.clock < effectiveCloseOf w.scheduledClose (s.event n).hold)
    (entry : s.clock.clock < w.entryDeadline ∨ (¬ s.Ready n ∧ (s.event n).keys.keyLate = true)) :
    s.deadlineSteps n = s :=
  (State.waits_of_onSale window onSale early entry).stays fun keyed => by
    rw [onSale] at keyed
    exact nomatch keyed

/-- An event before its sale is left as it is. -/
theorem State.deadlineSteps_of_scheduled (window : (s.event n).window = some w)
    (scheduled : (s.event n).state = .scheduled)
    (early : s.clock.clock < effectiveCloseOf w.scheduledClose (s.event n).hold)
    (before : s.clock.clock < w.saleOpen) : s.deadlineSteps n = s :=
  State.Waits.stays (w := w)
    { window := window, early := early, saleOpen := fun _ => before
      entry := fun state => nomatch scheduled.symm.trans state
      live := fun state => nomatch scheduled.symm.trans state
      overtime := fun state => nomatch scheduled.symm.trans state }
    fun keyed => by
      rw [scheduled] at keyed
      exact nomatch keyed

end Sys2Proof.Machine

open Sys2Proof Sys2Proof.Machine

/-- Settles O30. The first step that is due moves the event, and the event so moved waits; the report is the first
deadline of the list that none of the others comes before. -/
theorem deadlineStepsMoveEvent : Obligations.DeadlineStepsMoveEvent := by
  unfold Obligations.DeadlineStepsMoveEvent
  refine ⟨?moves, ⟨fun s n => State.deadlineSteps_of_idle, ?stays⟩, ?first, ?report⟩
  case moves =>
    intro s n w hn window early
    refine ⟨fun scheduled reached before => ?_, fun scheduled => State.deadlineSteps_of_scheduled window scheduled early,
      fun onSale reached notReady notLate => ?_, fun onSale late notReady => ?_,
      fun preview reached before notReached => ?_, fun live reached notReached => ?_⟩
    · rw [State.deadlineSteps_of_saleOpen hn window scheduled reached]
      exact State.waits_setEvent_onSale hn window rfl early (.inl before)
    · rw [State.deadlineSteps_of_keyWait hn window onSale reached notReady notLate]
      refine State.waits_setEvent_onSale hn window onSale early (.inr ⟨?_, rfl⟩)
      rwa [State.ready_setEvent hn (s.event n).keyLateSet rfl rfl]
    · exact State.deadlineSteps_of_onSale window onSale early (.inr ⟨notReady, late⟩)
    · rw [State.deadlineSteps_of_live hn window preview reached]
      exact State.waits_setEvent_keyed hn window early (.inr (.inl ⟨rfl, before⟩)) rfl rfl notReached
    · rw [State.deadlineSteps_of_overtime hn window live reached early]
      exact State.waits_setEvent_keyed hn window early (.inl rfl) rfl rfl notReached
  case stays =>
    intro s n w window early
    exact ⟨fun onSale before => State.deadlineSteps_of_onSale window onSale early (.inl before),
      fun preview before => State.deadlineSteps_of_keyed window early (.inr (.inr ⟨preview, before⟩)),
      fun live before => State.deadlineSteps_of_keyed window early (.inr (.inl ⟨live, before⟩)),
      fun overtime => State.deadlineSteps_of_keyed window early (.inl overtime)⟩
  case first =>
    rintro s n w becomes hn window rfl
    refine ⟨State.deadlineSteps_of_saleOpen hn window, fun key onSale reached ready next => ?_,
      State.deadlineSteps_of_keyWait hn window, State.deadlineSteps_of_live hn window,
      State.deadlineSteps_of_overtime hn window⟩
    rw [State.deadlineSteps_of_entry window onSale reached ready next, Window.entryState_eq]
  case report =>
    intro s
    obtain ⟨none, never⟩ | ⟨m, some, pending, least⟩ := s.earliestDeadline_spec
    · rw [none]
      exact ⟨iff_of_true rfl never, fun d => iff_of_false nofun fun both => never d both.1⟩
    · rw [some]
      refine ⟨iff_of_false nofun fun never => never m pending, fun d => ?_⟩
      refine ⟨fun is => Option.some.inj is ▸ ⟨pending, least⟩, fun ⟨isPending, first⟩ => congrArg _ ?_⟩
      exact (least d isPending).antisymm (first m pending)
end

