-- ==== Sys2Proof/Proofs/ScramblerPort.lean ====
section
/-! The scrambler port (R118, R119): a record accepted, and the check of its event that follows. -/

namespace Sys2Proof.Machine

variable {s : State}

/-- The unit with the record at the head of the scrambler queue taken and counted (R118, R119). -/
def State.recordTaken (s : State) (r : ScramblerRecord) (rest : List ScramblerRecord) : State :=
  { s with
    scrambler := { s.scrambler with queue := rest }
    counters :=
      match r.payload with
      | .switch _ _ _ => { s.counters with switchesAccepted := bump s.counters.switchesAccepted }
      | .clear _ => { s.counters with clearsAccepted := bump s.counters.clearsAccepted } }

/-- A strobe takes the head record, and its event is checked again (R118, R119). -/
theorem exec_scramblerAccept {r : ScramblerRecord} {rest : List ScramblerRecord} (ready : s.scrambler.ready = true)
    (queue : s.scrambler.queue = r :: rest) :
    exec .scramblerAccept s = .next ((s.recordTaken r rest).recheck r.event) := by
  have taken : (s.setScramblerQueue rest).count (fun c => c.countAccepted r.payload) = s.recordTaken r rest := by
    unfold State.recordTaken
    cases r.payload <;> rfl
  show execScramblerAccept s = _
  simp only [execScramblerAccept, ready, queue, if_true, State.acceptRecord, taken]

/-- A strobe with no record presented is ignored (R118). -/
theorem exec_scramblerAccept_of_not_presenting (none : s.scrambler.ready = false ∨ s.scrambler.queue = []) :
    exec .scramblerAccept s = .next s := by
  show execScramblerAccept s = _
  obtain notReady | empty := none
  · simp only [execScramblerAccept, notReady, Bool.false_eq_true, if_false]
  · simp only [execScramblerAccept, empty, ite_self]

end Sys2Proof.Machine

open Sys2Proof Sys2Proof.Machine

/-- Settles O54. The check of the event is `State.recheck_rechecks`. -/
theorem scramblerTakesHeadRecord : Obligations.ScramblerTakesHeadRecord := by
  unfold Obligations.ScramblerTakesHeadRecord
  refine ⟨⟨fun level s => rfl, fun s => exec_scramblerAccept_of_not_presenting, ?notLate⟩, ?held, ?checked⟩
  case notLate =>
    intro s r rest ready queue notLate
    rw [exec_scramblerAccept ready queue, State.recheck_of_not_waiting (s := s.recordTaken r rest) (.inl notLate)]
    rfl
  case held =>
    intro s r rest w key ready queue inside others live window late next announced
    have isReady : (s.recordTaken r rest).Ready r.event := 
      ⟨fun none => (nomatch next.symm.trans none), announced, others⟩
    have keyed : ((s.recordTaken r rest).event r.event).state.keyed = true := congrArg EventState.keyed live
    refine ⟨_, exec_scramblerAccept ready queue, ?_⟩
    rw [State.recheck_of_held (s := s.recordTaken r rest) late isReady next keyed]
    have self : ((s.recordTaken r rest).advanced r.event key none).event r.event = _ :=
      State.event_setEvent_self (s := s.recordTaken r rest) inside _
    refine ⟨by rw [self]; rfl, by rw [self]; exact live, ?_, fun m ne => ?_, rfl, rfl, rfl, rfl, rfl, rfl, rfl⟩
    · rw [← EventRecord.service_of_window window]
      rfl
    · exact State.event_setEvent_other (s := s.recordTaken r rest) ne _
  case checked =>
    rintro s a r rest ready queue inside rfl
    exact ⟨_, exec_scramblerAccept ready queue, State.recheck_rechecks _ _⟩
end

