-- ==== Sys2Proof/Proofs/RequestOperations.lean ====
section
/-! The grant requests: their claim of the store port, and what each one's store operation does (R47 to R55). -/

namespace Sys2Proof.Machine

variable {s t v : State} {h : HeldRequest} {q : Request} {f : AddFields} {u : List Nat} {d e : Nat}

/-! ## The claim (R43, R47) -/

/-- A grant request that finds no claim of the request engine standing makes one; in CLOSING it is not ready. -/
theorem State.takeGrantRequest_of_closing (closing : s.night = .closing) :
    s.takeGrantRequest h = s.replied h .notReady [] := by
  simp only [State.takeGrantRequest, closing, State.refuse_eq_replied]

theorem State.takeGrantRequest_of_free (night : s.night = .setup ∨ s.night = .opened)
    (noClaim : s.port.request = false) (notHeld : s.port.state ≠ .request) : s.takeGrantRequest h = s.claimRequest := by
  have free : ¬ s.port.requestStands = true := by
    simp [StorePort.requestStands, noClaim, notHeld]
  obtain night | night := night <;> simp only [State.takeGrantRequest, night, if_neg free]

/-- A claim of the request engine stands behind the carousel's claims, and is granted at once on a port that is IDLE with
none of them. -/
theorem State.claimRequest_spec (s : State) :
    ∃ p : StorePort, s.claimRequest = { s with port := p }
      ∧ p.completions = s.port.completions ∧ p.sweep = s.port.sweep
      ∧ (s.port.state = .idle → s.port.composition = false → s.port.completions = [] →
          p.state = .request ∧ p.request = false ∧ p.composition = false)
      ∧ (s.port.state ≠ .idle →
          p.state = s.port.state ∧ p.request = true ∧ p.composition = s.port.composition) := by
  obtain ⟨p, run, held, updates, read, request, -, -⟩ := (s.setPort { s.port with request := true }).arbitrate_spec
  have others : p.completions = s.port.completions ∧ p.sweep = s.port.sweep := by
    by_cases idle : s.port.state = .idle
    · by_cases noUpdates : s.port.completions = []
      · cases composition : s.port.composition with
        | true => rw [read idle noUpdates composition]; exact ⟨rfl, rfl⟩
        | false => rw [request idle noUpdates composition rfl]; exact ⟨rfl, rfl⟩
      · rw [updates idle noUpdates]; exact ⟨rfl, rfl⟩
    · rw [held idle]; exact ⟨rfl, rfl⟩
  refine ⟨p, run, others.1, others.2, fun idle noRead noUpdates => ?_, fun busy => ?_⟩
  · rw [request idle noUpdates noRead rfl]
    exact ⟨rfl, rfl, noRead⟩
  · rw [held busy]
    exact ⟨rfl, rfl, rfl⟩

/-- The three grant requests at the moment they are taken are one (R47). -/
theorem exec_grantRequest {c : Instr}
    (held : (∃ f, c = .grantAdd ∧ s.holding h (.grantAdd f))
      ∨ (∃ d e, c = .grantRevoke ∧ s.holding h (.grantRevoke d e))
      ∨ (∃ d e, c = .grantQuery ∧ s.holding h (.grantQuery d e))) :
    exec c s = .next (s.takeGrantRequest h) := by
  obtain ⟨f, rfl, hq⟩ | ⟨d, e, rfl, hq⟩ | ⟨d, e, rfl, hq⟩ := held
  · show execGrantAdd s = _
    simp only [execGrantAdd, hq.1, hq.2]
  · show execGrantRevoke s = _
    simp only [execGrantRevoke, hq.1, hq.2]
  · show execGrantQuery s = _
    simp only [execGrantQuery, hq.1, hq.2]

/-! ## The operation (R47) -/

theorem exec_requestStoreOperation_grantRevoke (op : s.Operates v h (.grantRevoke d e) u) :
    exec (.requestStoreOperation u) s = .next (v.revokeGrant h d e).releasePort := by
  have inside : s.home d e < s.slotCount := Nat.mod_lt _ op.store
  obtain ⟨held, request⟩ := op.holding
  show execRequestStoreOperation u s = _
  simp only [execRequestStoreOperation, op.port, held, request, State.withinStore, if_pos inside, op.corrupted]

theorem exec_requestStoreOperation_grantQuery (op : s.Operates v h (.grantQuery d e) u) :
    exec (.requestStoreOperation u) s = .next (v.queryGrant h d e).releasePort := by
  have inside : s.home d e < s.slotCount := Nat.mod_lt _ op.store
  obtain ⟨held, request⟩ := op.holding
  show execRequestStoreOperation u s = _
  simp only [execRequestStoreOperation, op.port, held, request, State.withinStore, if_pos inside, op.corrupted]

/-- An operation that comes to its result leaves the holder with it and the port released (R43, R165). -/
theorem State.SameForRequest.finishes (same : s.SameForRequest t) (link : t.link = s.link) (r : ResultCode)
    (body : List Byte) :
    ∃ w : State, (t.finish h r body).releasePort = w ∧ w.link = { s.link with holder := h.After r body }
      ∧ w = { t with link := w.link, port := w.port } ∧ s.KeptByRequest w := by
  have kept := (same.trans (State.finish_sameForRequest t h r body)).kept
  rw [State.releasePort_finish_eq] at kept ⊢
  exact ⟨_, rfl, by rw [← link], rfl, kept⟩

/-- An operation that is only answered (R165): of what the corruption left it touches nothing. -/
theorem State.Operates.answered {r : ResultCode} {body : List Byte} (op : s.Operates v h q u)
    (run : exec (.requestStoreOperation u) s = .next (v.finish h r body).releasePort) :
    ∃ t : State, exec (.requestStoreOperation u) s = .next t
      ∧ t.link = { s.link with holder := h.After r body } ∧ t.store = v.store ∧ t.events = s.events
      ∧ t.carousel = s.carousel ∧ t.notice = s.notice ∧ t.counters = s.counters ∧ s.KeptByRequest t := by
  have c := op.corruption
  obtain ⟨_, hv⟩ := c.only
  obtain ⟨w, is, link, only, kept⟩ := c.sameForRequest.finishes (h := h) (by rw [hv]) r body
  exact ⟨w, run.trans (congrArg _ is), link, by rw [only], by rw [only, hv], by rw [only, hv], by rw [only, hv],
    by rw [only, hv], kept⟩

/-! ## The checks of the requests (R48, R53, R55) -/

theorem decoderOk_iff (d : Nat) : decoderOk d = true ↔ 1 ≤ d ∧ d ≤ 4294967294 := by simp [decoderOk, within]

theorem State.revokeGrant_of_bad_event (bad : 31 < e) : s.revokeGrant h d e = s.badField h 2 := if_pos bad

theorem State.queryGrant_of_bad_event (bad : 31 < e) : s.queryGrant h d e = s.badField h 2 := if_pos bad

theorem State.queryGrant_of_bad_decoder (h31 : e ≤ 31) (bad : ¬ decoderOk d = true) :
    s.queryGrant h d e = s.badField h 1 := by
  rw [State.queryGrant, if_neg (Nat.not_lt.2 h31), if_pos (by simpa using bad)]

theorem State.queryGrant_of_good (h31 : e ≤ 31) (good : decoderOk d = true) :
    s.queryGrant h d e = (s.lookup d e).2.queryAfterLookup h (s.lookup d e).1 := by
  rw [State.queryGrant, if_neg (Nat.not_lt.2 h31), if_neg (by simp [good])]

/-- GRANT-REVOKE of an event number: the event is there, it has not finished, the decoder is an address (R53). -/
theorem State.revokeGrant_eq (h31 : e ≤ 31) :
    s.revokeGrant h d e =
      if (s.event e).state = .empty then s.refuse h .noEvent
      else if (s.event e).state.finished then s.refuse h .wrongEventState
      else if !decoderOk d then s.badField h 1
      else (s.lookup d e).2.revokeAfterLookup h d e (s.lookup d e).1 := if_neg (Nat.not_lt.2 h31)

theorem State.revokeGrant_of_empty (h31 : e ≤ 31) (empty : (s.event e).state = .empty) :
    s.revokeGrant h d e = s.refuse h .noEvent := by rw [State.revokeGrant_eq h31, if_pos empty]

theorem State.revokeGrant_of_finished (h31 : e ≤ 31) (finished : (s.event e).state.finished = true) :
    s.revokeGrant h d e = s.refuse h .wrongEventState := by
  have defined : (s.event e).state ≠ .empty := fun empty => by rw [empty] at finished; exact nomatch finished
  rw [State.revokeGrant_eq h31, if_neg defined, if_pos finished]

theorem State.revokeGrant_of_bad_decoder (h31 : e ≤ 31) (defined : (s.event e).state ≠ .empty)
    (current : ¬ (s.event e).state.finished = true) (bad : ¬ decoderOk d = true) :
    s.revokeGrant h d e = s.badField h 1 := by
  rw [State.revokeGrant_eq h31, if_neg defined, if_neg current, if_pos (by simpa using bad)]

theorem State.revokeGrant_of_good (h31 : e ≤ 31) (defined : (s.event e).state ≠ .empty)
    (current : ¬ (s.event e).state.finished = true) (good : decoderOk d = true) :
    s.revokeGrant h d e = (s.lookup d e).2.revokeAfterLookup h d e (s.lookup d e).1 := by
  rw [State.revokeGrant_eq h31, if_neg defined, if_neg current, if_neg (by simp [good])]

/-- The body of GRANT-QUERY for a slot with a grant (R55, section 11.2). -/
theorem State.queryBody_of_grant {n : Nat} {g : Grant} (grant : (s.slot n).grant = some g) : s.queryBody n =
    leBytes 3 n
      ++ (if n < s.store.sizeA then 0#8 :: leBytes 3 n else 1#8 :: leBytes 3 (n - s.store.sizeA))
      ++ [BitVec.ofNat 8 (s.slot n).state.number, BitVec.ofNat 8 g.kind.number,
        BitVec.ofNat 8 g.region, BitVec.ofNat 8 (s.slot n).emissions,
        BitVec.ofNat 8 (s.slot n).mark.number,
        BitVec.ofNat 8 (RevokeReason.number (s.slot n).reason)]
      ++ leBytes 3 g.admittedAt := by
  simp only [State.queryBody, grant, List.append_assoc, List.cons_append, List.nil_append]
  rfl

end Sys2Proof.Machine

open Sys2Proof Sys2Proof.Machine

/-- Settles O36. -/
theorem grantRequestsClaimAndQuery : Obligations.GrantRequestsClaimAndQuery := by
  unfold Obligations.GrantRequestsClaimAndQuery
  refine ⟨?claim, ?refused, ?query⟩
  case claim =>
    intro s h c held
    rw [exec_grantRequest held]
    refine ⟨fun closing => congrArg _ (State.takeGrantRequest_of_closing closing), fun night noClaim notHeld => ?_⟩
    obtain ⟨p, claimed, port⟩ := s.claimRequest_spec
    rw [State.takeGrantRequest_of_free night noClaim notHeld, claimed]
    exact ⟨p, rfl, port⟩
  case refused =>
    intro s v h q d e u op named r body refusal
    refine op.answered ?_
    have event := op.corruption.event e
    obtain rfl | rfl := named
    · rw [exec_requestStoreOperation_grantRevoke op]
      refine congrArg (fun t => Host.Outcome.next (State.releasePort t)) ?_
      obtain ⟨bad, rfl, rfl⟩ | ⟨-, h31, empty, rfl, rfl⟩ | ⟨-, h31, finished, rfl, rfl⟩
        | ⟨h31, bad, rfl, rfl, current⟩ := refusal
      · exact State.revokeGrant_of_bad_event bad
      · exact State.revokeGrant_of_empty h31 (by rw [event, empty])
      · exact State.revokeGrant_of_finished h31 (by rw [event, EventState.finished_iff]; exact finished)
      · obtain ⟨defined, notClosed, notRetired⟩ := current rfl
        refine State.revokeGrant_of_bad_decoder h31 (by rwa [event]) ?_ (by rw [decoderOk_iff]; omega)
        rw [event, EventState.finished_iff]
        exact not_or.2 ⟨notClosed, notRetired⟩
    · rw [exec_requestStoreOperation_grantQuery op]
      refine congrArg (fun t => Host.Outcome.next (State.releasePort t)) ?_
      obtain ⟨bad, rfl, rfl⟩ | ⟨isRevoke, -⟩ | ⟨isRevoke, -⟩ | ⟨h31, bad, rfl, rfl, -⟩ := refusal
      · exact State.queryGrant_of_bad_event bad
      · exact nomatch isRevoke
      · exact nomatch isRevoke
      · exact State.queryGrant_of_bad_decoder h31 (by rw [decoderOk_iff]; omega)
  case query =>
    intro s v h d e u op h31 low high
    have run := exec_requestStoreOperation_grantQuery op
    rw [State.queryGrant_of_good h31 ((decoderOk_iff d).2 ⟨low, high⟩)] at run
    refine ⟨fun n g look grant => ?_, fun c look => ?_⟩
    · rw [look, State.queryAfterLookup, State.queryBody_of_grant grant, op.corruption.sameForRequest.sizeA] at run
      exact op.answered run
    · rw [look, State.queryAfterLookup] at run
      exact op.answered run
end

