-- ==== Sys2Proof/Proofs/GrantAddAndRevoke.lean ====
section
/-! GRANT-ADD refused and reinstated, and GRANT-REVOKE (R48, R50, R53, R54). -/

namespace Sys2Proof.Machine

variable {s t v : State} {h : HeldRequest} {q : Request} {f : AddFields} {u : List Nat} {d e : Nat}

/-! ## The refusals of GRANT-ADD (R48) -/

/-- GRANT-ADD of an event number: the event is there and admits, the fields, the blackout list (R48). -/
theorem State.addGrant_eq (h31 : f.event ≤ 31) :
    s.addGrant h f =
      if (s.event f.event).state = .empty then s.refuse h .noEvent
      else if (s.event f.event).state.admitting = false then s.refuse h .wrongEventState
      else match f.firstBad with
        | some i => s.badField h i
        | none =>
          if f.grantKind = .purchased ∧ blackedOut (s.event f.event).blackout f.region = true then s.refuse h .blackedOut
          else (s.lookup f.decoder f.event).2.addAfterLookup h f (s.lookup f.decoder f.event).1 :=
  if_neg (Nat.not_lt.2 h31)

theorem State.addGrant_of_bad_event (bad : 31 < f.event) : s.addGrant h f = s.badField h 2 := if_pos bad

theorem State.addGrant_of_empty (h31 : f.event ≤ 31) (empty : (s.event f.event).state = .empty) :
    s.addGrant h f = s.refuse h .noEvent := by rw [State.addGrant_eq h31, if_pos empty]

theorem State.addGrant_of_ended (h31 : f.event ≤ 31)
    (ended : (s.event f.event).state = .closed ∨ (s.event f.event).state = .cancelled
      ∨ (s.event f.event).state = .retired) : s.addGrant h f = s.refuse h .wrongEventState := by
  obtain ⟨defined, notAdmitting⟩ := EventState.not_admitting_of_ended _ ended
  rw [State.addGrant_eq h31, if_neg defined, if_pos notAdmitting]

theorem State.addGrant_of_admitting (h31 : f.event ≤ 31) (admitting : (s.event f.event).state.admitting = true) :
    s.addGrant h f =
      match f.firstBad with
      | some i => s.badField h i
      | none =>
        if f.grantKind = .purchased ∧ blackedOut (s.event f.event).blackout f.region = true then s.refuse h .blackedOut
        else (s.lookup f.decoder f.event).2.addAfterLookup h f (s.lookup f.decoder f.event).1 := by
  rw [State.addGrant_eq h31, if_neg (EventState.admitting_ne_empty _ admitting), if_neg (by simp [admitting])]

theorem GrantKind.ofNumber_isNone_iff (k : Nat) : (GrantKind.ofNumber k).isNone = true ↔ k ≠ 1 ∧ k ≠ 2 := by
  unfold GrantKind.ofNumber
  split
  case isTrue one => simp [one]
  case isFalse notOne =>
    split
    case isTrue two => simp [two]
    case isFalse notTwo => simp [notOne, notTwo]

/-- The first field of GRANT-ADD after the event number that is out: the decoder, the kind, the region. -/
theorem AddFields.firstBad_eq (f : AddFields) {i : Nat}
    (out : (i = 1 ∧ (f.decoder = 0 ∨ 4294967294 < f.decoder))
      ∨ (i = 3 ∧ 1 ≤ f.decoder ∧ f.decoder ≤ 4294967294 ∧ f.kind ≠ 1 ∧ f.kind ≠ 2)
      ∨ (i = 4 ∧ 1 ≤ f.decoder ∧ f.decoder ≤ 4294967294 ∧ (f.kind = 1 ∨ f.kind = 2) ∧ 255 < f.region)) :
    f.firstBad = some i := by
  have decoder := decoderOk_iff f.decoder
  have kind := GrantKind.ofNumber_isNone_iff f.kind
  obtain ⟨rfl, bad⟩ | ⟨rfl, low, high, bad⟩ | ⟨rfl, low, high, named, bad⟩ := out
  · exact if_pos (by rw [Bool.not_eq_true', ← Bool.not_eq_true, decoder]; omega)
  · rw [AddFields.firstBad, if_neg (by simp [decoder.2 ⟨low, high⟩]), if_pos (kind.2 bad)]
  · rw [AddFields.firstBad, if_neg (by simp [decoder.2 ⟨low, high⟩]), if_neg (by rw [kind]; omega), if_pos bad]

/-! ## A reinstatement (R50) -/

/-- A reinstatement is a grant written, counted reinstated, and a fresh append attempt (R50). -/
theorem State.reinstate_eq (n : Nat) (adm : s.Admits f) :
    s.reinstate n f = (s.writeGrant n (s.GrantOf f) s.store.drawn Counts.reinstate).appendFresh n := by
  have written := State.grant_stamp_eq adm
  obtain ⟨_, hadm, _⟩ := adm
  have ne : ((s.putSlot n ((s.slot n).withGrant (s.GrantOf f))).event f.event).state ≠ .empty := by
    simpa [State.event] using EventState.admitting_ne_empty _ hadm
  rw [State.reinstate, written, State.report_of_ne_empty ne]
  rfl

/-! ## GRANT-REVOKE (R53, R54) -/

/-- The store operation of a GRANT-REVOKE whose checks pass goes on from what its lookup finds (R53). -/
theorem State.Operates.runs_revokeAfterLookup {r : Lookup} (op : s.Operates v h (.grantRevoke d e) u) (h31 : e ≤ 31)
    (low : 1 ≤ d) (high : d ≤ 4294967294)
    (state : (s.event e).state.admitting = true ∨ (s.event e).state = .cancelled) (look : v.lookup d e = (r, v)) :
    exec (.requestStoreOperation u) s = .next (v.revokeAfterLookup h d e r).releasePort := by
  have current : (v.event e).state ≠ .empty ∧ ¬ (v.event e).state.finished = true := by
    rw [op.corruption.event]
    obtain admitting | cancelled := state
    · refine ⟨EventState.admitting_ne_empty _ admitting, fun finished => ?_⟩
      obtain ended | ended := (EventState.finished_iff _).1 finished <;> rw [ended] at admitting <;> exact nomatch admitting
    · rw [cancelled]
      exact ⟨nofun, nofun⟩
  rw [exec_requestStoreOperation_grantRevoke op,
    State.revokeGrant_of_good h31 current.1 current.2 ((decoderOk_iff d).2 ⟨low, high⟩), look]

theorem State.count_sameForRequest (s : State) (k : Counters → Counters) : s.SameForRequest (s.count k) := by
  constructor <;> intros <;> rfl

/-- A grant withdrawn without emission: its slot VACANT, its event told, and retired if it was the last of a cancelled
event (R12, R53). -/
theorem State.revokeUnsent_eq (n : Nat) (live : 1 ≤ (v.event e).counts.live) (he : e < v.events.length)
    (ne : (v.event e).state ≠ .empty) :
    ∃ r : EventRecord, v.revokeUnsent n e = (v.putSlot n (v.slot n).vacate).setEvent e r
      ∧ r.counts = { (v.event e).counts with
          live := (v.event e).counts.live - 1, revoked := (v.event e).counts.revoked + 1 }
      ∧ ((v.event e).state = .cancelled → v.CancelSwept e → (v.event e).counts.live = 1 →
          r = { v.event e with
            state := .retired, counts := r.counts, causes := (v.event e).causes ||| 1#4
            repeatsOwed := v.settings.record.stateRepeat })
      ∧ (((v.event e).state ≠ .cancelled ∨ ¬ v.CancelSwept e ∨ 1 < (v.event e).counts.live) →
          r = { v.event e with counts := r.counts }) :=
  (v.putSlot n (v.slot n).vacate).reportRevoked_spec e he ne live

theorem State.revokeUnsent_sameForRequest (s : State) (n e : Nat) : s.SameForRequest (s.revokeUnsent n e) := by
  constructor
  case ranges => exact (s.putSlot n (s.slot n).vacate).blackout_reportRevoked e
  all_goals simp [State.revokeUnsent]

theorem State.revokeSent_sameForRequest (ok : s.storeOk) (n : Nat) (why : RevokeReason) :
    s.SameForRequest (s.revokeSent n why) := by
  have ok' := s.putSlot_ok n ((s.slot n).revoke why) ok
  obtain ⟨_, _, _, _, _, only, _⟩ := State.appendUrgent_spec (s.putSlot n ((s.slot n).revoke why)) n ok'
  rw [State.revokeSent, only]
  constructor <;> intros <;> rfl

theorem State.cell_revokeSent_other (ok : s.storeOk) {n m : Nat} (why : RevokeReason) (ne : m ≠ n) :
    (s.revokeSent n why).cell m = s.cell m := by
  have ok' := s.putSlot_ok n ((s.slot n).revoke why) ok
  obtain ⟨-, cells, -⟩ := State.appendUrgent_spec (s.putSlot n ((s.slot n).revoke why)) n ok'
  exact (cells m ne).trans (s.cell_putSlot_other n m _ ne)

/-- A grant written REVOKING keeps the slots drawn, the damaged figure, the events and the link. -/
theorem State.revokeSent_only (ok : s.storeOk) (n : Nat) (why : RevokeReason) :
    (s.revokeSent n why).store.drawn = s.store.drawn ∧ (s.revokeSent n why).store.damaged = s.store.damaged := by
  have ok' := s.putSlot_ok n ((s.slot n).revoke why) ok
  obtain ⟨_, _, _, _, _, only, _⟩ := State.appendUrgent_spec (s.putSlot n ((s.slot n).revoke why)) n ok'
  rw [State.revokeSent, only]
  exact ⟨rfl, rfl⟩

end Sys2Proof.Machine

open Sys2Proof Sys2Proof.Machine

/-- Settles O37. -/
theorem grantAddIsRefused : Obligations.GrantAddIsRefused := by
  unfold Obligations.GrantAddIsRefused
  constructor
  · intro s v h f u op r body refusal
    refine op.answered ?_
    rw [exec_requestStoreOperation_grantAdd op]
    refine congrArg (fun t => Host.Outcome.next (State.releasePort t)) ?_
    rw [← op.corruption.event] at refusal
    obtain ⟨bad, rfl, rfl⟩ | ⟨h31, empty, rfl, rfl⟩ | ⟨h31, finished, rfl, rfl⟩ | ⟨h31, cancelled, rfl, rfl⟩
      | ⟨h31, admitting, rfl, field⟩ | ⟨h31, admitting, rfl, rfl, low, high, kind, region, out⟩ := refusal
    · exact State.addGrant_of_bad_event bad
    · exact State.addGrant_of_empty h31 empty
    · refine State.addGrant_of_ended h31 ?_
      exact ((EventState.finished_iff _).1 finished).imp_right .inr
    · exact State.addGrant_of_ended h31 (.inr (.inl cancelled))
    · rw [State.addGrant_of_admitting h31 admitting]
      obtain ⟨rfl, bad⟩ | ⟨rfl, bad⟩ | ⟨rfl, bad⟩ := field
      · rw [f.firstBad_eq (.inl ⟨rfl, bad⟩)]
        rfl
      · rw [f.firstBad_eq (.inr (.inl ⟨rfl, bad⟩))]
        rfl
      · rw [f.firstBad_eq (.inr (.inr ⟨rfl, bad⟩))]
        rfl
    · rw [State.addGrant_of_admitting h31 admitting, AddFields.firstBad_of_good low high (.inl kind) region]
      refine if_pos ⟨?_, (blackedOut_iff _ _).2 out⟩
      rw [AddFields.grantKind_eq (.inl kind), if_pos kind]
  · intro s v h f u op adm look
    have run := op.runs_addAfterLookup adm look
    obtain ⟨_, hv⟩ := op.corruption.only
    obtain ⟨w, is, link, only, kept⟩ := (op.corruption.sameForRequest.trans (v.count_sameForRequest
      (fun c => { c with storeFullCount := bump c.storeFullCount }))).finishes (h := h) (by rw [hv]; rfl) .storeFull []
    exact ⟨w, run.trans (congrArg _ is), link, by rw [only, hv]; rfl, by rw [only]; rfl, by rw [only, hv]; rfl,
      by rw [only, hv]; rfl, by rw [only, hv]; rfl, kept⟩

/-- Settles O39. A reinstatement is a grant written to the REVOKING slot and a fresh append attempt. -/
theorem grantAddReinstates : Obligations.GrantAddReinstates := by
  unfold Obligations.GrantAddReinstates
  intro s v h f u n op adm _ look revoking
  have corruption := op.corruption
  have run : exec (.requestStoreOperation u) s =
      .next ((v.reinstate n f).finish h .reinstated (leBytes 3 n)).releasePort := by
    rw [op.runs_addAfterLookup adm look, State.addAfterLookup, if_pos revoking]
  rw [State.reinstate_eq n (corruption.admits adm), corruption.grantOf] at run
  have written := v.writeGrant_appendFresh n (s.GrantOf f) v.store.drawn Counts.reinstate corruption.ok
  generalize State.appendFresh _ n = t at run written
  obtain ⟨_, hv⟩ := corruption.only
  have events : v.events = s.events := by rw [hv]
  have carousel : v.carousel = s.carousel := by rw [hv]
  have notice : v.notice = s.notice := by rw [hv]
  have counters : v.counters = s.counters := by rw [hv]
  have linked : t.link = s.link := written.link.trans (by rw [hv])
  obtain ⟨w, is, link, only, kept⟩ :=
    (corruption.sameForRequest.trans written.same).finishes (h := h) linked .reinstated (leBytes 3 n)
  have store : w.store = t.store := by rw [only]
  have cell (m : Nat) : w.cell m = t.cell m := congrArg (fun x => x.memory.read m) store
  refine ⟨w, run.trans (congrArg _ is), ?slot, fun m ne => (cell m).trans (written.cells m ne), ?events, ?drawn,
    ?damaged, ?carousel, ?roomy, ?full, link, kept⟩
  case slot => exact (congrArg Cell.slot (cell n)).trans (carousel ▸ written.slot)
  case events =>
    rw [only]
    exact events ▸ corruption.event f.event ▸ written.events
  case drawn =>
    rw [store, written.drawn, hv]
  case damaged =>
    rw [store, written.damaged, hv]
  case carousel =>
    rw [only]
    exact carousel ▸ written.carousel
  case roomy =>
    rw [only]
    exact notice ▸ counters ▸ carousel ▸ written.roomy
  case full =>
    rw [only]
    exact notice ▸ counters ▸ carousel ▸ written.full

/-- Settles O41. -/
theorem grantRevokeWithdraws : Obligations.GrantRevokeWithdraws := by
  unfold Obligations.GrantRevokeWithdraws
  intro s v h d e u op h31 table low high state
  have corruption := op.corruption
  have ok := corruption.ok
  have flight : v.inFlight d e = false ↔ s.NotInFlight d e := by rw [corruption.inFlight, s.inFlight_iff]
  have event := corruption.event e
  obtain ⟨_, hv⟩ := corruption.only
  refine ⟨fun n look pending unsent live => ?unsent, fun n look sent => ?sent, fun l r look answer => ?answered⟩
  case unsent =>
    have run := op.runs_revokeAfterLookup h31 low high state look
    have defined : (v.event e).state ≠ .empty := by
      rw [event]
      obtain admitting | cancelled := state
      · exact EventState.admitting_ne_empty _ admitting
      · rw [cancelled]; nofun
    have inside : e < v.events.length := by
      rw [show v.events = s.events by rw [hv], table]
      omega
    rw [State.revokeAfterLookup, if_neg (by rw [pending]; nofun), if_pos ⟨pending, flight.2 unsent⟩] at run
    obtain ⟨w, is, link, only, kept⟩ :=
      (corruption.sameForRequest.trans (v.revokeUnsent_sameForRequest n e)).finishes (h := h)
        (by simp [hv]) .ok []
    obtain ⟨r, revoked, counts, retires, stays⟩ := State.revokeUnsent_eq (v := v) n (event ▸ live) inside defined
    rw [event, corruption.cancelSwept] at retires stays
    rw [event] at counts
    rw [revoked] at only
    have self : w.event e = r := by
      rw [only]
      exact State.event_setEvent_self (s := v.putSlot n (v.slot n).vacate) inside r
    have cell (m : Nat) : w.cell m = (v.putSlot n (v.slot n).vacate).cell m := by rw [only]; rfl
    refine ⟨w, run.trans (congrArg _ is), ?slot, fun m ne => (cell m).trans (v.cell_putSlot_other n m _ ne),
      by rw [self, counts], fun m ne => ?_, fun still => by rw [self]; exact stays still,
      fun cancelled swept last => ?_, ?_, ?_, ?_, ?_, ?_, link, kept⟩
    case slot => exact (congrArg Cell.slot (cell n)).trans (v.slot_putSlot_same n _ ok)
    · rw [only]
      exact (State.event_setEvent_other (s := v.putSlot n (v.slot n).vacate) ne r).trans (corruption.event m)
    · rw [self]
      exact (retires cancelled swept last).trans (by rw [hv])
    · rw [only, hv]; rfl
    · rw [only, hv]; rfl
    · rw [only, hv]; rfl
    · rw [only, hv]; rfl
    · rw [only, hv]; rfl
  case sent =>
    have run := op.runs_revokeAfterLookup h31 low high state look
    have notRevoking : (v.slot n).state ≠ .revoking := by
      obtain e | e | ⟨e, -⟩ := sent <;> rw [e] <;> nofun
    have isSent : ¬ ((v.slot n).state = .pending ∧ v.inFlight d e = false) := by
      rintro ⟨pending, unsent⟩
      obtain e | e | ⟨-, inFlight⟩ := sent
      · exact nomatch pending.symm.trans e
      · exact nomatch pending.symm.trans e
      · exact inFlight (flight.1 unsent)
    rw [State.revokeAfterLookup, if_neg notRevoking, if_neg isSent] at run
    obtain ⟨slot, carousel, events, roomy, full⟩ := State.revokeSent_spec ok n .customer
    obtain ⟨drawn, damaged⟩ := State.revokeSent_only ok n .customer
    obtain ⟨w, is, link, only, kept⟩ :=
      (corruption.sameForRequest.trans (State.revokeSent_sameForRequest ok n .customer)).finishes (h := h)
        (by simp [hv]) .ok []
    have lists : v.carousel = s.carousel := by rw [hv]
    have notice : v.notice = s.notice := by rw [hv]
    have counters : v.counters = s.counters := by rw [hv]
    rw [lists] at slot carousel roomy full
    rw [notice, counters] at roomy full
    have cell (m : Nat) : w.cell m = (v.revokeSent n .customer).cell m := by rw [only]; rfl
    refine ⟨w, run.trans (congrArg _ is), (congrArg Cell.slot (cell n)).trans slot,
      fun m ne => (cell m).trans (State.cell_revokeSent_other ok .customer ne), ?_, fun none isFull => ?_,
      fun room => ?_, ?_, ?_, ?_, link, kept⟩
    · rw [only]; exact carousel
    · rw [only]; exact full ⟨none, isFull⟩
    · rw [only]
      refine roomy ?_
      rintro ⟨none, isFull⟩
      exact room.elim (· none) fun room => by omega
    · rw [only]; exact drawn.trans (by rw [hv])
    · rw [only]; exact damaged.trans (by rw [hv])
    · rw [only]; exact events.trans (by rw [hv])
  case answered =>
    refine op.answered ?_
    rw [op.runs_revokeAfterLookup h31 low high state look]
    obtain ⟨n, rfl, revoking, rfl⟩ | ⟨c, rfl, rfl⟩ := answer
    · rw [State.revokeAfterLookup, if_pos revoking]
      rfl
    · rfl
end

