-- ==== Sys2Proof/Proofs/LookupWindow.lean ====
section
/-! The probe window and the lookup along it (R28, R37 to R39). -/

namespace Sys2Proof.Machine

variable {s : State} {d e n : Nat}

/-! ## The window (R28, R37) -/

theorem State.successor_eq (inside : n < s.slotCount) :
    s.successor n = if n + 1 < s.slotCount then n + 1 else 0 := by
  unfold State.successor
  split
  case isTrue next => exact Nat.mod_eq_of_lt next
  case isFalse last =>
    rw [show n + 1 = s.slotCount by omega]
    exact Nat.mod_self _

theorem State.length_window (s : State) (d e : Nat) : (s.window d e).length = 16 := by
  rw [State.window, List.length_map, List.length_range]

theorem State.window_getElem? (s : State) (d e : Nat) {i : Nat} (inside : i < 16) :
    (s.window d e)[i]? = some ((s.home d e + i) % s.slotCount) := by
  rw [State.window, List.getElem?_map, List.getElem?_range inside]
  rfl

theorem State.window_getD (s : State) (d e : Nat) {i : Nat} (inside : i < 16) :
    (s.window d e).getD i 0 = (s.home d e + i) % s.slotCount := by
  rw [List.getD_eq_getElem?_getD, s.window_getElem? d e inside]
  rfl

theorem State.mem_window (s : State) (d e : Nat) (n : Nat) :
    n ∈ s.window d e ↔ ∃ i, i < 16 ∧ n = (s.home d e + i) % s.slotCount := by
  simp only [State.window, List.mem_map, List.mem_range]
  exact exists_congr fun i => and_congr Iff.rfl eq_comm

/-- Sixteen slots that follow one another are different in a store of at least sixteen. -/
theorem State.nodup_window (s : State) (d e : Nat) (large : 16 ≤ s.slotCount) : (s.window d e).Nodup := by
  refine List.Nodup.map_on (fun i inI j inJ same => ?_) List.nodup_range
  have hi := List.mem_range.1 inI
  have hj := List.mem_range.1 inJ
  have cong : i ≡ j [MOD s.slotCount] := Nat.ModEq.add_left_cancel' (s.home d e) same
  exact cong.eq_of_lt_of_lt (by omega) (by omega)

/-! ## The lookup (R38, R39) -/

/-- The slot is none the lookup ends at. -/
def State.Passed (w : State) (d e m : Nat) : Prop :=
  (w.cell m).checkGood = true ∧ (w.slot m).state ≠ .empty ∧ ¬ (w.slot m).LiveFor d e

/-- How a lookup ends that comes with the candidate `c`, has passed the slots `before` and has `after` to go. -/
inductive State.LookupEnds (w : State) (d e : Nat) (c : Option Nat) (before : List Nat) : List Nat → Lookup → Prop where
  | found (n : Nat) (rest : List Nat) (good : (w.cell n).checkGood = true) (live : (w.slot n).LiveFor d e) :
    LookupEnds w d e c before (n :: rest) (.found n)
  | empty (n : Nat) (rest : List Nat) (good : (w.cell n).checkGood = true) (empty : (w.slot n).state = .empty) :
    LookupEnds w d e c before (n :: rest)
      (.missing (c.or ((before.find? (fun m => (w.slot m).state == .vacant)).or (some n))))
  | exhausted :
    LookupEnds w d e c before [] (.missing (c.or (before.find? (fun m => (w.slot m).state == .vacant))))

theorem firstOf_eq (c : Option Nat) (n : Nat) : firstOf c n = c.or (some n) := by cases c <;> rfl

/-- A lookup at a slot that is neither empty nor a live match goes on, with the slot as its candidate if it is the first
VACANT one. -/
theorem State.lookupFrom_passed {l : List Nat} {c : Option Nat} (notEmpty : ((s.check n).slot n).state ≠ .empty)
    (notLive : ¬ ((s.check n).slot n).LiveFor d e) :
    State.lookupFrom d e (n :: l) c s =
      State.lookupFrom d e l (if ((s.check n).slot n).state = .vacant then firstOf c n else c) (s.check n) := by
  rw [State.lookupFrom, if_neg (mt (Slot.live_iff _ d e).1 notLive)]
  cases state : ((s.check n).slot n).state with
  | empty => exact absurd state notEmpty
  | vacant | pending | announced | held | revoking | damaged => rfl

theorem State.lookupFrom_found {l : List Nat} {c : Option Nat} (live : ((s.check n).slot n).LiveFor d e) :
    State.lookupFrom d e (n :: l) c s = (.found n, s.check n) := by
  rw [State.lookupFrom, if_pos ((Slot.live_iff _ d e).2 live)]

theorem State.lookupFrom_empty {l : List Nat} {c : Option Nat} (empty : ((s.check n).slot n).state = .empty) :
    State.lookupFrom d e (n :: l) c s = (.missing (firstOf c n), s.check n) := by
  have notLive : ¬ ((s.check n).slot n).LiveFor d e := by
    rintro ⟨state, -⟩
    rw [empty] at state
    obtain e | e | e | e := state <;> exact nomatch e
  rw [State.lookupFrom, if_neg (mt (Slot.live_iff _ d e).1 notLive), empty]

/-- Checks leave a slot whose check byte agrees. -/
theorem State.cell_foldl_check (l : List Nat) (good : (s.cell n).checkGood = true) :
    (l.foldl State.check s).cell n = s.cell n := by
  induction l generalizing s with
  | nil => rfl
  | cons m ms ih =>
    have same := s.cell_check_of_good m n good
    exact (ih (same.symm ▸ good)).trans same

/-- The check byte of each slot of the list agrees once it has been checked: the store is in canonical form, or they all
agree already. -/
def State.Checkable (s : State) (l : List Nat) : Prop := s.storeOk ∨ ∀ m ∈ l, (s.cell m).checkGood = true

theorem State.Checkable.head {l : List Nat} (can : s.Checkable (n :: l)) : ((s.check n).cell n).checkGood = true := by
  obtain ok | good := can
  · exact s.checkGood_check n ok
  · rw [State.check_good s n (good n (.head _))]
    exact good n (.head _)

theorem State.Checkable.tail {l : List Nat} (can : s.Checkable (n :: l)) : (s.check n).Checkable l := by
  obtain ok | good := can
  · exact .inl (s.check_ok n ok)
  · rw [State.check_good s n (good n (.head _))]
    exact .inr fun m mem => good m (.tail _ mem)

/-- The candidate of a lookup that passes one more slot before the others. -/
theorem State.candidate_cons (w : State) (c : Option Nat) (n : Nat) (before : List Nat) (x : Option Nat) :
    (if (w.slot n).state = .vacant then firstOf c n else c).or
        ((before.find? (fun m => (w.slot m).state == .vacant)).or x) =
      c.or (((n :: before).find? (fun m => (w.slot m).state == .vacant)).or x) := by
  by_cases vacant : (w.slot n).state = .vacant
  · rw [if_pos vacant, List.find?_cons_of_pos (by simp [vacant]), firstOf_eq, Option.or_assoc]
    rfl
  · rw [if_neg vacant, List.find?_cons_of_neg (by simp [vacant])]

theorem State.LookupEnds.cons_iff {w : State} {c : Option Nat} {before after : List Nat} {r : Lookup} :
    w.LookupEnds d e c (n :: before) after r
      ↔ w.LookupEnds d e (if (w.slot n).state = .vacant then firstOf c n else c) before after r := by
  have last := State.candidate_cons w c n before none
  rw [Option.or_none, Option.or_none] at last
  constructor
  · intro ends
    cases ends with
    | found m rest good live => exact .found m rest good live
    | empty m rest good empty => exact State.candidate_cons w c n before (some m) ▸ .empty m rest good empty
    | exhausted => exact last ▸ .exhausted
  · intro ends
    cases ends with
    | found m rest good live => exact .found m rest good live
    | empty m rest good empty => exact State.candidate_cons w c n before (some m) ▸ .empty m rest good empty
    | exhausted => exact last ▸ .exhausted

theorem State.LookupEnds.nothing (w : State) (d e : Nat) (c : Option Nat) :
    w.LookupEnds d e c [] [] (.missing c) := by
  have ends := LookupEnds.exhausted (w := w) (d := d) (e := e) (c := c) (before := [])
  rwa [List.find?_nil, Option.or_none] at ends

/-- A lookup passes slots until a live match, an EMPTY slot or the end of its window, each checked as it comes to it
(R33, R38). -/
theorem State.lookupFrom_ends (l : List Nat) (c : Option Nat) (can : s.Checkable l) :
    ∃ before after, l = before ++ after
      ∧ (State.lookupFrom d e l c s).2 = (before ++ after.take 1).foldl State.check s
      ∧ (∀ m ∈ before, (State.lookupFrom d e l c s).2.Passed d e m)
      ∧ (State.lookupFrom d e l c s).2.LookupEnds d e c before after (State.lookupFrom d e l c s).1 := by
  induction l generalizing s c with
  | nil => exact ⟨[], [], rfl, rfl, nofun, .nothing s d e c⟩
  | cons n ns ih =>
    have good := can.head
    by_cases live : ((s.check n).slot n).LiveFor d e
    · rw [State.lookupFrom_found live]
      exact ⟨[], n :: ns, rfl, rfl, nofun, .found n ns good live⟩
    by_cases empty : ((s.check n).slot n).state = .empty
    · rw [State.lookupFrom_empty empty, firstOf_eq]
      exact ⟨[], n :: ns, rfl, rfl, nofun, .empty n ns good empty⟩
    rw [State.lookupFrom_passed empty live]
    obtain ⟨before, after, parts, state, passed, ends⟩ :=
      ih (if ((s.check n).slot n).state = .vacant then firstOf c n else c) can.tail
    generalize State.lookupFrom d e ns _ (s.check n) = result at state passed ends ⊢
    have cell : result.2.cell n = (s.check n).cell n := state ▸ State.cell_foldl_check _ good
    have slot : result.2.slot n = (s.check n).slot n := congrArg Cell.slot cell
    refine ⟨n :: before, after, by rw [parts]; rfl, state, fun m mem => ?_, ?_⟩
    · obtain rfl | mem := List.mem_cons.1 mem
      · exact ⟨cell ▸ good, slot ▸ empty, slot ▸ live⟩
      · exact passed m mem
    · rw [← slot] at ends
      exact LookupEnds.cons_iff.2 ends

/-- In a state whose slots read as the lookup found them, the lookup finds the same and changes nothing. -/
theorem State.lookupFrom_again {w : State} {c : Option Nat} {before after : List Nat} {r : Lookup}
    (passed : ∀ m ∈ before, w.Passed d e m) (ends : w.LookupEnds d e c before after r) :
    State.lookupFrom d e (before ++ after) c w = (r, w) := by
  induction before generalizing c with
  | nil =>
    cases ends with
    | found n rest good live =>
      have same := w.check_good n good
      rw [List.nil_append, State.lookupFrom_found (by rwa [same]), same]
    | empty n rest good empty =>
      have same := w.check_good n good
      rw [List.nil_append, State.lookupFrom_empty (by rwa [same]), same, firstOf_eq]
      rfl
    | exhausted => rw [List.find?_nil, Option.or_none]; rfl
  | cons n before ih =>
    obtain ⟨good, notEmpty, notLive⟩ := passed n (.head _)
    have same := w.check_good n good
    rw [List.cons_append, State.lookupFrom_passed (by rwa [same]) (by rwa [same]), same]
    exact ih (fun m mem => passed m (.tail _ mem)) (LookupEnds.cons_iff.1 ends)

/-- A lookup of a pair, by what its window holds once it has been checked (R38, R39). -/
theorem State.lookup_ends (s : State) (d e : Nat) (can : s.Checkable (s.window d e)) :
    ∃ before after, s.window d e = before ++ after
      ∧ (s.lookup d e).2 = (before ++ after.take 1).foldl State.check s
      ∧ (∀ m ∈ before, (s.lookup d e).2.Passed d e m)
      ∧ (s.lookup d e).2.LookupEnds d e none before after (s.lookup d e).1 :=
  State.lookupFrom_ends _ _ can

theorem foldl_check_of_good {l : List Nat} (good : ∀ m ∈ l, (s.cell m).checkGood = true) :
    l.foldl State.check s = s := by
  induction l with
  | nil => rfl
  | cons n ns ih =>
    rw [List.foldl_cons, s.check_good n (good n (.head _))]
    exact ih fun m mem => good m (.tail _ mem)

theorem State.window_lookup (s : State) (d e : Nat) : (s.lookup d e).2.window d e = s.window d e := by
  have same := s.lookup_sameForRequest d e
  simp only [State.window, State.home, State.slotCount, same.sizeA, same.sizeB]

end Sys2Proof.Machine

open Sys2Proof Sys2Proof.Machine

/-- Settles O34. The lookup ends as `State.lookup_ends` says; one made again passes and ends at the slots as they were
left. -/
theorem lookupFollowsWindow : Obligations.LookupFollowsWindow := by
  unfold Obligations.LookupFollowsWindow
  refine ⟨?window, ?lookup, ?again⟩
  case window =>
    intro s d e large
    have inside {n : Nat} (mem : n ∈ s.window d e) : n < s.slotCount := by
      obtain ⟨i, -, rfl⟩ := (s.mem_window d e n).1 mem
      exact Nat.mod_lt _ (by unfold State.slotCount; omega)
    refine ⟨fun n => State.successor_eq, s.length_window d e,
      s.nodup_window d e (by unfold State.slotCount; omega), fun n => inside, ?_, fun i => s.window_getD d e,
      fun i before => ?_⟩
    · rw [List.head?_eq_getElem?, s.window_getElem? d e (by omega), Nat.add_zero]
      exact congrArg some (Nat.mod_eq_of_lt (Nat.mod_lt _ (by unfold State.slotCount; omega)))
    · rw [s.window_getD d e (by omega), s.window_getD d e (by omega), State.successor, Nat.mod_add_mod, Nat.add_assoc]
  case lookup =>
    intro s d e good
    obtain ⟨before, after, parts, state, passed, ends⟩ := s.lookup_ends d e (.inr good)
    have same : (s.lookup d e).2 = s := by
      refine state.trans (foldl_check_of_good fun m mem => good m ?_)
      rw [parts]
      exact (List.mem_append.1 mem).elim (List.mem_append_left _)
        fun inAfter => List.mem_append_right _ (List.mem_of_mem_take inAfter)
    rw [same] at passed ends
    have outside : ∀ m ∈ before, (s.slot m).state ≠ .empty ∧ ¬ (s.slot m).LiveFor d e := fun m mem => (passed m mem).2
    refine ⟨(s.lookup d e).1, Prod.ext rfl same, ?_⟩
    generalize (s.lookup d e).1 = r at ends
    cases ends with
    | found n rest good live => exact .inl ⟨n, before, rest, rfl, parts, live, outside⟩
    | empty n rest good empty =>
      refine .inr ⟨_, before, n :: rest, rfl, parts, outside, fun m head => ?_, rfl⟩
      rwa [← Option.some.inj head]
    | exhausted =>
      refine .inr ⟨_, before, [], rfl, parts, outside, nofun, ?_⟩
      rw [List.head?_nil, Option.or_none, Option.none_or]
  case again =>
    intro s w d e r ok look
    obtain ⟨before, after, parts, state, passed, ends⟩ := s.lookup_ends d e (.inl ok)
    have same := s.window_lookup d e
    rw [look] at state passed ends same
    refine ⟨?_, before ++ after.take 1, after.drop 1, ?_, state⟩
    · rw [State.lookup, same, parts]
      exact State.lookupFrom_again passed ends
    · rw [List.append_assoc, List.take_append_drop, parts]
end

