-- ==== Sys2Proof/Proofs/DamagedSlots.lean ====
section
/-! Store operations whose reads find slots the SRAM has corrupted (R32, R33). -/

namespace Sys2Proof.Machine

variable {s v w : State} {h : HeldRequest} {q : Request} {f : AddFields} {u : List Nat} {d e n : Nat} {r : Lookup}

/-! ## What corruption and reads can touch -/

/-- `w` is `s` after slots were corrupted and read: the slot memory, the damaged-slot figure, the notice unit and the
counters may have changed. -/
def State.ReadOf (s w : State) : Prop :=
  ∃ m dm nt c, w = { s with store := { s.store with memory := m, damaged := dm }, notice := nt, counters := c }

theorem State.ReadOf.trans {t : State} (st : s.ReadOf t) (tw : t.ReadOf w) : s.ReadOf w := by
  obtain ⟨_, _, _, _, rfl⟩ := st
  obtain ⟨_, _, _, _, rfl⟩ := tw
  exact ⟨_, _, _, _, rfl⟩

theorem Corrupted.readOf (c : Corrupted s v) : s.ReadOf v := by
  obtain ⟨_, hv⟩ := c.only
  exact ⟨_, s.store.damaged, s.notice, s.counters, hv⟩

theorem State.readOf_check (s : State) (n : Nat) : s.ReadOf (s.check n) := s.check_only n

theorem State.readOf_lookup (s : State) (d e : Nat) : s.ReadOf (s.lookup d e).2 := State.lookupFrom_only d e _ _ s

/-- A check made again finds the byte to agree. -/
theorem State.check_again (ok : s.storeOk) (n : Nat) : (s.check n).check n = s.check n :=
  (s.check n).check_good n (s.checkGood_check n ok)

/-- A lookup made again finds the same and every byte to agree (R33, R38). -/
theorem State.lookup_again (ok : s.storeOk) (look : s.lookup d e = (r, w)) : w.lookup d e = (r, w) := by
  obtain ⟨before, after, parts, -, passed, ends⟩ := s.lookup_ends d e (.inl ok)
  have same := s.window_lookup d e
  rw [look] at passed ends same
  rw [State.lookup, same, parts]
  exact State.lookupFrom_again passed ends

/-- What the check of a slot whose byte fails rewrites, and what it raises and counts (R33). -/
theorem State.check_bad (bad : (s.cell n).checkGood = false) :
    ∃ memory : Memory, s.check n =
      { s with
        store := { s.store with
          memory := memory
          damaged := if s.store.damaged + 1 ≤ s.slotCount then s.store.damaged + 1 else s.slotCount }
        notice := { s.notice with causes := s.notice.causes ||| 0x002#10 }
        counters := { s.counters with damageCount := bump s.counters.damageCount } } := by
  refine ⟨s.store.memory.write n { slot := damagedSlot (s.markFromQueues n), checkGood := true }, ?_⟩
  rw [State.check, if_neg (by rw [bad]; nofun), ← Nat.min_def]
  rfl

/-! ## A request's operation, after its lookup (R47) -/

/-- What the lookup left is a unit on which the request's operation works with no more corruption. -/
theorem State.Operates.afterLookup (op : s.Operates v h q u) (look : v.lookup d e = (r, w)) : w.Operates w h q [] := by
  have read := op.corruption.readOf.trans (v.readOf_lookup d e)
  have ok := v.lookup_ok d e op.corruption.ok
  rw [look] at read ok
  obtain ⟨holding, port, -, store, -⟩ := op
  obtain ⟨_, _, _, _, rfl⟩ := read
  exact ⟨holding, port, rfl, store, ok⟩

theorem State.ReadOf.event (read : s.ReadOf w) (n : Nat) : w.event n = s.event n := by
  obtain ⟨_, _, _, _, rfl⟩ := read
  rfl

theorem State.ReadOf.admits (read : s.ReadOf w) (adm : s.Admits f) : w.Admits f := by
  unfold State.Admits
  rwa [read.event]

/-- GRANT-REVOKE of an event that is neither absent nor finished goes on from its lookup (R53). -/
theorem State.Operates.runs_revoke (op : s.Operates v h (.grantRevoke d e) u) (h31 : e ≤ 31) (low : 1 ≤ d)
    (high : d ≤ 4294967294) (state : (s.event e).state.admitting = true ∨ (s.event e).state = .cancelled)
    (look : v.lookup d e = (r, w)) :
    exec (.requestStoreOperation u) s = .next (w.revokeAfterLookup h d e r).releasePort := by
  have current : (s.event e).state ≠ .empty ∧ ¬ (s.event e).state.finished = true := by
    revert state
    cases (s.event e).state <;> decide
  rw [← op.corruption.event] at current
  rw [exec_requestStoreOperation_grantRevoke op,
    State.revokeGrant_of_good h31 current.1 current.2 ((decoderOk_iff d).2 ⟨low, high⟩), look]

theorem State.Operates.runs_query (op : s.Operates v h (.grantQuery d e) u) (h31 : e ≤ 31) (low : 1 ≤ d)
    (high : d ≤ 4294967294) (look : v.lookup d e = (r, w)) :
    exec (.requestStoreOperation u) s = .next (w.queryAfterLookup h r).releasePort := by
  rw [exec_requestStoreOperation_grantQuery op, State.queryGrant_of_good h31 ((decoderOk_iff d).2 ⟨low, high⟩), look]

/-! ## The other store operations begin with the read of their slot (R60, R85 to R88, R97, R98) -/

theorem State.takeUrgent_check (ok : v.storeOk) (n : Nat) (rest : List Nat) (again : State → State) :
    (v.check n).takeUrgent n rest again = v.takeUrgent n rest again := by
  rw [State.takeUrgent, State.check_again ok, State.takeUrgent]

theorem State.takeFresh_check (ok : v.storeOk) (n : Nat) (rest : List Nat) (again : State → State) :
    (v.check n).takeFresh n rest again = v.takeFresh n rest again := by
  rw [State.takeFresh, State.check_again ok, State.takeFresh]

theorem State.readRefresh_check (ok : v.storeOk) (n reads : Nat) :
    (v.check n).readRefresh n reads = v.readRefresh n reads := by
  have pass : (v.check n).carousel.pass = v.carousel.pass := by
    obtain ⟨_, _, _, _, is⟩ := v.check_only n
    rw [is]
  rw [State.readRefresh, State.check_again ok, pass, State.readRefresh]

theorem State.updateGrant_check (ok : v.storeOk) (n d e : Nat) :
    (v.check n).updateGrant n d e = v.updateGrant n d e := by
  rw [State.updateGrant, State.check_again ok, State.updateGrant]

theorem State.updateRevoke_check (ok : v.storeOk) (n d e : Nat) :
    (v.check n).updateRevoke n d e = v.updateRevoke n d e := by
  rw [State.updateRevoke, State.check_again ok, State.updateRevoke]

theorem State.visit_check (ok : v.storeOk) (w : Sweep) (kind : SweepKind) (ranges : List Range) (o : Bool) :
    (v.check w.cursor).visit w kind ranges o = v.visit w kind ranges o := by
  have successor : (v.check w.cursor).successor w.cursor = v.successor w.cursor := by
    rw [State.successor, State.slotCount_check, State.successor]
  rw [State.visit, State.check_again ok, successor, State.visit]

end Sys2Proof.Machine

open Sys2Proof Sys2Proof.Machine

/-- Settles O35. Every store operation begins with reads, which made again find what they rewrote. -/
theorem checkRewritesDamagedSlot : Obligations.CheckRewritesDamagedSlot := by
  unfold Obligations.CheckRewritesDamagedSlot
  constructor
  · intro s n ok
    refine ⟨s.check_good n, fun bad => ⟨s.slot_check_bad n ok bad, s.checkGood_check n ok,
      fun m ne => s.cell_check_other n m ne, State.check_bad bad⟩⟩
  · intro u s v corrupted ok
    have corruption := Corrupted.of_upset s v u corrupted ok
    have okv := corruption.ok
    refine ⟨?request, ?composition, ?completion, ?visit⟩
    case request =>
      intro h q d e r w held port store h31 low high named look
      have op : s.Operates v h q u := ⟨held, port, corrupted, store, ok⟩
      have again := State.lookup_again okv look
      have read := corruption.readOf.trans (v.readOf_lookup d e)
      rw [look] at read
      obtain ⟨f, rfl, rfl, rfl, adm⟩ | ⟨rfl, state⟩ | rfl := named
      · rw [op.runs_addAfterLookup adm look, (op.afterLookup look).runs_addAfterLookup (read.admits adm) again]
      · rw [op.runs_revoke h31 low high state look,
          (op.afterLookup look).runs_revoke h31 low high (by rwa [read.event]) again]
      · rw [op.runs_query h31 low high look, (op.afterLookup look).runs_query h31 low high again]
    case composition =>
      intro n rest port inside
      obtain ⟨_, _, _, _, is⟩ := corruption.readOf.trans (v.readOf_check n)
      have port' : (v.check n).port = s.port := by rw [is]
      have carousel : (v.check n).carousel = s.carousel := by rw [is]
      have inside' : n < (v.check n).slotCount := by rw [is]; exact inside
      refine ⟨fun attempt head => ?_, fun attempt head => ?_, fun reads attempt cursor => ?_⟩
      · show execUrgentDequeue u s = execUrgentDequeue [] (v.check n)
        obtain attempt | attempt := attempt <;>
          simp only [execUrgentDequeue, port', carousel, port, attempt, State.dequeueUrgent, head, State.withinStore,
            if_pos inside, if_pos inside', ← corrupted, State.upset, State.takeUrgent_check okv]
      · show execFreshDequeue u s = execFreshDequeue [] (v.check n)
        obtain attempt | attempt := attempt <;>
          simp only [execFreshDequeue, port', carousel, port, attempt, State.dequeueFresh, head, State.withinStore,
            if_pos inside, if_pos inside', ← corrupted, State.upset, State.takeFresh_check okv]
      · show execRefreshRead u s = execRefreshRead [] (v.check n)
        simp only [execRefreshRead, port', carousel, port, attempt, cursor, State.withinStore,
          if_pos inside, if_pos inside', ← corrupted, State.upset, State.readRefresh_check okv]
    case completion =>
      intro n d e t rest port head notVoided inside
      obtain ⟨_, _, _, _, is⟩ := corruption.readOf.trans (v.readOf_check n)
      have port' : (v.check n).port = s.port := by rw [is]
      have inside' : n < (v.check n).slotCount := by rw [is]; exact inside
      refine ⟨fun content => ?_, fun content => ?_⟩
      · show execGrantCompletionUpdate u s = execGrantCompletionUpdate [] (v.check n)
        simp only [execGrantCompletionUpdate, port', port, head, content, notVoided, Bool.false_eq_true, if_false,
          State.withinStore, if_pos inside, if_pos inside', ← corrupted, State.upset, State.updateGrant_check okv]
      · show execRevokeCompletionUpdate u s = execRevokeCompletionUpdate [] (v.check n)
        simp only [execRevokeCompletionUpdate, port', port, head, content, notVoided, Bool.false_eq_true, if_false,
          State.withinStore, if_pos inside, if_pos inside', ← corrupted, State.upset, State.updateRevoke_check okv]
    case visit =>
      intro k ranges o w port engine inside
      obtain ⟨_, _, _, _, is⟩ := corruption.readOf.trans (v.readOf_check w.cursor)
      have port' : (v.check w.cursor).port = s.port := by rw [is]
      have sweep : (v.check w.cursor).sweep = s.sweep := by rw [is]
      have inside' : w.cursor < (v.check w.cursor).slotCount := by rw [is]; exact inside
      show execSweepVisit u s = execSweepVisit [] (v.check w.cursor)
      simp only [execSweepVisit, port', sweep, port, engine, State.withinStore, if_pos inside, if_pos inside',
        ← corrupted, State.upset, State.visit_check okv]
end

