-- ==== Sys2Proof/Proofs/FreshDequeue.lean ====
section
/-! FRESH_DEQUEUE (R86, R91). -/

namespace Sys2Proof.Machine

variable {s v : State} {a : Attempt} {n : Nat} {rest u : List Nat} {g : Grant}

/-- The slot at the head of the fresh queue is read: its entry leaves the queue and its mark becomes NONE (R86). -/
def State.freshRead (v : State) (n : Nat) (rest : List Nat) : State := (v.setFresh rest).clearSlotMark n

theorem State.slot_freshRead (ok : v.storeOk) (n : Nat) (rest : List Nat) :
    (v.freshRead n rest).slot n = { v.slot n with mark := .none } :=
  (v.setFresh rest).slot_putSlot_same n _ ok

theorem State.cell_freshRead (v : State) {n m : Nat} (hm : m ≠ n) (rest : List Nat) :
    (v.freshRead n rest).cell m = v.cell m :=
  (v.setFresh rest).cell_putSlot_other n m _ hm

theorem State.Reads.freshRead (r : s.Reads v a n u) (rest : List Nat) :
    s.ReadTo (v.freshRead n rest) { s.carousel with fresh := rest } := by
  have running := r.running
  obtain ⟨_, rfl⟩ := r.corruption.only
  exact ⟨⟨_, rfl⟩, running⟩

/-- FRESH_DEQUEUE, while the carousel holds the port for a read of the fresh queue, takes the entry at its head; the step
to take up again is the one the attempt stands at (R81, R86). -/
theorem exec_freshDequeue (r : s.Reads v a n u) (step : a = .freshShare ∨ a = .freshRest)
    (head : s.carousel.fresh = n :: rest) :
    exec (.freshDequeue u) s = .next (v.takeFresh n rest a.again) := by
  show execFreshDequeue u s = _
  have attempt := r.attempt
  obtain rfl | rfl := step <;>
    simp only [execFreshDequeue, r.port, attempt, State.dequeueFresh, head, State.withinStore, if_pos r.inside,
      r.corrupted, Attempt.again]

theorem State.takeFresh_of_use (good : (v.cell n).checkGood = true)
    (use : (v.freshRead n rest).freshUse n = some g) (again : State → State) :
    v.takeFresh n rest again = ((v.freshRead n rest).emitCandidate n g Carousel.countFresh).releasePort := by
  rw [State.takeFresh, State.check_good v n good]
  simp only [State.freshRead] at use ⊢
  simp only [use]

theorem State.takeFresh_of_drop (good : (v.cell n).checkGood = true)
    (drop : (v.freshRead n rest).freshUse n = none) (again : State → State) :
    v.takeFresh n rest again = (v.freshRead n rest).releasePort.goOn again := by
  rw [State.takeFresh, State.check_good v n good]
  simp only [State.freshRead] at drop ⊢
  simp only [drop]

/-- The fresh entries that are used: PENDING slots of an event ON-SALE or keyed (R86). -/
theorem State.freshUse_iff (s : State) (n : Nat) (g : Grant) :
    s.freshUse n = some g ↔
      (s.slot n).grant = some g ∧ (s.slot n).state = .pending ∧ (s.event g.event).state.selling = true := by
  rw [State.freshUse]
  cases (s.slot n).grant with
  | none => simp
  | some g' =>
    simp only [Option.ite_none_right_eq_some, Option.some.injEq]
    exact and_comm.trans (and_congr_right fun same => same ▸ Iff.rfl)

/-- The head of the fresh queue is used by what its slot held when it was read. -/
theorem State.Reads.freshUse_iff (r : s.Reads v a n u) (rest : List Nat) (g : Grant) :
    (v.freshRead n rest).freshUse n = some g ↔
      (v.slot n).grant = some g ∧ (v.slot n).state = .pending ∧ (s.event g.event).state.selling = true := by
  rw [State.freshUse_iff, State.slot_freshRead r.corruption.ok, (r.freshRead rest).event]

/-- An entry that is used has its message placed, GRANT or converted, counted in the fresh share (R81, R86, R91). -/
theorem State.Reads.takeFresh_sent (r : s.Reads v a n u) (good : (v.cell n).checkGood = true)
    (use : (v.freshRead n rest).freshUse n = some g) (again : State → State) :
    ∃ b m k, s.Sent b (v.takeFresh n rest again) (Carousel.countFresh { s.carousel with fresh := rest }) m k
      ∧ (∀ j, j ≠ n → b.cell j = v.cell j)
      ∧ ((∀ why, ¬ s.Converts g why) →
          b.slot n = { v.slot n with mark := .none }
          ∧ m = .grant g.decoder g.event (s.event g.event).service g.kind ∧ k = .grant n g.decoder g.event)
      ∧ ∀ why, s.Converts g why →
          b.slot n = { v.slot n with state := .revoking, emissions := 0, reason := some why, mark := .none }
          ∧ m = .revoke g.decoder g.event (s.event g.event).service (some why)
          ∧ k = .revoke n g.decoder g.event := by
  have read := r.freshRead rest
  have ok : (v.freshRead n rest).storeOk := State.putSlot_ok (s := v.setFresh rest) n _ r.corruption.ok
  obtain ⟨b, m, k, emits, emitted, cells, messages⟩ := State.emitCandidate_spec ok read n g Carousel.countFresh
  rw [State.slot_freshRead r.corruption.ok] at messages
  rw [State.takeFresh_of_use good use, emits]
  exact ⟨b, m, k, emitted.sent m k Carousel.countFresh rfl rfl,
    fun j hj => (cells j hj).trans (v.cell_freshRead hj rest), messages⟩

/-- An entry that is dropped lets the attempt go on (R81, R86). -/
theorem State.Reads.takeFresh_barren (r : s.Reads v a n u) (good : (v.cell n).checkGood = true)
    (drop : (v.freshRead n rest).freshUse n = none) :
    s.Barren (v.freshRead n rest) (v.takeFresh n rest a.again) { s.carousel with fresh := rest } a := by
  rw [State.takeFresh_of_drop good drop]
  exact (r.freshRead rest).barren a

/-- Used or dropped, the entry has left the queue, and no slot but the one read has changed. -/
theorem State.Reads.takeFresh_ended (r : s.Reads v a n u) (good : (v.cell n).checkGood = true) (rest : List Nat) :
    ∃ b, s.ReadEnded b (v.takeFresh n rest a.again) { s.carousel with fresh := rest }
      ∧ ∀ j, j ≠ n → b.cell j = v.cell j := by
  cases found : (v.freshRead n rest).freshUse n with
  | some g =>
    obtain ⟨b, _, _, ⟨⟨lists, store, kept⟩, -⟩, cells, -⟩ := r.takeFresh_sent good found a.again
    exact ⟨b, ⟨lists, store, kept⟩, cells⟩
  | none =>
    exact ⟨_, (r.takeFresh_barren good found).toReadEnded, fun j hj => v.cell_freshRead hj rest⟩

end Sys2Proof.Machine

open Sys2Proof Sys2Proof.Machine

/-- Settles O47. The read of the fresh queue's head ends in one of two ways: a message is placed, of which `State.Sent`
says what is left, or the attempt goes on, of which `State.Barren` does. -/
theorem freshDequeueSendsGrant : Obligations.FreshDequeueSendsGrant := by
  unfold Obligations.FreshDequeueSendsGrant
  intro s v a n rest u r step head good
  have use := r.freshUse_iff rest
  obtain ⟨b, ⟨⟨fresh, urgent, cursor, pass⟩, store, kept, notice, counters⟩, cells⟩ := r.takeFresh_ended good rest
  refine ⟨_, exec_freshDequeue r step head, fun m hm => (b.cell_congr _ m store).trans (cells m hm), fresh, urgent,
    cursor, pass, kept, notice, counters, fun g pending held selling => ?used, fun dropped => ?dropped⟩
  case used =>
    obtain ⟨b, m, k, sent, -, unconverted, converted⟩ :=
      r.takeFresh_sent good ((use g).2 ⟨held, pending, selling⟩) a.again
    have written := b.slot_congr _ n sent.store
    have composed := sent.composed
    obtain ⟨-, freshShare⟩ := sent.shares
    refine ⟨freshShare, sent.port, fun keeps => ?_, fun why converts => ?_⟩
    · obtain ⟨same, rfl, rfl⟩ := unconverted keeps
      exact ⟨written.trans same, composed⟩
    · obtain ⟨revoked, rfl, rfl⟩ := converted why converts
      exact ⟨written.trans revoked, composed⟩
  case dropped =>
    have unused (g : Grant) : (v.freshRead n rest).freshUse n ≠ some g := by
      intro found
      obtain ⟨held, pending, selling⟩ := (use g).1 found
      obtain ne | none | ⟨g', held', closed⟩ := dropped
      · exact ne pending
      · exact nomatch held.symm.trans none
      · obtain rfl : g = g' := Option.some.inj (held.symm.trans held')
        exact nomatch selling.symm.trans closed
    have barren := r.takeFresh_barren good (Option.eq_none_iff_forall_ne_some.2 unused)
    exact ⟨(State.slot_congr _ _ n barren.store).trans (State.slot_freshRead r.corruption.ok n rest), barren.goesOn⟩
end

