-- ==== Sys2Proof/Proofs/GrantCompletion.lean ====
section
/-! GRANT_COMPLETION_UPDATE (R97). -/

namespace Sys2Proof.Machine

variable {s v : State} {t : Tag} {rest : List Tag} {n d e : Nat} {u : List Nat}

/-- GRANT_COMPLETION_UPDATE with its tag at the head is the update of the tag's slot. -/
theorem exec_grantCompletionUpdate (up : s.Updates v t rest n u) (content : t.content = .grant n d e) :
    exec (.grantCompletionUpdate u) s = .next ((v.updateGrant n d e).endUpdate rest) := by
  show execGrantCompletionUpdate u s = _
  simp only [execGrantCompletionUpdate, up.port, up.head, content, up.notVoided, State.withinStore,
    if_pos up.inside, up.corrupted, Bool.false_eq_true, if_false]

/-- The update's slot still holds the pair, PENDING, ANNOUNCED or HELD (R97). -/
def Slot.GrantedFor (x : Slot) (d e : Nat) : Prop := x.holds d e = true ∧ x.state.granted = true

theorem State.updateGrant_of_still (good : (v.cell n).checkGood = true) (still : (v.slot n).GrantedFor d e) :
    v.updateGrant n d e = v.putSlot n ((v.slot n).delivered v.settings.record.confirmCount) := by
  rw [State.updateGrant, State.check_good v n good]
  exact if_pos still

theorem State.updateGrant_of_other (good : (v.cell n).checkGood = true) (other : ¬ (v.slot n).GrantedFor d e) :
    v.updateGrant n d e = v := by
  rw [State.updateGrant, State.check_good v n good]
  exact if_neg other

/-- The update touches its slot alone. -/
theorem State.updateGrant_only (good : (v.cell n).checkGood = true) (d e : Nat) :
    (∃ m, v.updateGrant n d e = { v with store := { v.store with memory := m } })
      ∧ ∀ m, m ≠ n → (v.updateGrant n d e).cell m = v.cell m := by
  by_cases still : (v.slot n).GrantedFor d e
  case pos =>
    rw [State.updateGrant_of_still good still]
    exact ⟨⟨_, rfl⟩, fun m hm => v.cell_putSlot_other n m _ hm⟩
  case neg =>
    rw [State.updateGrant_of_other good still]
    exact ⟨⟨_, rfl⟩, fun _ _ => rfl⟩

/-- A completed GRANT message of a slot not HELD yet: ANNOUNCED, and HELD at the confirm count (R97). -/
theorem Slot.delivered_of_unconfirmed {x : Slot} (state : x.state = .pending ∨ x.state = .announced)
    (confirmCount : Nat) :
    x.delivered confirmCount =
      { x with
        emissions := bump255 x.emissions
        state := if confirmCount ≤ bump255 x.emissions then .held else .announced } := by
  have announced : (if x.state = .pending then .announced else x.state) = SlotState.announced := by
    obtain state | state := state <;> simp [state]
  simp only [Slot.delivered, announced, true_and]
  split <;> rfl

/-- A completed GRANT message of a HELD slot is counted (R97). -/
theorem Slot.delivered_of_held {x : Slot} (state : x.state = .held) (confirmCount : Nat) :
    x.delivered confirmCount = { x with emissions := bump255 x.emissions } := by
  simp [Slot.delivered, state]

end Sys2Proof.Machine

open Sys2Proof Sys2Proof.Machine

/-- Settles O49. -/
theorem grantCompletionBooksEmission : Obligations.GrantCompletionBooksEmission := by
  unfold Obligations.GrantCompletionBooksEmission
  intro s v t rest n d e u up content
  have c := up.corruption
  have good := up.good
  obtain ⟨⟨m, only⟩, cells⟩ := State.updateGrant_only good d e
  obtain ⟨_, hv⟩ := c.only
  have settings : v.settings = s.settings := by rw [hv]
  have written : v.updateGrant n d e = { s with store := { s.store with memory := m }, events := s.events } := by
    rw [only, hv]
  have run := exec_grantCompletionUpdate up content
  have events : (v.updateGrant n d e).events = s.events := by rw [written]
  have kept := State.endUpdate_kept ⟨m, s.events, written⟩ (fun k => by rw [written]; rfl) rest
  rw [State.endUpdate_eq] at run kept
  refine ⟨_, run, kept, events, cells, fun g c' held decoder event emitted => ?booked,
    fun ⟨notPending, notAnnounced, notHeld⟩ => ?notGranted, fun unlike => ?unlike⟩
  case booked =>
    subst emitted
    have holds := (Slot.holds_iff _ d e).2 ⟨g, held, decoder, event⟩
    have slot (granted : (v.slot n).state.granted = true) :
        (v.updateGrant n d e).slot n = (v.slot n).delivered s.settings.record.confirmCount := by
      rw [State.updateGrant_of_still good ⟨holds, granted⟩, v.slot_putSlot_same n _ c.ok, settings]
    refine ⟨fun unconfirmed => ?_, fun isHeld => ?_⟩
    · exact (slot ((SlotState.granted_iff _).2 (unconfirmed.imp_right .inl))).trans
        (Slot.delivered_of_unconfirmed unconfirmed _)
    · exact (slot ((SlotState.granted_iff _).2 (.inr (.inr isHeld)))).trans (Slot.delivered_of_held isHeld _)
  case notGranted =>
    have other : ¬ (v.slot n).GrantedFor d e := by
      rintro ⟨-, granted⟩
      obtain is | is | is := (SlotState.granted_iff _).1 granted
      · exact notPending is
      · exact notAnnounced is
      · exact notHeld is
    have slot : (v.updateGrant n d e).slot n = v.slot n := by rw [State.updateGrant_of_other good other]
    exact slot
  case unlike =>
    have other : ¬ (v.slot n).GrantedFor d e := by
      rintro ⟨holds, -⟩
      obtain ⟨g, held, pair⟩ := (Slot.holds_iff _ d e).1 holds
      exact unlike g held pair
    have slot : (v.updateGrant n d e).slot n = v.slot n := by rw [State.updateGrant_of_other good other]
    exact slot
end

