-- ==== Sys2Proof/Proofs/PacketBytes.lean ====
section
/-! Packets, scrambler records and what the unit drives, byte by byte (R93, R94, R118, R160, R185). -/

namespace Sys2Proof.Machine

variable {b p : List Byte} {o e m n v : Nat} {x : Byte}

/-! ## Parts that follow one another -/

/-- The bytes of `p` stand in `b` from offset `o` on. -/
def BytesAt (b : List Byte) (o : Nat) (p : List Byte) : Prop := ∀ i, i < p.length → byteAt b (o + i) = byteAt p i

/-- The parts stand in `b` one after another from offset `o` on. -/
def LaidAt (b : List Byte) : Nat → List (List Byte) → Prop
  | _, [] => True
  | o, p :: ps => BytesAt b o p ∧ LaidAt b (o + p.length) ps

theorem bytesAt_append (a p rest : List Byte) : BytesAt (a ++ (p ++ rest)) a.length p := by
  intro i inside
  rw [byteAt, List.getD_append_right _ _ _ _ (by omega), Nat.add_sub_cancel_left, List.getD_append _ _ _ _ inside, byteAt]

theorem laidAt_append (a : List Byte) (ps : List (List Byte)) (rest : List Byte) :
    LaidAt (a ++ (ps.flatten ++ rest)) a.length ps := by
  induction ps generalizing a with
  | nil => trivial
  | cons p ps ih =>
    have next := ih (a ++ p)
    rw [List.length_append, List.append_assoc, ← List.append_assoc p] at next
    refine ⟨?_, by rwa [List.flatten_cons]⟩
    rw [List.flatten_cons, List.append_assoc]
    exact bytesAt_append a p _

theorem laidAt_flatten (ps : List (List Byte)) (rest : List Byte) : LaidAt (ps.flatten ++ rest) 0 ps :=
  laidAt_append [] ps rest

theorem laidAt_cons (p : List Byte) (ps : List (List Byte)) :
    LaidAt b o (p :: ps) ↔ BytesAt b o p ∧ LaidAt b (o + p.length) ps := Iff.rfl

theorem laidAt_nil : LaidAt b o [] := trivial

/-! ## What a part holds -/

theorem byteAt_leBytes (v : Nat) {i : Nat} (inside : i < n) : byteAt (leBytes n v) i = BitVec.ofNat 8 (v / 256 ^ i) := by
  induction n generalizing v i with
  | zero => omega
  | succ n ih =>
    cases i with
    | zero => rw [Nat.pow_zero, Nat.div_one]; rfl
    | succ i =>
      rw [leBytes, byteAt_cons_succ, ih (v / 256) (by omega), Nat.div_div_eq_div_mul, ← Nat.pow_succ']

theorem holdsAt_of_bytesAt (h : BytesAt b o (leBytes n v)) : holdsAt b o n v := by
  intro i inside
  rw [h i (by rwa [length_leBytes]), byteAt_leBytes v inside]

theorem holdsAt_one_of_bytesAt (h : BytesAt b o [byte1 v]) : holdsAt b o 1 v := by
  intro i inside
  obtain rfl : i = 0 := by omega
  rw [h 0 Nat.zero_lt_one, Nat.pow_zero, Nat.div_one]
  rfl

theorem filledAt_of_bytesAt (h : BytesAt b o (List.replicate n x)) : filledAt b o (o + n) x := by
  intro i low high
  obtain ⟨k, rfl⟩ := Nat.exists_eq_add_of_le low
  have inside : k < n := by omega
  rw [h k (by rwa [List.length_replicate]), byteAt, List.getD_replicate _ inside]

theorem BytesAt.left {q : List Byte} (h : BytesAt b o (p ++ q)) : BytesAt b o p := by
  intro i inside
  rw [h i (by rw [List.length_append]; omega), byteAt, List.getD_append _ _ _ _ inside, byteAt]

theorem BytesAt.right {q : List Byte} (h : BytesAt b o (p ++ q)) : BytesAt b (o + p.length) q := by
  intro i inside
  rw [Nat.add_assoc, h (p.length + i) (by rw [List.length_append]; omega), byteAt,
    List.getD_append_right _ _ _ _ (by omega), Nat.add_sub_cancel_left, byteAt]

/-- The number 0 in any width is bytes of 0. -/
theorem filledAt_of_holdsAt_zero (h : holdsAt b o n 0) : filledAt b o (o + n) 0#8 := by
  intro i low high
  obtain ⟨k, rfl⟩ := Nat.exists_eq_add_of_le low
  rw [h k (by omega), Nat.zero_div]

theorem filledAt_join (first : filledAt b o m x) (second : filledAt b m e x) : filledAt b o e x := by
  intro i low high
  by_cases before : i < m
  · exact first i low before
  · exact second i (by omega) high

/-- The absent key is bytes of 0. -/
theorem length_keyBytes (k : Option Key) : (keyBytes k).length = 16 := by
  cases k with
  | none => rfl
  | some k => exact length_leBytes 16 k.toNat

/-! ## The blackout list (R94, R185) -/

theorem byteAt_rangeBytes {rs : List Range} {i : Nat} {r : Range} (at_i : rs[i]? = some r) :
    byteAt (rangeBytes rs) (2 * i) = byte1 r.low ∧ byteAt (rangeBytes rs) (2 * i + 1) = byte1 r.high := by
  induction rs generalizing i with
  | nil => exact nomatch at_i
  | cons r' rs ih =>
    cases i with
    | zero =>
      obtain rfl : r' = r := Option.some.inj at_i
      exact ⟨rfl, rfl⟩
    | succ i => exact ih at_i

theorem eightRanges_eq {rs : List Range} (few : rs.length ≤ 8) :
    eightRanges rs = rangeBytes rs ++ List.replicate (16 - 2 * rs.length) 0#8 := by
  rw [eightRanges, List.take_append, length_rangeBytes, List.take_of_length_le (by rw [length_rangeBytes]; omega), zeros,
    List.take_replicate, Nat.min_eq_left (by omega)]

/-! ## Packets (R185) -/

theorem Message.length_covered (m : Message) : m.covered.length = 62 := by
  rw [Message.covered, List.length_take, List.length_append, List.length_replicate]
  omega

theorem Message.length_bytes (m : Message) : m.bytes.length = 64 := by
  rw [Message.bytes, List.length_append, m.length_covered, crcBytes, length_leBytes]

theorem Message.crc_bytes (m : Message) : m.bytes.drop 62 = crcBytes (m.bytes.take 62) := by
  rw [Message.bytes, List.drop_left' m.length_covered, List.take_left' m.length_covered]

/-- A body given in parts, after it FFh up to the CRC. -/
theorem Message.laidAt_bytes (m : Message) (ps : List (List Byte)) (body : m.bodyBytes = ps.flatten)
    (length : ps.flatten.length = n) (short : n ≤ 62) :
    LaidAt m.bytes 0 ps ∧ filledAt m.bytes n 62 0xFF#8 := by
  have bytes : m.bytes = (ps ++ [List.replicate (62 - n) 0xFF#8]).flatten ++ crcBytes m.covered := by
    rw [Message.bytes, List.flatten_append, List.flatten_singleton]
    refine congrArg (fun l : List Byte => l ++ crcBytes m.covered) ?_
    rw [Message.covered, body, List.take_append, length, List.take_of_length_le (by omega), List.take_replicate,
      Nat.min_eq_left (by omega)]
  have fill := bytesAt_append ps.flatten (List.replicate (62 - n) 0xFF#8) (crcBytes m.covered)
  rw [List.flatten_append, List.flatten_singleton] at bytes
  have filled := filledAt_of_bytesAt fill
  rw [length, Nat.add_sub_cancel' short, ← List.append_assoc, ← bytes] at filled
  refine ⟨?_, filled⟩
  rw [bytes, List.append_assoc]
  exact laidAt_flatten ps _

/-- The KEY message (R185): the current epoch, its parity and key absent together, and so the next epoch and key. -/
theorem Message.key_holds (service event epoch : Nat) (current : Option Key) (next : Option (Nat × Key))
    (openView : Bool) {b : List Byte} (is : b = (Message.key service event epoch current next openView).bytes) :
    byteAt b 0 = 1#8 ∧ holdsAt b 1 2 service ∧ holdsAt b 3 1 event
      ∧ holdsAt b 4 1 (flagsByte [current.isSome, next.isSome, openView])
      ∧ holdsAt b 5 2 (if current.isSome then epoch else 0)
      ∧ holdsAt b 7 1 (if current.isSome then parity epoch else 0) ∧ BytesAt b 8 (keyBytes current)
      ∧ holdsAt b 24 2 (nextEpochOf next) ∧ BytesAt b 26 (keyBytes (nextKeyOf next)) ∧ filledAt b 42 62 0xFF#8 := by
  obtain ⟨laid, fill⟩ := Message.laidAt_bytes (n := 42) (.key service event epoch current next openView)
    [[1#8], leBytes 2 service, [byte1 event], [byte1 (flagsByte [current.isSome, next.isSome, openView])],
      leBytes 2 (if current.isSome then epoch else 0), [byte1 (if current.isSome then parity epoch else 0)],
      keyBytes current, leBytes 2 (nextEpochOf next), keyBytes (nextKeyOf next)]
    (by simp [Message.bodyBytes]) (by simp [length_leBytes, length_keyBytes]) (by omega)
  rw [← is] at laid fill
  simp only [laidAt_cons, List.length_cons, List.length_nil, length_leBytes, length_keyBytes, Nat.reduceAdd] at laid
  obtain ⟨kind, serviceAt, eventAt, flags, epochAt, parityAt, currentAt, nextEpoch, nextAt, -⟩ := laid
  exact ⟨kind 0 Nat.zero_lt_one, holdsAt_of_bytesAt serviceAt, holdsAt_one_of_bytesAt eventAt,
    holdsAt_one_of_bytesAt flags, holdsAt_of_bytesAt epochAt, holdsAt_one_of_bytesAt parityAt, currentAt,
    holdsAt_of_bytesAt nextEpoch, nextAt, fill⟩

/-- The STATE message (R185). -/
theorem Message.state_holds (service event live close : Nat) (carried : EventState) (ranges : List Range)
    {b : List Byte} (is : b = (Message.state service event carried live close ranges).bytes) :
    byteAt b 0 = 2#8 ∧ holdsAt b 1 2 service ∧ holdsAt b 3 1 event ∧ holdsAt b 4 1 carried.number
      ∧ holdsAt b 5 3 live ∧ holdsAt b 8 3 close ∧ holdsAt b 11 1 ranges.length ∧ BytesAt b 12 (eightRanges ranges)
      ∧ filledAt b 28 62 0xFF#8 := by
  obtain ⟨laid, fill⟩ := Message.laidAt_bytes (n := 28) (.state service event carried live close ranges)
    [[2#8], leBytes 2 service, [byte1 event], [byte1 carried.number], leBytes 3 live, leBytes 3 close,
      [byte1 ranges.length], eightRanges ranges]
    (by simp [Message.bodyBytes]) (by simp [length_leBytes, length_eightRanges]) (by omega)
  rw [← is] at laid fill
  simp only [laidAt_cons, List.length_cons, List.length_nil, length_leBytes, length_eightRanges, Nat.reduceAdd] at laid
  obtain ⟨kind, serviceAt, eventAt, carriedAt, liveAt, closeAt, number, list, -⟩ := laid
  exact ⟨kind 0 Nat.zero_lt_one, holdsAt_of_bytesAt serviceAt, holdsAt_one_of_bytesAt eventAt,
    holdsAt_one_of_bytesAt carriedAt, holdsAt_of_bytesAt liveAt, holdsAt_of_bytesAt closeAt,
    holdsAt_one_of_bytesAt number, list, fill⟩

/-- A GRANT and a REVOKE message carry a pair, a service and one more number (R185). -/
theorem Message.pair_holds {m : Message} {k : Byte} {decoder event service last : Nat}
    (body : m.bodyBytes = k :: leBytes 4 decoder ++ [byte1 event] ++ leBytes 2 service ++ [byte1 last])
    {b : List Byte} (is : b = m.bytes) :
    byteAt b 0 = k ∧ holdsAt b 1 4 decoder ∧ holdsAt b 5 1 event ∧ holdsAt b 6 2 service ∧ holdsAt b 8 1 last
      ∧ filledAt b 9 62 0xFF#8 := by
  obtain ⟨laid, fill⟩ := m.laidAt_bytes (n := 9)
    [[k], leBytes 4 decoder, [byte1 event], leBytes 2 service, [byte1 last]]
    (by simp [body]) (by simp [length_leBytes]) (by omega)
  rw [← is] at laid fill
  simp only [laidAt_cons, List.length_cons, List.length_nil, length_leBytes, Nat.reduceAdd] at laid
  obtain ⟨kind, decoderAt, eventAt, serviceAt, lastAt, -⟩ := laid
  exact ⟨kind 0 Nat.zero_lt_one, holdsAt_of_bytesAt decoderAt, holdsAt_one_of_bytesAt eventAt,
    holdsAt_of_bytesAt serviceAt, holdsAt_one_of_bytesAt lastAt, fill⟩

/-! ## Scrambler records (R185) -/

theorem ScramblerPayload.switch_holds (service epoch : Nat) (key : Key) {b : List Byte}
    (is : b = (ScramblerPayload.switch service epoch key).bytes) :
    b.length = 22 ∧ holdsAt b 0 1 1 ∧ holdsAt b 1 2 service ∧ holdsAt b 3 2 epoch ∧ holdsAt b 5 1 (epoch % 2)
      ∧ holdsAt b 6 16 key.toNat := by
  have laid := laidAt_flatten
    [[byte1 1], leBytes 2 service, leBytes 2 epoch, [byte1 (epoch % 2)], leBytes 16 key.toNat] []
  have bytes : b = List.flatten
      [[byte1 1], leBytes 2 service, leBytes 2 epoch, [byte1 (epoch % 2)], leBytes 16 key.toNat] := by
    rw [is]
    simp [ScramblerPayload.bytes, parity, byte1]
  rw [List.append_nil, ← bytes] at laid
  simp only [laidAt_cons, List.length_cons, List.length_nil, length_leBytes, Nat.reduceAdd] at laid
  obtain ⟨type, serviceAt, epochAt, parityAt, keyAt, -⟩ := laid
  exact ⟨by simp [bytes, length_leBytes], holdsAt_one_of_bytesAt type, holdsAt_of_bytesAt serviceAt,
    holdsAt_of_bytesAt epochAt, holdsAt_one_of_bytesAt parityAt, holdsAt_of_bytesAt keyAt⟩

theorem ScramblerPayload.clear_holds (service : Nat) {b : List Byte}
    (is : b = (ScramblerPayload.clear service).bytes) :
    b.length = 22 ∧ holdsAt b 0 1 2 ∧ holdsAt b 1 2 service ∧ filledAt b 3 22 0#8 := by
  have laid := laidAt_flatten [[byte1 2], leBytes 2 service, List.replicate 19 0#8] []
  have bytes : b = List.flatten [[byte1 2], leBytes 2 service, List.replicate 19 0#8] := by
    rw [is]
    simp [ScramblerPayload.bytes, byte1, zeros]
  rw [List.append_nil, ← bytes] at laid
  simp only [laidAt_cons, List.length_cons, List.length_nil, length_leBytes, Nat.reduceAdd] at laid
  obtain ⟨type, serviceAt, zerosAt, -⟩ := laid
  exact ⟨by simp [bytes, length_leBytes], holdsAt_one_of_bytesAt type, holdsAt_of_bytesAt serviceAt,
    filledAt_of_bytesAt zerosAt⟩

end Sys2Proof.Machine
end

