-- ==== Sys2Proof/Proofs/MessagesDriven.lean ====
section
/-! The messages of an event, their bytes, and what the unit drives (R93, R94, R118, R124, R160, R167, R185). -/

namespace Sys2Proof.Machine

variable {s : State} {r : EventRecord} {w : Window}

/-! ## The messages of a record (R93, R94) -/

theorem EventRecord.keyMessage_of_onSale (window : r.window = some w) (onSale : r.state = .onSale) {k : Key}
    (next : r.keys.next = some k) (n : Nat) :
    r.keyMessage n = .key w.service n 0 none (some (r.keys.epoch + 1, k)) false := by
  simp [EventRecord.keyMessage, EventRecord.service, KeyFields.announced, window, onSale, next]

theorem EventRecord.keyMessage_of_keyed (window : r.window = some w) (keyed : r.state.keyed = true) (n : Nat) :
    r.keyMessage n =
      .key w.service n r.keys.epoch r.keys.current
        (match r.keys.next with | none => none | some k => some (r.keys.epoch + 1, k))
        (decide (r.state = .preview)) := by
  have notOnSale : r.state ≠ .onSale := fun onSale => by rw [onSale] at keyed; exact nomatch keyed
  have announced : r.keys.announced =
      (match r.keys.next with | none => none | some k => some (r.keys.epoch + 1, k)) := by
    unfold KeyFields.announced
    cases r.keys.next <;> rfl
  rw [EventRecord.keyMessage, EventRecord.service, window, if_neg notOnSale, if_neg notOnSale, announced]

theorem EventRecord.stateMessage_of_window (window : r.window = some w) {close : Nat}
    (effective : r.effectiveClose = some close) (n : Nat) :
    r.stateMessage n = .state w.service n r.state w.liveStart close r.blackout := by
  rw [EventRecord.effectiveClose, window] at effective
  rw [EventRecord.stateMessage, window, ← Option.some.inj effective]

/-! ## What the unit drives (R118, R124, R160, R167) -/

theorem State.ownAddress_of_named (low : 1 ≤ s.straps.unitAddress.val) (high : s.straps.unitAddress.val ≤ 30) :
    s.ownAddress = some s.straps.unitAddress.val :=
  if_pos (by simp [within, low, high])

theorem State.ownAddress_of_listenOnly
    (unnamed : s.straps.unitAddress.val = 0 ∨ s.straps.unitAddress.val = 31) : s.ownAddress = none := by
  obtain unnamed | unnamed := unnamed <;> simp [State.ownAddress, unnamed, within]

theorem State.replyLine_of_silent (silent : (∀ r, s.link.holder ≠ .replying r) ∨ s.ownAddress = none) :
    s.replyLine = [] := by
  unfold State.replyLine
  cases holder : s.link.holder with
  | free | held _ => rfl
  | replying r =>
    obtain notReplying | none := silent
    · exact absurd holder (notReplying r)
    · rw [none]

theorem State.recordLines_of_head {r : ScramblerRecord} {rest : List ScramblerRecord}
    (head : s.scrambler.queue = r :: rest) :
    s.recordLines = if s.scrambler.ready = true then some r.payload.bytes else none := by
  simp [State.recordLines, State.presenting, head]

end Sys2Proof.Machine

open Sys2Proof Sys2Proof.Machine

/-- Settles O45. The bytes of each packet and record are `Message.key_holds`, `Message.state_holds`,
`Message.pair_holds`, `ScramblerPayload.switch_holds` and `ScramblerPayload.clear_holds`. -/
theorem messagesAndPackets : Obligations.MessagesAndPackets := by
  unfold Obligations.MessagesAndPackets
  refine ⟨fun r n w window => ⟨fun onSale k next => EventRecord.keyMessage_of_onSale window onSale next n,
      fun keyed => EventRecord.keyMessage_of_keyed window keyed n⟩,
    fun r n w close window effective => EventRecord.stateMessage_of_window window effective n,
    fun m => ⟨m.length_bytes, m.crc_bytes, ?kind⟩, ⟨?key, ?state, ?grant, ?revoke⟩,
    ⟨fun service epoch key b => ScramblerPayload.switch_holds service epoch key,
      fun service b => ScramblerPayload.clear_holds service⟩,
    ⟨?reply, ?silent, fun s r rest => State.recordLines_of_head, ?noRecord, ?packet, ?noPacket⟩⟩
  case kind =>
    cases m with
    | key service event epoch current next openView => exact (Message.key_holds _ _ _ _ _ _ rfl).1
    | state service event carried live close ranges => exact (Message.state_holds _ _ _ _ _ _ rfl).1
    | grant decoder event service kind => exact (Message.pair_holds rfl rfl).1
    | revoke decoder event service reason => exact (Message.pair_holds rfl rfl).1
  case key =>
    intro service event epoch current next openView b is
    obtain ⟨-, serviceAt, eventAt, flags, epochAt, parityAt, currentAt, nextEpoch, nextAt, fill⟩ :=
      Message.key_holds service event epoch current next openView is
    refine ⟨serviceAt, eventAt, ?_, fun k present => ?_, fun absent => ?_, fun e k present => ?_, fun absent => ?_, fill⟩
    · rw [flagsByte_three] at flags
      convert flags using 2
      · cases current <;> cases next <;> rfl
      · cases openView <;> rfl
    · subst present
      exact ⟨epochAt, parityAt, holdsAt_of_bytesAt currentAt⟩
    · subst absent
      exact filledAt_join (filledAt_of_holdsAt_zero epochAt)
        (filledAt_join (filledAt_of_holdsAt_zero parityAt) (filledAt_of_bytesAt currentAt))
    · subst present
      exact ⟨nextEpoch, holdsAt_of_bytesAt nextAt⟩
    · subst absent
      exact filledAt_join (filledAt_of_holdsAt_zero nextEpoch) (filledAt_of_bytesAt nextAt)
  case state =>
    intro service event live close carried ranges b few is
    obtain ⟨-, serviceAt, eventAt, carriedAt, liveAt, closeAt, number, list, fill⟩ :=
      Message.state_holds service event live close carried ranges is
    rw [eightRanges_eq few] at list
    refine ⟨serviceAt, eventAt, ?_, liveAt, closeAt, number, fun i r at_i => ?_, ?_, fill⟩
    · cases carried <;> exact carriedAt
    · have inside := (List.getElem?_eq_some_iff.1 at_i).1
      obtain ⟨low, high⟩ := byteAt_rangeBytes at_i
      have bytes := list.left
      refine ⟨holdsAt_one_of_bytesAt fun j hj => ?_, holdsAt_one_of_bytesAt fun j hj => ?_⟩
      · obtain rfl : j = 0 := Nat.lt_one_iff.1 hj
        exact (bytes (2 * i) (by rw [length_rangeBytes]; omega)).trans low
      · obtain rfl : j = 0 := Nat.lt_one_iff.1 hj
        rw [show 13 + 2 * i + 0 = 12 + (2 * i + 1) by omega]
        exact (bytes (2 * i + 1) (by rw [length_rangeBytes]; omega)).trans high
    · have zeros := filledAt_of_bytesAt list.right
      rwa [length_rangeBytes, show 12 + 2 * ranges.length + (16 - 2 * ranges.length) = 28 by omega] at zeros
  case grant =>
    intro decoder event service kind b is
    obtain ⟨-, decoderAt, eventAt, serviceAt, kindAt, fill⟩ := Message.pair_holds rfl is
    refine ⟨decoderAt, eventAt, serviceAt, ?_, fill⟩
    cases kind <;> exact kindAt
  case revoke =>
    intro decoder event service reason b is
    obtain ⟨-, decoderAt, eventAt, serviceAt, reasonAt, fill⟩ := Message.pair_holds rfl is
    refine ⟨decoderAt, eventAt, serviceAt, ?_, fill⟩
    rcases reason with _ | (_ | _ | _) <;> exact reasonAt
  case reply =>
    intro s r covered replying low high is
    rw [State.replyLine, replying, State.ownAddress_of_named low high, is]
    rfl
  case silent =>
    exact fun s silent => State.replyLine_of_silent (silent.imp_right State.ownAddress_of_listenOnly)
  case noRecord =>
    intro s empty
    simp [State.recordLines, State.presenting, empty]
  case packet =>
    intro s p sending
    rw [State.dataLines, sending]
  case noPacket =>
    intro s none
    rw [State.dataLines, none]
end

