-- ==== Sys2Proof/Proofs/SlotLaws.lean ====
section
/-! The laws of R31 and R40 under the operations on slots and queues. -/

namespace Sys2Proof.Machine

variable {s t w : State} {n m d e : Nat} {x y : Slot} {rest : List Nat}

/-- The slot memory is in canonical form, and the laws of R31 and R40 hold. -/
structure State.Tidy (s : State) : Prop where
  ok : s.storeOk
  marks : s.QueueMarks
  pairs : s.PairsLiveOnce

/-- A slot written from `x` to `y` gains no live grant and does not become EMPTY. -/
structure Slot.Succeeds (x y : Slot) : Prop where
  live : ∀ d e, y.LiveFor d e → x.LiveFor d e
  empty : y.state = .empty → x.state = .empty

theorem Slot.Succeeds.of_same (state : y.state = x.state) (grant : y.grant = x.grant) : x.Succeeds y where
  live d e live := by
    unfold Slot.LiveFor at live ⊢
    rwa [state, grant] at live
  empty empty := state ▸ empty

theorem Slot.Succeeds.refl (x : Slot) : x.Succeeds x := .of_same rfl rfl

/-- A slot written to a state that is neither live nor EMPTY. -/
theorem Slot.Succeeds.of_ended (ended : y.state = .vacant ∨ y.state = .damaged) : x.Succeeds y where
  live d e := by
    rintro ⟨live, -⟩
    obtain state | state := ended <;> rw [state] at live <;> obtain is | is | is | is := live <;> exact nomatch is
  empty empty := by
    obtain state | state := ended <;> rw [state] at empty <;> exact nomatch empty

theorem SlotState.isLive_iff (a : SlotState) :
    a.isLive = true ↔ a = .pending ∨ a = .announced ∨ a = .held ∨ a = .revoking := by
  cases a <;> decide

/-- A slot that was live keeps its grant. -/
theorem Slot.Succeeds.of_live (live : x.state.isLive = true) (grant : y.grant = x.grant) (notEmpty : y.state ≠ .empty) :
    x.Succeeds y where
  live d e was := by
    obtain ⟨-, g, held, pair⟩ := was
    exact ⟨(SlotState.isLive_iff _).1 live, g, grant ▸ held, pair⟩
  empty empty := absurd empty notEmpty

/-! ## The laws, from one state to another -/

theorem State.home_congr (count : t.slotCount = s.slotCount) (d e : Nat) : t.home d e = s.home d e := by
  rw [State.home, count, State.home]

theorem State.PairsLiveOnce.succeed (law : s.PairsLiveOnce) (count : t.slotCount = s.slotCount)
    (slots : ∀ n, n < s.slotCount → (s.slot n).Succeeds (t.slot n)) : t.PairsLiveOnce where
  once m n d e hm hn live live' := by
    rw [count] at hm hn
    exact law.once m n d e hm hn ((slots m hm).live d e live) ((slots n hn).live d e live')
  reached n d e hn live := by
    rw [count] at hn
    obtain ⟨i, inWindow, is, before⟩ := law.reached n d e hn ((slots n hn).live d e live)
    rw [State.home_congr count, count]
    refine ⟨i, inWindow, is, fun j hj empty => before j hj ?_⟩
    exact (slots _ (Nat.mod_lt _ (Nat.zero_lt_of_lt hn))).empty empty

theorem State.QueueMarks.same (law : s.QueueMarks) (count : t.slotCount = s.slotCount) (queues : s.SameQueues t)
    (marks : ∀ n, n < s.slotCount → (t.slot n).mark = (s.slot n).mark) : t.QueueMarks where
  once := by rw [queues.fresh, queues.urgent]; exact law.once
  inside n mem := by
    rw [queues.fresh, queues.urgent] at mem
    exact count ▸ law.inside n mem
  fresh n hn := by
    rw [count] at hn
    rw [marks n hn, queues.fresh]
    exact law.fresh n hn
  urgent n hn := by
    rw [count] at hn
    rw [marks n hn, queues.urgent]
    exact law.urgent n hn

/-- What the laws speak of: the slot memory, the sizes in force and the queues. -/
structure State.SameSlots (s t : State) : Prop extends s.SameQueues t where
  memory : t.store.memory = s.store.memory
  sizeA : t.store.sizeA = s.store.sizeA
  sizeB : t.store.sizeB = s.store.sizeB

theorem State.SameSlots.of_queues (store : t.store = s.store) (queues : s.SameQueues t) : s.SameSlots t :=
  ⟨queues, by rw [store], by rw [store], by rw [store]⟩

theorem State.SameSlots.of_same (store : t.store = s.store) (carousel : t.carousel = s.carousel) : s.SameSlots t :=
  .of_queues store (.of_carousel carousel)

theorem State.SameSlots.count (same : s.SameSlots t) : t.slotCount = s.slotCount := by
  rw [State.slotCount, same.sizeA, same.sizeB, State.slotCount]

theorem State.SameSlots.slot (same : s.SameSlots t) (n : Nat) : t.slot n = s.slot n := by
  rw [State.slot, State.cell, same.memory]
  rfl

theorem State.Tidy.same (tidy : s.Tidy) (same : s.SameSlots t) : t.Tidy where
  ok := s.storeOk_congr t same.memory tidy.ok
  marks := tidy.marks.same same.count same.toSameQueues fun n _ => by rw [same.slot]
  pairs := tidy.pairs.succeed same.count fun n _ => by rw [same.slot]; exact .refl _

/-! ## Writes and reads of slots (R32, R33, R38) -/

/-- Slots are read back from a write as they were written. -/
theorem State.slot_putSlot (ok : s.storeOk) (n : Nat) (x : Slot) (m : Nat) :
    (s.putSlot n x).slot m = if m = n then x else s.slot m := by
  split
  case isTrue same => rw [same, s.slot_putSlot_same n x ok]
  case isFalse other => exact s.slot_putSlot_other n m x other

theorem State.Tidy.putSlot (tidy : s.Tidy) (n : Nat) (mark : n < s.slotCount → x.mark = (s.slot n).mark)
    (slot : n < s.slotCount → (s.slot n).Succeeds x) : (s.putSlot n x).Tidy where
  ok := s.putSlot_ok n x tidy.ok
  marks := by
    refine tidy.marks.same rfl ⟨rfl, rfl⟩ fun m hm => ?_
    rw [State.slot_putSlot tidy.ok]
    split
    case isTrue same => exact same ▸ mark (same ▸ hm)
    case isFalse => rfl
  pairs := by
    refine tidy.pairs.succeed rfl fun m hm => ?_
    rw [State.slot_putSlot tidy.ok]
    split
    case isTrue same => exact same ▸ slot (same ▸ hm)
    case isFalse => exact .refl _

/-- Corruption reaches check bytes alone (log 10). -/
theorem State.Tidy.upset (tidy : s.Tidy) (u : List Nat) : (s.upset u).Tidy := by
  induction u generalizing s with
  | nil => exact tidy
  | cons n ns ih =>
    refine ih ?_
    have slot (m : Nat) : (s.upsetSlot n).slot m = s.slot m := by
      unfold State.upsetSlot
      split
      case isFalse => rfl
      case isTrue =>
        by_cases same : m = n
        · subst same
          have cell := Memory.read_write_same s.store.memory m { slot := s.slot m, checkGood := false } tidy.ok
          exact (congrArg Cell.slot cell :)
        · exact congrArg Cell.slot (s.cell_putCell_other n m _ same)
    have count : (s.upsetSlot n).slotCount = s.slotCount := by
      unfold State.upsetSlot
      split <;> rfl
    exact {
      ok := s.upsetSlot_ok n tidy.ok
      marks := tidy.marks.same count (.of_carousel (by simp)) fun m _ => by rw [slot]
      pairs := tidy.pairs.succeed count fun m _ => by rw [slot]; exact .refl _ }

/-- The queues give a slot the mark it has (R33, R40). -/
theorem State.QueueMarks.markFromQueues_eq (law : s.QueueMarks) (inside : n < s.slotCount) :
    s.markFromQueues n = (s.slot n).mark := by
  unfold State.markFromQueues
  split
  case isTrue mem => exact ((law.fresh n inside).2 mem).symm
  case isFalse notFresh =>
    split
    case isTrue mem => exact ((law.urgent n inside).2 mem).symm
    case isFalse notUrgent =>
      cases mark : (s.slot n).mark with
      | none => rfl
      | fresh => exact absurd ((law.fresh n inside).1 mark) notFresh
      | urgent => exact absurd ((law.urgent n inside).1 mark) notUrgent

theorem State.Tidy.check (tidy : s.Tidy) (n : Nat) : (s.check n).Tidy := by
  unfold State.check
  split
  case isTrue => exact tidy
  case isFalse =>
    refine (tidy.putSlot (x := damagedSlot (s.markFromQueues n)) n (fun inside => tidy.marks.markFromQueues_eq inside)
      (fun _ => .of_ended (.inr rfl))).same ?_
    exact ⟨⟨rfl, rfl⟩, rfl, rfl, rfl⟩

theorem State.Tidy.lookup (tidy : s.Tidy) (d e : Nat) : (s.lookup d e).2.Tidy := by
  have folded (l : List Nat) : ∀ {a : State}, a.Tidy → (l.foldl State.check a).Tidy := by
    induction l with
    | nil => exact id
    | cons n ns ih => exact fun a => ih (a.check n)
  obtain ⟨before, after, -, state, -⟩ := s.lookup_ends d e (.inl tidy.ok)
  rw [state]
  exact folded _ tidy

/-! ## The queues (R40, R41, R85, R86) -/

/-- The unit with other queues and the mark of one slot rewritten. -/
def State.requeue (s : State) (n : Nat) (mark : QueueMark) (fresh urgent : List Nat) : State :=
  ((s.setFresh fresh).setUrgent urgent).putSlot n { s.slot n with mark := mark }

/-- A number comes to or goes from the queues with its mark (R40). -/
theorem State.Tidy.requeue (tidy : s.Tidy) (inside : n < s.slotCount) {mark : QueueMark} {fresh urgent : List Nat}
    (once : (fresh ++ urgent).Nodup)
    (others : ∀ m, m ≠ n → (m ∈ fresh ↔ m ∈ s.carousel.fresh) ∧ (m ∈ urgent ↔ m ∈ s.carousel.urgent))
    (self : (mark = .fresh ↔ n ∈ fresh) ∧ (mark = .urgent ↔ n ∈ urgent)) :
    (s.requeue n mark fresh urgent).Tidy := by
  have slot (m : Nat) : (s.requeue n mark fresh urgent).slot m =
      if m = n then { s.slot n with mark := mark } else s.slot m :=
    State.slot_putSlot (s := (s.setFresh fresh).setUrgent urgent) tidy.ok n _ m
  refine ⟨State.putSlot_ok (s := (s.setFresh fresh).setUrgent urgent) n _ tidy.ok, ⟨once, ?inside, ?fresh, ?urgent⟩,
    tidy.pairs.succeed rfl fun m _ => ?slots⟩
  case inside =>
    intro m mem
    by_cases same : m = n
    · exact same ▸ inside
    · obtain ⟨ofFresh, ofUrgent⟩ := others m same
      exact tidy.marks.inside m (List.mem_append.2 ((List.mem_append.1 mem).imp ofFresh.1 ofUrgent.1))
  case fresh =>
    intro m hm
    rw [slot]
    split
    case isTrue same => exact same ▸ self.1
    case isFalse other => exact (tidy.marks.fresh m hm).trans (others m other).1.symm
  case urgent =>
    intro m hm
    rw [slot]
    split
    case isTrue same => exact same ▸ self.2
    case isFalse other => exact (tidy.marks.urgent m hm).trans (others m other).2.symm
  case slots =>
    rw [slot]
    split
    case isTrue same => exact same ▸ .of_same rfl rfl
    case isFalse => exact .refl _

theorem mem_cons_iff_of_ne {l : List Nat} (other : m ≠ n) : m ∈ l ↔ m ∈ n :: l := by
  rw [List.mem_cons, or_iff_right other]

/-- The entry at the head of the fresh queue leaves it, and its mark goes (R86). -/
theorem State.Tidy.freshRead (tidy : s.Tidy) (head : s.carousel.fresh = n :: rest) : (s.freshRead n rest).Tidy := by
  have once := tidy.marks.once
  have inside := tidy.marks.inside n (by rw [head]; exact .head _)
  rw [head, List.cons_append, List.nodup_cons, List.mem_append] at once
  obtain ⟨gone, once⟩ := once
  have requeued : (s.requeue n .none rest s.carousel.urgent).Tidy := by
    refine tidy.requeue inside once (fun m other => ⟨?_, Iff.rfl⟩)
      ⟨iff_of_false nofun (gone <| .inl ·), iff_of_false nofun (gone <| .inr ·)⟩
    rw [head]
    exact mem_cons_iff_of_ne other
  exact requeued.same ⟨⟨rfl, rfl⟩, rfl, rfl, rfl⟩

/-- The entry at the head of the urgent queue leaves it, and its mark goes (R85). -/
theorem State.Tidy.urgentRead (tidy : s.Tidy) (head : s.carousel.urgent = n :: rest) : (s.urgentRead n rest).Tidy := by
  have once := tidy.marks.once
  have inside := tidy.marks.inside n (by rw [head]; exact List.mem_append_right _ (.head _))
  rw [head, List.nodup_middle, List.nodup_cons, List.mem_append] at once
  obtain ⟨gone, once⟩ := once
  have requeued : (s.requeue n .none s.carousel.fresh rest).Tidy := by
    refine tidy.requeue inside once (fun m other => ⟨Iff.rfl, ?_⟩)
      ⟨iff_of_false nofun (gone <| .inl ·), iff_of_false nofun (gone <| .inr ·)⟩
    rw [head]
    exact mem_cons_iff_of_ne other
  exact requeued.same ⟨⟨rfl, rfl⟩, rfl, rfl, rfl⟩

/-- A slot whose mark is NONE stands in neither queue. -/
theorem State.QueueMarks.not_queued (law : s.QueueMarks) (inside : n < s.slotCount) (mark : (s.slot n).mark = .none) :
    n ∉ s.carousel.fresh ∧ n ∉ s.carousel.urgent := by
  rw [← law.fresh n inside, ← law.urgent n inside, mark]
  exact ⟨nofun, nofun⟩

theorem mem_append_iff_of_ne {l : List Nat} (other : m ≠ n) : m ∈ l ++ [n] ↔ m ∈ l := by
  rw [List.mem_append, List.mem_singleton, or_iff_left other]

/-- A fresh append attempt (R41). -/
theorem State.Tidy.appendFresh (tidy : s.Tidy) (inside : n < s.slotCount) : (s.appendFresh n).Tidy := by
  unfold State.appendFresh
  split
  case h_1 mark =>
    obtain ⟨notFresh, notUrgent⟩ := tidy.marks.not_queued inside mark
    split
    case isFalse => exact tidy.same (.of_same rfl rfl)
    case isTrue =>
      have once : (s.carousel.fresh ++ [n] ++ s.carousel.urgent).Nodup := by
        rw [List.append_assoc, List.singleton_append, List.nodup_middle, List.nodup_cons, List.mem_append]
        exact ⟨not_or.2 ⟨notFresh, notUrgent⟩, tidy.marks.once⟩
      have requeued := tidy.requeue (mark := .fresh) inside once
        (fun m other => ⟨mem_append_iff_of_ne other, Iff.rfl⟩)
        ⟨iff_of_true rfl (List.mem_append_right _ (.head _)), iff_of_false nofun notUrgent⟩
      exact requeued.same ⟨⟨rfl, rfl⟩, rfl, rfl, rfl⟩
  case h_2 => exact tidy
  case h_3 => exact tidy

/-- An urgent append attempt (R41). -/
theorem State.Tidy.appendUrgent (tidy : s.Tidy) (inside : n < s.slotCount) : (s.appendUrgent n).Tidy := by
  unfold State.appendUrgent
  split
  case h_1 mark =>
    obtain ⟨notFresh, notUrgent⟩ := tidy.marks.not_queued inside mark
    split
    case isFalse => exact tidy.same (.of_same rfl rfl)
    case isTrue =>
      have once : (s.carousel.fresh ++ (s.carousel.urgent ++ [n])).Nodup := by
        rw [← List.append_assoc, List.nodup_append_comm, List.singleton_append, List.nodup_cons, List.mem_append]
        exact ⟨not_or.2 ⟨notFresh, notUrgent⟩, tidy.marks.once⟩
      have requeued := tidy.requeue (mark := .urgent) inside once
        (fun m other => ⟨Iff.rfl, mem_append_iff_of_ne other⟩)
        ⟨iff_of_false nofun notFresh, iff_of_true rfl (List.mem_append_right _ (.head _))⟩
      exact requeued.same ⟨⟨rfl, rfl⟩, rfl, rfl, rfl⟩
  case h_2 => exact tidy
  case h_3 => exact tidy

end Sys2Proof.Machine
end

