-- ==== Sys2Proof/Proofs/SlotOperations.lean ====
section
/-! The laws of R31 and R40 under the store operations. -/

namespace Sys2Proof.Machine

variable {s t w : State} {n m d e : Nat} {x y : Slot} {rest : List Nat} {g : Grant} {h : HeldRequest} {f : AddFields}

theorem SlotState.isLive_of_granted {a : SlotState} (granted : a.granted = true) : a.isLive = true := by
  obtain is | is | is := (SlotState.granted_iff a).1 granted <;> rw [is] <;> rfl

theorem Slot.LiveFor.isLive (live : x.LiveFor d e) : x.state.isLive = true := (SlotState.isLive_iff _).2 live.1

/-! ## Slots rewritten (R29) -/

theorem State.Tidy.vacate (tidy : s.Tidy) (n : Nat) : (s.putSlot n (s.slot n).vacate).Tidy :=
  tidy.putSlot n (fun _ => rfl) fun _ => .of_ended (.inl rfl)

theorem State.Tidy.revoke (tidy : s.Tidy) (n : Nat) (why : RevokeReason)
    (live : (s.slot n).state.isLive = true) :
    (s.putSlot n ((s.slot n).revoke why)).Tidy :=
  tidy.putSlot n (fun _ => rfl) fun _ => .of_live live rfl nofun

theorem State.Tidy.revokeUnsent (tidy : s.Tidy) (n e : Nat) : (s.revokeUnsent n e).Tidy :=
  (tidy.vacate n).same (.of_same (by simp [State.revokeUnsent]) (by simp [State.revokeUnsent]))

theorem State.Tidy.revokeSent (tidy : s.Tidy) (inside : n < s.slotCount) (why : RevokeReason)
    (live : (s.slot n).state.isLive = true) :
    (s.revokeSent n why).Tidy :=
  (tidy.revoke n why live).appendUrgent inside

/-! ## What a lookup finds (R38, R39) -/

theorem State.LookupEnds.of_found {before after : List Nat} (ends : w.LookupEnds d e none before after (.found n)) :
    n ∈ after ∧ (w.slot n).LiveFor d e := by
  generalize is : Lookup.found n = r at ends
  cases ends with
  | found m rest good live =>
    obtain rfl := Lookup.found.inj is
    exact ⟨.head _, live⟩
  | empty => exact nomatch is
  | exhausted => exact nomatch is

theorem State.LookupEnds.of_missing {before after : List Nat} {c : Option Nat}
    (ends : w.LookupEnds d e none before after (.missing c)) :
    c = (before.find? (fun m => (w.slot m).state == .vacant)).or after.head?
      ∧ ∀ m, after.head? = some m → (w.slot m).state = .empty := by
  generalize is : Lookup.missing c = r at ends
  cases ends with
  | found => exact nomatch is
  | empty m rest good empty =>
    exact ⟨Lookup.missing.inj is, fun k head => by rwa [← Option.some.inj head]⟩
  | exhausted =>
    rw [Option.none_or] at is
    exact ⟨by rw [List.head?_nil, Option.or_none]; exact Lookup.missing.inj is, nofun⟩

theorem State.slotCount_lookup (s : State) (d e : Nat) : (s.lookup d e).2.slotCount = s.slotCount := by
  obtain ⟨_, _, _, _, read⟩ := s.readOf_lookup d e
  rw [read]
  rfl

theorem State.Tidy.found (tidy : s.Tidy) (positive : 0 < s.slotCount) (look : (s.lookup d e).1 = .found n) :
    n < (s.lookup d e).2.slotCount ∧ ((s.lookup d e).2.slot n).LiveFor d e := by
  obtain ⟨before, after, parts, -, -, ends⟩ := s.lookup_ends d e (.inl tidy.ok)
  rw [look] at ends
  obtain ⟨mem, live⟩ := ends.of_found
  have inWindow : n ∈ s.window d e := by
    rw [parts]
    exact List.mem_append_right _ mem
  obtain ⟨i, -, is⟩ := (s.mem_window d e n).1 inWindow
  rw [s.slotCount_lookup]
  exact ⟨is ▸ Nat.mod_lt _ positive, live⟩

/-- A slot a grant of a pair may be written to: none is live, and the pair's window reaches it with no EMPTY slot before
(R31, R37, R39). -/
structure State.FreeFor (w : State) (d e n : Nat) : Prop where
  inside : n < w.slotCount
  alone : ∀ m, m < w.slotCount → ¬ (w.slot m).LiveFor d e
  notLive : ∀ d e, ¬ (w.slot n).LiveFor d e
  reached : ∃ i, i < 16 ∧ n = (w.home d e + i) % w.slotCount
    ∧ ∀ j, j < i → (w.slot ((w.home d e + j) % w.slotCount)).state ≠ .empty

theorem Slot.not_liveFor (free : x.state = .empty ∨ x.state = .vacant) (d e : Nat) : ¬ x.LiveFor d e := by
  rintro ⟨live, -⟩
  obtain is | is := free <;> rw [is] at live <;> obtain is | is | is | is := live <;> exact nomatch is

/-- The slot at position `k` of a window whose first `k` slots were passed. -/
theorem State.window_passed {before after : List Nat} (parts : w.window d e = before ++ after)
    (passed : ∀ m ∈ before, w.Passed d e m) {k : Nat} (at_k : (w.window d e)[k]? = some n) (first : k ≤ before.length) :
    k < 16 ∧ n = (w.home d e + k) % w.slotCount
      ∧ ∀ j, j < k → (w.slot ((w.home d e + j) % w.slotCount)).state ≠ .empty := by
  have inWindow : k < 16 := by
    have := (List.getElem?_eq_some_iff.1 at_k).1
    rwa [w.length_window] at this
  rw [w.window_getElem? d e inWindow] at at_k
  refine ⟨inWindow, (Option.some.inj at_k).symm, fun j hj => ?_⟩
  have at_j := w.window_getElem? d e (Nat.lt_trans hj inWindow)
  rw [parts, List.getElem?_append_left (by omega)] at at_j
  obtain ⟨-, notEmpty, -⟩ := passed _ (List.mem_of_getElem? at_j)
  exact notEmpty

/-- A window whose slots were all passed up to an EMPTY one or to its end holds no live slot of the pair. -/
theorem State.PairsLiveOnce.none_live (law : w.PairsLiveOnce) {before after : List Nat}
    (parts : w.window d e = before ++ after) (passed : ∀ m ∈ before, w.Passed d e m)
    (stops : ∀ m, after.head? = some m → (w.slot m).state = .empty) (hm : m < w.slotCount) :
    ¬ (w.slot m).LiveFor d e := by
  intro live
  obtain ⟨i, inWindow, is, notEmpty⟩ := law.reached m d e hm live
  have at_i := w.window_getElem? d e inWindow
  rw [← is, parts] at at_i
  by_cases early : i < before.length
  · rw [List.getElem?_append_left early] at at_i
    obtain ⟨-, -, notLive⟩ := passed m (List.mem_of_getElem? at_i)
    exact notLive live
  · have length := w.length_window d e
    rw [parts, List.length_append] at length
    have at_end := w.window_getElem? d e (i := before.length) (by omega)
    rw [parts, List.getElem?_append_right (Nat.le_refl _), Nat.sub_self, ← List.head?_eq_getElem?] at at_end
    have empty := stops _ at_end
    by_cases here : i = before.length
    · rw [← here, ← is] at empty
      exact Slot.not_liveFor (.inl empty) d e live
    · exact notEmpty before.length (by omega) empty

/-- The candidate of a lookup without a match is free for its pair (R38, R39). -/
theorem State.Tidy.candidate_free (tidy : s.Tidy) (positive : 0 < s.slotCount)
    (look : (s.lookup d e).1 = .missing (some n)) : (s.lookup d e).2.FreeFor d e n := by
  have law := (tidy.lookup d e).pairs
  obtain ⟨before, after, parts, -, passed, ends⟩ := s.lookup_ends d e (.inl tidy.ok)
  rw [look] at ends
  rw [← s.window_lookup d e] at parts
  rw [← s.slotCount_lookup d e] at positive
  generalize (s.lookup d e).2 = w at law positive parts passed ends
  obtain ⟨candidate, stops⟩ := ends.of_missing
  have free {k : Nat} (at_k : (w.window d e)[k]? = some n) (first : k ≤ before.length)
      (state : (w.slot n).state = .empty ∨ (w.slot n).state = .vacant) : w.FreeFor d e n := by
    have reached := State.window_passed parts passed at_k first
    have inside : n < w.slotCount := by
      obtain ⟨-, is, -⟩ := reached
      rw [is]
      exact Nat.mod_lt _ positive
    exact ⟨inside, fun m => law.none_live parts passed stops, Slot.not_liveFor state, k, reached⟩
  cases found : before.find? (fun m => (w.slot m).state == .vacant) with
  | some m =>
    rw [found, Option.some_or] at candidate
    obtain rfl := Option.some.inj candidate
    obtain ⟨k, hk, is⟩ := List.getElem_of_mem (List.mem_of_find?_eq_some found)
    refine free (k := k) ?_ (Nat.le_of_lt hk) (.inr (by simpa using List.find?_some found))
    rw [parts, List.getElem?_append_left hk, List.getElem?_eq_getElem hk, is]
  | none =>
    rw [found, Option.none_or] at candidate
    refine free (k := before.length) ?_ (Nat.le_refl _) (.inl (stops n candidate.symm))
    rw [parts, List.getElem?_append_right (Nat.le_refl _), Nat.sub_self, ← List.head?_eq_getElem?, candidate]

/-! ## GRANT-ADD (R48 to R52) -/

theorem Slot.withGrant_liveFor (x : Slot) (g : Grant) (d e : Nat) :
    (x.withGrant g).LiveFor d e ↔ g.decoder = d ∧ g.event = e := by
  unfold Slot.LiveFor
  simp [Slot.withGrant]

/-- A grant written to a slot that is free for its pair (R51). -/
theorem State.Tidy.writeGrant (tidy : w.Tidy) (g : Grant) (free : w.FreeFor g.decoder g.event n) :
    (w.putSlot n ((w.slot n).withGrant g)).Tidy := by
  have slot := State.slot_putSlot tidy.ok n ((w.slot n).withGrant g)
  obtain ⟨inside, alone, notLive, i, inWindow, is, before⟩ := free
  have notEmpty {m : Nat} (was : (w.slot m).state ≠ .empty) :
      ((w.putSlot n ((w.slot n).withGrant g)).slot m).state ≠ .empty := by
    rw [slot]
    split
    · nofun
    · exact was
  refine ⟨w.putSlot_ok n _ tidy.ok, tidy.marks.same rfl ⟨rfl, rfl⟩ fun m _ => ?marks, ⟨?once, ?reached⟩⟩
  case marks =>
    rw [slot]
    split
    case isTrue same => exact same ▸ rfl
    case isFalse => rfl
  case once =>
    intro m k d e hm hk live live'
    rw [slot] at live live'
    split at live
    case isTrue same =>
      obtain ⟨rfl, rfl⟩ := ((w.slot n).withGrant_liveFor g d e).1 live
      split at live'
      case isTrue same' => rw [same, same']
      case isFalse => exact absurd live' (alone k hk)
    case isFalse =>
      split at live'
      case isTrue =>
        obtain ⟨rfl, rfl⟩ := ((w.slot n).withGrant_liveFor g d e).1 live'
        exact absurd live (alone m hm)
      case isFalse => exact tidy.pairs.once m k d e hm hk live live'
  case reached =>
    intro m d e hm live
    rw [slot] at live
    split at live
    case isTrue same =>
      obtain ⟨rfl, rfl⟩ := ((w.slot n).withGrant_liveFor g d e).1 live
      exact ⟨i, inWindow, same ▸ is, fun j hj => notEmpty (before j hj)⟩
    case isFalse =>
      obtain ⟨i, inWindow, is, before⟩ := tidy.pairs.reached m d e hm live
      exact ⟨i, inWindow, is, fun j hj => notEmpty (before j hj)⟩

theorem State.report_sameSlots (s : State) (n : Nat) (k : Counts → Counts) : s.SameSlots (s.report n k) :=
  .of_same (by simp) (by simp)

theorem State.drawSlot_sameSlots (s : State) (x : SlotState) : s.SameSlots (s.drawSlot x) := by
  rw [State.drawSlot_eq]
  exact ⟨⟨rfl, rfl⟩, rfl, rfl, rfl⟩

theorem State.Tidy.insert (tidy : s.Tidy) (free : s.FreeFor f.decoder f.event n) : (s.insert n f).Tidy := by
  have written := tidy.writeGrant (f.grant s.stamp) free
  have inside : n < (s.putSlot n ((s.slot n).withGrant (f.grant s.stamp))).slotCount := free.inside
  have drawn := State.drawSlot_sameSlots (s.putSlot n ((s.slot n).withGrant (f.grant s.stamp))) (s.slot n).state
  have counted (a : State) := a.report_sameSlots f.event Counts.insert
  exact ((written.same drawn).same (counted _)).appendFresh (by rwa [(counted _).count, drawn.count])

theorem State.Tidy.reinstate (tidy : s.Tidy) (inside : n < s.slotCount)
    (live : (s.slot n).LiveFor f.decoder f.event) : (s.reinstate n f).Tidy := by
  have written : (s.putSlot n ((s.slot n).withGrant (f.grant s.stamp))).Tidy := by
    refine tidy.putSlot n (fun _ => rfl) fun _ => ⟨fun d e was => ?_, nofun⟩
    obtain ⟨rfl, rfl⟩ := (Slot.withGrant_liveFor _ _ d e).1 was
    exact live
  have counted := State.report_sameSlots (s.putSlot n ((s.slot n).withGrant (f.grant s.stamp))) f.event Counts.reinstate
  exact (written.same counted).appendFresh (by rw [counted.count]; exact inside)

theorem State.Tidy.finish (tidy : s.Tidy) (h : HeldRequest) (r : ResultCode) (body : List Byte) :
    (s.finish h r body).Tidy := tidy.same (.of_same rfl rfl)

theorem State.Tidy.addGrant (tidy : s.Tidy) (positive : 0 < s.slotCount) (h : HeldRequest) (f : AddFields) :
    (s.addGrant h f).Tidy := by
  unfold State.addGrant
  repeat' split
  case h_2.isFalse =>
    have looked := tidy.lookup f.decoder f.event
    unfold State.addAfterLookup
    split
    case h_1 n found =>
      obtain ⟨inside, live⟩ := tidy.found positive found
      split
      · exact (looked.reinstate inside live).finish h _ _
      · exact looked.finish h _ _
    case h_2 n missing => exact (looked.insert (tidy.candidate_free positive missing)).finish h _ _
    case h_3 => exact looked.same (.of_same rfl rfl)
  all_goals exact tidy.finish h _ _

/-! ## GRANT-REVOKE and GRANT-QUERY (R53 to R55) -/

theorem State.Tidy.revokeGrant (tidy : s.Tidy) (positive : 0 < s.slotCount) (h : HeldRequest) (d e : Nat) :
    (s.revokeGrant h d e).Tidy := by
  unfold State.revokeGrant
  repeat' split
  case isFalse.isFalse.isFalse.isFalse =>
    have looked := tidy.lookup d e
    unfold State.revokeAfterLookup
    split
    case h_1 => exact looked.finish h _ _
    case h_2 n found =>
      obtain ⟨inside, live⟩ := tidy.found positive found
      repeat' split
      · exact looked.finish h _ _
      · exact (looked.revokeUnsent n e).finish h _ _
      · exact (looked.revokeSent inside .customer live.isLive).finish h _ _
  all_goals exact tidy.finish h _ _

theorem State.Tidy.queryGrant (tidy : s.Tidy) (h : HeldRequest) (d e : Nat) : (s.queryGrant h d e).Tidy := by
  unfold State.queryGrant
  repeat' split
  case isFalse.isFalse =>
    unfold State.queryAfterLookup
    split <;> exact (tidy.lookup d e).finish h _ _
  all_goals exact tidy.finish h _ _

/-! ## Composition reads (R85 to R91) -/

theorem State.Tidy.releasePort (tidy : s.Tidy) : s.releasePort.Tidy := tidy.same (.of_same (by simp) (by simp))

theorem State.Tidy.goOn (tidy : s.Tidy) (a : Attempt) : (s.releasePort.goOn a.again).Tidy :=
  tidy.same (.of_queues (by simp) (s.goOn_again_sameQueues a))

theorem State.Tidy.emit (tidy : s.Tidy) (m : Message) (c : TagContent) {share : Carousel → Carousel}
    (lists : ∀ c, (share c).fresh = c.fresh ∧ (share c).urgent = c.urgent) : (s.emit m c share).Tidy :=
  tidy.same (.of_queues (by simp) (State.emit_sameQueues s m c lists))

theorem State.Tidy.emitCandidate (tidy : s.Tidy) (n : Nat) (g : Grant) {share : Carousel → Carousel}
    (lists : ∀ c, (share c).fresh = c.fresh ∧ (share c).urgent = c.urgent)
    (live : (s.slot n).state.isLive = true) :
    (s.emitCandidate n g share).Tidy := by
  unfold State.emitCandidate
  split
  case h_1 why _ => exact (tidy.revoke n why live).emit _ _ lists
  case h_2 => exact tidy.emit _ _ lists

theorem State.Tidy.takeUrgent (tidy : s.Tidy) (head : s.carousel.urgent = n :: rest) (a : Attempt) :
    (s.takeUrgent n rest a.again).Tidy := by
  have read : ((s.check n).urgentRead n rest).Tidy := (tidy.check n).urgentRead (by simpa using head)
  unfold State.takeUrgent
  dsimp only
  split
  case h_1 => exact (read.emit _ _ Carousel.lists_countUrgent).releasePort
  case h_2 => exact read.goOn a

theorem State.Tidy.takeFresh (tidy : s.Tidy) (head : s.carousel.fresh = n :: rest) (a : Attempt) :
    (s.takeFresh n rest a.again).Tidy := by
  have read : ((s.check n).freshRead n rest).Tidy := (tidy.check n).freshRead (by simpa using head)
  unfold State.takeFresh
  dsimp only
  split
  case h_1 g use =>
    obtain ⟨-, pending, -⟩ := (State.freshUse_iff _ n g).1 use
    have live : ((((s.check n).setFresh rest).clearSlotMark n).slot n).state.isLive = true := by
      rw [pending]
      rfl
    exact (read.emitCandidate n g Carousel.lists_countFresh live).releasePort
  case h_2 => exact read.goOn a

/-- A slot the refresh cursor offers is live (R89). -/
theorem State.live_of_refreshUse {pass : Nat} (use : s.refreshUse n pass = some g) :
    (s.slot n).state.isLive = true := by
  unfold State.refreshUse at use
  split at use
  case h_1 => exact nomatch use
  case h_2 g' _ =>
    split at use
    case isFalse => exact nomatch use
    case isTrue eligible =>
      unfold State.eligible at eligible
      generalize (s.slot n).state = state at eligible
      cases state with
      | empty | vacant | damaged => exact nomatch eligible
      | pending | announced | held | revoking => rfl

theorem State.Tidy.readRefresh (tidy : s.Tidy) (n reads : Nat) : (s.readRefresh n reads).Tidy := by
  have read : (s.check n).moveCursor.Tidy := (tidy.check n).same ⟨⟨rfl, rfl⟩, rfl, rfl, rfl⟩
  have lists (c : Carousel) : (id c).fresh = c.fresh ∧ (id c).urgent = c.urgent := ⟨rfl, rfl⟩
  unfold State.readRefresh
  dsimp only
  split
  case h_1 g use =>
    refine State.Tidy.releasePort ?_
    unfold State.emitRefresh
    split
    · exact read.emit _ _ lists
    · exact read.emitCandidate n g lists (State.live_of_refreshUse use)
  case h_2 => exact read.goOn (.refresh reads)

/-! ## Completion updates (R97, R98) -/

theorem State.Tidy.endUpdate (tidy : s.Tidy) (rest : List Tag) : (s.endUpdate rest).Tidy :=
  tidy.same (.of_same (by simp) (by simp))

theorem Slot.mark_delivered (x : Slot) (confirmCount : Nat) : (x.delivered confirmCount).mark = x.mark := by
  simp only [Slot.delivered, apply_ite Slot.mark, ite_self]

theorem Slot.Succeeds.delivered (granted : x.state.granted = true) (confirmCount : Nat) :
    x.Succeeds (x.delivered confirmCount) := by
  have live := SlotState.isLive_of_granted granted
  have confirmed (p : Prop) [Decidable p] : (if p then SlotState.held else SlotState.announced) ≠ .empty := by
    split <;> nofun
  obtain is | is | is := (SlotState.granted_iff _).1 granted
  · rw [Slot.delivered_of_unconfirmed (.inl is)]
    exact .of_live live rfl (confirmed _)
  · rw [Slot.delivered_of_unconfirmed (.inr is)]
    exact .of_live live rfl (confirmed _)
  · rw [Slot.delivered_of_held is]
    exact .of_same rfl rfl

theorem State.Tidy.updateGrant (tidy : s.Tidy) (n d e : Nat) : (s.updateGrant n d e).Tidy := by
  have checked := tidy.check n
  unfold State.updateGrant
  dsimp only
  split
  case isFalse => exact checked
  case isTrue still =>
    exact checked.putSlot n (fun _ => Slot.mark_delivered _ _) fun _ => Slot.Succeeds.delivered still.2 _

theorem State.Tidy.updateRevoke (tidy : s.Tidy) (n d e : Nat) : (s.updateRevoke n d e).Tidy := by
  have checked := tidy.check n
  unfold State.updateRevoke
  dsimp only
  repeat' split
  · exact (checked.vacate n).same (.of_same (by simp) (by simp))
  · exact checked.putSlot n (fun _ => rfl) fun _ => .of_same rfl rfl
  · exact checked

/-! ## Visits (R60 to R65) -/

theorem State.Tidy.visit (tidy : s.Tidy) {w : Sweep} (inside : w.cursor < s.slotCount) (kind : SweepKind)
    (ranges : List Range) (o : Bool) : (s.visit w kind ranges o).Tidy := by
  have checked := tidy.check w.cursor
  have ended {a : State} (acted : a.Tidy) (x : Sweep) : (a.endVisit x o).Tidy :=
    acted.same (.of_same (by simp) (by simp))
  unfold State.visit
  dsimp only
  split
  case h_2 => exact ended checked _
  case h_1 g use =>
    refine ended ?_ _
    have revoked (why : RevokeReason) (granted : ((s.check w.cursor).slot w.cursor).state.granted = true) :
        ((s.check w.cursor).revokeVisited w.cursor g why).Tidy := by
      have live := SlotState.isLive_of_granted granted
      unfold State.revokeVisited
      split
      · exact checked.revokeUnsent _ _
      · exact checked.revokeSent (by simpa using inside) why live
    have visited : ((s.check w.cursor).slot w.cursor).visited g kind ranges = true := by
      unfold State.visitUse at use
      split at use
      · exact nomatch use
      · obtain ⟨⟨-, visited⟩, same⟩ := Option.ite_none_right_eq_some.1 use
        exact Option.some.inj same ▸ visited
    cases kind with
    | cancel => exact revoked .cancelled visited
    | retire => exact (checked.vacate w.cursor).same (.of_same (by simp [State.visitAct, State.retireVisited])
        (by simp [State.visitAct, State.retireVisited]))
    | blackout =>
      refine revoked .blackout ?_
      simp only [Slot.visited, Bool.and_eq_true] at visited
      obtain ⟨⟨-, granted⟩, -⟩ := visited
      exact granted

end Sys2Proof.Machine
end

