-- ==== Sys2Proof/Proofs/SlotsLaw.lean ====
section
/-! The laws of R31 and R40 from step to step, and the WIPE between them (R72 to R74). -/

namespace Sys2Proof.Machine

variable {s t : State} {n : Nat} {u : List Nat}

/-! ## A unit without events -/

/-- Every event record is EMPTY. -/
def State.NoEvents (s : State) : Prop := ∀ r ∈ s.events, r = EventRecord.empty

theorem State.NoEvents.of_events (none : s.NoEvents) (events : t.events = s.events) : t.NoEvents := by
  unfold State.NoEvents
  rw [events]
  exact none

theorem State.NoEvents.event (none : s.NoEvents) (n : Nat) : s.event n = EventRecord.empty :=
  (s.event_mem_or_empty n).elim (none _) id

theorem State.NoEvents.report (none : s.NoEvents) (n : Nat) (f : Counts → Counts) : s.report n f = s := by
  rw [State.report, none.event]
  exact if_pos rfl

theorem State.NoEvents.reportRevoked (none : s.NoEvents) (n : Nat) : s.reportRevoked n = s := by
  rw [State.reportRevoked, none.report, State.retireIfDone, none.event]
  exact if_neg fun ⟨cancelled, _⟩ => nomatch cancelled

theorem State.NoEvents.recheck (none : s.NoEvents) (n : Nat) : s.recheck n = s := by
  rw [State.recheck, none.event]
  exact if_neg fun ⟨late, _⟩ => nomatch late

theorem State.NoEvents.ackEvents (es : List AckEntry) : s.NoEvents → (s.ackEvents es).NoEvents := by
  induction es generalizing s with
  | nil => exact id
  | cons e es ih =>
    intro none
    refine ih fun r mem => ?_
    rw [none.event] at mem
    obtain mem | rfl := List.mem_or_eq_of_mem_set mem
    · exact none r mem
    · simp [EventRecord.empty]

theorem State.NoEvents.clearMarks (none : s.NoEvents) : ∀ r ∈ clearMarks s.events, r = EventRecord.empty := by
  intro r mem
  obtain ⟨q, hq, rfl⟩ := List.mem_map.1 mem
  rw [none q hq]
  rfl

/-- In a unit without events GRANT-ADD and GRANT-REVOKE only answer. -/
theorem State.NoEvents.addGrant (none : s.NoEvents) (h : HeldRequest) (f : AddFields) :
    ∃ r body, s.addGrant h f = s.finish h r body := by
  by_cases bad : 31 < f.event
  · exact ⟨_, _, State.addGrant_of_bad_event bad⟩
  · exact ⟨_, _, State.addGrant_of_empty (Nat.not_lt.1 bad) (by rw [none.event]; rfl)⟩

theorem State.NoEvents.revokeGrant (none : s.NoEvents) (h : HeldRequest) (d e : Nat) :
    ∃ r body, s.revokeGrant h d e = s.finish h r body := by
  by_cases bad : 31 < e
  · exact ⟨_, _, State.revokeGrant_of_bad_event bad⟩
  · exact ⟨_, _, State.revokeGrant_of_empty (Nat.not_lt.1 bad) (by rw [none.event]; rfl)⟩

/-! ## A port without claims (R45, R72) -/

/-- No read, request or visit waits for the port. -/
structure StorePort.Unclaimed (p : StorePort) : Prop where
  composition : p.composition = false
  request : p.request = false
  sweep : p.sweep = false

/-- Nor does a completion update, but at a port that an update holds. -/
structure StorePort.Quiet (p : StorePort) : Prop extends p.Unclaimed where
  completions : p.state ≠ .completion → p.completions = []

/-- A port released without claims goes to the waiting completion updates, or is IDLE. -/
theorem State.quiet_releasePort (none : s.port.Unclaimed) : s.releasePort.port.Quiet := by
  obtain ⟨composition, request, sweep⟩ := none
  rw [State.releasePort_eq]
  unfold State.portReleased
  split
  case isTrue => exact ⟨⟨composition, request, sweep⟩, fun other => absurd rfl other⟩
  case isFalse noUpdates =>
    rw [if_neg (by rw [composition]; nofun), if_neg (by rw [request]; nofun), sweep]
    exact ⟨⟨composition, request, sweep⟩, fun _ => not_not.1 noUpdates⟩

theorem State.quiet_releasePort_of_port (none : s.port.Unclaimed) (port : t.port = s.port) :
    t.releasePort.port.Quiet := State.quiet_releasePort (port ▸ none)

theorem State.quiet_goOn (none : s.port.Unclaimed) (stopped : s.carousel.run = .stopped) (again : State → State) :
    (s.releasePort.goOn again).port.Quiet := by
  have off : ¬ s.releasePort.carousel.run = .running := by
    simp [stopped]
  rw [State.goOn, if_neg off]
  exact State.quiet_releasePort none

theorem State.quiet_endUpdate (none : s.port.Unclaimed) (rest : List Tag) : (s.endUpdate rest).port.Quiet :=
  State.quiet_releasePort (s := s.setPort { s.port with completions := rest })
    ⟨none.composition, none.request, none.sweep⟩

theorem State.quiet_takeUrgent (none : s.port.Unclaimed) (stopped : s.carousel.run = .stopped) (n : Nat)
    (rest : List Nat) (again : State → State) : (s.takeUrgent n rest again).port.Quiet := by
  unfold State.takeUrgent
  dsimp only
  split
  · exact State.quiet_releasePort_of_port none (by simp)
  · exact State.quiet_goOn (by simpa using none) (by simpa using stopped) again

theorem State.quiet_takeFresh (none : s.port.Unclaimed) (stopped : s.carousel.run = .stopped) (n : Nat)
    (rest : List Nat) (again : State → State) : (s.takeFresh n rest again).port.Quiet := by
  unfold State.takeFresh
  dsimp only
  split
  · exact State.quiet_releasePort_of_port none (by simp)
  · exact State.quiet_goOn (by simpa using none) (by simpa using stopped) again

theorem State.quiet_readRefresh (none : s.port.Unclaimed) (stopped : s.carousel.run = .stopped) (n reads : Nat) :
    (s.readRefresh n reads).port.Quiet := by
  unfold State.readRefresh
  dsimp only
  split
  · exact State.quiet_releasePort_of_port none (by simp [State.moveCursor])
  · exact State.quiet_goOn (by simpa [State.moveCursor] using none) (by simpa [State.moveCursor] using stopped) _

/-! ## The law, for the kinds of step -/

theorem State.not_wiping_of_managed (ok : s.nightOk) (managed : s.night = .setup ∨ s.night = .opened) (c : Nat) :
    s.sweep.engine ≠ .wiping c := by
  intro wiping
  obtain ⟨night | night, -⟩ := ok.wiping c wiping <;> rw [night] at managed <;> obtain is | is := managed <;>
    exact nomatch is

theorem State.slotsOk.tidy (law : s.slotsOk) (ok : s.storeOk) (started : s.night ≠ .starting)
    (notWiping : ∀ c, s.sweep.engine ≠ .wiping c) : s.Tidy :=
  ⟨ok, (law.settled started notWiping).1, (law.settled started notWiping).2⟩

theorem State.slotsOk.tidy_of_managed (law : s.slotsOk) (ok : s.storeOk) (nightOk : s.nightOk)
    (managed : s.night = .setup ∨ s.night = .opened) : s.Tidy :=
  law.tidy ok (by obtain night | night := managed <;> rw [night] <;> nofun)
    (State.not_wiping_of_managed nightOk managed)

theorem State.slotsOk.asked_quiet (law : s.slotsOk) (asked : s.sweep.wipePending = true) : s.port.Quiet := by
  obtain ⟨composition, request, sweep, completions⟩ := law.asked asked
  exact ⟨⟨composition, request, sweep⟩, completions⟩

theorem StorePort.Quiet.asked {p : StorePort} (quiet : p.Quiet) :
    p.composition = false ∧ p.request = false ∧ p.sweep = false ∧ (p.state ≠ .completion → p.completions = []) :=
  ⟨quiet.composition, quiet.request, quiet.sweep, quiet.completions⟩

/-- In SETUP and OPEN the law is that of the slots and queues. -/
theorem State.Tidy.slotsOk (tidy : t.Tidy) (nightOk : t.nightOk) (managed : t.night = .setup ∨ t.night = .opened) :
    t.slotsOk := by
  have notWiping := State.not_wiping_of_managed nightOk managed
  have notStarting : t.night ≠ .starting := by obtain night | night := managed <;> rw [night] <;> nofun
  have notClosing : t.night ≠ .closing := by obtain night | night := managed <;> rw [night] <;> nofun
  exact {
    settled := fun _ _ => ⟨tidy.marks, tidy.pairs⟩
    wiping := fun c wiping => absurd wiping (notWiping c)
    starting := fun starting => absurd starting notStarting
    noEvents := fun shut => (shut.elim notStarting notClosing).elim
    closing := fun closing => absurd closing notClosing
    asked := fun asked => absurd (nightOk.asked asked) notClosing }

/-- What the law speaks of is left. -/
structure State.Still (s t : State) : Prop extends s.SameSlots t where
  night : t.night = s.night
  sweep : t.sweep = s.sweep
  port : t.port = s.port
  events : s.NoEvents → t.NoEvents

theorem State.Still.of_fields (night : t.night = s.night) (events : t.events = s.events) (store : t.store = s.store)
    (port : t.port = s.port) (sweep : t.sweep = s.sweep) (queues : s.SameQueues t) : s.Still t :=
  ⟨.of_queues store queues, night, sweep, port, fun none => none.of_events events⟩

theorem State.Still.slotsOk (still : s.Still t) (law : s.slotsOk) (ok : s.storeOk) : t.slotsOk where
  settled started notWiping := by
    rw [still.night] at started
    rw [still.sweep] at notWiping
    have tidy := (law.tidy ok started notWiping).same still.toSameSlots
    exact ⟨tidy.marks, tidy.pairs⟩
  wiping c wiping := by
    rw [still.sweep] at wiping
    obtain ⟨fresh, urgent, blank, port⟩ := law.wiping c wiping
    exact ⟨still.fresh.trans fresh, still.urgent.trans urgent, fun n hn => (still.slot n).trans (blank n hn),
      still.port.trans port⟩
  starting starting notWiping := by
    rw [still.night] at starting
    rw [still.sweep] at notWiping
    obtain ⟨fresh, urgent, idle, port⟩ := law.starting starting notWiping
    exact ⟨still.fresh.trans fresh, still.urgent.trans urgent, by rw [still.sweep, idle], still.port.trans port⟩
  noEvents shut := by
    rw [still.night] at shut
    exact still.events (law.noEvents shut)
  closing closing := by
    rw [still.night] at closing
    rw [still.sweep]
    exact law.closing closing
  asked asked := by
    rw [still.sweep] at asked
    rw [still.port]
    exact law.asked asked

/-- What a store operation that goes on in CLOSING leaves: no event, the WIPE asked for, and no claim (R72). -/
structure State.Dwindles (t : State) : Prop where
  noEvents : t.NoEvents
  asked : t.sweep.wipePending = true
  quiet : t.port.Quiet

/-- A store operation leaves the night and keeps the slots and queues in order; in CLOSING, with the carousel STOPPED,
it dwindles. -/
structure State.Operation (s t : State) : Prop where
  night : t.night = s.night
  tidy : s.Tidy → t.Tidy
  closing : s.NoEvents → s.sweep.wipePending = true → s.port.Unclaimed → s.carousel.run = .stopped → t.Dwindles

/-- The port is granted, to an operation that is not a WIPE's. -/
def PortState.Busy (p : PortState) : Prop := p ≠ .idle ∧ p ≠ .wipeWrite

theorem PortState.Busy.of_eq {p q : PortState} (is : p = q) (notIdle : q ≠ .idle) (notWipe : q ≠ .wipeWrite) :
    p.Busy := is ▸ ⟨notIdle, notWipe⟩

theorem State.Operation.slotsOk (operation : s.Operation t) (law : s.slotsOk) (ok : s.storeOk) (nightOk : s.nightOk)
    (nightOk' : t.nightOk) (busy : s.port.state.Busy) : t.slotsOk := by
  obtain ⟨notIdle, notWipe⟩ := busy
  have notWiping (c : Nat) : s.sweep.engine ≠ .wiping c := fun wiping => by
    obtain ⟨-, -, -, port⟩ := law.wiping c wiping
    exact notWipe (by rw [port])
  have notStarting : s.night ≠ .starting := fun starting => by
    obtain ⟨-, -, -, port⟩ := law.starting starting notWiping
    exact notIdle (by rw [port])
  obtain ⟨night, tidy, closing⟩ := operation
  have tidy' := tidy (law.tidy ok notStarting notWiping)
  cases is : s.night with
  | starting => exact absurd is notStarting
  | setup => exact tidy'.slotsOk nightOk' (.inl (night.trans is))
  | opened => exact tidy'.slotsOk nightOk' (.inr (night.trans is))
  | closing =>
    have asked : s.sweep.wipePending = true := (law.closing is).resolve_right fun ⟨c, wiping⟩ => notWiping c wiping
    have stopped := nightOk.carousel.2 (by rw [is]; nofun)
    have dwindles := closing (law.noEvents (.inr is)) asked (law.asked_quiet asked).toUnclaimed stopped
    have notWiping' (c : Nat) : t.sweep.engine ≠ .wiping c := fun wiping => by
      obtain ⟨-, notAsked, -⟩ := nightOk'.wiping c wiping
      exact nomatch notAsked.symm.trans dwindles.asked
    have shut : t.night ≠ .starting := by
      rw [night]
      exact notStarting
    exact {
      settled := fun _ _ => ⟨tidy'.marks, tidy'.pairs⟩
      wiping := fun c wiping => absurd wiping (notWiping' c)
      starting := fun starting => absurd starting shut
      noEvents := fun _ => dwindles.noEvents
      closing := fun _ => .inl dwindles.asked
      asked := fun _ => dwindles.quiet.asked }

/-! ## The WIPE (R72 to R74) -/

/-- A WIPE that starts in a unit without events, at a free port. -/
theorem State.NoEvents.startWipe (none : s.NoEvents)
    (port : s.port = { state := .idle, composition := false, completions := [], request := false, sweep := false }) :
    s.startWipe.slotsOk := by
  rw [State.startWipe_of_free (by rw [port]) (by rw [port]) (by rw [port]) (by rw [port]), port]
  exact {
    settled := fun _ notWiping => absurd rfl (notWiping 0)
    wiping := fun c wiping => by
      obtain rfl := EngineState.wiping.inj wiping
      exact ⟨rfl, rfl, nofun, rfl⟩
    starting := fun _ notWiping => absurd rfl (notWiping 0)
    noEvents := fun _ => none.clearMarks
    closing := fun _ => .inr ⟨0, rfl⟩
    asked := nofun }

/-- A store whose slots are all blank is tidy with empty queues. -/
theorem State.tidy_of_blank (ok : t.storeOk) (fresh : t.carousel.fresh = []) (urgent : t.carousel.urgent = [])
    (blank : ∀ n, n < t.slotCount → t.slot n = blankSlot) : t.Tidy where
  ok := ok
  marks := {
    once := by rw [fresh, urgent]; exact .nil
    inside := by rw [fresh, urgent]; nofun
    fresh := fun n hn => by rw [blank n hn, fresh]; exact iff_of_false nofun nofun
    urgent := fun n hn => by rw [blank n hn, urgent]; exact iff_of_false nofun nofun }
  pairs := {
    once := fun m n d e hm _ live => by
      rw [blank m hm] at live
      exact absurd live (Slot.not_liveFor (.inl rfl) d e)
    reached := fun n d e hn live => by
      rw [blank n hn] at live
      exact absurd live (Slot.not_liveFor (.inl rfl) d e) }

theorem State.slotsOk.wipeSlot {c : Nat} (law : s.slotsOk) (ok : s.storeOk) (nightOk : s.nightOk)
    (engine : s.sweep.engine = .wiping c) (inside : c < s.slotCount) (nightOk' : (s.wipeSlot c).nightOk) :
    (s.wipeSlot c).slotsOk := by
  obtain ⟨fresh, urgent, blank, port⟩ := law.wiping c engine
  obtain ⟨shut, notAsked, -⟩ := nightOk.wiping c engine
  have written (n : Nat) (hn : n < c + 1) : (s.putSlot c blankSlot).slot n = blankSlot := by
    rw [State.slot_putSlot ok]
    split
    case isTrue => rfl
    case isFalse other => exact blank n (by omega)
  obtain more | last : c + 1 < s.slotCount ∨ c + 1 = s.slotCount := by omega
  · obtain ⟨p, write, claim⟩ := State.wipeSlot_goesOn more
    rw [write]
    have port' : p =
        { state := .wipeWrite, composition := false, completions := [], request := false, sweep := false } := by
      rw [claim (by rw [port])]
      simp [State.portReleased, port]
    exact {
      settled := fun _ notWiping => absurd rfl (notWiping (c + 1))
      wiping := fun k wiping => by
        obtain rfl := EngineState.wiping.inj wiping
        exact ⟨fresh, urgent, written, port'⟩
      starting := fun _ notWiping => absurd rfl (notWiping (c + 1))
      noEvents := fun _ => law.noEvents shut
      closing := fun _ => .inr ⟨c + 1, rfl⟩
      asked := fun asked => absurd asked (by rw [notAsked]; nofun) }
  · rw [State.wipeSlot_ends last] at nightOk' ⊢
    refine State.Tidy.slotsOk ?_ nightOk' (.inl rfl)
    exact State.tidy_of_blank (s.putSlot_ok c _ ok) fresh urgent fun n hn => written n (last ▸ hn)

/-! ## NIGHT-CLOSE (R45, R72, R156) -/

theorem StorePort.keptCompletions_of_ne {p : StorePort} (ne : p.state ≠ .completion) : p.keptCompletions = [] := by
  unfold StorePort.keptCompletions
  cases state : p.state with
  | completion => exact absurd state ne
  | idle | composition | request | visit | wipeWrite => rfl

theorem State.Tidy.closeNight (tidy : s.Tidy) (notWiping : ∀ c, s.sweep.engine ≠ .wiping c) : s.closeNight.slotsOk where
  settled _ _ := by
    have closed := tidy.same (t := s.closeNight) ⟨⟨rfl, rfl⟩, rfl, rfl, rfl⟩
    exact ⟨closed.marks, closed.pairs⟩
  wiping c wiping := absurd wiping (notWiping c)
  starting := nofun
  noEvents _ _ mem := List.eq_of_mem_replicate mem
  closing _ := .inl rfl
  asked _ := ⟨rfl, rfl, rfl, fun ne => StorePort.keptCompletions_of_ne ne⟩

theorem State.Tidy.takeClose (tidy : s.Tidy) (notWiping : ∀ c, s.sweep.engine ≠ .wiping c) (forced : Bool) :
    (s.takeClose forced).slotsOk := by
  unfold State.takeClose
  split
  · exact (tidy.same (.of_same (by simp) (by simp))).closeNight (by simpa using notWiping)
  · exact tidy.closeNight notWiping

end Sys2Proof.Machine
end

