-- ==== Sys2Proof/Proofs/QueueMarksKept.lean ====
section
/-! Every step keeps the laws of R31 and R40. -/

namespace Sys2Proof.Machine

variable {s t : State} {u : List Nat}

/-- The night of a unit with events that may change, or without any. -/
theorem State.managed_or_shut (s : State) :
    (s.night = .setup ∨ s.night = .opened) ∨ (s.night = .starting ∨ s.night = .closing) := by
  cases s.night <;> simp

theorem EventServed.night (served : EventServed s t) : t.night = s.night := by
  cases served <;> simp

theorem Served.slotsOk (served : Served s t) (law : s.slotsOk) (ok : s.storeOk) (nightOk : s.nightOk)
    (nightOk' : t.nightOk) : t.slotsOk := by
  have still {t : State} (night : t.night = s.night) (events : t.events = s.events) (store : t.store = s.store)
      (port : t.port = s.port) (sweep : t.sweep = s.sweep) (queues : s.SameQueues t) : t.slotsOk :=
    (State.Still.of_fields night events store port sweep queues).slotsOk law ok
  cases served with
  | opened start setup =>
    have tidy : (s.openNight start).Tidy :=
      (law.tidy_of_managed ok nightOk (.inl setup)).same (.of_queues rfl ⟨rfl, rfl⟩)
    exact tidy.slotsOk nightOk' (.inr rfl)
  | closed forced opened =>
    exact (law.tidy_of_managed ok nightOk (.inr opened)).takeClose
      (State.not_wiping_of_managed nightOk (.inr opened)) forced
  | acknowledged es n =>
    refine State.Still.slotsOk ⟨.of_same (by simp) (by simp), by simp, by simp, by simp, fun none => ?_⟩ law ok
    exact (none.ackEvents es).of_events (by simp)
  | event managed served =>
    have tidy := (law.tidy_of_managed ok nightOk managed).same
      (.of_same served.store served.carousel)
    exact tidy.slotsOk nightOk' (by rw [served.night]; exact managed)
  | _ => exact still (by simp) (by simp) (by simp) (by simp) (by simp) (.of_carousel (by simp))

theorem State.slotCount_upset (s : State) (u : List Nat) : (s.upset u).slotCount = s.slotCount := by
  obtain ⟨_, only⟩ := State.upset_only u s
  rw [only]
  rfl

/-! ## The requests' store operations (R47) -/

theorem State.dwindles_finish (none : s.NoEvents) (asked : s.sweep.wipePending = true) (unclaimed : s.port.Unclaimed)
    (u : List Nat) (h : HeldRequest) (r : ResultCode) (body : List Byte) :
    ((s.upset u).finish h r body).releasePort.Dwindles :=
  ⟨none.of_events (by simp), by simpa using asked, State.quiet_releasePort_of_port unclaimed (by simp)⟩

theorem State.addGrant_operation (positive : 0 < s.slotCount) (u : List Nat) (h : HeldRequest) (f : AddFields) :
    s.Operation ((s.upset u).addGrant h f).releasePort where
  night := by simp
  tidy tidy := ((tidy.upset u).addGrant (by rwa [s.slotCount_upset]) h f).releasePort
  closing none asked unclaimed _ := by
    obtain ⟨r, body, answered⟩ := State.NoEvents.addGrant (s := s.upset u) (none.of_events (by simp)) h f
    rw [answered]
    exact State.dwindles_finish none asked unclaimed u h r body

theorem State.revokeGrant_operation (positive : 0 < s.slotCount) (u : List Nat) (h : HeldRequest) (d e : Nat) :
    s.Operation ((s.upset u).revokeGrant h d e).releasePort where
  night := by simp
  tidy tidy := ((tidy.upset u).revokeGrant (by rwa [s.slotCount_upset]) h d e).releasePort
  closing none asked unclaimed _ := by
    obtain ⟨r, body, answered⟩ := State.NoEvents.revokeGrant (s := s.upset u) (none.of_events (by simp)) h d e
    rw [answered]
    exact State.dwindles_finish none asked unclaimed u h r body

theorem State.queryGrant_operation (s : State) (u : List Nat) (h : HeldRequest) (d e : Nat) :
    s.Operation ((s.upset u).queryGrant h d e).releasePort where
  night := by simp
  tidy tidy := ((tidy.upset u).queryGrant h d e).releasePort
  closing none asked unclaimed _ :=
    ⟨none.of_events (by simp), by simpa using asked, State.quiet_releasePort_of_port unclaimed (by simp)⟩

/-! ## Composition reads (R81) -/

theorem State.goOn_operation (s : State) (a : Attempt) : s.Operation (s.releasePort.goOn a.again) where
  night := by simp
  tidy tidy := tidy.goOn a
  closing none asked unclaimed stopped :=
    ⟨none.of_events (by simp), by simpa using asked, State.quiet_goOn unclaimed stopped a.again⟩

theorem State.takeUrgent_operation {n : Nat} {rest : List Nat} (head : s.carousel.urgent = n :: rest) (u : List Nat)
    (a : Attempt) : s.Operation ((s.upset u).takeUrgent n rest a.again) where
  night := by simp
  tidy tidy := (tidy.upset u).takeUrgent (by simpa using head) a
  closing none asked unclaimed stopped :=
    ⟨none.of_events (by simp), by simpa using asked,
      State.quiet_takeUrgent (by simpa using unclaimed) (by simpa using stopped) n rest a.again⟩

theorem State.takeFresh_operation {n : Nat} {rest : List Nat} (head : s.carousel.fresh = n :: rest) (u : List Nat)
    (a : Attempt) : s.Operation ((s.upset u).takeFresh n rest a.again) where
  night := by simp
  tidy tidy := (tidy.upset u).takeFresh (by simpa using head) a
  closing none asked unclaimed stopped :=
    ⟨none.of_events (by simp), by simpa using asked,
      State.quiet_takeFresh (by simpa using unclaimed) (by simpa using stopped) n rest a.again⟩

theorem State.readRefresh_operation (s : State) (u : List Nat) (n reads : Nat) :
    s.Operation ((s.upset u).readRefresh n reads) where
  night := by simp
  tidy tidy := (tidy.upset u).readRefresh n reads
  closing none asked unclaimed stopped :=
    ⟨none.of_events (by simp), by simpa using asked,
      State.quiet_readRefresh (by simpa using unclaimed) (by simpa using stopped) n reads⟩

/-! ## Completion updates (R96 to R98) -/

theorem State.dwindles_endUpdate (none : s.NoEvents) (asked : s.sweep.wipePending = true)
    (unclaimed : s.port.Unclaimed) (rest : List Tag) : (s.endUpdate rest).Dwindles :=
  ⟨none.of_events (by simp), by simpa using asked, State.quiet_endUpdate unclaimed rest⟩

theorem State.NoEvents.updateRevoke (none : s.NoEvents) (n d e : Nat) : (s.updateRevoke n d e).NoEvents := by
  unfold State.updateRevoke
  dsimp only
  repeat' split
  · rw [State.NoEvents.reportRevoked (none.of_events (by simp))]
    exact none.of_events (by simp)
  · exact none.of_events (by simp)
  · exact none.of_events (by simp)

theorem State.endUpdate_operation (s : State) (rest : List Tag) : s.Operation (s.endUpdate rest) where
  night := by simp
  tidy tidy := tidy.endUpdate rest
  closing none asked unclaimed _ := State.dwindles_endUpdate none asked unclaimed rest

theorem State.updateGrant_operation (s : State) (u : List Nat) (n d e : Nat) (rest : List Tag) :
    s.Operation (((s.upset u).updateGrant n d e).endUpdate rest) where
  night := by simp
  tidy tidy := ((tidy.upset u).updateGrant n d e).endUpdate rest
  closing none asked unclaimed _ :=
    State.dwindles_endUpdate (none.of_events (by simp)) (by simpa using asked) (by simpa using unclaimed) rest

theorem State.updateRevoke_operation (s : State) (u : List Nat) (n d e : Nat) (rest : List Tag) :
    s.Operation (((s.upset u).updateRevoke n d e).endUpdate rest) where
  night := by simp
  tidy tidy := ((tidy.upset u).updateRevoke n d e).endUpdate rest
  closing none asked unclaimed _ :=
    State.dwindles_endUpdate (State.NoEvents.updateRevoke (none.of_events (by simp)) n d e) (by simpa using asked)
      (by simpa using unclaimed) rest

/-! ## Visits (R60, R72) -/

theorem State.NoEvents.visitAct (none : s.NoEvents) (n : Nat) (g : Grant) (kind : SweepKind) :
    (s.visitAct n g kind).NoEvents := by
  have written (x : Slot) : (s.putSlot n x).NoEvents := none
  have revoked (why : RevokeReason) : (s.revokeVisited n g why).NoEvents := by
    unfold State.revokeVisited
    split
    · rw [State.revokeUnsent, (written _).reportRevoked]
      exact none
    · exact none.of_events (by simp)
  cases kind with
  | cancel => exact revoked .cancelled
  | blackout => exact revoked .blackout
  | retire =>
    rw [State.visitAct, State.retireVisited, (written _).report]
    exact none

theorem State.dwindles_endVisit (none : s.NoEvents) (asked : s.sweep.wipePending = true) (unclaimed : s.port.Unclaimed)
    (w : Sweep) (o : Bool) : (s.endVisit w o).Dwindles := by
  rw [State.endVisit, if_pos asked]
  exact ⟨none.of_events (by simp), by simpa using asked, State.quiet_releasePort_of_port unclaimed (by simp)⟩

theorem State.dwindles_visit (none : s.NoEvents) (asked : s.sweep.wipePending = true) (unclaimed : s.port.Unclaimed)
    (w : Sweep) (kind : SweepKind) (ranges : List Range) (o : Bool) : (s.visit w kind ranges o).Dwindles := by
  have checked : (s.check w.cursor).NoEvents := none.of_events (by simp)
  unfold State.visit
  dsimp only
  split
  · exact State.dwindles_endVisit (checked.visitAct _ _ _) (by simpa using asked) (by simpa using unclaimed) _ _
  · exact State.dwindles_endVisit checked (by simpa using asked) (by simpa using unclaimed) _ _

theorem State.visit_operation {w : Sweep} (inside : w.cursor < s.slotCount) (u : List Nat) (kind : SweepKind)
    (ranges : List Range) (o : Bool) : s.Operation ((s.upset u).visit w kind ranges o) where
  night := by simp
  tidy tidy := (tidy.upset u).visit (by rwa [s.slotCount_upset]) kind ranges o
  closing none asked unclaimed _ :=
    State.dwindles_visit (none.of_events (by simp)) (by simpa using asked) (by simpa using unclaimed) w kind ranges o

/-! ## All effects -/

theorem StorePort.Quiet.eq_of_idle {p : StorePort} (quiet : p.Quiet) (idle : p.state = .idle) :
    p = { state := .idle, composition := false, completions := [], request := false, sweep := false } := by
  have completions := quiet.completions (by rw [idle]; nofun)
  obtain ⟨⟨composition, request, sweep⟩, -⟩ := quiet
  exact congr (congr (congr (congr (congrArg StorePort.mk idle) composition) completions) request) sweep

theorem State.hardwareReset_slotsOk (s : State) (pins : Straps) : (s.hardwareReset pins .loading).slotsOk where
  settled started := absurd rfl started
  wiping := nofun
  starting _ _ := ⟨rfl, rfl, rfl, rfl⟩
  noEvents _ _ mem := List.eq_of_mem_replicate mem
  closing := nofun
  asked := nofun

theorem Effect.slotsOk (effect : Effect s t) (law : s.slotsOk) (ok : s.storeOk) (nightOk : s.nightOk) : t.slotsOk := by
  have nightOk' := effect.nightOk nightOk
  have still {t : State} (night : t.night = s.night) (events : t.events = s.events) (store : t.store = s.store)
      (port : t.port = s.port) (sweep : t.sweep = s.sweep) (queues : s.SameQueues t) : t.slotsOk :=
    (State.Still.of_fields night events store port sweep queues).slotsOk law ok
  have managed {t : State} (open_ : s.night = .setup ∨ s.night = .opened) (nightOk' : t.nightOk)
      (night : t.night = s.night) (store : t.store = s.store) (queues : s.SameQueues t) : t.slotsOk :=
    ((law.tidy_of_managed ok nightOk open_).same (.of_queues store queues)).slotsOk nightOk' (by rwa [night])
  have operated {t : State} (port : s.port.state.Busy) (nightOk' : t.nightOk) (operation : s.Operation t) : t.slotsOk :=
    operation.slotsOk law ok nightOk nightOk' port
  have running (ticks : s.clock.source ≠ .stopped) : s.night = .opened := not_not.1 (mt nightOk.clock.2 ticks)
  cases effect with
  | @answered a h r body served =>
    have nightOk' := served.nightOk nightOk
    have ok' := ok.of_store served.store
    exact State.Still.slotsOk (s := a) (.of_fields rfl rfl rfl rfl rfl ⟨rfl, rfl⟩)
      (served.slotsOk law ok nightOk nightOk') ok'
  | hardwareReset pins => exact s.hardwareReset_slotsOk pins
  | hardwareResetWipes pins =>
    rw [State.startWipe_hardwareReset]
    exact (State.unitReset_afterReset _ _).slotsOk (State.unitReset_wiping _ _)
  | unitReset pins => exact (State.unitReset_afterReset _ _).slotsOk (State.unitReset_wiping _ _)
  | loaded ack loading =>
    have starting := nightOk.loading loading
    obtain ⟨-, -, -, port⟩ := law.starting starting fun c wiping => by
      obtain ⟨-, -, settled⟩ := nightOk.wiping c wiping
      exact settled loading
    exact State.NoEvents.startWipe (s := s.loaded ack) (law.noEvents (.inl starting)) port
  | requestClaimed open_ => exact managed open_ nightOk' (by simp) (by simp) (.of_carousel (by simp))
  | grantAdded u h f port inside =>
    exact operated (.of_eq port nofun nofun) nightOk' (State.addGrant_operation (Nat.zero_lt_of_lt inside) u h f)
  | grantRevoked u h d e port inside =>
    exact operated (.of_eq port nofun nofun) nightOk' (State.revokeGrant_operation (Nat.zero_lt_of_lt inside) u h d e)
  | grantQueried u h d e port => exact operated (.of_eq port nofun nofun) nightOk' (s.queryGrant_operation u h d e)
  | pulsed m order =>
    by_cases ticks : s.clock.source = .stopped
    · have none : (s.reach m).pulseAt m order = s.reach m := by
        rw [State.pulseAt, show (s.reach m).clock.source = .stopped from ticks]
      rw [none]
      exact still rfl rfl rfl rfl rfl ⟨rfl, rfl⟩
    · exact managed (.inr (running ticks)) nightOk' (by simp) (by simp) (.of_carousel (by simp))
  | flywheelEntered m order reference =>
    exact managed (.inr (running (by rw [reference]; nofun))) nightOk' (by simp) (by simp) (.of_carousel (by simp))
  | flywheelSupplied m order flywheel =>
    exact managed (.inr (running (by rw [flywheel]; nofun))) nightOk' (by simp) (by simp) (.of_carousel (by simp))
  | cycleTicked m =>
    unfold State.cycleTick
    dsimp only
    split <;> exact still rfl rfl rfl rfl rfl ⟨rfl, rfl⟩
  | attempted may =>
    have opened : s.night = .opened := by
      simp only [State.mayCompose, Bool.and_eq_true, beq_iff_eq] at may
      obtain ⟨⟨⟨⟨⟨-, opened⟩, -⟩, -⟩, -⟩, -⟩ := may
      exact opened
    exact managed (.inr opened) nightOk' (by simp) (by simp) (State.tryOwed_sameQueues _ s)
  | queueFoundEmpty a port => exact operated (.of_eq port nofun nofun) nightOk' (s.goOn_operation a)
  | urgentTaken u n rest a port head =>
    exact operated (.of_eq port nofun nofun) nightOk' (State.takeUrgent_operation head u a)
  | freshTaken u n rest a port head =>
    exact operated (.of_eq port nofun nofun) nightOk' (State.takeFresh_operation head u a)
  | refreshed u reads port => exact operated (.of_eq port nofun nofun) nightOk' (s.readRefresh_operation u _ reads)
  | packetStarted l =>
    exact still (by simp) (by simp) (by simp) (by simp) (by simp)
      ((State.startPacket_sameQueues _).after (.of_carousel rfl))
  | sendEnded p =>
    by_cases opened : s.night = .opened
    · exact managed (.inr opened) nightOk' (by simp) (by simp) ((State.complete_sameQueues _ p.tag).after ⟨rfl, rfl⟩)
    · have dropped : s.endSend.complete p.tag = s.endSend := by
        unfold State.complete
        split
        · rfl
        · exact if_neg opened
      rw [dropped]
      exact still rfl rfl rfl rfl rfl ⟨rfl, rfl⟩
  | updateVoided t rest port => exact operated (.of_eq port nofun nofun) nightOk' (s.endUpdate_operation rest)
  | grantUpdated u t rest n d e port =>
    exact operated (.of_eq port nofun nofun) nightOk' (s.updateGrant_operation u n d e rest)
  | revokeUpdated u t rest n d e port =>
    exact operated (.of_eq port nofun nofun) nightOk' (s.updateRevoke_operation u n d e rest)
  | visited u w kind ranges o port engine inside =>
    exact operated (.of_eq port nofun nofun) nightOk' (State.visit_operation inside u kind ranges o)
  | wipeStarted asked free =>
    exact State.NoEvents.startWipe (law.noEvents (.inr (nightOk.asked asked))) ((law.asked_quiet asked).eq_of_idle free)
  | wipeWritten c port engine inside => exact law.wipeSlot ok nightOk engine inside nightOk'
  | recordAccepted r rest head =>
    obtain open_ | shut := s.managed_or_shut
    · exact managed open_ nightOk' (by simp) (by simp) (.of_carousel (by simp))
    · have none : s.NoEvents := law.noEvents shut
      have unchecked := State.NoEvents.recheck
        (s := (s.setScramblerQueue rest).count fun c => c.countAccepted r.payload) none r.event
      rw [State.acceptRecord, unchecked]
      exact still rfl rfl rfl rfl rfl ⟨rfl, rfl⟩
  | _ => exact still (by simp) (by simp) (by simp) (by simp) (by simp) (.of_carousel (by simp))

end Sys2Proof.Machine

open Sys2Proof Sys2Proof.Machine

/-- Settles O48. In SETUP and OPEN the law is `State.Tidy`, which every operation on slots and queues keeps; outside
them no event exists, so that an operation still going on ends without a claim, and the WIPE has the port to itself. -/
theorem stepsKeepQueueMarks : Obligations.StepsKeepQueueMarks := by
  unfold Obligations.StepsKeepQueueMarks
  intro s t ok nightOk law run
  have still {a b : State} (same : a.Still b) (alike : a.nightOk → b.nightOk) :
      a.storeOk ∧ a.nightOk ∧ a.slotsOk → b.storeOk ∧ b.nightOk ∧ b.slotsOk :=
    fun ⟨ok, nightOk, law⟩ => ⟨a.storeOk_congr b same.memory ok, alike nightOk, same.slotsOk law ok⟩
  obtain ⟨-, -, kept⟩ := step_keeps (Law := fun s => s.storeOk ∧ s.nightOk ∧ s.slotsOk)
    (still (.of_fields rfl rfl rfl rfl rfl ⟨rfl, rfl⟩) (·.of_alike rfl .rfl (.of_same rfl rfl) rfl (.of_sweep rfl)))
    (fun _ => still (.of_fields rfl rfl rfl rfl rfl ⟨rfl, rfl⟩)
      (·.of_alike rfl .rfl (.of_same rfl rfl) rfl (.of_sweep rfl)))
    (fun effect ⟨ok, nightOk, law⟩ => ⟨effect.storeOk ok, effect.nightOk nightOk, effect.slotsOk law ok nightOk⟩)
    ⟨ok, nightOk, law⟩ run
  exact kept
end
